-- ==== Sys2Proof/Word.lean ====
section
/-! DEFINITION. The plain data of the sampler block (spec/00_scope.md R11, spec/30_encoding.md R52):
bytes, 32-bit times, levels, command words, byte strings, samples, and the two pin settings. -/

namespace Sys2Proof

/-- A `u8` (R11). -/
abbrev Byte := BitVec 8

/-- A `u32` (R11): a time in microseconds, all arithmetic modulo 2³². -/
abbrev U32 := BitVec 32

/-- A level, `u1` (R11): `true` is 1, `false` is 0. -/
abbrev Level := Bool

/-- The 16-bit command word `CMD` (R61). -/
abbrev CmdWord := BitVec 16

/-- A byte string: a path, a hex string, or the contents of a file (R27, R53, R56).
Text is held as its UTF-8 bytes (log entry 10). -/
abbrev Text := List Byte

/-- A sample record (R52): a time and the pin level from this time on. -/
structure Sample where
  t : U32
  v : Level
deriving DecidableEq, Repr, Inhabited

/-- `PIN[p].dir` (R20). -/
inductive PinDir where
  | unconfigured
  | input
  | output
deriving DecidableEq, Repr, Inhabited

/-- The operand `dir` of CONFIGURE_PIN: one of the two directions a pin can be given (R70). -/
inductive Direction where
  | input
  | output
deriving DecidableEq, Repr, Inhabited

/-- The direction a pin has after CONFIGURE_PIN (R70). -/
def Direction.pinDir : Direction → PinDir
  | .input => .input
  | .output => .output

/-- `PIN[p].pull` (R20). -/
inductive Pull where
  | off
  | up
  | down
deriving DecidableEq, Repr, Inhabited

end Sys2Proof
end

