-- ==== Sys2Proof/Config.lean ====
section
/-! DEFINITION. What the spec fixes as numbers (spec/00_scope.md R10), what it leaves to the
implementation (R9), and the free values: the answers of the agents CLK and ENV and of the platform
(`draw`, R12), which no rule fixes. A free value is an `opaque` constant without a body, so no proof
can see what it is. -/

namespace Sys2Proof.Config

/-! ### The constants of R10, as printed -/

/-- High part of one sub-carrier cycle, µs. -/
def hTime : Nat := 15
/-- Low part of one sub-carrier cycle, µs. -/
def lTime : Nat := 11
/-- Time of the first rising edge of an encoded trace. -/
def initOffset : U32 := 700
/-- Requested length of the header mark. -/
def initMark : U32 := 3344
/-- Length of the header space. -/
def initSpace : U32 := 1688
/-- Requested length of every bit mark and of the stop mark. -/
def bitMark : U32 := 428
/-- Space after the mark of a 1 bit. -/
def spaceOne : U32 := 1268
/-- Space after the mark of a 0 bit. -/
def spaceZero : U32 := 430
/-- Low after the stop mark of each half-frame. -/
def repeatGap : U32 := 11354
/-- `FLAT_MAX`: a low strictly shorter than this inside a mark is flattened. -/
def flatMax : Nat := 200
/-- `BIT_THRESH`: a space strictly longer than this is a 1 bit. -/
def bitThresh : Nat := 800
/-- `END_THRESH`: a space strictly longer than this ends the frame. -/
def endThresh : Nat := 2000
/-- `CLK_WRAP`: the period of the microsecond clock. -/
def clkWrap : Nat := 4294967296
/-- `REPEATS`: the number of half-frames the encoder emits. -/
def repeats : Nat := 2
/-- Microseconds in one second of the wrap guard's margin (R76). -/
def microsPerSecond : Nat := 1000000

/-! ### The parameters of R9 -/

/-- `BUF_CAP`: the capacity of `RAW`, in samples (R9, D7). -/
def bufCap : Nat := 1000000
/-- `TR_CAP`: the capacity of `TR` and `OBS` (R9, D8). -/
def trCap : Nat := bufCap

/-- `PIN_COUNT` (R9, D10): OPEN. -/
opaque pinCount : Nat
/-- How far `PAY_CAP` lies above its least value 19 (R9, D9): OPEN. -/
opaque payCapSpare : Nat
/-- `PAY_CAP` (R9, D9): OPEN, at least 19. -/
def payCap : Nat := 19 + payCapSpare
/-- The free number behind `WRAP_MARGIN_S`. -/
opaque wrapMarginFree : Nat
/-- `WRAP_MARGIN_S` (R9, D12): OPEN, at most 4294. -/
def wrapMargin : Nat := wrapMarginFree % 4295
/-- `LATE_LIMIT` (R9, D13): OPEN, may be absent. -/
opaque lateLimit : Option Int

/-! ### The free values -/

/-- `CLK_RESET` (R18, U8): the clock at the `k`-th reset, any u32. -/
opaque clkReset : Nat → U32
/-- `PIN[p].pull` at the `k`-th reset (R34, U14), any value. -/
opaque pinPullAtReset : Nat → Nat → Pull
/-- `PIN[p].out` at the `k`-th reset (R34, U14), any level. -/
opaque pinOutAtReset : Nat → Nat → Level
/-- The microseconds `CLK` advances before the `k`-th clock read (R18, U7), any number, 0 included. -/
opaque clkAdvance : Nat → Nat
/-- The level ENV answers to the `k`-th pin read (R71, U9). -/
opaque pinLevel : Nat → Level
/-- Whether the `k`-th pin configuration succeeds (R70, U10). -/
opaque pinConfigOk : Nat → Bool
/-- Whether the `k`-th file write succeeds (R79, U11). -/
opaque fileWritable : Nat → Bool
/-- Whether the `k`-th file that exists can be read (R81, U12). -/
opaque fileReadable : Nat → Bool
/-- `START_DELAY` of the `k`-th TRANSMIT (R91, U13). -/
opaque startDelay : Nat → U32

end Sys2Proof.Config
end

