-- ==== Sys2Proof/Syntax.lean ====
section
/-! DEFINITION. The 22 operations (spec/30_encoding.md R62) and the seven flag bits of the command
word (R61). Operands that are not flags stand in the operand registers of the state (R61, last
paragraph), so a constructor carries the flag field of its command word and nothing else. -/

namespace Sys2Proof

/-- The flag field of the command word, bits 5 to 11 (R61). -/
structure CmdFlags where
  /-- bit 5 -/
  trigger : Bool
  /-- bit 6 -/
  stats : Bool
  /-- bit 7 -/
  decode : Bool
  /-- bit 8 -/
  verbose : Bool
  /-- bit 9 -/
  flank : Bool
  /-- bit 10 -/
  reencode : Bool
  /-- bit 11 -/
  pinValid : Bool
deriving DecidableEq, Repr

/-- The operation names of R62, the values of the register `OP` (R29). -/
inductive Op where
  | configurePin
  | readPin
  | writePin
  | nowMicros
  | raisePriority
  | restorePriority
  | avoidClockWrap
  | compact
  | traceWrite
  | traceRead
  | sample
  | transmit
  | flatten
  | extractBits
  | checksum
  | decode
  | hexParse
  | burst
  | encode
  | modeSample
  | modeSendHex
  | modeReplayFile
deriving DecidableEq, Repr

/-- A command: one constructor per row of the operation table (R62), with the flag field of its word.
A flag the operation does not use is ignored by its meaning (R64). -/
inductive Instr where
  | configurePin (f : CmdFlags)
  | readPin (f : CmdFlags)
  | writePin (f : CmdFlags)
  | nowMicros (f : CmdFlags)
  | raisePriority (f : CmdFlags)
  | restorePriority (f : CmdFlags)
  | avoidClockWrap (f : CmdFlags)
  | compact (f : CmdFlags)
  | traceWrite (f : CmdFlags)
  | traceRead (f : CmdFlags)
  | sample (f : CmdFlags)
  | transmit (f : CmdFlags)
  | flatten (f : CmdFlags)
  | extractBits (f : CmdFlags)
  | checksum (f : CmdFlags)
  | decode (f : CmdFlags)
  | hexParse (f : CmdFlags)
  | burst (f : CmdFlags)
  | encode (f : CmdFlags)
  | modeSample (f : CmdFlags)
  | modeSendHex (f : CmdFlags)
  | modeReplayFile (f : CmdFlags)
deriving DecidableEq, Repr

/-- The operation a command selects. -/
def Instr.op : Instr → Op
  | .configurePin _ => .configurePin
  | .readPin _ => .readPin
  | .writePin _ => .writePin
  | .nowMicros _ => .nowMicros
  | .raisePriority _ => .raisePriority
  | .restorePriority _ => .restorePriority
  | .avoidClockWrap _ => .avoidClockWrap
  | .compact _ => .compact
  | .traceWrite _ => .traceWrite
  | .traceRead _ => .traceRead
  | .sample _ => .sample
  | .transmit _ => .transmit
  | .flatten _ => .flatten
  | .extractBits _ => .extractBits
  | .checksum _ => .checksum
  | .decode _ => .decode
  | .hexParse _ => .hexParse
  | .burst _ => .burst
  | .encode _ => .encode
  | .modeSample _ => .modeSample
  | .modeSendHex _ => .modeSendHex
  | .modeReplayFile _ => .modeReplayFile

/-- The flag field of a command. -/
def Instr.flags : Instr → CmdFlags
  | .configurePin f => f
  | .readPin f => f
  | .writePin f => f
  | .nowMicros f => f
  | .raisePriority f => f
  | .restorePriority f => f
  | .avoidClockWrap f => f
  | .compact f => f
  | .traceWrite f => f
  | .traceRead f => f
  | .sample f => f
  | .transmit f => f
  | .flatten f => f
  | .extractBits f => f
  | .checksum f => f
  | .decode f => f
  | .hexParse f => f
  | .burst f => f
  | .encode f => f
  | .modeSample f => f
  | .modeSendHex f => f
  | .modeReplayFile f => f

/-- The three mode operations (R110). -/
def Op.isMode : Op → Bool
  | .modeSample => true
  | .modeSendHex => true
  | .modeReplayFile => true
  | _ => false

end Sys2Proof
end

