-- ==== Sys2Proof/WellFormed.lean ====
section
/-! DEFINITION. Which command words are well-formed (spec/30_encoding.md R61, R64): the reserved bits
15:12 are 0, and the field `op` selects an operation. Every `Instr` is well-formed: each of its seven
flag bits may hold either value. -/

namespace Sys2Proof

/-- The field `op`, bits 4:0 (R61). -/
def CmdWord.opField (w : CmdWord) : Nat := w.toNat % 32

/-- Check 1 (R64): the reserved field, bits 15:12, is 0. -/
def CmdWord.reservedClear (w : CmdWord) : Bool := w.toNat / 4096 == 0

/-- Check 2 (R64): `op` is one of the 22 codes `0x01` to `0x16`. -/
def CmdWord.opAssigned (w : CmdWord) : Bool :=
  decide (1 ≤ CmdWord.opField w) && decide (CmdWord.opField w ≤ 22)

/-- A well-formed command word (R64). -/
def CmdWord.wellFormed (w : CmdWord) : Bool :=
  CmdWord.reservedClear w && CmdWord.opAssigned w

end Sys2Proof
end

