-- ==== Sys2Proof/Decode.lean ====
section
/-! DEFINITION. The command decoder and the encoder (spec/30_encoding.md R61, R62, R64), written from
the two tables of R61 and R62. -/

namespace Sys2Proof

/-- What the decoder answers: a command, or the reason it rejects the word (R64). -/
inductive Decoded where
  | ok (i : Instr)
  /-- `op` is `0x00` or `0x17 .. 0x1F`. -/
  | reservedOp (op : Nat)
  /-- Some bit of 15:12 is set. -/
  | reservedBits
deriving DecidableEq, Repr

/-- The operation of each code, the table of R62. -/
def opOfCode : Nat → Option Op
  | 1 => some .configurePin
  | 2 => some .readPin
  | 3 => some .writePin
  | 4 => some .nowMicros
  | 5 => some .raisePriority
  | 6 => some .restorePriority
  | 7 => some .avoidClockWrap
  | 8 => some .compact
  | 9 => some .traceWrite
  | 10 => some .traceRead
  | 11 => some .sample
  | 12 => some .transmit
  | 13 => some .flatten
  | 14 => some .extractBits
  | 15 => some .checksum
  | 16 => some .decode
  | 17 => some .hexParse
  | 18 => some .burst
  | 19 => some .encode
  | 20 => some .modeSample
  | 21 => some .modeSendHex
  | 22 => some .modeReplayFile
  | _ => none

/-- The command of an operation and a flag field. -/
def Op.withFlags (f : CmdFlags) : Op → Instr
  | .configurePin => .configurePin f
  | .readPin => .readPin f
  | .writePin => .writePin f
  | .nowMicros => .nowMicros f
  | .raisePriority => .raisePriority f
  | .restorePriority => .restorePriority f
  | .avoidClockWrap => .avoidClockWrap f
  | .compact => .compact f
  | .traceWrite => .traceWrite f
  | .traceRead => .traceRead f
  | .sample => .sample f
  | .transmit => .transmit f
  | .flatten => .flatten f
  | .extractBits => .extractBits f
  | .checksum => .checksum f
  | .decode => .decode f
  | .hexParse => .hexParse f
  | .burst => .burst f
  | .encode => .encode f
  | .modeSample => .modeSample f
  | .modeSendHex => .modeSendHex f
  | .modeReplayFile => .modeReplayFile f

/-- Bit `k` of a command word. -/
def cmdBit (w : CmdWord) (k : Nat) : Bool := w.toNat / 2 ^ k % 2 == 1

/-- The flag field, bits 5 to 11 (R61). -/
def flagsOf (w : CmdWord) : CmdFlags where
  trigger := cmdBit w 5
  stats := cmdBit w 6
  decode := cmdBit w 7
  verbose := cmdBit w 8
  flank := cmdBit w 9
  reencode := cmdBit w 10
  pinValid := cmdBit w 11

/-- The command decoder (R61, R64): the reserved bits first, then the operation code. -/
def decode (w : CmdWord) : Decoded :=
  if CmdWord.reservedClear w then
    match opOfCode (CmdWord.opField w) with
    | some op => .ok (op.withFlags (flagsOf w))
    | none => .reservedOp (CmdWord.opField w)
  else .reservedBits

/-- The code of an operation (R62). -/
def Op.code : Op → Nat
  | .configurePin => 0x01
  | .readPin => 0x02
  | .writePin => 0x03
  | .nowMicros => 0x04
  | .raisePriority => 0x05
  | .restorePriority => 0x06
  | .avoidClockWrap => 0x07
  | .compact => 0x08
  | .traceWrite => 0x09
  | .traceRead => 0x0A
  | .sample => 0x0B
  | .transmit => 0x0C
  | .flatten => 0x0D
  | .extractBits => 0x0E
  | .checksum => 0x0F
  | .decode => 0x10
  | .hexParse => 0x11
  | .burst => 0x12
  | .encode => 0x13
  | .modeSample => 0x14
  | .modeSendHex => 0x15
  | .modeReplayFile => 0x16

/-- The value of a flag field within its word: bits 5 to 11 (R61). -/
def CmdFlags.bits (f : CmdFlags) : Nat :=
  32 * f.trigger.toNat + 64 * f.stats.toNat + 128 * f.decode.toNat + 256 * f.verbose.toNat
    + 512 * f.flank.toNat + 1024 * f.reencode.toNat + 2048 * f.pinValid.toNat

/-- The command word of a command (R61, R62); bits 15:12 are 0. -/
def encode (i : Instr) : CmdWord := BitVec.ofNat 16 (i.op.code + i.flags.bits)

/-- The instruction the decoder reads from a table word: the low `nbits` bits of `w`, every bit above
them 0. The command word is one 16-bit word, held as a number (R41, R66), so no byte order arises. -/
def decodeTableWord (nbits w : Nat) : Option Instr :=
  match decode (BitVec.ofNat 16 (w % 2 ^ nbits)) with
  | .ok i => some i
  | _ => none

end Sys2Proof
end

