-- ==== Sys2Proof/Machine/State.lean ====
section
/-! DEFINITION. The state of the sampler block (spec/10_state.md R13 to R34) as plain data, the reasons
a step can stop, and the state after reset. -/

namespace Sys2Proof.Machine

/-! ### Reasons a step stops -/

/-- The five memory spaces addressed by a record index, and the file store (R35). -/
inductive Space where
  | raw
  | tr
  | obs
  | pay
  | pay2
  | files
deriving DecidableEq, Repr

/-- A stop that is none of the block's own errors. The block's own errors (R116 to R121) are taken as
the spec describes: `raise` answers a next state (R127). -/
inductive Fault where
  /-- A write of a record at an index at or beyond the capacity of its space, raised by the store to
  `RAW` of SAMPLE and by the store to `OBS` of TRANSMIT. R38: "A model must not give an out-of-range
  access a value." Safe: no reachable state meets it (every append is checked first). -/
  | recordOutOfRange (space : Space) (index : Nat)
deriving DecidableEq, Repr

/-- A use the spec gives no meaning ("A model refuses them: it gives no next state and no value", R137). -/
inductive Refusal where
  /-- An instruction without a meaning in this model. No arm of `exec` answers it. Safe. -/
  | notModelled (mnemonic : String)
  /-- READ_PIN of a pin that is not valid or not an input (R71, R137, U1); raised by the pin read. Safe. -/
  | readOfNonInput (pin : Nat)
  /-- WRITE_PIN to a pin that is not valid or not an output (R72, R137, U2); raised by the pin write. Safe. -/
  | writeToNonOutput (pin : Nat)
  /-- A read of a record that nothing has written (R39, R137, U3); raised by SAMPLE's trim and TRANSMIT's
  statistics, in states no run reaches. Safe. -/
  | unwrittenRecord (space : Space)
  /-- BURST with the time cursor `TCUR` unwritten since reset: an undefined use the spec refuses by name
  ("a read [...] of a working register, that nothing has written since reset [...] a model must not return
  zero", U3; R39, R137, D21; log entry 23). Raised by BURST that HOST starts before any ENCODE. Safe. -/
  | unwrittenCursor
  /-- A command word written while `BUSY = 1` (R137, U5), or while an earlier one has not been taken (log
  entry 29); raised by the host port, and by a step that finds it. Safe. -/
  | startedWhileBusy
  /-- HOST writes a configuration register, an operand register or a memory while `BUSY = 1` (U5), or while
  a command word has not been taken (log entry 29); raised by the host port. Safe. -/
  | hostWriteWhileBusy
  /-- A second mode operation in one invocation (R110, U6); raised when a step finds it. Safe. -/
  | secondMode
  /-- A command, or a move of HOST other than a reset, after a fatal error: "the next thing that can happen
  is a reset" (R129); raised when a step finds the command, and by the host port. Safe. -/
  | invocationOver
deriving DecidableEq, Repr

/-! ### Configuration registers (R14, R15) -/

/-- `CFG.mode` (R14): the three legal values, and any other name HOST may have written, which "is a
configuration error" (R110, U18). -/
inductive Mode where
  | sample
  | sendHex
  | replayFile
  | other (name : Text)
deriving DecidableEq, Repr

/-- The configuration registers `CFG.*` (R14, R15); absent fields are `none`. -/
structure Cfg where
  pin : Option Nat
  mode : Option Mode
  triggerBeforeSample : Bool
  outputTracePath : Option Text
  inputTracePath : Option Text
  hexPayload : Option Text
  enableSendStatistics : Bool
  decodeAfterSample : Bool
  verbose : Bool
  capacity : Nat
  includeFlank : Bool
  reencode : Bool
deriving DecidableEq, Repr

/-- The implementation parameters of R9 that the spec leaves OPEN: "the model takes it as an argument".
No operation and no HOST move writes them. -/
structure Params where
  pinCount : Nat
  payCap : Nat
  wrapMargin : Nat
  lateLimit : Option Int
deriving DecidableEq, Repr

/-- The operand registers (R61): the operands of a host-started operation that are not flags. -/
structure Operands where
  pin : Nat
  dir : Direction
  pull : Pull
  level : Level
  margin : Nat
  path : Text
  capacity : Nat
  hex : Text
  mark : U32
  space : U32
deriving DecidableEq, Repr

/-! ### Pins, priority, memories -/

/-- The registers of one pin (R20). -/
structure Pin where
  dir : PinDir
  pull : Pull
  out : Level
deriving DecidableEq, Repr

/-- `PRIO` (R21). -/
inductive Prio where
  | normal
  | realtime
deriving DecidableEq, Repr

/-- The six spaces of R35. A space addressed by a record index is the list of its readable records, index
0 first: the count register `TR.n`, `PAY.n` or `PAY2.n` is the list's length, and a record at or beyond it
is not readable (R39, U3; log entry 8). `files` holds (path, contents), paths strictly rising. -/
structure Memory where
  raw : List Sample
  tr : List Sample
  obs : List U32
  pay : List Byte
  pay2 : List Byte
  files : List (Text × Text)
deriving DecidableEq, Repr

/-! ### Working registers (R28) -/

/-- The working registers of R28, one per row of its table, and `tcurWritten`: whether `TCUR` has been
written since reset, the one register an operation (BURST) reads without writing it first (R39). -/
structure Work where
  n : Nat
  k : Nat
  l0 : Level
  l : Nat
  t0 : U32
  c0 : U32
  startEpoch : U32
  i : Nat
  now : U32
  dt : U32
  cur : Byte
  nbits : Nat
  lastIndex : Nat
  sum : Byte
  tcur : U32
  tcurWritten : Bool
  bstart : U32
  statMax : Int
  statSum : Int
  depth : Nat
deriving DecidableEq, Repr

/-! ### The sequencer (R29) -/

/-- One entry of the sequencer's stack (R29): an operation, or a step of one, that is still to run, with
its operands. `samplePoll` is SAMPLE at the poll of step 2, `transmitWait` TRANSMIT at the wait of step 5
for edge `I`; `reportDecoded` and `complete` are the last two steps of the modes. -/
inductive Task where
  | avoidClockWrap (margin : Nat)
  | sample (pin capacity : Nat) (trigger verbose : Bool)
  | samplePoll (pin : Nat)
  | transmit (pin : Nat) (stats : Bool)
  | transmitWait (pin : Nat) (stats : Bool)
  | traceWrite (path : Text) (flank : Bool)
  | traceRead (path : Text)
  | hexParse (hex : Text)
  | encode
  | decode
  | reportDecoded (mode : Op)
  | complete (mode : Op)
deriving DecidableEq, Repr

/-- `BUSY`, `OP`, `PHASE` and the stack (R29). Between two machine steps `BUSY` is set only while an
operation polls (R76, R83, R94); `todo` is then the polling step and, after it, what its callers have
still to do. `op` is `none` when no operation runs. -/
structure Sequencer where
  busy : Bool
  op : Option Op
  phase : Nat
  todo : List Task
deriving DecidableEq, Repr

/-! ### Status, errors, logs -/

/-- The four sticky anomaly flags `ST.*` (R30). -/
structure Status where
  checksumMismatch : Bool
  countMismatch : Bool
  contentMismatch : Bool
  timingAnomaly : Bool
deriving DecidableEq, Repr

/-- The option a configuration error names (R117). For a reserved command word the spec names none;
`command` is the model's own name for it (DESIGN CHOICE, log entry 30). -/
inductive ConfigOption where
  | mode
  | pin
  | capacity
  | hexPayload
  | inputTracePath
  | margin
  | command
deriving DecidableEq, Repr

/-- A fatal error with its information (R117 to R121). -/
inductive FatalError where
  | configError (what : ConfigOption)
  | ioError (path : Text) (line : Option Nat)
  | pinConfigError (pin : Nat)
  | wrapReject
  | capacityExceeded (space : Space)
deriving DecidableEq, Repr

/-- The kinds of `ERR.kind` (R31, R124). -/
inductive ErrKind where
  | none
  | configError
  | ioError
  | pinConfigError
  | wrapReject
  | capacityExceeded
deriving DecidableEq, Repr

/-- The error registers `ERR.*` (R31), with the option name of R117 and the space of R121. -/
structure ErrRegs where
  kind : ErrKind
  option : Option ConfigOption
  path : Option Text
  line : Option Nat
  pin : Option Nat
  space : Option Space
deriving DecidableEq, Repr

/-- An anomaly with its information (R122, R123); the values of a checksum report are absent for an
empty payload (R100). -/
inductive Anomaly where
  | checksumMismatch (depth : Nat) (values : Option (Byte × Byte))
  | countMismatch (depth first second : Nat)
  | contentMismatch (depth index : Nat) (first second : Byte)
  | timingAnomaly (index : Nat) (scheduled : U32) (difference : Int)
deriving DecidableEq, Repr

/-- An entry of `REPORT` (R32): an anomaly (R128), the statistics of TRANSMIT (R95), the hex text of a
decoded payload (R112), or a fatal error (R127). -/
inductive Report where
  | anomaly (a : Anomaly)
  | stats (max sum : Int) (count : Nat)
  | decoded (hex : Text)
  | fatal (e : FatalError)
deriving DecidableEq, Repr

/-- An entry of `WLOG` (R32): pin, level, and the last clock value SEQ read before the write; absent if it
has read none (R72). -/
structure PinWrite where
  pin : Nat
  level : Level
  clock : Option U32
deriving DecidableEq, Repr

/-! ### The agents CLK and ENV and the platform (R6, R12) -/

/-- The coming answers of an agent, the model's own: a finite script (any script; a claim about every
state holds for every one), and after it the free values of `Config`, indexed by how many answers have
been given. -/
structure Tape (α : Type) where
  script : List α
  used : Nat
deriving DecidableEq, Repr

/-- One tape per source of free inputs (U7, U9 to U13). -/
structure Env where
  clock : Tape Nat
  level : Tape Level
  pinOk : Tape Bool
  writable : Tape Bool
  readable : Tape Bool
  delay : Tape U32
deriving DecidableEq, Repr

/-- What an operation that HOST started returned to it (R71, R73), the model's own. -/
inductive Returned where
  | level (l : Level)
  | micros (c : U32)
deriving DecidableEq, Repr

/-! ### The state -/

/-- The state (R13), and the model's own fields `cmd`, `env`, `ret`, `modeStarted`, `epoch`. -/
structure State where
  /-- The parameters of R9. -/
  par : Params
  /-- `CFG.*` (R14, R15). -/
  cfg : Cfg
  /-- The operand registers (R61). -/
  opnd : Operands
  /-- `CMD`: the command word HOST has written and the block has not yet taken (R61). The operation counts
  as started from that write on (log entry 29). -/
  cmd : Option CmdWord
  /-- `CLK` (R18): its value when SEQ last read it. -/
  clk : U32
  /-- The last value of `CLK` that SEQ read, if it has read one (R72). -/
  lastClk : Option U32
  /-- `PIN[p].*` (R20) of the pins configured since reset, indices strictly rising. -/
  pins : List (Nat × Pin)
  /-- `PRIO` (R21). -/
  prio : Prio
  /-- The six spaces (R35). -/
  mem : Memory
  /-- The working registers (R28). -/
  wr : Work
  /-- `BUSY`, `OP`, `PHASE` and the stack (R29). -/
  seq : Sequencer
  /-- `ST.*` (R30). -/
  st : Status
  /-- `ERR.*` (R31). -/
  err : ErrRegs
  /-- `EXIT` (R31): there is no exit status until a mode or a fatal error writes one. -/
  exit : Option Nat
  /-- `WLOG` (R32), oldest first. -/
  wlog : List PinWrite
  /-- `REPORT` (R32), oldest first. -/
  report : List Report
  /-- The coming answers of CLK, ENV and the platform. -/
  env : Env
  /-- The value the last host-started READ_PIN or NOW_MICROS returned. -/
  ret : Option Returned
  /-- Whether a mode operation has been started since reset (R110, U6). -/
  modeStarted : Bool
  /-- How many resets came before this invocation; it selects the free values of reset (U8, U14). -/
  epoch : Nat
deriving DecidableEq, Repr

/-! ### Reset (R34, R138) -/

/-- `CFG.*` at reset (R14, R15, R34). -/
def Cfg.reset : Cfg where
  pin := none
  mode := none
  triggerBeforeSample := false
  outputTracePath := none
  inputTracePath := none
  hexPayload := none
  enableSendStatistics := false
  decodeAfterSample := false
  verbose := false
  capacity := Config.bufCap
  includeFlank := false
  reencode := false

/-- The parameters of R9, each at its constant of `Config`. -/
def Params.reset : Params where
  pinCount := Config.pinCount
  payCap := Config.payCap
  wrapMargin := Config.wrapMargin
  lateLimit := Config.lateLimit

/-- The operand registers at reset: no value in the spec; DESIGN CHOICE, log entry 5. -/
def Operands.reset : Operands where
  pin := 0
  dir := .input
  pull := .off
  level := false
  margin := 0
  path := []
  capacity := 0
  hex := []
  mark := 0
  space := 0

/-- The memories at reset: every record unwritten, counts 0 (R34); no file (log entry 9). -/
def Memory.reset : Memory where
  raw := []
  tr := []
  obs := []
  pay := []
  pay2 := []
  files := []

/-- The working registers at reset: unwritten in the spec (R34); the values here are never read before
they are written (R28; log entry 4). -/
def Work.reset : Work where
  n := 0
  k := 0
  l0 := false
  l := 0
  t0 := 0
  c0 := 0
  startEpoch := 0
  i := 0
  now := 0
  dt := 0
  cur := 0
  nbits := 0
  lastIndex := 0
  sum := 0
  tcur := 0
  tcurWritten := false
  bstart := 0
  statMax := 0
  statSum := 0
  depth := 0

/-- The sequencer with no operation running: `BUSY = 0`, the stack empty (R29, R34). -/
def Sequencer.idle : Sequencer where
  busy := false
  op := none
  phase := 0
  todo := []

/-- `ST.*` at reset (R30). -/
def Status.reset : Status where
  checksumMismatch := false
  countMismatch := false
  contentMismatch := false
  timingAnomaly := false

/-- `ERR.*` with `ERR.kind = none` (R31). -/
def ErrRegs.clear : ErrRegs where
  kind := .none
  option := none
  path := none
  line := none
  pin := none
  space := none

/-- A tape with no script and no answer given. -/
def Tape.reset {α : Type} : Tape α where
  script := []
  used := 0

/-- The agents at reset: nothing scripted, so every answer is a free value. -/
def Env.reset : Env where
  clock := .reset
  level := .reset
  pinOk := .reset
  writable := .reset
  readable := .reset
  delay := .reset

/-- The state after the first reset (R34). -/
def State.reset : State where
  par := .reset
  cfg := .reset
  opnd := .reset
  cmd := none
  clk := Config.clkReset 0
  lastClk := none
  pins := []
  prio := .normal
  mem := .reset
  wr := .reset
  seq := .idle
  st := .reset
  err := .clear
  exit := none
  wlog := []
  report := []
  env := .reset
  ret := none
  modeStarted := false
  epoch := 0

end Sys2Proof.Machine
end

