-- ==== Sys2Proof/Machine/Flags.lean ====
section
/-! DEFINITION. The status flags (spec/10_state.md R30) and the report of an anomaly
(spec/60_exceptions.md R122, R123, R128). -/

namespace Sys2Proof.Machine

/-- The codes R124 gives the anomalies (D54). An anomaly is not fatal: its code never becomes `EXIT`. -/
def Anomaly.code : Anomaly → Nat
  | .checksumMismatch _ _ => 16
  | .countMismatch _ _ _ => 17
  | .contentMismatch _ _ _ _ => 18
  | .timingAnomaly _ _ _ => 19

/-- Set the flag of an anomaly; a flag is set and never cleared (R30, R128). -/
def Status.raised (a : Anomaly) (st : Status) : Status :=
  match a with
  | .checksumMismatch _ _ => { st with checksumMismatch := true }
  | .countMismatch _ _ _ => { st with countMismatch := true }
  | .contentMismatch _ _ _ _ => { st with contentMismatch := true }
  | .timingAnomaly _ _ _ => { st with timingAnomaly := true }

/-- Append an entry to `REPORT` (R32). -/
def State.appendReport (r : Report) (s : State) : State := { s with report := s.report ++ [r] }

/-- `report A(info)` (R128): the flag of the anomaly is set, one entry is appended, execution goes on. -/
def State.reportAnomaly (a : Anomaly) (s : State) : State :=
  { s with st := s.st.raised a, report := s.report ++ [.anomaly a] }

end Sys2Proof.Machine
end

