-- ==== Sys2Proof/Machine/Ops.lean ====
section
/-! DEFINITION. The shared operations: the result of an operation, `raise` (spec/60_exceptions.md R127), the
clock and pin accesses (spec/40_facade.md R70 to R76), the record spaces and the file store
(spec/20_memory.md R36 to R38), and the sequencer's stack (spec/10_state.md R29). -/

namespace Sys2Proof.Machine

/-! ### The result of an operation -/

/-- How an operation ends: done with a value, by a fatal error already raised (R127), at a poll that has
not been answered yet (R76, R83, R94), or without a next state. -/
inductive Act (α : Type) where
  | done (a : α) (s : State)
  | fatal (s : State)
  | wait (t : Task) (s : State)
  | fault (f : Fault)
  | refused (r : Refusal)

/-- Go on with `k` where an operation is done; every other end ends the caller too (R127: "the current
operation and every operation that called it stop"). -/
def Act.andThen {α β : Type} (x : Act α) (k : α → State → Act β) : Act β :=
  match x with
  | .done a s => k a s
  | .fatal s => .fatal s
  | .wait t s => .wait t s
  | .fault f => .fault f
  | .refused r => .refused r

/-! ### Fatal errors (R124, R127) -/

/-- The kind of a fatal error. -/
def FatalError.kind : FatalError → ErrKind
  | .configError _ => .configError
  | .ioError _ _ => .ioError
  | .pinConfigError _ => .pinConfigError
  | .wrapReject => .wrapReject
  | .capacityExceeded _ => .capacityExceeded

/-- The codes of R124. -/
def ErrKind.code : ErrKind → Nat
  | .none => 0
  | .configError => 1
  | .ioError => 2
  | .pinConfigError => 3
  | .wrapReject => 4
  | .capacityExceeded => 5

/-- The error registers a fatal error writes (R117 to R121). -/
def FatalError.registers : FatalError → ErrRegs
  | .configError what => { ErrRegs.clear with kind := .configError, option := some what }
  | .ioError path line => { ErrRegs.clear with kind := .ioError, path := some path, line := line }
  | .pinConfigError pin => { ErrRegs.clear with kind := .pinConfigError, pin := some pin }
  | .wrapReject => { ErrRegs.clear with kind := .wrapReject }
  | .capacityExceeded space => { ErrRegs.clear with kind := .capacityExceeded, space := some space }

/-- `raise E(info)` (R127), the block's one way of taking an error: the error registers are written,
`Fatal(E, info)` is appended to `REPORT`, the stack is emptied and `BUSY <- 0`, and `EXIT <- code(E)`.
There is no handler and no return (R129). -/
def raise (e : FatalError) (s : State) : State :=
  { s with
    err := e.registers
    report := s.report ++ [.fatal e]
    seq := .idle
    exit := some e.kind.code }

/-! ### The end of an operation (R29) -/

/-- The host-started operation has ended: `BUSY <- 0`, the stack empty. -/
def State.finish (s : State) : State := { s with seq := .idle }

/-- Where a stack entry stands: its operation, and the number of its step in the operation's rule. -/
def Task.place : Task → Op × Nat
  | .avoidClockWrap _ => (.avoidClockWrap, 1)
  | .sample _ _ _ _ => (.sample, 0)
  | .samplePoll _ => (.sample, 2)
  | .transmit _ _ => (.transmit, 1)
  | .transmitWait _ _ => (.transmit, 5)
  | .traceWrite _ _ => (.traceWrite, 1)
  | .traceRead _ => (.traceRead, 1)
  | .hexParse _ => (.hexParse, 1)
  | .encode => (.encode, 1)
  | .decode => (.decode, 0)
  | .reportDecoded mode => (mode, if mode = .modeSample then 4 else 3)
  | .complete mode => (mode, if mode = .modeReplayFile then 4 else 5)

/-- The operation polls: `BUSY = 1`, `OP` and `PHASE` name the polling step, and the stack holds it and
what its callers have still to do (R29). -/
def State.suspend (t : Task) (rest : List Task) (s : State) : State :=
  { s with seq := { busy := true, op := some t.place.1, phase := t.place.2, todo := t :: rest } }

/-- The outcome of a host-started operation that no other operation called. -/
def Act.outcome (x : Act Unit) : Host.Outcome State Fault Refusal :=
  match x with
  | .done _ s => .next s.finish
  | .fatal s => .next s
  | .wait t s => .next (s.suspend t [])
  | .fault f => .fault f
  | .refused r => .refused r

/-! ### The agents' answers -/

/-- The next answer of a tape: the script's, and after its end the free value of that number. -/
def Tape.next {α : Type} (free : Nat → α) (t : Tape α) : α × Tape α :=
  match t.script with
  | a :: rest => (a, { script := rest, used := t.used + 1 })
  | [] => (free t.used, { script := [], used := t.used + 1 })

/-- `NOW_MICROS` as other operations call it (R73): `CLK` has advanced by some amount, 0 included, since
the last read (R18, R19, U7); the value read is the new `clk`. -/
def State.readClock (s : State) : State :=
  let d := s.env.clock.next Config.clkAdvance
  let c := s.clk + BitVec.ofNat 32 d.1
  { s with clk := c, lastClk := some c, env := { s.env with clock := d.2 } }

/-- Whether the platform lets a pin be configured (R70, U10). -/
def State.drawPinOk (s : State) : Bool × State :=
  let d := s.env.pinOk.next Config.pinConfigOk
  (d.1, { s with env := { s.env with pinOk := d.2 } })

/-- Whether a file can be written (R79, U11). -/
def State.drawWritable (s : State) : Bool × State :=
  let d := s.env.writable.next Config.fileWritable
  (d.1, { s with env := { s.env with writable := d.2 } })

/-- Whether a file that exists can be read (R81, U12). -/
def State.drawReadable (s : State) : Bool × State :=
  let d := s.env.readable.next Config.fileReadable
  (d.1, { s with env := { s.env with readable := d.2 } })

/-- `START_DELAY` (R91, U13). -/
def State.drawDelay (s : State) : U32 × State :=
  let d := s.env.delay.next Config.startDelay
  (d.1, { s with env := { s.env with delay := d.2 } })

/-! ### Pins (R20, R69 to R72) -/

/-- The registers of a pin not configured since reset: `dir = unconfigured`, `pull` and `out` any value
(R34, U14). -/
def Pin.atReset (epoch p : Nat) : Pin where
  dir := .unconfigured
  pull := Config.pinPullAtReset epoch p
  out := Config.pinOutAtReset epoch p

/-- Look a pin up in the list of configured pins. -/
def pinLookup (p : Nat) : List (Nat × Pin) → Option Pin
  | [] => none
  | (q, r) :: rest => if p = q then some r else pinLookup p rest

/-- Write a pin's registers, indices strictly rising. -/
def pinStore (p : Nat) (r : Pin) : List (Nat × Pin) → List (Nat × Pin)
  | [] => [(p, r)]
  | (q, x) :: rest =>
    if p < q then (p, r) :: (q, x) :: rest
    else if p = q then (p, r) :: rest
    else (q, x) :: pinStore p r rest

/-- `PIN[p]` (R20). -/
def State.pinAt (s : State) (p : Nat) : Pin := (pinLookup p s.pins).getD (Pin.atReset s.epoch p)

/-- `PIN[p] <- r`. -/
def State.setPin (p : Nat) (r : Pin) (s : State) : State := { s with pins := pinStore p r s.pins }

/-- A pin operand is valid (R69). -/
def State.validPin (s : State) (p : Nat) : Bool := decide (p < s.par.pinCount)

/-- CONFIGURE_PIN(pin, dir, pull) (R70). -/
def configurePin (pin : Nat) (dir : Direction) (pull : Pull) (s : State) : Act Unit :=
  if s.validPin pin then
    match s.drawPinOk with
    | (true, s1) => .done () (s1.setPin pin { s1.pinAt pin with dir := dir.pinDir, pull := pull })
    | (false, s1) => .fatal (raise (.pinConfigError pin) s1)
  else .fatal (raise (.pinConfigError pin) s)

/-- READ_PIN(pin) (R71): ENV's level at this instant; no register of the block changes. -/
def readPin (pin : Nat) (s : State) : Act Level :=
  if s.validPin pin ∧ (s.pinAt pin).dir = .input then
    let d := s.env.level.next Config.pinLevel
    .done d.1 { s with env := { s.env with level := d.2 } }
  else .refused (.readOfNonInput pin)

/-- WRITE_PIN(pin, level) (R72): the output latch and one entry of `WLOG`. -/
def writePin (pin : Nat) (level : Level) (s : State) : Act Unit :=
  if s.validPin pin ∧ (s.pinAt pin).dir = .output then
    .done () { s.setPin pin { s.pinAt pin with out := level } with
      wlog := s.wlog ++ [{ pin := pin, level := level, clock := s.lastClk }] }
  else .refused (.writeToNonOutput pin)

/-- `PRIO <- p` (R74, R75). -/
def State.setPrio (p : Prio) (s : State) : State := { s with prio := p }

/-! ### Busy-waiting on the clock (R76, R94) -/

/-- `NOW <- clock()`. -/
def State.readNow (s : State) : State :=
  { s.readClock with wr := { s.wr with now := s.readClock.clk } }

/-- Read the clock until a value is due, at most `fuel` times; whether one was. -/
def pollClock (due : U32 → Bool) : Nat → State → Bool × State
  | 0, s => (false, s)
  | fuel + 1, s => if due s.readNow.wr.now then (true, s.readNow) else pollClock due fuel s.readNow

/-- How often one machine step reads the clock in a busy-wait: every scripted advance and one free one.
A wait not over by then goes on in the next machine step (log entry 2). -/
def State.clockPolls (s : State) : Nat := s.env.clock.script.length + 1

/-! ### The record spaces (R36 to R38) -/

/-- Write the working registers. -/
def State.setWork (w : Work) (s : State) : State := { s with wr := w }

/-- `TR <- xs`, `TR.n <- |xs|`. -/
def State.setTr (xs : List Sample) (s : State) : State := { s with mem := { s.mem with tr := xs } }

/-- `PAY <- bs`, `PAY.n <- |bs|`. -/
def State.setPay (bs : List Byte) (s : State) : State := { s with mem := { s.mem with pay := bs } }

/-- `PAY2 <- bs`, `PAY2.n <- |bs|`. -/
def State.setPay2 (bs : List Byte) (s : State) : State := { s with mem := { s.mem with pay2 := bs } }

/-- `RAW[K] <- x; K <- K + 1`, `K` being the number of records stored so far. -/
def storeRaw (x : Sample) (s : State) : Act Unit :=
  if s.mem.raw.length < Config.bufCap then
    .done () { s with
      mem := { s.mem with raw := s.mem.raw ++ [x] }
      wr := { s.wr with k := s.mem.raw.length + 1 } }
  else .fault (.recordOutOfRange .raw s.mem.raw.length)

/-- `OBS[I] <- c`, `I` being the number of records stored so far. -/
def storeObs (c : U32) (s : State) : Act Unit :=
  if s.mem.obs.length < Config.trCap then
    .done () { s with mem := { s.mem with obs := s.mem.obs ++ [c] } }
  else .fault (.recordOutOfRange .obs s.mem.obs.length)

/-! ### The file store (R27) -/

/-- The order of paths: byte by byte, a shorter path before its continuations. -/
def textLt : Text → Text → Bool
  | [], [] => false
  | [], _ :: _ => true
  | _ :: _, [] => false
  | a :: as, b :: bs => if a.toNat < b.toNat then true else if a = b then textLt as bs else false

/-- `FILES[path]`, if there is such an entry. -/
def fileLookup (path : Text) : List (Text × Text) → Option Text
  | [] => none
  | (q, c) :: rest => if path = q then some c else fileLookup path rest

/-- `FILES[path] <- contents`: add or replace one entry (R27), paths strictly rising. -/
def fileStore (path contents : Text) : List (Text × Text) → List (Text × Text)
  | [] => [(path, contents)]
  | (q, c) :: rest =>
    if textLt path q then (path, contents) :: (q, c) :: rest
    else if path = q then (path, contents) :: rest
    else (q, c) :: fileStore path contents rest

/-- `FILES[path] <- contents` in the state. -/
def State.putFile (path contents : Text) (s : State) : State :=
  { s with mem := { s.mem with files := fileStore path contents s.mem.files } }

/-- A file store without the entry of `path`. -/
def fileErase (path : Text) (files : List (Text × Text)) : List (Text × Text) :=
  files.filter fun e => e.1 ≠ path

/-- HOST, who owns the file store (R6), removes the file at `path`; no operation does. -/
def State.removeFile (path : Text) (s : State) : State :=
  { s with mem := { s.mem with files := fileErase path s.mem.files } }

/-! ### The canonical form of the memories -/

/-- The paths of the file store rise strictly. -/
def filesRising : List (Text × Text) → Bool
  | [] => true
  | [_] => true
  | (p, _) :: (q, c) :: rest => textLt p q && filesRising ((q, c) :: rest)

/-- The canonical form: every space within its capacity (R35), file paths strictly rising. A record space
needs nothing else: the list of its records is determined by its contents. -/
def Memory.wf (payCap : Nat) (m : Memory) : Bool :=
  decide (m.raw.length ≤ Config.bufCap) && decide (m.tr.length ≤ Config.trCap)
    && decide (m.obs.length ≤ Config.trCap) && decide (m.pay.length ≤ payCap)
    && decide (m.pay2.length ≤ payCap) && filesRising m.files

end Sys2Proof.Machine
end

