-- ==== Sys2Proof/Machine/Operands.lean ====
section
/-! DEFINITION. Where an operation's operands come from (spec/30_encoding.md R61): the operand registers,
the flag bits of the command word, and, for the modes, the configuration registers, whose flag fields
HOST writes with the command word. -/

namespace Sys2Proof.Machine

/-- The flag fields of `CFG.*` that a command word carries for MODE_SAMPLE (opcode table: trigger, decode,
verbose, flank, pin_valid). -/
def Cfg.forModeSample (f : CmdFlags) (c : Cfg) : Cfg :=
  { c with
    triggerBeforeSample := f.trigger
    decodeAfterSample := f.decode
    verbose := f.verbose
    includeFlank := f.flank
    pin := if f.pinValid then c.pin else none }

/-- The same for MODE_SEND_HEX (stats, flank, pin_valid). -/
def Cfg.forModeSendHex (f : CmdFlags) (c : Cfg) : Cfg :=
  { c with
    enableSendStatistics := f.stats
    includeFlank := f.flank
    pin := if f.pinValid then c.pin else none }

/-- The same for MODE_REPLAY_FILE (stats, decode, flank, reencode, pin_valid). -/
def Cfg.forModeReplayFile (f : CmdFlags) (c : Cfg) : Cfg :=
  { c with
    enableSendStatistics := f.stats
    decodeAfterSample := f.decode
    includeFlank := f.flank
    reencode := f.reencode
    pin := if f.pinValid then c.pin else none }

/-- What HOST's write of a command word leaves in `CFG.*` (R61: bits 5 to 11 are the flag fields of
`CFG.*`; log entry 3). A flag the operation does not use is ignored (R64), and so is a word that is not
well-formed. -/
def Cfg.withCommand (w : CmdWord) (c : Cfg) : Cfg :=
  match decode w with
  | .ok (.modeSample f) => c.forModeSample f
  | .ok (.modeSendHex f) => c.forModeSendHex f
  | .ok (.modeReplayFile f) => c.forModeReplayFile f
  | _ => c

/-- HOST writes `CMD` (R61, R110). A second write before a step has taken the word is refused by the host
port, as one while `BUSY = 1` is (U5; log entry 29), so no word is ever replaced. -/
def State.writeCommand (w : CmdWord) (s : State) : State :=
  { s with cmd := some w, cfg := s.cfg.withCommand w }

/-- The flag bits with which a configuration is written as a command word; HOST's word agrees with its
configuration when it carries these (R61; the programs of spec/95_test_vectors.md section 3). -/
def Cfg.flags (c : Cfg) : CmdFlags where
  trigger := c.triggerBeforeSample
  stats := c.enableSendStatistics
  decode := c.decodeAfterSample
  verbose := c.verbose
  flank := c.includeFlank
  reencode := c.reencode
  pinValid := c.pin.isSome

end Sys2Proof.Machine
end

