-- ==== Sys2Proof/Machine/Encoder.lean ====
section
/-! DEFINITION. The heat-pump encoder (spec/45_encoder.md): HEX_PARSE, BURST, ENCODE. -/

namespace Sys2Proof.Machine

/-! ### HEX_PARSE (R105) -/

/-- The value of a hex digit, upper or lower case. -/
def hexValue (b : Byte) : Option Nat :=
  if 48 ≤ b.toNat ∧ b.toNat ≤ 57 then some (b.toNat - 48)
  else if 65 ≤ b.toNat ∧ b.toNat ≤ 70 then some (b.toNat - 55)
  else if 97 ≤ b.toNat ∧ b.toNat ≤ 102 then some (b.toNat - 87)
  else none

/-- The payload a hex string spells, the first digit of a pair the high nibble (R56, U25); none for an odd
length or a character that is not a hex digit. -/
def parseHex : Text → Option (List Byte)
  | [] => some []
  | [_] => none
  | a :: b :: rest =>
    match hexValue a, hexValue b, parseHex rest with
    | some x, some y, some ps => some (BitVec.ofNat 8 (16 * x + y) :: ps)
    | _, _, _ => none

/-- HEX_PARSE(s) (R105). -/
def hexParse (hex : Text) (s : State) : Act Unit :=
  match parseHex hex with
  | none => .fatal (raise (.configError .hexPayload) s)
  | some ps =>
    if s.par.payCap < ps.length then .fatal (raise (.capacityExceeded .pay) s)
    else .done () (s.setPay ps)

/-- HEX_PARSE, started by HOST: the hex string from its operand register. -/
def execHexParse (s : State) : Host.Outcome State Fault Refusal := (hexParse s.opnd.hex s).outcome

/-- The byte of an uppercase hex digit (R56, D26). -/
def hexDigit (n : Nat) : Byte := if n < 10 then BitVec.ofNat 8 (48 + n) else BitVec.ofNat 8 (55 + n)

/-- A payload as uppercase hex text (R56, R112). -/
def hexText : List Byte → Text
  | [] => []
  | b :: bs => hexDigit (b.toNat / 16) :: hexDigit (b.toNat % 16) :: hexText bs

/-! ### BURST (R106) -/

/-- The loop of R106 from cursor `t`, `start` being `BSTART`: the samples of the whole cycles that still
fit within `m`, and the cursor after them. R148: the termination test is kept as it is. -/
def burstCycles (start : U32) (m : Nat) : Nat → U32 → List Sample × U32
  | 0, t => ([], t)
  | fuel + 1, t =>
    if (t - start).toNat + Config.hTime + Config.lTime ≤ m then
      let t1 := t + BitVec.ofNat 32 Config.hTime
      let r := burstCycles start m fuel (t1 + BitVec.ofNat 32 Config.lTime)
      ({ t := t, v := true } :: { t := t1, v := false } :: r.1, r.2)
    else ([], t)

/-- The samples of a burst of requested length `m` from cursor `t`, and the cursor after the last cycle;
at most `m / 26` cycles fit. -/
def burstSamples (t m : U32) : List Sample × U32 :=
  burstCycles t m.toNat (m.toNat / (Config.hTime + Config.lTime) + 1) t

/-- `TCUR <- t`. -/
def State.setCursor (t : U32) (s : State) : State :=
  s.setWork { s.wr with tcur := t, tcurWritten := true }

/-- BURST(M, S) (R106): append the cycles at `TCUR`, then move the cursor by `S`. An append with
`TR.n = TR_CAP` raises `CapacityExceeded(TR)`, the cursor standing at the sample that did not fit. -/
def burst (m sp : U32) (s : State) : Act Unit :=
  let r := burstSamples s.wr.tcur m
  let s1 := s.setWork { s.wr with bstart := s.wr.tcur }
  let room := Config.trCap - s.mem.tr.length
  match r.1.drop room with
  | [] => .done () ((s1.setTr (s.mem.tr ++ r.1)).setCursor (r.2 + sp))
  | x :: _ =>
    .fatal (raise (.capacityExceeded .tr) ((s1.setTr (s.mem.tr ++ r.1.take room)).setCursor x.t))

/-- BURST, started by HOST: M and S from the operand registers. R106 begins by reading `TCUR`, which is
unwritten at reset (R34); "a read of a record or register that nothing has written": "A model refuses them: it
gives no next state and no value" (R137; U3 and D21: "refuse", "a model must not return zero"; R39; log entry
23). -/
def execBurst (s : State) : Host.Outcome State Fault Refusal :=
  if s.wr.tcurWritten then (burst s.opnd.mark s.opnd.space s).outcome
  else .refused .unwrittenCursor

/-! ### ENCODE (R107) -/

/-- The 8 bits of a byte, bit 0 first (R40). -/
def bitsOfByte (b : Byte) : List Bool :=
  [b.getLsbD 0, b.getLsbD 1, b.getLsbD 2, b.getLsbD 3,
   b.getLsbD 4, b.getLsbD 5, b.getLsbD 6, b.getLsbD 7]

/-- The bursts (mark, space) of one half-frame, in order (R59, R107). -/
def halfFrameBursts (ps : List Byte) : List (U32 × U32) :=
  (Config.initMark, Config.initSpace)
    :: (ps.flatMap bitsOfByte).map
        (fun bit => (Config.bitMark, if bit then Config.spaceOne else Config.spaceZero))
    ++ [(Config.bitMark, Config.repeatGap)]

/-- The bursts of a transmission: `REPEATS` identical half-frames. -/
def frameBursts (ps : List Byte) : List (U32 × U32) :=
  (List.replicate Config.repeats (halfFrameBursts ps)).flatten

/-- Call BURST for each symbol in turn. -/
def bursts : List (U32 × U32) → State → Act Unit
  | [], s => .done () s
  | (m, sp) :: rest, s => (burst m sp s).andThen fun _ s1 => bursts rest s1

/-- ENCODE() (R107): the bytes of `PAY` as they are (R108), the trace in `TR`. -/
def encodePayload (s : State) : Act Unit :=
  bursts (frameBursts s.mem.pay)
    ((s.setTr [{ t := 0, v := false }]).setCursor Config.initOffset)

/-- ENCODE, started by HOST. -/
def execEncode (s : State) : Host.Outcome State Fault Refusal := (encodePayload s).outcome

end Sys2Proof.Machine
end

