-- ==== Sys2Proof/Machine/Facade.lean ====
section
/-! DEFINITION. The facade operations (spec/40_facade.md): CONFIGURE_PIN, READ_PIN, WRITE_PIN, NOW_MICROS,
RAISE_PRIORITY, RESTORE_PRIORITY, AVOID_CLOCK_WRAP. -/

namespace Sys2Proof.Machine

/-- CONFIGURE_PIN (R70), started by HOST: pin, dir and pull from the operand registers. -/
def execConfigurePin (s : State) : Host.Outcome State Fault Refusal :=
  (configurePin s.opnd.pin s.opnd.dir s.opnd.pull s).outcome

/-- READ_PIN (R71), started by HOST: the level is returned to HOST. -/
def execReadPin (s : State) : Host.Outcome State Fault Refusal :=
  ((readPin s.opnd.pin s).andThen fun l s1 =>
    .done () { s1 with ret := some (.level l) }).outcome

/-- WRITE_PIN (R72), started by HOST. -/
def execWritePin (s : State) : Host.Outcome State Fault Refusal :=
  (writePin s.opnd.pin s.opnd.level s).outcome

/-- NOW_MICROS (R73), started by HOST: the value of `CLK` is returned to HOST; it never fails. -/
def execNowMicros (s : State) : Host.Outcome State Fault Refusal :=
  .next ({ s.readClock with ret := some (.micros s.readClock.clk) } : State).finish

/-- RAISE_PRIORITY (R74). -/
def execRaisePriority (s : State) : Host.Outcome State Fault Refusal :=
  .next (s.setPrio .realtime).finish

/-- RESTORE_PRIORITY (R75): no nesting count. -/
def execRestorePriority (s : State) : Host.Outcome State Fault Refusal :=
  .next (s.setPrio .normal).finish

/-- The test of the wrap guard (R76): the distance `2³² - NOW` is at least `m` seconds. -/
def farFromWrap (m : Nat) (now : U32) : Bool :=
  decide (m * Config.microsPerSecond ≤ Config.clkWrap - now.toNat)

/-- AVOID_CLOCK_WRAP(m) (R76). While no read is far enough from the wrap the operation polls; resumed, it
polls again. -/
def avoidClockWrap (m : Nat) (s : State) : Act Unit :=
  if Config.clkWrap < m * Config.microsPerSecond then .fatal (raise (.configError .margin) s)
  else
    match pollClock (farFromWrap m) s.clockPolls s with
    | (true, s1) => .done () s1
    | (false, s1) => .wait (.avoidClockWrap m) s1

/-- AVOID_CLOCK_WRAP, started by HOST: the margin from its operand register. -/
def execAvoidClockWrap (s : State) : Host.Outcome State Fault Refusal :=
  (avoidClockWrap s.opnd.margin s).outcome

end Sys2Proof.Machine
end

