-- ==== Sys2Proof/Machine/TraceStore.lean ====
section
/-! DEFINITION. The trace store (spec/41_trace_store.md): COMPACT, TRACE_WRITE, TRACE_READ, and the trace
text format (spec/30_encoding.md R53, R54, R55). -/

namespace Sys2Proof.Machine

/-! ### COMPACT (R78) -/

/-- The samples kept after a kept sample of level `last`: those whose level differs from the last kept. -/
def compactFrom (last : Level) : List Sample → List Sample
  | [] => []
  | x :: xs => if x.v = last then compactFrom last xs else x :: compactFrom x.v xs

/-- The kept samples of a trace: of every run of equal levels the first (R78, D31). -/
def compactTrace : List Sample → List Sample
  | [] => []
  | x :: xs => x :: compactFrom x.v xs

/-- COMPACT() (R78): in place; `I` ends at the last index visited. -/
def compact (s : State) : State :=
  (s.setTr (compactTrace s.mem.tr)).setWork
    { s.wr with i := if 2 ≤ s.mem.tr.length then s.mem.tr.length - 1 else s.wr.i }

/-- COMPACT, started by HOST. -/
def execCompact (s : State) : Host.Outcome State Fault Refusal := .next (compact s).finish

/-! ### The text of a trace file (R53) -/

/-- `LF`. -/
def byteLf : Byte := 0x0A
/-- `TAB`. -/
def byteTab : Byte := 0x09
/-- SPACE. -/
def byteSpace : Byte := 0x20
/-- CR. -/
def byteCr : Byte := 0x0D

/-- The header line without its `LF`: `[µs]`, TAB, `Sample` in UTF-8 (R53, D25). -/
def traceHeader : Text :=
  [0x5B, 0xC2, 0xB5, 0x73, 0x5D, 0x09, 0x53, 0x61, 0x6D, 0x70, 0x6C, 0x65]

/-- The digits of `n`, at most `fuel` of them, before `acc`. -/
def decimalFrom : Nat → Nat → Text → Text
  | 0, _, acc => acc
  | fuel + 1, n, acc =>
    if n < 10 then BitVec.ofNat 8 (48 + n) :: acc
    else decimalFrom fuel (n / 10) (BitVec.ofNat 8 (48 + n % 10) :: acc)

/-- `dec(x)`: the decimal numeral of a time without leading zeros (R79); a u32 has at most ten digits. -/
def decimal (x : U32) : Text := decimalFrom 10 x.toNat []

/-- The byte of a level: `0` or `1` (R53). -/
def levelByte (l : Level) : Byte := if l then 0x31 else 0x30

/-- One line `<t>` TAB `<level>` LF (R53). -/
def traceLine (t : U32) (l : Level) : Text := decimal t ++ [byteTab, levelByte l, byteLf]

/-- The lines after a sample of level `last`: one per edge, and with `flank` the old level at the new time
before it (R55, R79). -/
def traceLinesFrom (flank : Bool) (last : Level) : List Sample → Text
  | [] => []
  | x :: xs =>
    (if x.v = last then []
     else (if flank then traceLine x.t last else []) ++ traceLine x.t x.v)
      ++ traceLinesFrom flank x.v xs

/-- The lines of a trace; the first sample counts as an edge and is written once (R79). -/
def traceLines (flank : Bool) : List Sample → Text
  | [] => []
  | x :: xs => traceLine x.t x.v ++ traceLinesFrom flank x.v xs

/-- The file TRACE_WRITE writes (R79). -/
def traceText (flank : Bool) (xs : List Sample) : Text :=
  traceHeader ++ [byteLf] ++ traceLines flank xs

/-- TRACE_WRITE(path, flank) (R79). The writer compacts as it writes and leaves `TR` as it is; `I` ends at
the last index visited. -/
def traceWrite (path : Text) (flank : Bool) (s : State) : Act Unit :=
  let s1 := s.setWork { s.wr with i := if s.mem.tr = [] then s.wr.i else s.mem.tr.length - 1 }
  match s1.drawWritable with
  | (true, s2) => .done () (s2.putFile path (traceText flank s.mem.tr))
  | (false, s2) => .fatal (raise (.ioError path none) s2)

/-- TRACE_WRITE, started by HOST: the path from its operand register, `flank` from bit 9. -/
def execTraceWrite (f : CmdFlags) (s : State) : Host.Outcome State Fault Refusal :=
  (traceWrite s.opnd.path f.flank s).outcome

/-! ### Reading a trace file (R54, R81) -/

/-- The pieces of a text cut at every `LF`. -/
def cutLines : Text → List Text
  | [] => [[]]
  | b :: bs =>
    if b = byteLf then [] :: cutLines bs
    else
      match cutLines bs with
      | [] => [[b]]
      | l :: ls => (b :: l) :: ls

/-- A last piece that is empty is not a line (R81). -/
def dropLastEmpty : List Text → List Text
  | [] => []
  | [l] => if l = [] then [] else [l]
  | l :: m :: ls => l :: dropLastEmpty (m :: ls)

/-- The lines of a file (R81). -/
def fileLines (c : Text) : List Text := dropLastEmpty (cutLines c)

/-- Whitespace: SPACE, TAB, CR (R81, D28). -/
def isBlank (b : Byte) : Bool := b = byteSpace || b = byteTab || b = byteCr

/-- A line with its trailing whitespace removed (R54, R81). -/
def stripLine : Text → Text
  | [] => []
  | b :: bs =>
    match stripLine bs with
    | [] => if isBlank b then [] else [b]
    | r => b :: r

/-- The fields before and after the first TAB, if there is one (R81). -/
def splitTab : Text → Option (Text × Text)
  | [] => none
  | b :: bs =>
    if b = byteTab then some ([], bs)
    else
      match splitTab bs with
      | none => none
      | some (f1, f2) => some (b :: f1, f2)

/-- The value of a decimal digit. -/
def digitValue (b : Byte) : Option Nat :=
  if 48 ≤ b.toNat ∧ b.toNat ≤ 57 then some (b.toNat - 48) else none

/-- The value of a text of digits only, read on from `acc`; leading zeros are accepted. -/
def numberFrom (acc : Nat) : Text → Option Nat
  | [] => some acc
  | b :: bs =>
    match digitValue b with
    | none => none
    | some d => numberFrom (10 * acc + d) bs

/-- The first field: digits only, at least one, value at most 2³² - 1 (R81). -/
def parseTime (f : Text) : Option U32 :=
  if f = [] then none
  else
    match numberFrom 0 f with
    | none => none
    | some n => if n < Config.clkWrap then some (BitVec.ofNat 32 n) else none

/-- The second field: exactly `0` or `1` (R81). -/
def parseLevel (f : Text) : Option Level :=
  if f = [0x30] then some false
  else if f = [0x31] then some true
  else none

/-- One line after the header: a sample, or none where the line is rejected (R54, R81). -/
def parseLine (line : Text) : Option Sample :=
  match splitTab (stripLine line) with
  | none => none
  | some (f1, f2) =>
    match parseTime f1, parseLevel f2 with
    | some t, some v => some { t := t, v := v }
    | _, _ => none

/-- The lines from line number `k` on, appended to `TR` one by one; on one line the malformed test comes
before the capacity test (R81, R126). -/
def readLines (path : Text) : Nat → List Text → State → Act Unit
  | _, [], s => .done () s
  | k, line :: rest, s =>
    match parseLine line with
    | none => .fatal (raise (.ioError path (some k)) s)
    | some x =>
      if s.mem.tr.length < Config.trCap then readLines path (k + 1) rest (s.setTr (s.mem.tr ++ [x]))
      else .fatal (raise (.capacityExceeded .tr) s)

/-- TRACE_READ(path) (R81): a missing file before an unreadable one before a malformed line (R126). -/
def traceRead (path : Text) (s : State) : Act Unit :=
  match fileLookup path s.mem.files with
  | none => .fatal (raise (.ioError path none) s)
  | some contents =>
    match s.drawReadable with
    | (false, s1) => .fatal (raise (.ioError path none) s1)
    | (true, s1) => readLines path 2 (fileLines contents).tail (s1.setTr [])

/-- TRACE_READ, started by HOST: the path from its operand register. -/
def execTraceRead (s : State) : Host.Outcome State Fault Refusal :=
  (traceRead s.opnd.path s).outcome

end Sys2Proof.Machine
end

