-- ==== Sys2Proof/Machine/HeatPumpDecoder.lean ====
section
/-! DEFINITION. The heat-pump decoder (spec/44_decoder.md): FLATTEN, EXTRACT_BITS, CHECKSUM, DECODE. -/

namespace Sys2Proof.Machine

/-! ### FLATTEN (R98) -/

/-- The traversal in place, in index order: `a` is the sample at the left end of the triple. Also the last
`DT` computed, if a triple was found. -/
def flattenFrom (a : Sample) : List Sample → List Sample × Option U32
  | [] => ([a], none)
  | b :: rest =>
    match rest with
    | [] => ([a, b], none)
    | c :: _ =>
      if a.v = true ∧ b.v = false ∧ c.v = true then
        let dt := c.t - b.t
        let b1 : Sample := if dt.toNat < Config.flatMax then { b with v := true } else b
        let r := flattenFrom b1 rest
        (a :: r.1, r.2.or (some dt))
      else
        let r := flattenFrom b rest
        (a :: r.1, r.2)

/-- FLATTEN on a trace. -/
def flattenTrace : List Sample → List Sample × Option U32
  | [] => ([], none)
  | a :: rest => flattenFrom a rest

/-- FLATTEN() (R98); `I` ends at the last index visited, `DT` at the last difference computed. -/
def flatten (s : State) : State :=
  let r := flattenTrace s.mem.tr
  (s.setTr r.1).setWork { s.wr with
    i := if 3 ≤ s.mem.tr.length then s.mem.tr.length - 3 else s.wr.i
    dt := r.2.getD s.wr.dt }

/-- FLATTEN, started by HOST. -/
def execFlatten (s : State) : Host.Outcome State Fault Refusal := .next (flatten s).finish

/-! ### EXTRACT_BITS (R99) -/

/-- The registers of the bit extraction as it runs: `I`, `DT` (if a low has been measured), `CUR`, `NBITS`,
`lastIndex`, the payload `P`, and whether `P` was full when a ninth-bit byte came (R121). -/
structure BitScan where
  i : Nat
  dt : Option U32
  cur : Byte
  nbits : Nat
  lastIndex : Nat
  bytes : List Byte
  full : Bool
deriving DecidableEq, Repr

/-- The start of R99: `I <- 4; lastIndex <- 0; CUR <- 0; NBITS <- 0; P <- empty`. -/
def BitScan.start : BitScan where
  i := 4
  dt := none
  cur := 0
  nbits := 0
  lastIndex := 0
  bytes := []
  full := false

/-- The class of a measured low (R60): 1 where it is longer than 800, both tests strict. -/
def bitOfLow (dt : U32) : Bool := decide (Config.bitThresh < dt.toNat)

/-- Whether a measured low ends the frame (R60). -/
def endsFrame (dt : U32) : Bool := decide (Config.endThresh < dt.toNat)

/-- One low that is a bit, shifted in least significant bit first; the eighth bit ends a byte. -/
def BitScan.shiftIn (cap : Nat) (dt : U32) (k : BitScan) : BitScan :=
  let cur := k.cur ||| (if bitOfLow dt then BitVec.ofNat 8 (2 ^ k.nbits) else 0)
  if k.nbits + 1 = 8 then
    if k.bytes.length = cap then { k with dt := some dt, cur := cur, nbits := 8, full := true }
    else { k with i := k.i + 2, dt := some dt, cur := 0, nbits := 0, bytes := k.bytes ++ [cur] }
  else { k with i := k.i + 2, dt := some dt, cur := cur, nbits := k.nbits + 1 }

/-- The loop of R99 on the samples from index `I` on. -/
def scanBits (cap : Nat) : List Sample → BitScan → BitScan
  | a :: b :: rest, k =>
    let dt := b.t - a.t
    if endsFrame dt then { k with dt := some dt, lastIndex := k.i }
    else
      let k1 := k.shiftIn cap dt
      if k1.full then k1 else scanBits cap rest k1
  | _, k => k

/-- EXTRACT_BITS on the samples `S` (R99), extraction starting at index 4. -/
def extract (cap : Nat) (xs : List Sample) : BitScan := scanBits cap (xs.drop 4) .start

/-- The working registers EXTRACT_BITS leaves. -/
def Work.afterScan (k : BitScan) (w : Work) : Work :=
  { w with i := k.i, dt := k.dt.getD w.dt, cur := k.cur, nbits := k.nbits, lastIndex := k.lastIndex }

/-- EXTRACT_BITS(B) as DECODE calls it (R99, R101): the payload is returned. -/
def extractBits (b : Nat) (s : State) : Act (List Byte) :=
  let k := extract s.par.payCap (s.mem.tr.drop b)
  let s1 := s.setWork (s.wr.afterScan k)
  if k.full then .fatal (raise (.capacityExceeded .pay) s1) else .done k.bytes s1

/-- EXTRACT_BITS, started by HOST (R99): `B = 0`, and `P` is `PAY` itself. -/
def execExtractBits (s : State) : Host.Outcome State Fault Refusal :=
  let k := extract s.par.payCap s.mem.tr
  let s1 := (s.setWork (s.wr.afterScan k)).setPay k.bytes
  (if k.full then Act.fatal (raise (.capacityExceeded .pay) s1) else Act.done () s1).outcome

/-! ### CHECKSUM (R100) -/

/-- The sum of a list of bytes modulo 256. -/
def byteSum (acc : Byte) : List Byte → Byte
  | [] => acc
  | b :: bs => byteSum (acc + b) bs

/-- CHECKSUM(P, depth) (R100): a mismatch, or an empty payload, is reported; the payload is not changed. -/
def checksum (p : List Byte) (depth : Nat) (s : State) : State :=
  match p.getLast? with
  | none => s.reportAnomaly (.checksumMismatch depth none)
  | some last =>
    let sum := byteSum 0 p.dropLast
    let s1 := s.setWork { s.wr with sum := sum }
    if sum = last then s1 else s1.reportAnomaly (.checksumMismatch depth (some (sum, last)))

/-- CHECKSUM, started by HOST: works on `PAY` with depth 0. -/
def execChecksum (s : State) : Host.Outcome State Fault Refusal :=
  .next (checksum s.mem.pay 0 s).finish

/-! ### DECODE (R101, R103) -/

/-- The window of the second half-frame check (R103): `4 n <= 10 lastIndex <= 6 n`, for a sequence that is
not empty (R114; log entry 14). -/
def inWindow (n lastIndex : Nat) : Bool :=
  decide (0 < n) && decide (4 * n ≤ 10 * lastIndex) && decide (10 * lastIndex ≤ 6 * n)

/-- The first index from `k` on, the last byte of `P` left out, at which two payloads differ (R103). -/
def firstDifference : Nat → List Byte → List Byte → Option (Nat × Byte × Byte)
  | k, p :: p2 :: ps, q :: qs =>
    if p = q then firstDifference (k + 1) (p2 :: ps) qs else some (k, p, q)
  | _, _, _ => none

/-- The comparison of step 7 (R101, R103): the counts, and if they agree the bytes but the last. -/
def compareHalves (depth : Nat) (p q : List Byte) (s : State) : State :=
  if q.length = p.length then
    match firstDifference 0 p q with
    | some (k, a, b) => s.reportAnomaly (.contentMismatch depth k a b)
    | none => s
  else s.reportAnomaly (.countMismatch depth p.length q.length)

/-- `DEPTH <- d`. -/
def State.setDepth (d : Nat) (s : State) : State := s.setWork { s.wr with depth := d }

/-- Steps 3 to 6 of R101 at start index `b`: the payload, its checksum verified. -/
def halfFrame (b depth : Nat) (s : State) : Act (List Byte) :=
  (extractBits b (s.setDepth depth)).andThen fun p s1 => .done p (checksum p depth s1)

/-- `decode_at` of R101. Each tail is shorter than its input (R103), so `fuel`, the length of the sequence
at the top, never ends the nesting. -/
def decodeAt : Nat → Nat → Nat → State → Act (List Byte × Option (List Byte))
  | 0, b, depth, s => (halfFrame b depth s).andThen fun p s1 => .done (p, none) s1
  | fuel + 1, b, depth, s =>
    (halfFrame b depth s).andThen fun p s1 =>
      if inWindow (s1.mem.tr.length - b) s1.wr.lastIndex then
        (decodeAt fuel (b + s1.wr.lastIndex) (depth + 1) s1).andThen fun q s2 =>
          .done (p, some q.1) (compareHalves depth p q.1 (s2.setDepth depth))
      else .done (p, none) s1

/-- DECODE() (R101): compact, flatten, compact, decode; `TR` is left flattened and compacted (R102). -/
def decodeTrace (s : State) : Act Unit :=
  let s1 := compact (flatten (compact s))
  (decodeAt s1.mem.tr.length 0 0 s1).andThen fun r s2 =>
    .done () ((s2.setPay r.1).setPay2 (r.2.getD []))

/-- DECODE, started by HOST. -/
def execDecode (s : State) : Host.Outcome State Fault Refusal := (decodeTrace s).outcome

end Sys2Proof.Machine
end

