-- ==== Sys2Proof/Machine/Sampler.lean ====
section
/-! DEFINITION. The sampler (spec/42_sampler.md): SAMPLE, its steps numbered as in R82. -/

namespace Sys2Proof.Machine

/-! ### Step 2, the trigger (R83) -/

/-- Poll the clock, then the pin, at most `fuel` times; the first pair whose level differs from `L0`. -/
def pollPin (pin : Nat) : Nat → State → Act (Option Sample)
  | 0, s => .done none s
  | fuel + 1, s =>
    (readPin pin s.readClock).andThen fun l s1 =>
      if l = s1.wr.l0 then pollPin pin fuel s1
      else .done (some { t := s.readClock.clk, v := l }) s1

/-- How often one machine step polls the pin: every scripted level and one free one (log entry 2). -/
def State.pinPolls (s : State) : Nat := s.env.level.script.length + 1

/-! ### Step 4, the capture loop (R84) -/

/-- Store `count` more pairs, the clock read first and the pin read second. -/
def capture (pin : Nat) : Nat → State → Act Unit
  | 0, s => .done () s
  | count + 1, s =>
    (readPin pin s.readClock).andThen fun l s1 =>
      (storeRaw { t := s.readClock.clk, v := l } s1).andThen fun _ s2 => capture pin count s2

/-! ### Steps 5a to 7 (R85, R86, R87) -/

/-- `L` of the trim (R86): the largest `j` with `RAW[j-1].v` different from the last level, 0 if there is
none; that is, the number of samples before the final run of equal levels. -/
def trimIndex (last : Level) (xs : List Sample) : Nat :=
  (xs.reverse.dropWhile fun x => x.v == last).length

/-- The samples re-based to start at 0 (R87). -/
def rebase (t0 : U32) (xs : List Sample) : List Sample :=
  xs.map fun x => { x with t := x.t - t0 }

/-- Steps 5a, 6 and 7: wrap rejection, trim, re-base. `RAW` must hold the capture; a read of a record that
is not there is refused (R39). -/
def trimAndRebase (s : State) : Act Unit :=
  match s.mem.raw.head?, s.mem.raw.getLast? with
  | some first, some last =>
    if last.t.toNat < first.t.toNat then .fatal (raise .wrapReject s)
    else
      let l := trimIndex last.v s.mem.raw
      let s1 := s.setWork { s.wr with l := l, t0 := first.t }
      if Config.trCap < l + 1 then .fatal (raise (.capacityExceeded .tr) s1)
      else .done () (s1.setTr (rebase first.t (s.mem.raw.take (l + 1))))
  | _, _ => .refused (.unwrittenRecord .raw)

/-- Steps 3 to 7: raise the priority, capture until `K = N`, restore it, trim and re-base. -/
def sampleCapture (pin : Nat) (s : State) : Act Unit :=
  (capture pin (s.wr.n - s.wr.k) (s.setPrio .realtime)).andThen fun _ s1 =>
    trimAndRebase (s1.setPrio .normal)

/-- The trigger poll of step 2 and what follows; resumed while the level has not changed. -/
def samplePoll (pin : Nat) (s : State) : Act Unit :=
  (pollPin pin s.pinPolls s).andThen fun r s1 =>
    match r with
    | none => .wait (.samplePoll pin) s1
    | some x => (storeRaw x s1).andThen fun _ s2 => sampleCapture pin s2

/-- SAMPLE(pin, N, trigger, verbose) (R82). `RAW` is filled afresh; `verbose` has no effect (R17). No step of
R82 writes the working register `N`: that it takes the operand between the test of step 0 and step 1 is the
model's choice (DESIGN CHOICE, log entry 32). -/
def sample (pin capacity : Nat) (trigger _verbose : Bool) (s : State) : Act Unit :=
  if capacity < 1 ∨ Config.bufCap < capacity then .fatal (raise (.configError .capacity) s)
  else
    (configurePin pin .input .off (s.setWork { s.wr with n := capacity })).andThen fun _ s1 =>
      (readPin pin s1).andThen fun l s2 =>
        let s3 : State :=
          { s2 with mem := { s2.mem with raw := [] }, wr := { s2.wr with l0 := l, k := 0 } }
        if trigger then samplePoll pin s3 else sampleCapture pin s3

/-- SAMPLE, started by HOST: pin and N from the operand registers, trigger and verbose from bits 5 and 8. -/
def execSample (f : CmdFlags) (s : State) : Host.Outcome State Fault Refusal :=
  (sample s.opnd.pin s.opnd.capacity f.trigger f.verbose s).outcome

end Sys2Proof.Machine
end

