-- ==== Sys2Proof/Machine/Transmitter.lean ====
section
/-! DEFINITION. The transmitter (spec/43_transmitter.md): TRANSMIT, its steps numbered as in R89. -/

namespace Sys2Proof.Machine

/-! ### Steps 1, 1a and 2 (R91, R92, R93) -/

/-- Whether a scheduled time would lie past the wrap (R92), in unbounded arithmetic. -/
def crossesWrap (c0 delay : U32) (xs : List Sample) : Bool :=
  match xs.getLast? with
  | none => false
  | some x => decide (Config.clkWrap ≤ c0.toNat + delay.toNat + x.t.toNat)

/-- The pre-bias (R93): `start_epoch` added to every time. -/
def preBias (epoch : U32) (xs : List Sample) : List Sample :=
  xs.map fun x => { x with t := x.t + epoch }

/-! ### Step 5, the emission loop (R94) -/

/-- The wait's test: `NOW >= TR[I].t`, unsigned. -/
def isDue (target : U32) (now : U32) : Bool := decide (target.toNat ≤ now.toNat)

/-- Step 5 for one edge whose wait has ended: the fresh clock read of the statistics, then the write. -/
def emitEdge (pin : Nat) (stats : Bool) (level : Level) (s : State) : Act Unit :=
  if stats then
    (storeObs s.readClock.clk s.readClock).andThen fun _ s1 => writePin pin level s1
  else writePin pin level s

/-- Step 5 from index `i` on, for the edges that remain: `I <- i`, busy-wait, emit. While the wait is not
over the operation polls, and goes on from the same edge. -/
def emit (pin : Nat) (stats : Bool) : Nat → List Sample → State → Act Unit
  | _, [], s => .done () s
  | i, x :: xs, s =>
    match pollClock (isDue x.t) s.clockPolls (s.setWork { s.wr with i := i }) with
    | (false, s1) => .wait (.transmitWait pin stats) s1
    | (true, s1) => (emitEdge pin stats x.v s1).andThen fun _ s2 => emit pin stats (i + 1) xs s2

/-! ### Step 7, the statistics (R95) -/

/-- `observed - scheduled`, modulo 2³² and read as signed. -/
def lateness (observed scheduled : U32) : Int := (observed - scheduled).toInt

/-- Whether a difference is reported: negative, or above `LATE_LIMIT` where that is given. -/
def isAnomalous (limit : Option Int) (d : Int) : Bool :=
  decide (d < 0) ||
    match limit with
    | none => false
    | some m => decide (m < d)

/-- The loop of step 7 from index `i` on: `STAT_SUM`, `STAT_MAX`, and the anomalies in index order. -/
def statsLoop : Nat → List (Sample × U32) → State → State
  | _, [], s => s
  | i, (x, o) :: rest, s =>
    let d := lateness o x.t
    let s1 := s.setWork { s.wr with
      i := i
      statSum := s.wr.statSum + d
      statMax := if s.wr.statMax < d then d else s.wr.statMax }
    statsLoop (i + 1) rest
      (if isAnomalous s.par.lateLimit d then s1.reportAnomaly (.timingAnomaly i x.t d) else s1)

/-- Step 7 (R95): the statistics of all edges, and one `Stats` entry. An edge without an observed value
would be a read of an unwritten record (R39). -/
def statistics (s : State) : Act Unit :=
  match s.mem.tr, s.mem.obs with
  | x :: xs, o :: os =>
    if xs.length ≤ os.length then
      let s1 := statsLoop 0 ((x :: xs).zip (o :: os))
        (s.setWork { s.wr with statMax := lateness o x.t, statSum := 0 })
      .done () (s1.appendReport (.stats s1.wr.statMax s1.wr.statSum (xs.length + 1)))
    else .refused (.unwrittenRecord .obs)
  | _ :: _, [] => .refused (.unwrittenRecord .obs)
  | [], _ => .done () s

/-! ### TRANSMIT -/

/-- Steps 5 from index `i` on, 6 and 7. -/
def transmitFrom (pin : Nat) (stats : Bool) (i : Nat) (s : State) : Act Unit :=
  (emit pin stats i (s.mem.tr.drop i) s).andThen fun _ s1 =>
    if stats then statistics (s1.setPrio .normal) else .done () (s1.setPrio .normal)

/-- TRANSMIT at the wait of step 5 for edge `I`, resumed. -/
def transmitWait (pin : Nat) (stats : Bool) (s : State) : Act Unit :=
  transmitFrom pin stats s.wr.i s

/-- TRANSMIT(pin, stats) (R89). `TR` is left as the schedule (R89, R147); with statistics `OBS` is filled
afresh. -/
def transmit (pin : Nat) (stats : Bool) (s : State) : Act Unit :=
  let s1 := s.readClock
  let c0 := s1.clk
  let d := s1.drawDelay
  let epoch := c0 + d.1
  let s2 := d.2.setWork { s.wr with c0 := c0, startEpoch := epoch }
  if crossesWrap c0 d.1 s.mem.tr then .fatal (raise .wrapReject s2)
  else
    let s3 := s2.setTr (preBias epoch s.mem.tr)
    let s4 : State :=
      if s.mem.tr = [] then s3 else s3.setWork { s3.wr with i := s.mem.tr.length - 1 }
    (configurePin pin .output .off s4).andThen fun _ s5 =>
      let s6 : State := if stats then { s5 with mem := { s5.mem with obs := [] } } else s5
      transmitFrom pin stats 0 (s6.setPrio .realtime)

/-- TRANSMIT, started by HOST: the pin from its operand register, `stats` from bit 6. -/
def execTransmit (f : CmdFlags) (s : State) : Host.Outcome State Fault Refusal :=
  (transmit s.opnd.pin f.stats s).outcome

end Sys2Proof.Machine
end

