-- ==== Sys2Proof/Machine/Sequencer.lean ====
section
/-! DEFINITION. The sequencer (spec/10_state.md R29): it runs the stack entry by entry, each to its end,
and stops where one polls. -/

namespace Sys2Proof.Machine

/-- Run one stack entry. -/
def runTask : Task → State → Act Unit
  | .avoidClockWrap m, s => avoidClockWrap m s
  | .sample pin capacity trigger verbose, s => sample pin capacity trigger verbose s
  | .samplePoll pin, s => samplePoll pin s
  | .transmit pin stats, s => transmit pin stats s
  | .transmitWait pin stats, s => transmitWait pin stats s
  | .traceWrite path flank, s => traceWrite path flank s
  | .traceRead path, s => traceRead path s
  | .hexParse hex, s => hexParse hex s
  | .encode, s => encodePayload s
  | .decode, s => decodeTrace s
  | .reportDecoded _, s => .done () (s.appendReport (.decoded (hexText s.mem.pay)))
  | .complete _, s => .done () { s with exit := some 0 }

/-- Run the stack from its top. A fatal error ends everything (R127, which has emptied the stack); a poll
that is not answered leaves the polling step and the rest on the stack. -/
def runTasks : List Task → State → Host.Outcome State Fault Refusal
  | [], s => .next s.finish
  | t :: rest, s =>
    match runTask t s with
    | .done _ s1 => runTasks rest s1
    | .fatal s1 => .next s1
    | .wait t1 s1 => .next (s1.suspend t1 rest)
    | .fault f => .fault f
    | .refused r => .refused r

/-- Go on with the operation that polls. -/
def resume (s : State) : Host.Outcome State Fault Refusal := runTasks s.seq.todo s

end Sys2Proof.Machine
end

