-- ==== Sys2Proof/Machine/Modes.lean ====
section
/-! DEFINITION. The mode operations (spec/46_dispatch.md): MODE_SAMPLE, MODE_SEND_HEX, MODE_REPLAY_FILE.
Each checks its configuration "before any hardware access" (R111) and is then a chain of other operations,
which is fixed by the configuration: nothing can write `CFG.*` while the mode runs (U5). -/

namespace Sys2Proof.Machine

/-- The configured pin is present and not below `PIN_COUNT` (R111). -/
def State.pinOutOfRange (s : State) : Bool :=
  match s.cfg.pin with
  | none => false
  | some p => !s.validPin p

/-- TRACE_WRITE to the configured output path, if there is one (R112 step 3, R113 step 3). -/
def storeTasks (c : Cfg) : List Task :=
  match c.outputTracePath with
  | none => []
  | some path => [.traceWrite path c.includeFlank]

/-- The wrap guard and TRANSMIT, if a pin is configured (R113 step 4, R114 step 2, R77). -/
def transmitTasks (margin : Nat) (c : Cfg) : List Task :=
  match c.pin with
  | none => []
  | some pin => [.avoidClockWrap margin, .transmit pin c.enableSendStatistics]

/-- DECODE and its report, if asked for (R112 step 4, R114 step 3). -/
def decodeTasks (mode : Op) (c : Cfg) : List Task :=
  if c.decodeAfterSample then [.decode, .reportDecoded mode] else []

/-- ENCODE and TRACE_WRITE after a decode, if asked for and a path is configured (R114 step 3). -/
def reencodeTasks (c : Cfg) : List Task :=
  if c.decodeAfterSample && c.reencode then
    match c.outputTracePath with
    | none => []
    | some path => [.encode, .traceWrite path c.includeFlank]
  else []

/-- Steps 1 to 5 of R112 for a configured pin. -/
def modeSampleTasks (margin pin : Nat) (c : Cfg) : List Task :=
  [.avoidClockWrap margin, .sample pin c.capacity c.triggerBeforeSample c.verbose]
    ++ storeTasks c ++ decodeTasks .modeSample c ++ [.complete .modeSample]

/-- Steps 1 to 5 of R113 for a hex string. -/
def modeSendHexTasks (margin : Nat) (hex : Text) (c : Cfg) : List Task :=
  [.hexParse hex, .encode] ++ storeTasks c ++ transmitTasks margin c ++ [.complete .modeSendHex]

/-- Steps 1 to 4 of R114 for an input path. -/
def modeReplayTasks (margin : Nat) (path : Text) (c : Cfg) : List Task :=
  [.traceRead path] ++ transmitTasks margin c ++ decodeTasks .modeReplayFile c ++ reencodeTasks c
    ++ [.complete .modeReplayFile]

/-- A mode has been started in this invocation (R110, U6). -/
def State.startMode (s : State) : State := { s with modeStarted := true }

/-- A configuration error of a mode's step 0. -/
def configFailure (what : ConfigOption) (s : State) : Host.Outcome State Fault Refusal :=
  .next (raise (.configError what) s)

/-- The checks of ranges that R111 asks of every mode, `CFG.pin` when present and then `CFG.capacity` (R117,
U18), and after them the operations the mode is made of (their order: log entry 31). -/
def runMode (tasks : List Task) (s : State) : Host.Outcome State Fault Refusal :=
  if s.pinOutOfRange then configFailure .pin s
  else if s.cfg.capacity < 1 ∨ Config.bufCap < s.cfg.capacity then configFailure .capacity s
  else runTasks tasks s

/-- MODE_SAMPLE() (R112). `CFG.mode` must name it; an absent or other value is a configuration error (R110,
R117, U18; log entry 13). -/
def execModeSample (s : State) : Host.Outcome State Fault Refusal :=
  if s.cfg.mode = some .sample then
    match s.cfg.pin with
    | none => configFailure .pin s.startMode
    | some pin => runMode (modeSampleTasks s.par.wrapMargin pin s.cfg) s.startMode
  else configFailure .mode s.startMode

/-- MODE_SEND_HEX() (R113): without a pin nothing is transmitted. -/
def execModeSendHex (s : State) : Host.Outcome State Fault Refusal :=
  if s.cfg.mode = some .sendHex then
    match s.cfg.hexPayload with
    | none => configFailure .hexPayload s.startMode
    | some hex => runMode (modeSendHexTasks s.par.wrapMargin hex s.cfg) s.startMode
  else configFailure .mode s.startMode

/-- MODE_REPLAY_FILE() (R114). -/
def execModeReplayFile (s : State) : Host.Outcome State Fault Refusal :=
  if s.cfg.mode = some .replayFile then
    match s.cfg.inputTracePath with
    | none => configFailure .inputTracePath s.startMode
    | some path => runMode (modeReplayTasks s.par.wrapMargin path s.cfg) s.startMode
  else configFailure .mode s.startMode

end Sys2Proof.Machine
end

