-- ==== Sys2Proof/Machine/Dispatch.lean ====
section
/-! DEFINITION. One arm per operation of the table (spec/30_encoding.md R62). A flag bit an operation does
not use is ignored (R64); the flag bits of the modes have been written to `CFG.*` with the command word
(`State.writeCommand`). -/

namespace Sys2Proof.Machine

def exec (i : Instr) (s : State) : Host.Outcome State Fault Refusal :=
  match i with
  | .configurePin _ => Sys2Proof.Machine.execConfigurePin s
  | .readPin _ => Sys2Proof.Machine.execReadPin s
  | .writePin _ => Sys2Proof.Machine.execWritePin s
  | .nowMicros _ => Sys2Proof.Machine.execNowMicros s
  | .raisePriority _ => Sys2Proof.Machine.execRaisePriority s
  | .restorePriority _ => Sys2Proof.Machine.execRestorePriority s
  | .avoidClockWrap _ => Sys2Proof.Machine.execAvoidClockWrap s
  | .compact _ => Sys2Proof.Machine.execCompact s
  | .traceWrite f => Sys2Proof.Machine.execTraceWrite f s
  | .traceRead _ => Sys2Proof.Machine.execTraceRead s
  | .sample f => Sys2Proof.Machine.execSample f s
  | .transmit f => Sys2Proof.Machine.execTransmit f s
  | .flatten _ => Sys2Proof.Machine.execFlatten s
  | .extractBits _ => Sys2Proof.Machine.execExtractBits s
  | .checksum _ => Sys2Proof.Machine.execChecksum s
  | .decode _ => Sys2Proof.Machine.execDecode s
  | .hexParse _ => Sys2Proof.Machine.execHexParse s
  | .burst _ => Sys2Proof.Machine.execBurst s
  | .encode _ => Sys2Proof.Machine.execEncode s
  | .modeSample _ => Sys2Proof.Machine.execModeSample s
  | .modeSendHex _ => Sys2Proof.Machine.execModeSendHex s
  | .modeReplayFile _ => Sys2Proof.Machine.execModeReplayFile s

end Sys2Proof.Machine
end

