-- ==== Sys2Proof/Machine/Command.lean ====
section
/-! DEFINITION. How the block takes a command word (spec/30_encoding.md R61, R64; spec/46_dispatch.md
R110; spec/60_exceptions.md R129, R137). -/

namespace Sys2Proof.Machine

/-- `CMD` is taken. -/
def State.takeCommand (s : State) : State := { s with cmd := none }

/-- Run a command on an idle block; a second mode operation in one invocation is refused (U6). -/
def runInstr (i : Instr) (s : State) : Host.Outcome State Fault Refusal :=
  if i.op.isMode && s.modeStarted then .refused .secondMode else exec i s

/-- Take the command word `w`: refused while an operation runs (R137, U5) and after a fatal error (R129);
a word that is not well-formed is a configuration error (R64, R117), whose option name, `command`, is the
model's own: the spec gives none (DESIGN CHOICE, log entry 30). -/
def runCommand (w : CmdWord) (s : State) : Host.Outcome State Fault Refusal :=
  if s.seq.busy then .refused .startedWhileBusy
  else if s.err.kind = .none then
    match decode w with
    | .ok i => runInstr i s.takeCommand
    | .reservedOp _ => .next (raise (.configError .command) s.takeCommand)
    | .reservedBits => .next (raise (.configError .command) s.takeCommand)
  else .refused .invocationOver

end Sys2Proof.Machine
end

