-- ==== Sys2Proof/Machine/Step.lean ====
section
/-! DEFINITION. One step of the machine. The block fetches no instructions (spec/10_state.md R29): it takes
the command word HOST has written, goes on with the operation that polls, or waits for HOST (R138). -/

namespace Sys2Proof.Machine

/-- One machine step. -/
def step (s : State) : Host.Outcome State Fault Refusal :=
  match s.cmd with
  | some w => runCommand w s
  | none => if s.seq.busy then resume s else .next s

/-- The start of an invocation's command: HOST has written the word `w` to an idle block that has raised
no error and started no mode, so that the next step takes it (log entry 1). -/
def State.withFetchWord (s : State) (nbits w : Nat) : State :=
  { s.writeCommand (BitVec.ofNat 16 (w % 2 ^ nbits)) with
    seq := .idle
    err := .clear
    modeStarted := false }

end Sys2Proof.Machine
end

