-- ==== Sys2Proof/Machine/HostPort.lean ====
section
/-! DEFINITION. What HOST can do between operations (spec/00_scope.md R6, spec/10_state.md R14, R27,
spec/60_exceptions.md R129, spec/70_reset_and_hazards.md R138, R140, spec/93_implementation_defined.md U5):
write the configuration and operand registers, the trace and payload memories and the file store, write a
command word, and reset the block. -/

namespace Sys2Proof.Machine

/-- A move of HOST. HOST "owns the file store" (R6): that it may remove a file between operations, and not
only add or replace one, is the model's choice (DESIGN CHOICE, log entry 26). -/
inductive HostMove where
  | writeCfg (c : Cfg)
  | writeOperands (o : Operands)
  | writeTrace (xs : List Sample)
  | writePayload (bs : List Byte)
  | writeFile (path contents : Text)
  | removeFile (path : Text)
  | writeCommand (w : CmdWord)
  | reset
deriving DecidableEq, Repr

/-- Reset (R138), the start of an invocation: everything at the value of R34, `FILES` unchanged, `CLK` any
value, `pull` and `out` of every pin any value. The parameters of R9 and the agents go on. -/
def State.resetAgain (s : State) : State :=
  { State.reset with
    par := s.par
    clk := Config.clkReset (s.epoch + 1)
    mem := { Memory.reset with files := s.mem.files }
    env := s.env
    epoch := s.epoch + 1 }

/-- An operation is under way, as HOST sees it: `BUSY = 1`, or HOST has written a command word that no step
has taken yet. R61 has HOST write `CMD` "to start an operation", and U5 refuses HOST's writes while one runs;
that the operation counts as started from that write on, before the step that takes it, is the model's
choice (DESIGN CHOICE, log entry 29). -/
def State.underWay (s : State) : Bool := s.seq.busy || s.cmd.isSome

/-- How a move is refused while an operation is under way (R137, U5). -/
def HostMove.whileBusy : HostMove → Refusal
  | .writeCommand _ => .startedWhileBusy
  | _ => .hostWriteWhileBusy

/-- The state after a move made while no operation is under way. A record beyond a capacity is never written
(R38). -/
def HostMove.apply (s : State) : HostMove → Host.Outcome State Fault Refusal
  | .writeCfg c => .next { s with cfg := c }
  | .writeOperands o => .next { s with opnd := o }
  | .writeTrace xs =>
    if xs.length ≤ Config.trCap then .next (s.setTr xs)
    else .fault (.recordOutOfRange .tr Config.trCap)
  | .writePayload bs =>
    if bs.length ≤ s.par.payCap then .next (s.setPay bs)
    else .fault (.recordOutOfRange .pay s.par.payCap)
  | .writeFile path contents => .next (s.putFile path contents)
  | .removeFile path => .next (s.removeFile path)
  | .writeCommand w => .next (s.writeCommand w)
  | .reset => .next s.resetAgain

/-- A move of HOST. A reset may come at any point ("process termination", R125, R138). Any other move is
refused while an operation is under way (R137, U5; between the write of `CMD` and the step that takes it:
log entry 29), and after a fatal error: "HOST reads `ERR`, `REPORT` and `EXIT`, and the next thing that can
happen is a reset" (R129). -/
def hostMove (m : HostMove) (s : State) : Host.Outcome State Fault Refusal :=
  if m = .reset then .next s.resetAgain
  else if s.underWay then .refused m.whileBusy
  else if s.err.kind = .none then HostMove.apply s m
  else .refused .invocationOver

end Sys2Proof.Machine
end

