-- ==== Sys2Proof/Safety.lean ====
section
/-! DEFINITION. The terms in which claims speak of runs: the coming answers of CLK and ENV, what a step
may only add to, the invariant of the block, and the two properties of a trace the spec names. -/

namespace Sys2Proof.Machine

/-! ### The coming answers of the agents -/

/-- The `k`-th coming answer of a tape. -/
def Tape.answer {α : Type} (free : Nat → α) (t : Tape α) (k : Nat) : α :=
  match t.script[k]? with
  | some a => a
  | none => free (t.used + k)

/-- A tape after `k` answers. -/
def Tape.skip {α : Type} (k : Nat) (t : Tape α) : Tape α where
  script := t.script.drop k
  used := t.used + k

/-- The value the `k`-th coming read of `CLK` returns, `k` from 0 (R18, R19, U7). -/
def State.clockReading (s : State) : Nat → U32
  | 0 => s.clk + BitVec.ofNat 32 (s.env.clock.answer Config.clkAdvance 0)
  | k + 1 => s.clockReading k + BitVec.ofNat 32 (s.env.clock.answer Config.clkAdvance (k + 1))

/-- The level the `k`-th coming pin read returns, `k` from 0 (R71, U9). -/
def State.levelReading (s : State) (k : Nat) : Level := s.env.level.answer Config.pinLevel k

/-- Whether the next pin configuration succeeds (R70, U10). -/
def State.nextPinOk (s : State) : Bool := s.env.pinOk.answer Config.pinConfigOk 0

/-- Whether the next file write succeeds (R79, U11). -/
def State.nextWritable (s : State) : Bool := s.env.writable.answer Config.fileWritable 0

/-- Whether the next file that exists can be read (R81, U12). -/
def State.nextReadable (s : State) : Bool := s.env.readable.answer Config.fileReadable 0

/-- `START_DELAY` of the next TRANSMIT (R91, U13). -/
def State.nextDelay (s : State) : U32 := s.env.delay.answer Config.startDelay 0

/-- `count` successive pairs of a capture, the clock read before the pin (R84), from the coming clock read
number `c` and the coming pin read number `l` on. -/
def State.capturedFrom (s : State) (c l count : Nat) : List Sample :=
  (List.range count).map fun k => { t := s.clockReading (c + k), v := s.levelReading (l + k) }

/-- The next `n` readings of the clock do not decrease: the clock does not wrap between them (R142). -/
def State.clockRises (s : State) (n : Nat) : Prop :=
  ∀ k, k + 1 < n → (s.clockReading k).toNat ≤ (s.clockReading (k + 1)).toNat

/-- The waits of an emission loop (R94) for the schedule `xs`, the next clock read being number `j`: the
wait for each edge ends at the first read that is due, number `d` of `ds`, which is a scripted one or the
first one after the script. With `extra = 1` one more read follows each wait (statistics). -/
def State.waitsEnd (s : State) (extra : Nat) : Nat → List Sample → List Nat → Prop
  | _, [], [] => True
  | j, x :: xs, d :: ds =>
    j ≤ d ∧ d ≤ s.env.clock.script.length
      ∧ (∀ k, j ≤ k → k < d → (s.clockReading k).toNat < x.t.toNat)
      ∧ x.t.toNat ≤ (s.clockReading d).toNat
      ∧ s.waitsEnd extra (d + 1 + extra) xs ds
  | _, _, _ => False

/-! ### The fairness of CLK (R152, D56) -/

/-- The value the `k`-th read returns of a clock at `c` that advances by these amounts, each before its
read. -/
def clockAfter (c : U32) (advance : Nat → Nat) : Nat → U32
  | 0 => c + BitVec.ofNat 32 (advance 0)
  | k + 1 => clockAfter c advance k + BitVec.ofNat 32 (advance (k + 1))

/-- The fairness assumption on the agent CLK (R152, U7, U20, D56), of a clock at `c` and its coming advances:
it does not stop, and it does not stay behind a fixed value through infinitely many reads. The model's clock
is any clock, a fair one or not (log entry 7); a claim that a busy-wait ends takes this as its premise. -/
structure FairClock (c : U32) (advance : Nat → Nat) : Prop where
  goesOn : ∀ j, ∃ k, j ≤ k ∧ 0 < advance k
  reaches : ∀ (v : U32) (j : Nat), ∃ k, j ≤ k ∧ v.toNat ≤ (clockAfter c advance k).toNat

/-- The state whose next `n` clock advances are the first `n` of a sequence. -/
def State.onClock (n : Nat) (advance : Nat → Nat) (s : State) : State :=
  { s with env := { s.env with
      clock := { s.env.clock with script := (List.range n).map advance } } }

/-! ### Traces (R24) -/

/-- A compact trace: no two adjacent samples have the same level. -/
def isCompact (xs : List Sample) : Prop := xs.IsChain fun a b => a.v ≠ b.v

/-- The times of a trace do not decrease. -/
def timesRise (xs : List Sample) : Prop := xs.IsChain fun a b => a.t.toNat ≤ b.t.toNat

/-- The times of a trace increase strictly. -/
def timesRiseStrictly (xs : List Sample) : Prop := xs.IsChain fun a b => a.t.toNat < b.t.toNat

/-- `TR[i].t` of a trace, 0 beyond its end. -/
def timeAt (xs : List Sample) (i : Nat) : U32 :=
  match xs[i]? with
  | some x => x.t
  | none => 0

/-- `TR[i].v` of a trace, 0 beyond its end. -/
def levelAt (xs : List Sample) (i : Nat) : Level :=
  match xs[i]? with
  | some x => x.v
  | none => false

/-- `TR[i]` is an edge: the first sample, or one whose level differs from the one before (R79). -/
def isEdge (xs : List Sample) (i : Nat) : Bool := i == 0 || levelAt xs i != levelAt xs (i - 1)

/-- A capture trimmed to its last edge and re-based to start at 0 (R86, R87). -/
def trimmed (xs : List Sample) : List Sample :=
  (xs.take (trimIndex (levelAt xs (xs.length - 1)) xs + 1)).map
    fun x => { t := x.t - timeAt xs 0, v := x.v }

/-- The schedule TRANSMIT makes of a trace from the clock reading `c0` (R91, R93). -/
def scheduleFrom (c0 delay : U32) (xs : List Sample) : List Sample :=
  xs.map fun x => { t := x.t + (c0 + delay), v := x.v }

/-- No scheduled time lies past the wrap (R92). -/
def fitsWindow (c0 delay : U32) (xs : List Sample) : Prop :=
  ∀ x ∈ xs.getLast?, c0.toNat + delay.toNat + x.t.toNat < 4294967296

/-- Pin writes that follow a schedule (R46): write `i` is edge `i`, made at a clock value not before its
scheduled time; the clock values do not decrease. -/
structure FollowsSchedule (pin : Nat) (xs : List Sample) (ws : List PinWrite) : Prop where
  count : ws.length ≤ xs.length
  onTime : ∀ (i : Nat) (w : PinWrite), ws[i]? = some w →
    w.pin = pin ∧ w.level = levelAt xs i
      ∧ ∃ c, w.clock = some c ∧ (timeAt xs i).toNat ≤ c.toNat
  inOrder : ws.IsChain fun a b =>
    ∀ c d, a.clock = some c → b.clock = some d → c.toNat ≤ d.toNat

/-! ### Frames (R58 to R60) -/

/-- The lows EXTRACT_BITS measures, from the sample with index 4 on, every second one (R99). -/
def measuredLows (xs : List Sample) : List U32 :=
  (List.range ((xs.length - 4) / 2)).map fun j => timeAt xs (5 + 2 * j) - timeAt xs (4 + 2 * j)

/-- Those before the first that is longer than 2000 µs: the bits of the frame (R60, R99). -/
def frameLows (xs : List Sample) : List U32 := (measuredLows xs).takeWhile fun dt => dt.toNat ≤ 2000

/-- `lastIndex` of R99: where the low longer than 2000 µs begins, 0 if there is none. -/
def frameEnd (xs : List Sample) : Nat :=
  if (frameLows xs).length < (measuredLows xs).length then 4 + 2 * (frameLows xs).length else 0

/-- `ps` holds the whole bytes of the bits of a frame, the first bit in bit 0 (R99, R40). -/
def spellsBits (ps : List Byte) (lows : List U32) : Prop :=
  ∀ k b p, ps[k]? = some p → b < 8 →
    lows[8 * k + b]?.map (fun dt => decide (800 < dt.toNat)) = some (p.getLsbD b)

/-- The report of CHECKSUM (R100). -/
def checksumReports (depth : Nat) (ps : List Byte) : List Report :=
  match ps.getLast? with
  | none => [.anomaly (.checksumMismatch depth none)]
  | some last =>
    let sum := BitVec.ofNat 8 ((ps.dropLast.map BitVec.toNat).sum)
    if sum = last then [] else [.anomaly (.checksumMismatch depth (some (sum, last)))]

/-- The report of the comparison of two half-frames (R101, R103): the counts, or the first of the bytes
`0 .. count - 2` that differs. -/
def compareReports (depth : Nat) (p q : List Byte) : List Report :=
  if q.length = p.length then
    match (List.range (p.length - 1)).find? fun k => p[k]? != q[k]? with
    | none => []
    | some k => [.anomaly (.contentMismatch depth k (p.getD k 0) (q.getD k 0))]
  else [.anomaly (.countMismatch depth p.length q.length)]

/-- The samples of a trace that are edges, in order: what COMPACT keeps (R78). -/
def edgesOf (xs : List Sample) : List Sample :=
  (List.range xs.length).filterMap fun i => if isEdge xs i then xs[i]? else none

/-- A trace with the middle level of every (1,0,1) triple set to 1 whose low is shorter than 200 µs: what
FLATTEN leaves (R98). -/
def lowsFilled (xs : List Sample) : List Sample :=
  (List.range xs.length).map fun i =>
    { t := timeAt xs i
      v := levelAt xs i
        || (decide (0 < i) && decide (i + 1 < xs.length) && levelAt xs (i - 1) && levelAt xs (i + 1)
          && decide ((timeAt xs (i + 1) - timeAt xs i).toNat < 200)) }

/-- The sequence DECODE reads its half-frames from (R101 steps 0 to 2): the trace compacted, flattened and
compacted again. -/
def decodeInput (xs : List Sample) : List Sample := edgesOf (lowsFilled (edgesOf xs))

/-- The terminator lies in the middle of a sequence, which is not empty, so that its tail from the terminator
on is decoded too (R101 step 7, R103 (a); log entry 14). -/
def secondWindow (xs : List Sample) : Prop :=
  xs ≠ [] ∧ 4 * xs.length ≤ 10 * frameEnd xs ∧ 10 * frameEnd xs ≤ 6 * xs.length

/-- The bytes of every half-frame that DECODE reads from a sequence, nested ones included, fit a payload
memory of `cap` bytes (R101, R103 (c), R121). -/
inductive FramesFit (cap : Nat) : List Sample → Prop
  | intro {xs : List Sample} (first : (frameLows xs).length / 8 ≤ cap)
      (tail : secondWindow xs → FramesFit cap (xs.drop (frameEnd xs))) : FramesFit cap xs

/-- A payload is the whole bytes of the first half-frame of a sequence (R99). -/
def readsBytes (xs : List Sample) (ps : List Byte) : Prop :=
  ps.length = (frameLows xs).length / 8 ∧ spellsBits ps (frameLows xs)

/-- What `decode_at` returns and reports of a sequence at a depth (R101, R103): the payload of the first
half-frame, that of the second, empty if there is none, and the reports in their order: the checksum, all the
nested call reports, the comparison. -/
inductive HalfFrames : Nat → List Sample → List Byte → List Byte → List Report → Prop
  | one {depth : Nat} {xs : List Sample} {ps : List Byte} (outside : ¬ secondWindow xs)
      (bytes : readsBytes xs ps) : HalfFrames depth xs ps [] (checksumReports depth ps)
  | two {depth : Nat} {xs : List Sample} {ps qs more : List Byte} {nested : List Report}
      (inside : secondWindow xs) (bytes : readsBytes xs ps)
      (second : HalfFrames (depth + 1) (xs.drop (frameEnd xs)) qs more nested) :
      HalfFrames depth xs ps qs (checksumReports depth ps ++ nested ++ compareReports depth ps qs)

/-- The samples of a burst of requested length `m` that begins at `t`: `m / 26` cycles (R58, R106). -/
def markCycles (t m : U32) : List Sample :=
  (List.range (m.toNat / 26)).flatMap fun j =>
    [{ t := t + BitVec.ofNat 32 (26 * j), v := true },
     { t := t + BitVec.ofNat 32 (26 * j + 15), v := false }]

/-- The time cursor after a burst of requested length `m` and the space `sp` (R106). -/
def cursorAfter (t m sp : U32) : U32 := t + BitVec.ofNat 32 (26 * (m.toNat / 26)) + sp

/-- The samples of a sequence of symbols (mark, space) that begins at `t`. -/
def symbolTrace : U32 → List (U32 × U32) → List Sample
  | _, [] => []
  | t, (m, sp) :: rest => markCycles t m ++ symbolTrace (cursorAfter t m sp) rest

/-- The bits of a payload in wire order: bytes in index order, bit 0 first (R40). -/
def wireBits (ps : List Byte) : List Bool := ps.flatMap fun p => (List.range 8).map fun k => p.getLsbD k

/-- The symbols of one half-frame (R59): header, bits, stop mark and gap. -/
def halfFrameSymbols (ps : List Byte) : List (U32 × U32) :=
  [(3344, 1688)] ++ (wireBits ps).map (fun b => (428, if b then 1268 else 430)) ++ [(428, 11354)]

/-- The trace ENCODE makes of a payload (R59, R107): the point (0, 0) and two identical half-frames, the
first rising edge at 700. -/
def encodedTrace (ps : List Byte) : List Sample :=
  { t := 0, v := false } :: symbolTrace 700 (halfFrameSymbols ps ++ halfFrameSymbols ps)

/-! ### What a step may only add to -/

/-- Every flag set stays set (R30). -/
def Status.keeps (a b : Status) : Prop :=
  (a.checksumMismatch = true → b.checksumMismatch = true)
    ∧ (a.countMismatch = true → b.countMismatch = true)
    ∧ (a.contentMismatch = true → b.contentMismatch = true)
    ∧ (a.timingAnomaly = true → b.timingAnomaly = true)

/-- From `s` to `t` the logs only grow and the flags stay set (R30, R32), and what only HOST writes is as it
was: the configuration, the operand registers, the parameters (R14). -/
structure State.Grows (s t : State) : Prop where
  wlog : s.wlog <+: t.wlog
  report : s.report <+: t.report
  flags : s.st.keeps t.st
  cfg : t.cfg = s.cfg
  opnd : t.opnd = s.opnd
  par : t.par = s.par
  epoch : t.epoch = s.epoch

/-! ### The invariant -/

/-- The pins configured since reset: indices strictly rising. -/
def pinsRising : List (Nat × Pin) → Bool
  | [] => true
  | [_] => true
  | (p, _) :: (q, x) :: rest => decide (p < q) && pinsRising ((q, x) :: rest)

/-- A stack entry that starts an operation or a step, not one that goes on with a poll. -/
def Task.fresh : Task → Bool
  | .samplePoll _ => false
  | .transmitWait _ _ => false
  | _ => true

/-- The state of an operation that polls (R76, R83, R94): what its stack entry relies on. -/
def State.polling (s : State) : Task → Prop
  | .avoidClockWrap m => m * Config.microsPerSecond ≤ Config.clkWrap
  | .samplePoll pin =>
    pin < s.par.pinCount ∧ (s.pinAt pin).dir = .input ∧ s.wr.n ≤ Config.bufCap ∧ 1 ≤ s.wr.n
      ∧ s.mem.raw = []
  | .transmitWait pin stats =>
    pin < s.par.pinCount ∧ (s.pinAt pin).dir = .output ∧ s.prio = .realtime
      ∧ s.wr.i < s.mem.tr.length ∧ (stats = true → s.mem.obs.length = s.wr.i)
  | _ => False

/-- The sequencer's part of the invariant (R29): idle, or polling with `OP` and `PHASE` at the poll. -/
def State.sequenced (s : State) : Prop :=
  s.seq = .idle ∨
    ∃ t rest, s.seq = { busy := true, op := some t.place.1, phase := t.place.2, todo := t :: rest }
      ∧ s.polling t ∧ rest.all Task.fresh = true

/-- The invariant of the block: the memories are in canonical form within their capacities (R35, R38); the
pins known are configured, valid and in order (R20, R69); an error has its exit status and nothing runs
after it (R127); the sequencer is idle or at a poll (R29). -/
structure State.Inv (s : State) : Prop where
  memory : s.mem.wf s.par.payCap = true
  pinsOrdered : pinsRising s.pins = true
  pinsConfigured : ∀ e ∈ s.pins, e.1 < s.par.pinCount ∧ e.2.dir ≠ .unconfigured
  errorExit : s.err.kind ≠ .none → s.exit = some s.err.kind.code ∧ s.seq = .idle
  cleanExit : s.err.kind = .none → s.exit = none ∨ s.exit = some 0
  sequenced : s.sequenced

end Sys2Proof.Machine
end

