-- ==== Sys2Proof/Certificates/Slice0/Obligations.lean ====
section
/-! DEFINITION. The statements about the model, in the order of the spec's files: encoding, steps, facade,
trace store, sampler, transmitter, decoder, encoder, modes, errors, and the rules of the whole machine. -/

open Sys2Proof Sys2Proof.Machine

/-! ### Encoding (spec/30_encoding.md R61, R62, R64) -/

/-- Decoding the word of any command gives that command back, whatever its seven flag bits, and the word is
well-formed. -/
def Obligations.DecodeInvertsEncode : Prop :=
  ∀ i : Instr, decode (encode i) = .ok i ∧ CmdWord.wellFormed (encode i) = true

/-- No two words decode to one command: a word that decodes is the word of its command. -/
def Obligations.EncodeInvertsDecode : Prop :=
  ∀ (w : CmdWord) (i : Instr), decode w = .ok i → encode i = w

/-- Which words the decoder rejects and why: a set bit of 15:12 first, then an `op` of 0 or above `0x16`. -/
def Obligations.DecoderVerdicts : Prop :=
  ∀ w : CmdWord,
    (decode w = .reservedBits ↔ w.toNat / 4096 ≠ 0)
    ∧ (∀ n, decode w = .reservedOp n ↔
        w.toNat / 4096 = 0 ∧ n = w.toNat % 32 ∧ (n = 0 ∨ 23 ≤ n))
    ∧ ((∃ i, decode w = .ok i) ↔
        w.toNat / 4096 = 0 ∧ 1 ≤ w.toNat % 32 ∧ w.toNat % 32 ≤ 22)

/-- Words written out from the tables of R61 and R62 decode to the commands they stand for. -/
def Obligations.SampleWordsDecode : Prop :=
  decode 0x0001 = .ok (.configurePin ⟨false, false, false, false, false, false, false⟩)
  ∧ decode 0x0007 = .ok (.avoidClockWrap ⟨false, false, false, false, false, false, false⟩)
  ∧ decode 0x0209 = .ok (.traceWrite ⟨false, false, false, false, true, false, false⟩)
  ∧ decode 0x092B = .ok (.sample ⟨true, false, false, true, false, false, true⟩)
  ∧ decode 0x084C = .ok (.transmit ⟨false, true, false, false, false, false, true⟩)
  ∧ decode 0x0010 = .ok (.decode ⟨false, false, false, false, false, false, false⟩)
  ∧ decode 0x0013 = .ok (.encode ⟨false, false, false, false, false, false, false⟩)
  ∧ decode 0x0CD6 = .ok (.modeReplayFile ⟨false, true, true, false, false, true, true⟩)
  ∧ decode 0x0000 = .reservedOp 0 ∧ decode 0x0017 = .reservedOp 0x17 ∧ decode 0x1001 = .reservedBits

/-- R64: a reserved command word is a configuration error and nothing else happens; a flag bit that the
operation does not use is ignored by it. What a command word leaves in `CFG.*` is the model's choice (log
entry 3): a mode's word writes the flag fields its row of the opcode table lists, and `pin_valid = 0` makes
`CFG.pin` absent; every other word leaves `CFG.*` alone. The option name `command` of a reserved word is the
model's too (log entry 30). -/
def Obligations.ReservedWordsAndUnusedFlags : Prop :=
  (∀ (s : State) (w : CmdWord), s.cmd = some w → s.seq.busy = false → s.err.kind = .none →
    (w.toNat / 4096 ≠ 0 ∨ w.toNat % 32 = 0 ∨ 23 ≤ w.toNat % 32) →
    step s = .next { s with
      cmd := none
      err := { kind := .configError, option := some .command, path := none, line := none, pin := none,
               space := none }
      report := s.report ++ [.fatal (.configError .command)]
      seq := .idle
      exit := some 1 })
  ∧ (∀ (f g : CmdFlags) (s : State),
    (∀ op : Op, op ≠ .traceWrite → op ≠ .sample → op ≠ .transmit →
      exec (op.withFlags f) s = exec (op.withFlags g) s)
    ∧ (f.flank = g.flank → exec (.traceWrite f) s = exec (.traceWrite g) s)
    ∧ (f.trigger = g.trigger → exec (.sample f) s = exec (.sample g) s)
    ∧ (f.stats = g.stats → exec (.transmit f) s = exec (.transmit g) s))
  ∧ (∀ (f : CmdFlags) (c : Cfg) (w : CmdWord),
    c.withCommand (encode (.modeSample f)) = { c with
      triggerBeforeSample := f.trigger, decodeAfterSample := f.decode, verbose := f.verbose
      includeFlank := f.flank, pin := if f.pinValid = true then c.pin else none }
    ∧ c.withCommand (encode (.modeSendHex f)) = { c with
      enableSendStatistics := f.stats, includeFlank := f.flank
      pin := if f.pinValid = true then c.pin else none }
    ∧ c.withCommand (encode (.modeReplayFile f)) = { c with
      enableSendStatistics := f.stats, decodeAfterSample := f.decode, includeFlank := f.flank
      reencode := f.reencode, pin := if f.pinValid = true then c.pin else none }
    ∧ ((∀ i : Instr, i.op.isMode = true → w ≠ encode i) → c.withCommand w = c))

/-! ### Steps (spec/10_state.md R29, spec/46_dispatch.md R110, spec/60_exceptions.md R129, R137) -/

/-- A step runs the decoded command: the word HOST has written, on an idle block that has raised no error
(and, for a mode, started none before), is taken from `CMD` and its meaning run. -/
def Obligations.StepRunsDecodedCommand : Prop :=
  ∀ (s : State) (w : CmdWord) (i : Instr), s.cmd = some w → decode w = .ok i →
    s.seq.busy = false → s.err.kind = .none → (i.op.isMode = true → s.modeStarted = false) →
    step s = exec i { s with cmd := none }

/-- A step that starts no operation. Starts the spec gives no meaning are refused by name: a command while
`BUSY = 1` (U5), a command after a fatal error (R129), a second mode in one invocation (U6). Without a
command an idle block stays as it is, waiting for HOST (R138), and a block that polls goes on with what its
sequencer holds (R29; the size of a poll is the model's choice, log entry 2). -/
def Obligations.StepsThatStartNothing : Prop :=
  (∀ (s : State) (w : CmdWord), s.cmd = some w →
    (s.seq.busy = true → step s = .refused .startedWhileBusy)
    ∧ (s.seq.busy = false → s.err.kind ≠ .none → step s = .refused .invocationOver)
    ∧ (s.seq.busy = false → s.err.kind = .none → s.modeStarted = true →
        (∃ i, decode w = .ok i ∧ i.op.isMode = true) → step s = .refused .secondMode))
  ∧ (∀ s : State, s.cmd = none →
    (s.seq.busy = false → step s = .next s)
    ∧ (s.seq.busy = true → step s = runTasks s.seq.todo s))

/-! ### The facade (spec/40_facade.md) -/

/-- R70: an invalid pin, or a platform that refuses, is a `PinConfigError` and no pin changes; otherwise
`dir` and `pull` of the pin are written, `out` and every other pin keep their values. -/
def Obligations.ConfigurePinOutcome : Prop :=
  ∀ (f : CmdFlags) (s : State),
    (s.par.pinCount ≤ s.opnd.pin →
      exec (.configurePin f) s = .next (raise (.pinConfigError s.opnd.pin) s))
    ∧ (s.opnd.pin < s.par.pinCount → s.nextPinOk = false →
      exec (.configurePin f) s = .next (raise (.pinConfigError s.opnd.pin)
        { s with env := { s.env with pinOk := s.env.pinOk.skip 1 } }))
    ∧ (s.opnd.pin < s.par.pinCount → s.nextPinOk = true →
      ∃ t, exec (.configurePin f) s = .next t
        ∧ t = { s with
            pins := t.pins, env := { s.env with pinOk := s.env.pinOk.skip 1 }, seq := .idle }
        ∧ t.pinAt s.opnd.pin =
            { s.pinAt s.opnd.pin with dir := s.opnd.dir.pinDir, pull := s.opnd.pull }
        ∧ ∀ q, q ≠ s.opnd.pin → t.pinAt q = s.pinAt q)

/-- R71: a read of a valid input returns ENV's level and changes no register; any other read is refused. -/
def Obligations.ReadPinOutcome : Prop :=
  ∀ (f : CmdFlags) (s : State),
    (s.opnd.pin < s.par.pinCount → (s.pinAt s.opnd.pin).dir = .input →
      exec (.readPin f) s = .next { s with
        env := { s.env with level := s.env.level.skip 1 }
        ret := some (.level (s.levelReading 0))
        seq := .idle })
    ∧ (¬ (s.opnd.pin < s.par.pinCount ∧ (s.pinAt s.opnd.pin).dir = .input) →
      exec (.readPin f) s = .refused (.readOfNonInput s.opnd.pin))

/-- R72: a write to a valid output sets `out` and appends one entry to `WLOG` with the last clock value SEQ
read, absent if there is none; `dir`, `pull` and every other pin keep their values; any other write is
refused. -/
def Obligations.WritePinOutcome : Prop :=
  ∀ (f : CmdFlags) (s : State),
    (s.opnd.pin < s.par.pinCount → (s.pinAt s.opnd.pin).dir = .output →
      ∃ t, exec (.writePin f) s = .next t
        ∧ t = { s with
            pins := t.pins
            wlog := s.wlog ++ [{ pin := s.opnd.pin, level := s.opnd.level, clock := s.lastClk }]
            seq := .idle }
        ∧ t.pinAt s.opnd.pin = { s.pinAt s.opnd.pin with out := s.opnd.level }
        ∧ ∀ q, q ≠ s.opnd.pin → t.pinAt q = s.pinAt q)
    ∧ (¬ (s.opnd.pin < s.par.pinCount ∧ (s.pinAt s.opnd.pin).dir = .output) →
      exec (.writePin f) s = .refused (.writeToNonOutput s.opnd.pin))

/-- R73: NOW_MICROS never fails; it returns the value of the clock at this instant, which has advanced from
the last read by the free amount of this read, and changes nothing else. The returned value's register and
the last-read clock value are the model's own fields (log entries 15 and 16). -/
def Obligations.NowMicrosOutcome : Prop :=
  ∀ (f : CmdFlags) (s : State),
    exec (.nowMicros f) s = .next { s with
      clk := s.clk + BitVec.ofNat 32 (s.env.clock.answer Config.clkAdvance 0)
      lastClk := some (s.clk + BitVec.ofNat 32 (s.env.clock.answer Config.clkAdvance 0))
      env := { s.env with clock := s.env.clock.skip 1 }
      ret := some (.micros (s.clk + BitVec.ofNat 32 (s.env.clock.answer Config.clkAdvance 0)))
      seq := .idle }

/-- R18, R19: between two reads fewer than 2³² µs apart the difference of the values read, modulo 2³², is the
number of microseconds elapsed. -/
def Obligations.ClockReadingsElapse : Prop :=
  ∀ (s : State) (j k : Nat),
    ((List.range k).map fun i => s.env.clock.answer Config.clkAdvance (j + 1 + i)).sum < 4294967296 →
    (s.clockReading (j + k) - s.clockReading j).toNat =
      ((List.range k).map fun i => s.env.clock.answer Config.clkAdvance (j + 1 + i)).sum

/-- R74, R75: the priority becomes `realtime`, or `normal`, whatever it was, and nothing else changes: there
is no nesting count. -/
def Obligations.PriorityOperations : Prop :=
  ∀ (f : CmdFlags) (s : State),
    exec (.raisePriority f) s = .next { s with prio := .realtime, seq := .idle }
    ∧ exec (.restorePriority f) s = .next { s with prio := .normal, seq := .idle }

/-- R76: an impossible margin is a configuration error; otherwise the guard returns at the first read that
is at least the margin away from the wrap, having written `NOW` only; while no read is, it blocks (how many
reads one machine step makes is the model's choice, log entry 2). -/
def Obligations.AvoidClockWrapOutcome : Prop :=
  ∀ (f : CmdFlags) (s : State),
    (4294967296 < s.opnd.margin * 1000000 →
      exec (.avoidClockWrap f) s = .next (raise (.configError .margin) s))
    ∧ (s.opnd.margin * 1000000 ≤ 4294967296 → ∀ k, k ≤ s.env.clock.script.length →
      (∀ j < k, 4294967296 - (s.clockReading j).toNat < s.opnd.margin * 1000000) →
      s.opnd.margin * 1000000 ≤ 4294967296 - (s.clockReading k).toNat →
      exec (.avoidClockWrap f) s = .next { s with
        clk := s.clockReading k
        lastClk := some (s.clockReading k)
        env := { s.env with clock := s.env.clock.skip (k + 1) }
        wr := { s.wr with now := s.clockReading k }
        seq := .idle })
    ∧ (s.opnd.margin * 1000000 ≤ 4294967296 →
      (∀ j ≤ s.env.clock.script.length,
        4294967296 - (s.clockReading j).toNat < s.opnd.margin * 1000000) →
      exec (.avoidClockWrap f) s = .next { s with
        clk := s.clockReading s.env.clock.script.length
        lastClk := some (s.clockReading s.env.clock.script.length)
        env := { s.env with clock := s.env.clock.skip (s.env.clock.script.length + 1) }
        wr := { s.wr with now := s.clockReading s.env.clock.script.length }
        seq := { busy := true, op := some .avoidClockWrap, phase := 1,
                 todo := [.avoidClockWrap s.opnd.margin] } })

/-- R76: a guard that blocks goes on reading the clock and returns at the first read that is far enough from
the wrap. R152: on a fair clock there is such a read, as long as no two reads lie further apart than the part
of the wrap window in which the guard returns. -/
def Obligations.BlockedGuardReturns : Prop :=
  (∀ (s : State) (m k : Nat), s.cmd = none →
    s.seq = { busy := true, op := some .avoidClockWrap, phase := 1, todo := [.avoidClockWrap m] } →
    m * 1000000 ≤ 4294967296 → k ≤ s.env.clock.script.length →
    (∀ j < k, 4294967296 - (s.clockReading j).toNat < m * 1000000) →
    m * 1000000 ≤ 4294967296 - (s.clockReading k).toNat →
    step s = .next { s with
      clk := s.clockReading k
      lastClk := some (s.clockReading k)
      env := { s.env with clock := s.env.clock.skip (k + 1) }
      wr := { s.wr with now := s.clockReading k }
      seq := .idle })
  ∧ (∀ (s : State) (m : Nat) (advance : Nat → Nat), s.cmd = none →
    s.seq = { busy := true, op := some .avoidClockWrap, phase := 1, todo := [.avoidClockWrap m] } →
    m * 1000000 ≤ 4294967296 → FairClock s.clk advance →
    (∀ i, advance i ≤ 4294967296 - m * 1000000) →
    ∃ k, step (s.onClock (k + 1) advance) = .next { s with
      clk := clockAfter s.clk advance k
      lastClk := some (clockAfter s.clk advance k)
      env := { s.env with clock := { script := [], used := s.env.clock.used + (k + 1) } }
      wr := { s.wr with now := clockAfter s.clk advance k }
      seq := .idle })

/-! ### The trace store (spec/41_trace_store.md) -/

/-- R78: COMPACT keeps the first sample and every sample whose level differs from the one before, with their
times, changes nothing else, leaves no two adjacent samples of one level, and done twice is done once. -/
def Obligations.CompactKeepsEdges : Prop :=
  ∀ (f : CmdFlags) (s : State), ∃ t, exec (.compact f) s = .next t
    ∧ t = { s with mem := { s.mem with tr := t.mem.tr }, wr := { s.wr with i := t.wr.i }, seq := .idle }
    ∧ t.mem.tr = (List.range s.mem.tr.length).filterMap (fun i =>
        if isEdge s.mem.tr i then s.mem.tr[i]? else none)
    ∧ isCompact t.mem.tr
    ∧ ∀ g : CmdFlags, ∃ u, exec (.compact g) t = .next u ∧ u.mem = t.mem

/-- R79, R53: TRACE_WRITE leaves the trace as it is and writes the header line and the lines of every edge,
each the numeral of its time, TAB, the digit of its level and LF, to the file of its path, and to no other;
where the file cannot be written it is an `IoError` with the path and no file changes. -/
def Obligations.TraceWriteOutcome : Prop :=
  ∀ (f : CmdFlags) (s : State) (line : U32 → Level → Text),
    (∀ t v, line t v = decimal t ++ [0x09, if v = true then 0x31 else 0x30, 0x0A]) →
    (s.nextWritable = true →
      ∃ t, exec (.traceWrite f) s = .next t
        ∧ t = { s with
            mem := { s.mem with files := t.mem.files }
            wr := { s.wr with i := t.wr.i }
            env := { s.env with writable := s.env.writable.skip 1 }
            seq := .idle }
        ∧ fileLookup s.opnd.path t.mem.files =
            some ([0x5B, 0xC2, 0xB5, 0x73, 0x5D, 0x09, 0x53, 0x61, 0x6D, 0x70, 0x6C, 0x65, 0x0A]
              ++ (List.range s.mem.tr.length).flatMap fun i =>
                if isEdge s.mem.tr i then
                  (if f.flank = true ∧ i ≠ 0 then
                    line (timeAt s.mem.tr i) (levelAt s.mem.tr (i - 1)) else [])
                  ++ line (timeAt s.mem.tr i) (levelAt s.mem.tr i)
                else [])
        ∧ ∀ q, q ≠ s.opnd.path → fileLookup q t.mem.files = fileLookup q s.mem.files)
    ∧ (s.nextWritable = false →
      ∃ t, exec (.traceWrite f) s = .next t
        ∧ t = raise (.ioError s.opnd.path none) { s with
            wr := { s.wr with i := t.wr.i }
            env := { s.env with writable := s.env.writable.skip 1 } })

/-- R79, R53: the numeral of a time has digits only, no leading zero, and the value of the time. -/
def Obligations.DecimalNumerals : Prop :=
  ∀ x : U32,
    (∀ b ∈ decimal x, 48 ≤ b.toNat ∧ b.toNat ≤ 57)
    ∧ ((decimal x).foldl (fun n b => 10 * n + (b.toNat - 48)) 0 = x.toNat)
    ∧ ((decimal x).head? = some 48 → x = 0 ∧ decimal x = [48])
    ∧ 1 ≤ (decimal x).length ∧ (decimal x).length ≤ 10

/-- R81: the lines of a file are its pieces between `LF`s; a last piece that is empty is not a line. -/
def Obligations.FileLinesCut : Prop :=
  ∀ (ls : List Text) (last : Text), (∀ l ∈ ls, (0x0A : Byte) ∉ l) → (0x0A : Byte) ∉ last →
    fileLines (ls.flatMap (fun l => l ++ [0x0A]) ++ last) = if last = [] then ls else ls ++ [last]

/-- R54, R81: exactly which lines the reader accepts, and what it reads from them: digits only, of a value
below 2³², one TAB, one digit 0 or 1, and any whitespace (SPACE, TAB, CR) after it. -/
def Obligations.TraceLinesAccepted : Prop :=
  ∀ (line : Text) (x : Sample), parseLine line = some x ↔
    ∃ digits blanks : Text, digits ≠ []
      ∧ (∀ b ∈ digits, 48 ≤ b.toNat ∧ b.toNat ≤ 57)
      ∧ digits.foldl (fun n b => 10 * n + (b.toNat - 48)) 0 = x.t.toNat
      ∧ (∀ b ∈ blanks, b = 0x20 ∨ b = 0x09 ∨ b = 0x0D)
      ∧ line = digits ++ [0x09, if x.v then 0x31 else 0x30] ++ blanks

/-- R81: a file that can be read and whose lines after the first are all accepted, as many as `TR` holds,
replaces the trace, sample by sample; nothing else changes. -/
def Obligations.TraceReadOutcome : Prop :=
  ∀ (f : CmdFlags) (s : State) (contents : Text) (xs : List Sample),
    fileLookup s.opnd.path s.mem.files = some contents → s.nextReadable = true →
    (fileLines contents).tail.map parseLine = xs.map some → xs.length ≤ Config.trCap →
    exec (.traceRead f) s = .next { s with
      mem := { s.mem with tr := xs }
      env := { s.env with readable := s.env.readable.skip 1 }
      seq := .idle }

/-- R81, R118, R126: a missing file, then an unreadable one, then the first malformed line, each an `IoError`
with the path, the malformed line with its number, the header being line 1; the samples before it stand in
the trace. A well-formed line that does not fit is `CapacityExceeded(TR)`. -/
def Obligations.TraceReadRejects : Prop :=
  ∀ (f : CmdFlags) (s : State),
    (fileLookup s.opnd.path s.mem.files = none →
      exec (.traceRead f) s = .next (raise (.ioError s.opnd.path none) s))
    ∧ (fileLookup s.opnd.path s.mem.files ≠ none → s.nextReadable = false →
      exec (.traceRead f) s = .next (raise (.ioError s.opnd.path none)
        { s with env := { s.env with readable := s.env.readable.skip 1 } }))
    ∧ (∀ (contents line : Text) (xs : List Sample) (good rest : List Text),
      fileLookup s.opnd.path s.mem.files = some contents → s.nextReadable = true →
      (fileLines contents).tail = good ++ line :: rest → good.map parseLine = xs.map some →
      (xs.length ≤ Config.trCap → parseLine line = none →
        exec (.traceRead f) s = .next (raise (.ioError s.opnd.path (some (xs.length + 2))) { s with
          mem := { s.mem with tr := xs }
          env := { s.env with readable := s.env.readable.skip 1 } }))
      ∧ (xs.length = Config.trCap → parseLine line ≠ none →
        exec (.traceRead f) s = .next (raise (.capacityExceeded .tr) { s with
          mem := { s.mem with tr := xs }
          env := { s.env with readable := s.env.readable.skip 1 } })))

/-- R81, the trace round trip: a compact trace written without the flank option and read back, whatever the
trace memory held in between, is the same trace. -/
def Obligations.TraceFileRoundTrip : Prop :=
  ∀ (f g : CmdFlags) (s : State) (ys : List Sample),
    f.flank = false → isCompact s.mem.tr → s.mem.tr.length ≤ Config.trCap →
    s.nextWritable = true → s.nextReadable = true →
    ∃ t u, exec (.traceWrite f) s = .next t
      ∧ exec (.traceRead g) (t.setTr ys) = .next u
      ∧ u.mem.tr = s.mem.tr

/-! ### The sampler (spec/42_sampler.md) -/

/-- R82, R84, R86, R87: SAMPLE without the trigger captures `N` pairs, clock before pin, keeps the samples up
to the last edge `L` (0 if there is none), re-based to start at 0, and changes nothing else but the pin it
configures and its own registers. -/
def Obligations.SampleCaptures : Prop :=
  ∀ (f : CmdFlags) (s : State), f.trigger = false →
    1 ≤ s.opnd.capacity → s.opnd.capacity ≤ 1000000 → s.opnd.pin < s.par.pinCount →
    s.nextPinOk = true →
    (s.clockReading 0).toNat ≤ (s.clockReading (s.opnd.capacity - 1)).toNat →
    ∃ t L, exec (.sample f) s = .next t
      ∧ t = { s with
          clk := s.clockReading (s.opnd.capacity - 1)
          lastClk := some (s.clockReading (s.opnd.capacity - 1))
          pins := t.pins
          prio := .normal
          mem := { s.mem with raw := s.capturedFrom 0 1 s.opnd.capacity, tr := t.mem.tr }
          wr := { s.wr with
            n := s.opnd.capacity, k := s.opnd.capacity, l0 := s.levelReading 0, l := L
            t0 := s.clockReading 0 }
          env := { s.env with
            clock := s.env.clock.skip s.opnd.capacity
            level := s.env.level.skip (s.opnd.capacity + 1)
            pinOk := s.env.pinOk.skip 1 }
          seq := .idle }
      ∧ t.pinAt s.opnd.pin = { s.pinAt s.opnd.pin with dir := .input, pull := .off }
      ∧ (∀ q, q ≠ s.opnd.pin → t.pinAt q = s.pinAt q)
      ∧ L < s.opnd.capacity
      ∧ (∀ j, L < j → j ≤ s.opnd.capacity → s.levelReading j = s.levelReading s.opnd.capacity)
      ∧ (0 < L → s.levelReading L ≠ s.levelReading s.opnd.capacity)
      ∧ t.mem.tr = (List.range (L + 1)).map fun k =>
          { t := s.clockReading k - s.clockReading 0, v := s.levelReading (k + 1) }

/-- R83: with the trigger the first pair whose level differs from the initial one is `RAW[0]` and the capture
goes on from there; the first retained sample is that edge, at time 0. -/
def Obligations.SampleTriggered : Prop :=
  ∀ (f : CmdFlags) (s : State) (j : Nat), f.trigger = true →
    1 ≤ s.opnd.capacity → s.opnd.capacity ≤ 1000000 → s.opnd.pin < s.par.pinCount →
    s.nextPinOk = true →
    1 ≤ j → j ≤ s.env.level.script.length - 1 + 1 →
    (∀ i, 1 ≤ i → i < j → s.levelReading i = s.levelReading 0) →
    s.levelReading j ≠ s.levelReading 0 →
    (s.clockReading (j - 1)).toNat ≤ (s.clockReading (j - 1 + (s.opnd.capacity - 1))).toNat →
    ∃ t, exec (.sample f) s = .next t
      ∧ t = { s with
          clk := s.clockReading (j - 1 + (s.opnd.capacity - 1))
          lastClk := some (s.clockReading (j - 1 + (s.opnd.capacity - 1)))
          pins := t.pins
          prio := .normal
          mem := { s.mem with
            raw := s.capturedFrom (j - 1) j s.opnd.capacity
            tr := trimmed (s.capturedFrom (j - 1) j s.opnd.capacity) }
          wr := { s.wr with
            n := s.opnd.capacity, k := s.opnd.capacity, l0 := s.levelReading 0, l := t.wr.l
            t0 := s.clockReading (j - 1) }
          env := { s.env with
            clock := s.env.clock.skip (j - 1 + s.opnd.capacity)
            level := s.env.level.skip (j + s.opnd.capacity)
            pinOk := s.env.pinOk.skip 1 }
          seq := .idle }
      ∧ t.pinAt s.opnd.pin = { s.pinAt s.opnd.pin with dir := .input, pull := .off }
      ∧ (∀ q, q ≠ s.opnd.pin → t.pinAt q = s.pinAt q)
      ∧ t.mem.tr.head? = some { t := 0, v := s.levelReading j }

/-- R83, R151: while no poll sees a change of level SAMPLE waits, at its priority of before, with nothing
stored; it has no time-out. Resumed, whatever the answers of the agents are then, it captures from the first
poll whose level differs, a capture whose clock wrapped being rejected (R85), and waits on, storing nothing,
while none does (how many polls one machine step makes is the model's choice, log entry 2). -/
def Obligations.SampleWaitsForTrigger : Prop :=
  ∀ (f : CmdFlags) (s : State), f.trigger = true →
    1 ≤ s.opnd.capacity → s.opnd.capacity ≤ 1000000 → s.opnd.pin < s.par.pinCount →
    s.nextPinOk = true →
    (∀ i, i ≤ s.env.level.script.length - 1 + 1 → s.levelReading i = s.levelReading 0) →
    ∃ t, exec (.sample f) s = .next t
      ∧ t = { s with
          clk := t.clk, lastClk := t.lastClk, pins := t.pins, env := t.env
          mem := { s.mem with raw := [] }
          wr := { s.wr with n := s.opnd.capacity, k := 0, l0 := s.levelReading 0 }
          seq := { busy := true, op := some .sample, phase := 2, todo := [.samplePoll s.opnd.pin] } }
      ∧ (∀ q, q ≠ s.opnd.pin → t.pinAt q = s.pinAt q)
      ∧ (∀ (answers : Env) (r : State), r = { t with cmd := none, env := answers } →
          (∀ k, k ≤ answers.level.script.length →
            (∀ i < k, r.levelReading i = s.levelReading 0) → r.levelReading k ≠ s.levelReading 0 →
            ∃ u, step r = .next u ∧ u.seq = .idle ∧ u.prio = .normal
              ∧ u.wlog = s.wlog ∧ u.st = s.st ∧ u.pins = t.pins
              ∧ ((r.clockReading k).toNat ≤ (r.clockReading (k + (s.opnd.capacity - 1))).toNat →
                u.err = s.err ∧ u.exit = s.exit ∧ u.report = s.report
                ∧ u.mem = { s.mem with
                    raw := r.capturedFrom k k s.opnd.capacity
                    tr := trimmed (r.capturedFrom k k s.opnd.capacity) })
              ∧ ((r.clockReading (k + (s.opnd.capacity - 1))).toNat < (r.clockReading k).toNat →
                u.err = FatalError.wrapReject.registers ∧ u.exit = some 4
                ∧ u.report = s.report ++ [.fatal .wrapReject]
                ∧ u.mem = { s.mem with raw := r.capturedFrom k k s.opnd.capacity }))
          ∧ ((∀ i, i ≤ answers.level.script.length → r.levelReading i = s.levelReading 0) →
            step r = .next { r with
              clk := r.clockReading answers.level.script.length
              lastClk := some (r.clockReading answers.level.script.length)
              env := { answers with
                clock := answers.clock.skip (answers.level.script.length + 1)
                level := answers.level.skip (answers.level.script.length + 1) } }))

/-- R82, R85, R119: what SAMPLE rejects, in the order of its tests: the capacity before any hardware access,
the pin before the priority is raised, a capture whose clock wrapped with the trace unchanged, whether it
began with the first pair or, with the trigger, with the first poll `j` whose level differs. -/
def Obligations.SampleRejections : Prop :=
  ∀ (f : CmdFlags) (s : State),
    (s.opnd.capacity < 1 ∨ 1000000 < s.opnd.capacity →
      exec (.sample f) s = .next (raise (.configError .capacity) s))
    ∧ (1 ≤ s.opnd.capacity → s.opnd.capacity ≤ 1000000 →
      (s.par.pinCount ≤ s.opnd.pin →
        exec (.sample f) s = .next (raise (.pinConfigError s.opnd.pin)
          { s with wr := { s.wr with n := s.opnd.capacity } }))
      ∧ (s.opnd.pin < s.par.pinCount → s.nextPinOk = false →
        exec (.sample f) s = .next (raise (.pinConfigError s.opnd.pin) { s with
          wr := { s.wr with n := s.opnd.capacity }
          env := { s.env with pinOk := s.env.pinOk.skip 1 } }))
      ∧ (∀ j, s.opnd.pin < s.par.pinCount → s.nextPinOk = true →
        (f.trigger = false → j = 1) →
        (f.trigger = true → 1 ≤ j ∧ j ≤ s.env.level.script.length - 1 + 1
          ∧ (∀ i, 1 ≤ i → i < j → s.levelReading i = s.levelReading 0)
          ∧ s.levelReading j ≠ s.levelReading 0) →
        (s.clockReading (j - 1 + (s.opnd.capacity - 1))).toNat < (s.clockReading (j - 1)).toNat →
        ∃ t, exec (.sample f) s = .next t
          ∧ t.err = FatalError.wrapReject.registers ∧ t.exit = some 4
          ∧ t.report = s.report ++ [.fatal .wrapReject] ∧ t.seq = .idle ∧ t.prio = .normal
          ∧ t.mem = { s.mem with raw := s.capturedFrom (j - 1) j s.opnd.capacity }
          ∧ t.wlog = s.wlog ∧ t.st = s.st))

/-- R87, R24: the trace SAMPLE leaves starts at time 0 and its times do not decrease, when fewer than 2³² µs
elapse between its first and its last clock read: of a capture that begins with the first pair, of one that
begins, with the trigger, at the first poll `j` whose level differs, and of one that has waited and begins at
poll `k` after the wait. -/
def Obligations.SampleTimesRise : Prop :=
  (∀ (f : CmdFlags) (s t : State) (j : Nat),
    1 ≤ s.opnd.capacity → s.opnd.capacity ≤ 1000000 → s.opnd.pin < s.par.pinCount →
    s.nextPinOk = true →
    (f.trigger = false → j = 1) →
    (f.trigger = true → 1 ≤ j ∧ j ≤ s.env.level.script.length - 1 + 1
      ∧ (∀ i, 1 ≤ i → i < j → s.levelReading i = s.levelReading 0)
      ∧ s.levelReading j ≠ s.levelReading 0) →
    ((List.range (s.opnd.capacity - 1)).map fun i =>
      s.env.clock.answer Config.clkAdvance (j + i)).sum < 4294967296 →
    (s.clockReading (j - 1)).toNat ≤ (s.clockReading (j - 1 + (s.opnd.capacity - 1))).toNat →
    exec (.sample f) s = .next t →
    timeAt t.mem.tr 0 = 0 ∧ t.mem.tr ≠ [] ∧ timesRise t.mem.tr)
  ∧ (∀ (s t : State) (pin k : Nat), s.Inv → s.cmd = none →
    s.seq = { busy := true, op := some .sample, phase := 2, todo := [.samplePoll pin] } →
    k ≤ s.env.level.script.length →
    (∀ i < k, s.levelReading i = s.wr.l0) → s.levelReading k ≠ s.wr.l0 →
    ((List.range (s.wr.n - 1)).map fun i =>
      s.env.clock.answer Config.clkAdvance (k + 1 + i)).sum < 4294967296 →
    (s.clockReading k).toNat ≤ (s.clockReading (k + (s.wr.n - 1))).toNat →
    step s = .next t →
    timeAt t.mem.tr 0 = 0 ∧ t.mem.tr ≠ [] ∧ timesRise t.mem.tr)

/-! ### The transmitter (spec/43_transmitter.md) -/

/-- R89, R93, R94: TRANSMIT without statistics writes the levels of the trace in order, each at the first
clock read that has reached its scheduled time, leaves the schedule in the trace memory, the pin an output
at the last level written and the priority normal, and changes nothing else but its own registers. -/
def Obligations.TransmitWrites : Prop :=
  ∀ (f : CmdFlags) (s : State) (ds : List Nat), f.stats = false →
    s.opnd.pin < s.par.pinCount → s.nextPinOk = true →
    fitsWindow (s.clockReading 0) s.nextDelay s.mem.tr →
    s.waitsEnd 0 1 (scheduleFrom (s.clockReading 0) s.nextDelay s.mem.tr) ds →
    ∃ t, exec (.transmit f) s = .next t
      ∧ t = { s with
          clk := s.clockReading (ds.getLastD 0)
          lastClk := some (s.clockReading (ds.getLastD 0))
          pins := t.pins
          prio := .normal
          mem := { s.mem with tr := scheduleFrom (s.clockReading 0) s.nextDelay s.mem.tr }
          wr := { s.wr with
            c0 := s.clockReading 0, startEpoch := s.clockReading 0 + s.nextDelay
            i := t.wr.i, now := t.wr.now }
          wlog := s.wlog ++ ((scheduleFrom (s.clockReading 0) s.nextDelay s.mem.tr).zip ds).map
            (fun p => { pin := s.opnd.pin, level := p.1.v, clock := some (s.clockReading p.2) })
          env := { s.env with
            clock := s.env.clock.skip (ds.getLastD 0 + 1)
            pinOk := s.env.pinOk.skip 1
            delay := s.env.delay.skip 1 }
          seq := .idle }
      ∧ t.pinAt s.opnd.pin =
          { dir := .output, pull := .off
            out := (s.mem.tr.getLast?.map (·.v)).getD (s.pinAt s.opnd.pin).out }
      ∧ ∀ q, q ≠ s.opnd.pin → t.pinAt q = s.pinAt q

/-- R94, R95, R123: with statistics one more clock read follows each wait and is the observed value; after
the last write the negative and, where a limit is given, the excessive differences are reported in index
order and then the maximum, the sum and the count. -/
def Obligations.TransmitStatistics : Prop :=
  ∀ (f : CmdFlags) (s : State) (ds : List Nat) (xs : List Sample) (diffs : List Int)
    (late : List Report), f.stats = true →
    s.opnd.pin < s.par.pinCount → s.nextPinOk = true → s.mem.tr.length ≤ Config.trCap →
    fitsWindow (s.clockReading 0) s.nextDelay s.mem.tr →
    xs = scheduleFrom (s.clockReading 0) s.nextDelay s.mem.tr → s.waitsEnd 1 1 xs ds →
    diffs = (xs.zip ds).map (fun p => (s.clockReading (p.2 + 1) - p.1.t).toInt) →
    late = ((xs.zip diffs).zipIdx.filter fun p =>
        decide (p.1.2 < 0) || s.par.lateLimit.any fun m => decide (m < p.1.2)).map
      (fun p => .anomaly (.timingAnomaly p.2 p.1.1.t p.1.2)) →
    ∃ t, exec (.transmit f) s = .next t
      ∧ t = { s with
          clk := t.clk, lastClk := t.lastClk, env := t.env, pins := t.pins
          prio := .normal
          mem := { s.mem with tr := xs, obs := ds.map fun d => s.clockReading (d + 1) }
          wr := { s.wr with
            c0 := s.clockReading 0, startEpoch := s.clockReading 0 + s.nextDelay
            i := t.wr.i, now := t.wr.now, statMax := t.wr.statMax, statSum := t.wr.statSum }
          wlog := s.wlog ++ (xs.zip ds).map (fun p =>
            { pin := s.opnd.pin, level := p.1.v, clock := some (s.clockReading (p.2 + 1)) })
          st := { s.st with timingAnomaly := s.st.timingAnomaly || !late.isEmpty }
          report := t.report
          seq := .idle }
      ∧ (xs = [] → t.report = s.report)
      ∧ (xs ≠ [] → t.report = s.report ++ late ++ [.stats t.wr.statMax t.wr.statSum xs.length]
          ∧ t.wr.statSum = diffs.sum ∧ t.wr.statMax ∈ diffs ∧ ∀ d ∈ diffs, d ≤ t.wr.statMax)
      ∧ ∀ q, q ≠ s.opnd.pin → t.pinAt q = s.pinAt q

/-- R46, R94: as long as the clock does not wrap, no pin write of a transmission that HOST started comes before
its scheduled time, the writes follow the schedule in index order and their clock values do not decrease:
whether it ends, waits or is rejected (then it has written nothing), and when it goes on after a wait, from
edge `I`. One that ends without an error has written every edge. A transmission inside a mode is not spoken
of here. -/
def Obligations.TransmitNeverEarly : Prop :=
  (∀ (f : CmdFlags) (s t : State), exec (.transmit f) s = .next t →
    s.clockRises (t.env.clock.used - s.env.clock.used) →
    ∃ ws, t.wlog = s.wlog ++ ws ∧ FollowsSchedule s.opnd.pin t.mem.tr ws
      ∧ (s.err.kind = .none → t.err.kind ≠ .none → ws = [])
      ∧ (s.err.kind = .none → t.err.kind = .none → t.seq.busy = false →
          ws.length = t.mem.tr.length))
  ∧ (∀ (pin : Nat) (stats : Bool) (s t : State), s.cmd = none →
    s.seq = { busy := true, op := some .transmit, phase := 5, todo := [.transmitWait pin stats] } →
    step s = .next t → s.clockRises (t.env.clock.used - s.env.clock.used) →
    ∃ ws, t.wlog = s.wlog ++ ws ∧ t.mem.tr = s.mem.tr
      ∧ FollowsSchedule pin (s.mem.tr.drop s.wr.i) ws
      ∧ (t.seq.busy = false → ws.length = s.mem.tr.length - s.wr.i))

/-- R93, the schedule bias: a transmission that is not rejected for the wrap, of a trace whose times do not
decrease, schedules every edge between the clock reading `C0` and `C0 + START_DELAY + d`, `d` being the last
relative time. -/
def Obligations.ScheduleBias : Prop :=
  ∀ (f : CmdFlags) (s t : State), timesRise s.mem.tr →
    fitsWindow (s.clockReading 0) s.nextDelay s.mem.tr → exec (.transmit f) s = .next t →
    t.mem.tr.length = s.mem.tr.length
    ∧ ∀ x ∈ t.mem.tr, (s.clockReading 0).toNat ≤ x.t.toNat
      ∧ x.t.toNat ≤ (s.clockReading 0).toNat + s.nextDelay.toNat
          + (timeAt s.mem.tr (s.mem.tr.length - 1)).toNat

/-- R92, R89: a transmission that would cross the wrap is rejected before the trace, a pin or the priority
changes; a pin that cannot be configured ends it before any write, the schedule already made. -/
def Obligations.TransmitRejections : Prop :=
  ∀ (f : CmdFlags) (s : State),
    (¬ fitsWindow (s.clockReading 0) s.nextDelay s.mem.tr →
      exec (.transmit f) s = .next (raise .wrapReject { s with
        clk := s.clockReading 0
        lastClk := some (s.clockReading 0)
        env := { s.env with clock := s.env.clock.skip 1, delay := s.env.delay.skip 1 }
        wr := { s.wr with c0 := s.clockReading 0, startEpoch := s.clockReading 0 + s.nextDelay } }))
    ∧ (fitsWindow (s.clockReading 0) s.nextDelay s.mem.tr →
      (s.par.pinCount ≤ s.opnd.pin ∨ s.nextPinOk = false) →
      ∃ t, exec (.transmit f) s = .next t
        ∧ t = raise (.pinConfigError s.opnd.pin) { s with
            clk := s.clockReading 0
            lastClk := some (s.clockReading 0)
            env := t.env
            mem := { s.mem with tr := scheduleFrom (s.clockReading 0) s.nextDelay s.mem.tr }
            wr := { s.wr with
              c0 := s.clockReading 0, startEpoch := s.clockReading 0 + s.nextDelay, i := t.wr.i } })

/-! ### The decoder (spec/44_decoder.md) -/

/-- R98: FLATTEN sets the middle level of every (1,0,1) triple of the original trace whose low is shorter
than 200 µs, and changes no time, no other level, and nothing else but `I` and `DT`. -/
def Obligations.FlattenFillsShortLows : Prop :=
  ∀ (f : CmdFlags) (s : State), ∃ t, exec (.flatten f) s = .next t
    ∧ t = { s with
        mem := { s.mem with tr := t.mem.tr }
        wr := { s.wr with i := t.wr.i, dt := t.wr.dt }
        seq := .idle }
    ∧ t.mem.tr = (List.range s.mem.tr.length).map fun i =>
        { t := timeAt s.mem.tr i
          v := levelAt s.mem.tr i
            || (decide (0 < i) && decide (i + 1 < s.mem.tr.length) && levelAt s.mem.tr (i - 1)
              && levelAt s.mem.tr (i + 1)
              && decide ((timeAt s.mem.tr (i + 1) - timeAt s.mem.tr i).toNat < 200)) }

/-- R99, R60: EXTRACT_BITS started by HOST reads the lows from index 4 on up to the first longer than
2000 µs; those longer than 800 µs are 1 bits; whole bytes go to `PAY`, the first bit lowest; a last partial
byte is dropped; the levels are not looked at. It fits where the bytes fit `PAY_CAP`; otherwise it is
`CapacityExceeded(PAY)` with the bytes that fit. -/
def Obligations.ExtractBitsOutcome : Prop :=
  ∀ (f : CmdFlags) (s : State),
    ((frameLows s.mem.tr).length / 8 ≤ s.par.payCap →
      ∃ t, exec (.extractBits f) s = .next t
        ∧ t = { s with
            mem := { s.mem with pay := t.mem.pay }
            wr := { s.wr with
              i := t.wr.i, dt := t.wr.dt, cur := t.wr.cur
              nbits := (frameLows s.mem.tr).length % 8
              lastIndex := frameEnd s.mem.tr }
            seq := .idle }
        ∧ t.mem.pay.length = (frameLows s.mem.tr).length / 8
        ∧ spellsBits t.mem.pay (frameLows s.mem.tr))
    ∧ (s.par.payCap < (frameLows s.mem.tr).length / 8 →
      ∃ t, exec (.extractBits f) s = .next t
        ∧ t = raise (.capacityExceeded .pay) { s with mem := { s.mem with pay := t.mem.pay }, wr := t.wr }
        ∧ t.mem.pay.length = s.par.payCap
        ∧ spellsBits t.mem.pay (frameLows s.mem.tr))

/-- R100: CHECKSUM compares the sum of all bytes but the last, modulo 256, with the last; a mismatch, and an
empty payload, set the flag and append one report; the payload is unchanged. Of any payload and depth, and
of `PAY` at depth 0 when HOST starts it. -/
def Obligations.ChecksumOutcome : Prop :=
  (∀ (d : Nat) (s : State), checksum [] d s = { s with
      st := { s.st with checksumMismatch := true }
      report := s.report ++ [.anomaly (.checksumMismatch d none)] })
  ∧ (∀ (ps : List Byte) (last sum : Byte) (d : Nat) (s : State),
      sum = BitVec.ofNat 8 ((ps.map BitVec.toNat).sum) →
      (sum = last → checksum (ps ++ [last]) d s = { s with wr := { s.wr with sum := sum } })
      ∧ (sum ≠ last → checksum (ps ++ [last]) d s = { s with
          wr := { s.wr with sum := sum }
          st := { s.st with checksumMismatch := true }
          report := s.report ++ [.anomaly (.checksumMismatch d (some (sum, last)))] }))
  ∧ (∀ (f : CmdFlags) (s : State),
      exec (.checksum f) s = .next { checksum s.mem.pay 0 s with seq := .idle })

/-- R101, R102: DECODE of a trace whose half-frames fit `PAY_CAP`, nested ones included, ends, however long the
trace is; the trace it leaves is its input compacted, flattened and compacted again, and the payload is what
EXTRACT_BITS reads from that; pins, clock, files and logs other than `REPORT` are unchanged, and no error is
raised. Where the bytes of a half-frame do not fit, it is `CapacityExceeded(PAY)` (R121), with the trace already
replaced and the payloads as they were: in the first half-frame nothing is reported before; in the second, the
checksum of the first already is. -/
def Obligations.DecodeCompletes : Prop :=
  ∀ (f g : CmdFlags) (s : State),
    ∃ u v w, exec (.compact g) s = .next u ∧ exec (.flatten g) u = .next v ∧ exec (.compact g) v = .next w
      ∧ w.mem.tr = decodeInput s.mem.tr
      ∧ (FramesFit s.par.payCap w.mem.tr →
        ∃ t x, exec (.decode f) s = .next t
          ∧ t = { s with
              mem := { s.mem with tr := t.mem.tr, pay := t.mem.pay, pay2 := t.mem.pay2 }
              wr := { s.wr with
                i := t.wr.i, dt := t.wr.dt, cur := t.wr.cur, nbits := t.wr.nbits
                lastIndex := t.wr.lastIndex, sum := t.wr.sum, depth := t.wr.depth }
              st := t.st
              report := t.report
              seq := .idle }
          ∧ exec (.extractBits g) w = .next x
          ∧ t.mem.tr = w.mem.tr ∧ t.mem.pay = x.mem.pay)
      ∧ (¬ FramesFit s.par.payCap w.mem.tr →
        ∃ t reports, exec (.decode f) s = .next t
          ∧ t = raise (.capacityExceeded .pay) { s with
              mem := { s.mem with tr := w.mem.tr }
              wr := t.wr
              st := t.st
              report := s.report ++ reports })
      ∧ (s.par.payCap < (frameLows w.mem.tr).length / 8 →
        ∃ t, exec (.decode f) s = .next t
          ∧ t = raise (.capacityExceeded .pay)
              { s with mem := { s.mem with tr := w.mem.tr }, wr := t.wr })
      ∧ ((frameLows w.mem.tr).length / 8 ≤ s.par.payCap → secondWindow w.mem.tr →
        s.par.payCap < (frameLows (w.mem.tr.drop (frameEnd w.mem.tr))).length / 8 →
        ∃ t x, exec (.decode f) s = .next t ∧ exec (.extractBits g) w = .next x
          ∧ t = raise (.capacityExceeded .pay) { s with
              mem := { s.mem with tr := w.mem.tr }
              wr := t.wr
              st := { s.st with
                checksumMismatch := s.st.checksumMismatch || !(checksumReports 0 x.mem.pay).isEmpty }
              report := s.report ++ checksumReports 0 x.mem.pay })

/-- R101, R103: the second half-frame check, of a trace of any length whose half-frames fit `PAY_CAP`. Outside
the window, `4 n <= 10 lastIndex <= 6 n`, only the first half-frame is decoded and its checksum reported. Inside
it the tail from `lastIndex` is decoded too; where that tail has no second frame of its own, the reports are the
checksum of the first, the checksum of the second at depth 1, and the comparison, in that order. R30, R122: each
report sets its flag, and no other flag changes. R103 (c): a tail that has a second frame of its own is decoded
in the same way, one deeper, and its reports stand before the comparison. R114, R100: an empty trace decodes to
an empty payload with one checksum report, and no second half-frame (log entry 14). -/
def Obligations.SecondHalfFrameCheck : Prop :=
  (∀ (f : CmdFlags) (s t : State), exec (.decode f) s = .next t →
    (frameLows t.mem.tr).length / 8 ≤ s.par.payCap →
    (¬ secondWindow t.mem.tr →
      readsBytes t.mem.tr t.mem.pay
      ∧ t.mem.pay2 = [] ∧ t.report = s.report ++ checksumReports 0 t.mem.pay
      ∧ t.st = { s.st with
          checksumMismatch := s.st.checksumMismatch || !(checksumReports 0 t.mem.pay).isEmpty })
    ∧ (secondWindow t.mem.tr →
      ∀ tail, tail = t.mem.tr.drop (frameEnd t.mem.tr) →
      (frameLows tail).length / 8 ≤ s.par.payCap → ¬ secondWindow tail →
      readsBytes t.mem.tr t.mem.pay ∧ readsBytes tail t.mem.pay2
      ∧ t.report = s.report ++ checksumReports 0 t.mem.pay ++ checksumReports 1 t.mem.pay2
          ++ compareReports 0 t.mem.pay t.mem.pay2
      ∧ t.st = { s.st with
          checksumMismatch := s.st.checksumMismatch
            || !(checksumReports 0 t.mem.pay ++ checksumReports 1 t.mem.pay2).isEmpty
          countMismatch := s.st.countMismatch || decide (t.mem.pay2.length ≠ t.mem.pay.length)
          contentMismatch := s.st.contentMismatch
            || (decide (t.mem.pay2.length = t.mem.pay.length)
              && !(compareReports 0 t.mem.pay t.mem.pay2).isEmpty) }))
  ∧ (∀ (f : CmdFlags) (s t : State), exec (.decode f) s = .next t → FramesFit s.par.payCap t.mem.tr →
    ∃ reports, HalfFrames 0 t.mem.tr t.mem.pay t.mem.pay2 reports ∧ t.report = s.report ++ reports
      ∧ (t.st.checksumMismatch = true ↔ s.st.checksumMismatch = true
          ∨ ∃ d values, Report.anomaly (.checksumMismatch d values) ∈ reports)
      ∧ (t.st.countMismatch = true ↔ s.st.countMismatch = true
          ∨ ∃ d m n, Report.anomaly (.countMismatch d m n) ∈ reports)
      ∧ (t.st.contentMismatch = true ↔ s.st.contentMismatch = true
          ∨ ∃ d j a b, Report.anomaly (.contentMismatch d j a b) ∈ reports)
      ∧ t.st.timingAnomaly = s.st.timingAnomaly)
  ∧ (∀ (f : CmdFlags) (s : State), s.mem.tr = [] →
    ∃ t, exec (.decode f) s = .next t ∧ t.err = s.err ∧ t.exit = s.exit ∧ t.seq = .idle
      ∧ t.mem = { s.mem with pay := [], pay2 := [] }
      ∧ t.report = s.report ++ [.anomaly (.checksumMismatch 0 none)]
      ∧ t.st = { s.st with checksumMismatch := true })

/-- R104, the payload round trip: for every well-formed payload of 1 to `PAY_CAP` bytes whose encoded trace
fits `TR_CAP` (at most 1951 bytes), decoding what ENCODE makes of it yields it, in both half-frames, and
reports nothing. -/
def Obligations.PayloadRoundTrip : Prop :=
  ∀ (f g : CmdFlags) (s : State) (ps : List Byte) (last : Byte),
    s.mem.pay = ps ++ [last] → last = BitVec.ofNat 8 ((ps.map BitVec.toNat).sum) →
    s.mem.pay.length ≤ s.par.payCap → s.mem.pay.length ≤ 1951 →
    ∃ t u, exec (.encode f) s = .next t ∧ exec (.decode g) t = .next u
      ∧ u.mem.pay = s.mem.pay ∧ u.mem.pay2 = s.mem.pay ∧ u.report = s.report ∧ u.st = s.st

/-! ### The encoder (spec/45_encoder.md) -/

/-- R105, R56: a string of an even number of hex digits, `0` to `9`, `A` to `F` worth 10 to 15, or `a` to `f`
worth the same, is the payload of its pairs, the first digit the high nibble; an odd length or another
character is a configuration error before anything is written; a payload that does not fit is
`CapacityExceeded(PAY)`. -/
def Obligations.HexParseOutcome : Prop :=
  ∀ (f : CmdFlags) (s : State) (isDigit : Byte → Prop) (val : Byte → Nat),
    (∀ b, isDigit b ↔ (48 ≤ b.toNat ∧ b.toNat ≤ 57) ∨ (65 ≤ b.toNat ∧ b.toNat ≤ 70)
      ∨ (97 ≤ b.toNat ∧ b.toNat ≤ 102)) →
    (∀ b, val b =
      if b.toNat ≤ 57 then b.toNat - 48 else if b.toNat ≤ 70 then b.toNat - 55 else b.toNat - 87) →
    ((s.opnd.hex.length % 2 = 1 ∨ ∃ b ∈ s.opnd.hex, ¬ isDigit b) →
      exec (.hexParse f) s = .next (raise (.configError .hexPayload) s))
    ∧ (∀ n, s.opnd.hex.length = 2 * n → (∀ b ∈ s.opnd.hex, isDigit b) →
      (s.par.payCap < n → exec (.hexParse f) s = .next (raise (.capacityExceeded .pay) s))
      ∧ (n ≤ s.par.payCap → exec (.hexParse f) s = .next { s with
          mem := { s.mem with
            pay := (List.range n).map fun j => BitVec.ofNat 8
              (16 * val (s.opnd.hex.getD (2 * j) 0) + val (s.opnd.hex.getD (2 * j + 1) 0)) }
          seq := .idle }))

/-- R56: the hex text of a payload is uppercase, two digits a byte, and parses back to the payload. -/
def Obligations.HexTextParsesBack : Prop :=
  ∀ (f : CmdFlags) (s : State) (ps : List Byte), s.opnd.hex = hexText ps →
    (hexText ps).length = 2 * ps.length
    ∧ (∀ b ∈ hexText ps, (48 ≤ b.toNat ∧ b.toNat ≤ 57) ∨ (65 ≤ b.toNat ∧ b.toNat ≤ 70))
    ∧ (ps.length ≤ s.par.payCap → exec (.hexParse f) s =
        .next { s with mem := { s.mem with pay := ps }, seq := .idle })

/-- R106: BURST appends the `floor(M / 26)` whole cycles from the cursor, 15 µs high and 11 µs low, then moves
the cursor by the space; with `TR` full it is `CapacityExceeded(TR)` with the samples that fit; with a cursor
that nothing has written it is refused (R39). -/
def Obligations.BurstOutcome : Prop :=
  ∀ (f : CmdFlags) (s : State),
    (s.wr.tcurWritten = true → s.mem.tr.length + 2 * (s.opnd.mark.toNat / 26) ≤ Config.trCap →
      exec (.burst f) s = .next { s with
        mem := { s.mem with tr := s.mem.tr ++ markCycles s.wr.tcur s.opnd.mark }
        wr := { s.wr with
          bstart := s.wr.tcur
          tcur := s.wr.tcur + BitVec.ofNat 32 (26 * (s.opnd.mark.toNat / 26)) + s.opnd.space
          tcurWritten := true }
        seq := .idle })
    ∧ (s.wr.tcurWritten = true → s.mem.tr.length ≤ Config.trCap →
      Config.trCap < s.mem.tr.length + 2 * (s.opnd.mark.toNat / 26) →
      ∃ t, exec (.burst f) s = .next t
        ∧ t = raise (.capacityExceeded .tr) { s with
            mem := { s.mem with tr := s.mem.tr
              ++ (markCycles s.wr.tcur s.opnd.mark).take (Config.trCap - s.mem.tr.length) }
            wr := { s.wr with bstart := s.wr.tcur, tcur := t.wr.tcur, tcurWritten := true } })
    ∧ (s.wr.tcurWritten = false → exec (.burst f) s = .refused .unwrittenCursor)

/-- R107, R59, R108: ENCODE makes of the payload as it is the point (0, 0) and two identical half-frames, each
a header, the bits of the bytes, lowest first, a stop mark and a gap; the cursor ends at the end of the
second gap. A trace that does not fit is `CapacityExceeded(TR)` with `TR` full. -/
def Obligations.EncodeOutcome : Prop :=
  ∀ (f : CmdFlags) (s : State),
    (577 + 512 * s.mem.pay.length ≤ Config.trCap →
      ∃ t, exec (.encode f) s = .next t
        ∧ t = { s with
            mem := { s.mem with tr := encodedTrace s.mem.pay }
            wr := { s.wr with
              bstart := t.wr.bstart
              tcur := BitVec.ofNat 32 (700 + 2 * (3328 + 1688 + 8 * s.mem.pay.length * 416
                + 430 * (wireBits s.mem.pay).count false + 1268 * (wireBits s.mem.pay).count true
                + 416 + 11354))
              tcurWritten := true }
            seq := .idle })
    ∧ (Config.trCap < 577 + 512 * s.mem.pay.length →
      ∃ t, exec (.encode f) s = .next t
        ∧ t = raise (.capacityExceeded .tr) { s with
            mem := { s.mem with tr := (encodedTrace s.mem.pay).take Config.trCap }, wr := t.wr })

/-- R107, R109, R24: the trace of a payload of `m` bytes, of at most 1951, has `577 + 512 m` samples, begins
(0, 0), (700, 1), is compact, and its times increase strictly. -/
def Obligations.EncodedTraceShape : Prop :=
  ∀ ps : List Byte, ps.length ≤ 1951 →
    (encodedTrace ps).length = 577 + 512 * ps.length
    ∧ (encodedTrace ps).take 2 = [{ t := 0, v := false }, { t := 700, v := true }]
    ∧ isCompact (encodedTrace ps) ∧ timesRiseStrictly (encodedTrace ps)

/-! ### The modes (spec/46_dispatch.md) -/

/-- R16, R111, R117: a mode whose configuration misses a required option, or names a pin or a capacity out of
range, is a configuration error that names the option, with no pin, priority, clock or file touched. That
`CFG.mode` must name the mode (log entry 13), and which test comes first where R111 and step 0 of the modes
leave it open (log entry 31), is the model's reading. -/
def Obligations.ModeConfigErrors : Prop :=
  ∀ (f : CmdFlags) (s : State) (fails : ConfigOption → State),
    (∀ o, fails o = raise (.configError o) { s with modeStarted := true }) →
    (s.cfg.mode ≠ some .sample → exec (.modeSample f) s = .next (fails .mode))
    ∧ (s.cfg.mode ≠ some .sendHex → exec (.modeSendHex f) s = .next (fails .mode))
    ∧ (s.cfg.mode ≠ some .replayFile → exec (.modeReplayFile f) s = .next (fails .mode))
    ∧ (s.cfg.mode = some .sample →
      ((s.cfg.pin = none ∨ ∃ p, s.cfg.pin = some p ∧ s.par.pinCount ≤ p) →
        exec (.modeSample f) s = .next (fails .pin))
      ∧ ((∃ p, s.cfg.pin = some p ∧ p < s.par.pinCount) →
        (s.cfg.capacity < 1 ∨ 1000000 < s.cfg.capacity) →
        exec (.modeSample f) s = .next (fails .capacity)))
    ∧ (s.cfg.mode = some .sendHex →
      (s.cfg.hexPayload = none → exec (.modeSendHex f) s = .next (fails .hexPayload))
      ∧ (s.cfg.hexPayload ≠ none → (∃ p, s.cfg.pin = some p ∧ s.par.pinCount ≤ p) →
        exec (.modeSendHex f) s = .next (fails .pin))
      ∧ (s.cfg.hexPayload ≠ none → (∀ p, s.cfg.pin = some p → p < s.par.pinCount) →
        (s.cfg.capacity < 1 ∨ 1000000 < s.cfg.capacity) →
        exec (.modeSendHex f) s = .next (fails .capacity))
      ∧ (∀ hex, s.cfg.hexPayload = some hex → (∀ p, s.cfg.pin = some p → p < s.par.pinCount) →
        1 ≤ s.cfg.capacity → s.cfg.capacity ≤ 1000000 →
        parseHex hex = none → exec (.modeSendHex f) s = .next (fails .hexPayload)))
    ∧ (s.cfg.mode = some .replayFile →
      (s.cfg.inputTracePath = none → exec (.modeReplayFile f) s = .next (fails .inputTracePath))
      ∧ (s.cfg.inputTracePath ≠ none → (∃ p, s.cfg.pin = some p ∧ s.par.pinCount ≤ p) →
        exec (.modeReplayFile f) s = .next (fails .pin))
      ∧ (s.cfg.inputTracePath ≠ none → (∀ p, s.cfg.pin = some p → p < s.par.pinCount) →
        (s.cfg.capacity < 1 ∨ 1000000 < s.cfg.capacity) →
        exec (.modeReplayFile f) s = .next (fails .capacity)))

/-- R112: MODE_SAMPLE completes: the guard, which returns at the first read far enough from the wrap, the
capture, from the first pair or, with the trigger, from the first poll whose level differs, the file of the
trimmed trace if a path is configured, DECODE of that trace (its half-frames fitting `PAY_CAP`) and the report
of its payload if asked for, `EXIT = 0`. -/
def Obligations.ModeSampleCompletes : Prop :=
  ∀ (f g : CmdFlags) (s : State) (pin k j : Nat) (raw : List Sample),
    s.cfg.mode = some .sample → s.cfg.pin = some pin → pin < s.par.pinCount →
    1 ≤ s.cfg.capacity → s.cfg.capacity ≤ 1000000 →
    k ≤ s.env.clock.script.length →
    (∀ i < k, 4294967296 - (s.clockReading i).toNat < s.par.wrapMargin * 1000000) →
    s.par.wrapMargin * 1000000 ≤ 4294967296 - (s.clockReading k).toNat → s.nextPinOk = true →
    (s.cfg.triggerBeforeSample = false → j = 1) →
    (s.cfg.triggerBeforeSample = true →
      1 ≤ j ∧ j ≤ s.env.level.script.length - 1 + 1
        ∧ (∀ i, 1 ≤ i → i < j → s.levelReading i = s.levelReading 0)
        ∧ s.levelReading j ≠ s.levelReading 0) →
    (s.clockReading (k + j)).toNat ≤ (s.clockReading (k + j + (s.cfg.capacity - 1))).toNat →
    (s.cfg.outputTracePath ≠ none → s.nextWritable = true) →
    raw = s.capturedFrom (k + j) j s.cfg.capacity →
    (s.cfg.decodeAfterSample = true → FramesFit s.par.payCap (decodeInput (trimmed raw))) →
    ∃ t, exec (.modeSample f) s = .next t
      ∧ t.exit = some 0 ∧ t.err = s.err ∧ t.seq = .idle ∧ t.prio = .normal ∧ t.modeStarted = true
      ∧ t.cfg = s.cfg ∧ t.wlog = s.wlog ∧ t.mem.raw = raw ∧ t.mem.obs = s.mem.obs
      ∧ t.clk = s.clockReading (k + j + (s.cfg.capacity - 1))
      ∧ t.pinAt pin = { s.pinAt pin with dir := .input, pull := .off }
      ∧ (∀ q, q ≠ pin → t.pinAt q = s.pinAt q)
      ∧ (s.cfg.outputTracePath = none → t.mem.files = s.mem.files)
      ∧ (∀ path, s.cfg.outputTracePath = some path →
          t.mem.files = fileStore path (traceText s.cfg.includeFlank (trimmed raw)) s.mem.files)
      ∧ (s.cfg.decodeAfterSample = false →
          t.mem.tr = trimmed raw ∧ t.mem.pay = s.mem.pay ∧ t.mem.pay2 = s.mem.pay2
          ∧ t.report = s.report ∧ t.st = s.st)
      ∧ (s.cfg.decodeAfterSample = true →
          ∃ d, exec (.decode g) { s with mem := { s.mem with tr := trimmed raw } } = .next d
            ∧ t.mem.tr = d.mem.tr ∧ t.mem.pay = d.mem.pay ∧ t.mem.pay2 = d.mem.pay2 ∧ t.st = d.st
            ∧ t.report = d.report ++ [.decoded (hexText d.mem.pay)])

/-- R113: MODE_SEND_HEX without a pin: the hex string is parsed and encoded, the trace written if a path is
configured, `EXIT = 0`, and no hardware is touched. -/
def Obligations.ModeSendHexWithoutPin : Prop :=
  ∀ (f : CmdFlags) (s : State) (hex : Text) (ps : List Byte),
    s.cfg.mode = some .sendHex → s.cfg.pin = none → s.cfg.hexPayload = some hex →
    1 ≤ s.cfg.capacity → s.cfg.capacity ≤ 1000000 →
    parseHex hex = some ps → ps.length ≤ s.par.payCap → 577 + 512 * ps.length ≤ Config.trCap →
    (s.cfg.outputTracePath ≠ none → s.nextWritable = true) →
    ∃ t, exec (.modeSendHex f) s = .next t
      ∧ t = { s with
          mem := { s.mem with pay := ps, tr := encodedTrace ps, files := t.mem.files }
          wr := { s.wr with
            bstart := t.wr.bstart, tcur := t.wr.tcur, tcurWritten := true, i := t.wr.i }
          env := { s.env with writable := t.env.writable }
          exit := some 0
          modeStarted := true
          seq := .idle }
      ∧ (s.cfg.outputTracePath = none → t.mem.files = s.mem.files)
      ∧ (∀ path, s.cfg.outputTracePath = some path →
          t.mem.files = fileStore path (traceText s.cfg.includeFlank (encodedTrace ps)) s.mem.files)

/-- R113: MODE_SEND_HEX with a pin: the hex string is parsed and encoded, the trace written if a path is
configured; then the guard, which returns at the first read far enough from the wrap, and TRANSMIT of the
encoded trace, with statistics if asked for: what that reports, stores and leaves of the pin is what TRANSMIT
started by HOST at that point gives. `EXIT = 0`. -/
def Obligations.ModeSendHexTransmits : Prop :=
  ∀ (f g : CmdFlags) (s : State) (pin k extra : Nat) (hex : Text) (ps : List Byte) (xs : List Sample)
    (ds : List Nat),
    s.cfg.mode = some .sendHex → s.cfg.pin = some pin → pin < s.par.pinCount →
    1 ≤ s.cfg.capacity → s.cfg.capacity ≤ 1000000 →
    s.cfg.hexPayload = some hex → parseHex hex = some ps → ps.length ≤ s.par.payCap →
    577 + 512 * ps.length ≤ Config.trCap →
    (s.cfg.outputTracePath ≠ none → s.nextWritable = true) → s.nextPinOk = true →
    k ≤ s.env.clock.script.length →
    (∀ i < k, 4294967296 - (s.clockReading i).toNat < s.par.wrapMargin * 1000000) →
    s.par.wrapMargin * 1000000 ≤ 4294967296 - (s.clockReading k).toNat →
    fitsWindow (s.clockReading (k + 1)) s.nextDelay (encodedTrace ps) →
    xs = scheduleFrom (s.clockReading (k + 1)) s.nextDelay (encodedTrace ps) →
    extra = (if s.cfg.enableSendStatistics = true then 1 else 0) → s.waitsEnd extra (k + 2) xs ds →
    g.stats = s.cfg.enableSendStatistics →
    ∃ t d, exec (.modeSendHex f) s = .next t
      ∧ exec (.transmit g) { s with
          clk := s.clockReading k
          lastClk := some (s.clockReading k)
          env := { s.env with clock := s.env.clock.skip (k + 1) }
          opnd := { s.opnd with pin := pin }
          mem := { s.mem with pay := ps, tr := encodedTrace ps } } = .next d
      ∧ t.exit = some 0 ∧ t.err = s.err ∧ t.seq = .idle ∧ t.prio = .normal ∧ t.modeStarted = true
      ∧ t.cfg = s.cfg ∧ t.mem.pay = ps ∧ t.mem.tr = xs ∧ t.mem.raw = s.mem.raw
      ∧ t.mem.pay2 = s.mem.pay2
      ∧ t.wlog = s.wlog ++ (xs.zip ds).map
          (fun p => { pin := pin, level := p.1.v, clock := some (s.clockReading (p.2 + extra)) })
      ∧ t.mem.obs = d.mem.obs ∧ t.report = d.report ∧ t.st = d.st ∧ t.pins = d.pins ∧ t.clk = d.clk
      ∧ (s.cfg.enableSendStatistics = false →
          t.mem.obs = s.mem.obs ∧ t.report = s.report ∧ t.st = s.st)
      ∧ (s.cfg.outputTracePath = none → t.mem.files = s.mem.files)
      ∧ (∀ path, s.cfg.outputTracePath = some path →
          t.mem.files = fileStore path (traceText s.cfg.includeFlank (encodedTrace ps)) s.mem.files)

/-- R114: MODE_REPLAY_FILE without a pin: the file is read; if asked for, the trace read, whose half-frames fit
`PAY_CAP`, is decoded and its payload reported, and, if that too is asked for and an output path configured, the decoded bytes are encoded
and written there; otherwise no file changes. `EXIT = 0`, and nothing is transmitted. -/
def Obligations.ModeReplayWithoutPin : Prop :=
  ∀ (f g : CmdFlags) (s : State) (path contents : Text) (xs : List Sample),
    s.cfg.mode = some .replayFile → s.cfg.pin = none → s.cfg.inputTracePath = some path →
    1 ≤ s.cfg.capacity → s.cfg.capacity ≤ 1000000 →
    fileLookup path s.mem.files = some contents → s.nextReadable = true →
    (fileLines contents).tail.map parseLine = xs.map some → xs.length ≤ Config.trCap →
    (s.cfg.decodeAfterSample = true → FramesFit s.par.payCap (decodeInput xs)
      ∧ (s.cfg.reencode = true → s.cfg.outputTracePath ≠ none → s.nextWritable = true
          ∧ 577 + 512 * ((frameLows (decodeInput xs)).length / 8) ≤ Config.trCap)) →
    ∃ t, exec (.modeReplayFile f) s = .next t
      ∧ t.exit = some 0 ∧ t.err = s.err ∧ t.seq = .idle ∧ t.modeStarted = true ∧ t.cfg = s.cfg
      ∧ t.wlog = s.wlog ∧ t.clk = s.clk ∧ t.lastClk = s.lastClk ∧ t.pins = s.pins ∧ t.prio = s.prio
      ∧ t.mem.raw = s.mem.raw ∧ t.mem.obs = s.mem.obs
      ∧ (s.cfg.decodeAfterSample = false →
          t.mem.tr = xs ∧ t.mem.pay = s.mem.pay ∧ t.mem.pay2 = s.mem.pay2
          ∧ t.report = s.report ∧ t.st = s.st ∧ t.mem.files = s.mem.files)
      ∧ (s.cfg.decodeAfterSample = true →
          ∃ d, exec (.decode g) { s with mem := { s.mem with tr := xs } } = .next d
            ∧ t.mem.pay = d.mem.pay ∧ t.mem.pay2 = d.mem.pay2 ∧ t.st = d.st
            ∧ t.report = d.report ++ [.decoded (hexText d.mem.pay)]
            ∧ (s.cfg.reencode = false ∨ s.cfg.outputTracePath = none →
                t.mem.tr = d.mem.tr ∧ t.mem.files = s.mem.files)
            ∧ (s.cfg.reencode = true → ∀ out, s.cfg.outputTracePath = some out →
                t.mem.tr = encodedTrace d.mem.pay
                ∧ t.mem.files =
                    fileStore out (traceText s.cfg.includeFlank (encodedTrace d.mem.pay)) s.mem.files))

/-- R114: MODE_REPLAY_FILE with a pin: the file is read; then the guard, which returns at the first read far
enough from the wrap, and TRANSMIT of the trace read, with statistics if asked for: what that reports, stores
and leaves of the pin is what TRANSMIT started by HOST at that point gives. Then, if asked for, DECODE of the
schedule TRANSMIT has left (its half-frames fitting `PAY_CAP`), the report of its payload, and, if that too is asked for and an output path
configured, the decoded bytes are encoded and written there; otherwise no file changes. `EXIT = 0`. -/
def Obligations.ModeReplayTransmits : Prop :=
  ∀ (f g : CmdFlags) (s : State) (pin k extra : Nat) (path contents : Text) (xs ys : List Sample)
    (ds : List Nat),
    s.cfg.mode = some .replayFile → s.cfg.pin = some pin → pin < s.par.pinCount →
    1 ≤ s.cfg.capacity → s.cfg.capacity ≤ 1000000 → s.cfg.inputTracePath = some path →
    fileLookup path s.mem.files = some contents → s.nextReadable = true →
    (fileLines contents).tail.map parseLine = xs.map some → xs.length ≤ Config.trCap →
    s.nextPinOk = true →
    k ≤ s.env.clock.script.length →
    (∀ i < k, 4294967296 - (s.clockReading i).toNat < s.par.wrapMargin * 1000000) →
    s.par.wrapMargin * 1000000 ≤ 4294967296 - (s.clockReading k).toNat →
    fitsWindow (s.clockReading (k + 1)) s.nextDelay xs →
    ys = scheduleFrom (s.clockReading (k + 1)) s.nextDelay xs →
    extra = (if s.cfg.enableSendStatistics = true then 1 else 0) → s.waitsEnd extra (k + 2) ys ds →
    g.stats = s.cfg.enableSendStatistics →
    (s.cfg.decodeAfterSample = true → FramesFit s.par.payCap (decodeInput ys)
      ∧ (s.cfg.reencode = true → s.cfg.outputTracePath ≠ none → s.nextWritable = true
          ∧ 577 + 512 * ((frameLows (decodeInput ys)).length / 8) ≤ Config.trCap)) →
    ∃ t d, exec (.modeReplayFile f) s = .next t
      ∧ exec (.transmit g) { s with
          clk := s.clockReading k
          lastClk := some (s.clockReading k)
          env := { s.env with clock := s.env.clock.skip (k + 1) }
          opnd := { s.opnd with pin := pin }
          mem := { s.mem with tr := xs } } = .next d
      ∧ d.mem.tr = ys
      ∧ t.exit = some 0 ∧ t.err = s.err ∧ t.seq = .idle ∧ t.prio = .normal ∧ t.modeStarted = true
      ∧ t.cfg = s.cfg ∧ t.mem.raw = s.mem.raw
      ∧ t.wlog = s.wlog ++ (ys.zip ds).map
          (fun p => { pin := pin, level := p.1.v, clock := some (s.clockReading (p.2 + extra)) })
      ∧ t.mem.obs = d.mem.obs ∧ t.pins = d.pins ∧ t.clk = d.clk
      ∧ (s.cfg.enableSendStatistics = false →
          t.mem.obs = s.mem.obs ∧ d.report = s.report ∧ d.st = s.st)
      ∧ (s.cfg.decodeAfterSample = false →
          t.mem.tr = ys ∧ t.mem.pay = s.mem.pay ∧ t.mem.pay2 = s.mem.pay2
          ∧ t.report = d.report ∧ t.st = d.st ∧ t.mem.files = s.mem.files)
      ∧ (s.cfg.decodeAfterSample = true →
          ∃ e, exec (.decode g) d = .next e
            ∧ t.mem.pay = e.mem.pay ∧ t.mem.pay2 = e.mem.pay2 ∧ t.st = e.st
            ∧ t.report = e.report ++ [.decoded (hexText e.mem.pay)]
            ∧ (s.cfg.reencode = false ∨ s.cfg.outputTracePath = none →
                t.mem.tr = e.mem.tr ∧ t.mem.files = s.mem.files)
            ∧ (s.cfg.reencode = true → ∀ out, s.cfg.outputTracePath = some out →
                t.mem.tr = encodedTrace e.mem.pay
                ∧ t.mem.files =
                    fileStore out (traceText s.cfg.includeFlank (encodedTrace e.mem.pay)) s.mem.files))

/-! ### Errors (spec/60_exceptions.md) -/

/-- R127, R124: what a fatal error writes, kind by kind: the error registers with their information, one
`Fatal` report, the sequencer emptied, the exit status its code; everything else stays as it is. R124: the
codes of the anomalies, which are not fatal and never an exit status. -/
def Obligations.RaiseTakesError : Prop :=
  (∀ (e : FatalError) (s : State),
    raise e s = { s with
      err := (raise e s).err
      report := s.report ++ [.fatal e]
      seq := { busy := false, op := none, phase := 0, todo := [] }
      exit := (raise e s).exit }
    ∧ (∀ o, e = .configError o → (raise e s).exit = some 1
        ∧ (raise e s).err = ⟨.configError, some o, none, none, none, none⟩)
    ∧ (∀ p l, e = .ioError p l → (raise e s).exit = some 2
        ∧ (raise e s).err = ⟨.ioError, none, some p, l, none, none⟩)
    ∧ (∀ p, e = .pinConfigError p → (raise e s).exit = some 3
        ∧ (raise e s).err = ⟨.pinConfigError, none, none, none, some p, none⟩)
    ∧ (e = .wrapReject → (raise e s).exit = some 4
        ∧ (raise e s).err = ⟨.wrapReject, none, none, none, none, none⟩)
    ∧ (∀ m, e = .capacityExceeded m → (raise e s).exit = some 5
        ∧ (raise e s).err = ⟨.capacityExceeded, none, none, none, none, some m⟩))
  ∧ (∀ (depth j first second : Nat) (values : Option (Byte × Byte)) (a b : Byte) (t : U32) (d : Int),
    (Anomaly.checksumMismatch depth values).code = 16
    ∧ (Anomaly.countMismatch depth first second).code = 17
    ∧ (Anomaly.contentMismatch depth j a b).code = 18
    ∧ (Anomaly.timingAnomaly j t d).code = 19)

/-- R127, R115: an error that a step raises, in whatever operation and however deeply called, is taken whole:
its registers, its exit status, its report last, and nothing running. -/
def Obligations.ErrorsAreTakenWhole : Prop :=
  ∀ s t : State, step s = .next t → t.err ≠ s.err →
    ∃ e : FatalError, t.err = e.registers ∧ t.exit = some e.kind.code
      ∧ 1 ≤ e.kind.code ∧ e.kind.code ≤ 5
      ∧ t.seq = .idle ∧ t.report.getLast? = some (.fatal e)

/-- R119, R127, R131: no operation but RAISE_PRIORITY leaves the priority at `realtime` when it ends, and no
fatal error finds it there: the loops of SAMPLE and TRANSMIT raise it and give it back. So does an operation
that goes on after a wait, a TRANSMIT that waits at `realtime` among them. R152: on a fair clock a TRANSMIT
that waits does end: it writes every edge that is left and gives the priority back. -/
def Obligations.PriorityGivenBack : Prop :=
  (∀ (i : Instr) (s t : State), i.op ≠ .raisePriority → s.prio = .normal → exec i s = .next t →
    t.seq.busy = false → t.prio = .normal)
  ∧ (∀ s t : State, s.cmd = none → s.seq.busy = true →
    (s.prio = .normal ∨ ∃ pin stats rest, s.seq.todo = .transmitWait pin stats :: rest) →
    step s = .next t → t.seq.busy = false → t.prio = .normal)
  ∧ (∀ (s : State) (pin : Nat) (stats : Bool) (advance : Nat → Nat), s.Inv → s.cmd = none →
    s.seq = { busy := true, op := some .transmit, phase := 5, todo := [.transmitWait pin stats] } →
    FairClock s.clk advance →
    ∃ n t, step (s.onClock n advance) = .next t ∧ t.seq = .idle ∧ t.prio = .normal ∧ t.err = s.err
      ∧ t.wlog.length = s.wlog.length + (s.mem.tr.length - s.wr.i))

/-! ### The whole machine -/

/-- R14, R30, R32: a step only appends to `WLOG` and `REPORT`, clears no anomaly flag, and writes neither the
configuration, nor the operand registers, nor a parameter. -/
def Obligations.StepsOnlyAdd : Prop := ∀ s t : State, step s = .next t → s.Grows t

/-- R27, R13: no operation but TRACE_WRITE and the modes changes a file, and none but those that drive a pin
appends to `WLOG`. -/
def Obligations.WhoWritesFilesAndPins : Prop :=
  ∀ (i : Instr) (s t : State), exec i s = .next t →
    (i.op ≠ .traceWrite → i.op.isMode = false → t.mem.files = s.mem.files)
    ∧ (i.op ≠ .writePin → i.op ≠ .transmit → i.op ≠ .modeSendHex → i.op ≠ .modeReplayFile →
        t.wlog = s.wlog)

/-- R35, R38, R20, R29, R31: every step keeps the invariant of the block: the memories in canonical form and
within their capacities, the pins in order, valid and configured, an error with its exit status and nothing
running, the sequencer idle or at a poll whose operation can go on. From any state, not only a reachable
one. -/
def Obligations.InvariantKept : Prop :=
  ∀ s t : State, s.Inv → step s = .next t → t.Inv

/-- The invariant holds after reset, the first and every later one. -/
def Obligations.InvariantAtReset : Prop :=
  State.reset.Inv ∧ ∀ s : State, s.Inv → s.resetAgain.Inv

/-- R38, R137: from a state with the invariant a step never faults (no access is out of range), and it is
refused only for the uses the spec gives no meaning, each with its condition: a command while `BUSY = 1`
(U5), one after a fatal error (R129), a second mode (U6), a READ_PIN of no input, a WRITE_PIN to no output
(R71, R72), and BURST with a cursor nothing has written (R39). -/
def Obligations.StopsOnlyAsStated : Prop :=
  ∀ s : State, s.Inv → (∀ x, step s ≠ .fault x)
    ∧ (∀ r, step s = .refused r → ∃ w, s.cmd = some w
      ∧ ((r = .startedWhileBusy ∧ s.seq.busy = true)
        ∨ (r = .invocationOver ∧ s.seq.busy = false ∧ s.err.kind ≠ .none)
        ∨ (s.seq.busy = false ∧ s.err.kind = .none ∧ ∃ i, decode w = .ok i
          ∧ ((r = .secondMode ∧ i.op.isMode = true ∧ s.modeStarted = true)
            ∨ (r = .readOfNonInput s.opnd.pin ∧ i.op = .readPin
              ∧ ¬ (s.opnd.pin < s.par.pinCount ∧ (s.pinAt s.opnd.pin).dir = .input))
            ∨ (r = .writeToNonOutput s.opnd.pin ∧ i.op = .writePin
              ∧ ¬ (s.opnd.pin < s.par.pinCount ∧ (s.pinAt s.opnd.pin).dir = .output))
            ∨ (r = .unwrittenCursor ∧ i.op = .burst ∧ s.wr.tcurWritten = false)))))

/-- R6, R14, R27, R129, R137, U5: a move of HOST keeps the invariant; any but a reset is refused while
`BUSY = 1`, or while a command word waits to be taken (the model's choice, log entry 29), and after a fatal
error; otherwise a write goes where it says and nowhere else. What a command word leaves in `CFG.*` (log
entry 3) is stated by ReservedWordsAndUnusedFlags; that HOST may remove a file, and write `TR` and `PAY`, is
the model's choice (log entry 26). -/
def Obligations.HostMoves : Prop :=
  (∀ (s t : State) (m : HostMove), s.Inv → hostMove m s = .next t → t.Inv)
  ∧ (∀ (s : State) (m : HostMove), m ≠ .reset → (s.seq.busy = true ∨ s.cmd ≠ none) →
      ((∃ w, m = .writeCommand w) → hostMove m s = .refused .startedWhileBusy)
      ∧ ((∀ w, m ≠ .writeCommand w) → hostMove m s = .refused .hostWriteWhileBusy))
  ∧ (∀ (s : State) (m : HostMove), m ≠ .reset → s.seq.busy = false → s.cmd = none →
      s.err.kind ≠ .none → hostMove m s = .refused .invocationOver)
  ∧ (∀ s : State, s.seq.busy = false → s.cmd = none → s.err.kind = .none →
      (∀ c, hostMove (.writeCfg c) s = .next { s with cfg := c })
      ∧ (∀ o, hostMove (.writeOperands o) s = .next { s with opnd := o })
      ∧ (∀ xs, (xs.length ≤ Config.trCap →
            hostMove (.writeTrace xs) s = .next { s with mem := { s.mem with tr := xs } })
          ∧ (Config.trCap < xs.length →
            hostMove (.writeTrace xs) s = .fault (.recordOutOfRange .tr Config.trCap)))
      ∧ (∀ bs, (bs.length ≤ s.par.payCap →
            hostMove (.writePayload bs) s = .next { s with mem := { s.mem with pay := bs } })
          ∧ (s.par.payCap < bs.length →
            hostMove (.writePayload bs) s = .fault (.recordOutOfRange .pay s.par.payCap)))
      ∧ (∀ path contents, ∃ t, hostMove (.writeFile path contents) s = .next t
          ∧ t = { s with mem := { s.mem with files := t.mem.files } }
          ∧ ∀ q, fileLookup q t.mem.files =
              if q = path then some contents else fileLookup q s.mem.files)
      ∧ (∀ path, ∃ t, hostMove (.removeFile path) s = .next t
          ∧ t = { s with mem := { s.mem with files := t.mem.files } }
          ∧ ∀ q, fileLookup q t.mem.files = if q = path then none else fileLookup q s.mem.files)
      ∧ (∀ w, hostMove (.writeCommand w) s =
          .next { s with cmd := some w, cfg := s.cfg.withCommand w }))

/-- R34, R138, R51: a reset, at whatever point, leaves the configuration absent or 0, the priority normal,
every memory and count empty, the flags, the error registers and the logs clear, no exit status, no cursor,
nothing running, every pin unconfigured, and the files as they were; the values of `CLK`, `pull` and `out`
are free. -/
def Obligations.ResetState : Prop :=
  ∀ s : State, ∃ t, hostMove .reset s = .next t
    ∧ t.cfg = { pin := none, mode := none, triggerBeforeSample := false, outputTracePath := none,
                inputTracePath := none, hexPayload := none, enableSendStatistics := false,
                decodeAfterSample := false, verbose := false, capacity := 1000000,
                includeFlank := false, reencode := false }
    ∧ t.prio = .normal
    ∧ t.mem = { raw := [], tr := [], obs := [], pay := [], pay2 := [], files := s.mem.files }
    ∧ t.st = { checksumMismatch := false, countMismatch := false, contentMismatch := false,
               timingAnomaly := false }
    ∧ t.err.kind = .none ∧ t.err.path = none ∧ t.err.line = none ∧ t.err.pin = none
    ∧ t.exit = none ∧ t.wlog = [] ∧ t.report = [] ∧ t.lastClk = none ∧ t.cmd = none
    ∧ t.seq.busy = false ∧ t.seq.op = none ∧ t.seq.todo = [] ∧ t.wr.tcurWritten = false
    ∧ (∀ p, (t.pinAt p).dir = .unconfigured)
    ∧ t.par = s.par
end

