-- ==== Sys2Proof/Laws/State.lean ====
section
/-! SUPPORT. One lemma per field of the state and per update of the shared operations, each true by
computation, so that no proof unfolds a record update. -/

namespace Sys2Proof.Machine.Laws


/-! ### setWork -/

@[simp] theorem setWork_par (w : Work) (s : State) : (s.setWork w).par = s.par := rfl
@[simp] theorem setWork_cfg (w : Work) (s : State) : (s.setWork w).cfg = s.cfg := rfl
@[simp] theorem setWork_opnd (w : Work) (s : State) : (s.setWork w).opnd = s.opnd := rfl
@[simp] theorem setWork_cmd (w : Work) (s : State) : (s.setWork w).cmd = s.cmd := rfl
@[simp] theorem setWork_clk (w : Work) (s : State) : (s.setWork w).clk = s.clk := rfl
@[simp] theorem setWork_lastClk (w : Work) (s : State) : (s.setWork w).lastClk = s.lastClk := rfl
@[simp] theorem setWork_pins (w : Work) (s : State) : (s.setWork w).pins = s.pins := rfl
@[simp] theorem setWork_prio (w : Work) (s : State) : (s.setWork w).prio = s.prio := rfl
@[simp] theorem setWork_mem (w : Work) (s : State) : (s.setWork w).mem = s.mem := rfl
@[simp] theorem setWork_wr (w : Work) (s : State) : (s.setWork w).wr = w := rfl
@[simp] theorem setWork_seq (w : Work) (s : State) : (s.setWork w).seq = s.seq := rfl
@[simp] theorem setWork_st (w : Work) (s : State) : (s.setWork w).st = s.st := rfl
@[simp] theorem setWork_err (w : Work) (s : State) : (s.setWork w).err = s.err := rfl
@[simp] theorem setWork_exit (w : Work) (s : State) : (s.setWork w).exit = s.exit := rfl
@[simp] theorem setWork_wlog (w : Work) (s : State) : (s.setWork w).wlog = s.wlog := rfl
@[simp] theorem setWork_report (w : Work) (s : State) : (s.setWork w).report = s.report := rfl
@[simp] theorem setWork_env (w : Work) (s : State) : (s.setWork w).env = s.env := rfl
@[simp] theorem setWork_ret (w : Work) (s : State) : (s.setWork w).ret = s.ret := rfl
@[simp] theorem setWork_modeStarted (w : Work) (s : State) :
    (s.setWork w).modeStarted =
      s.modeStarted := rfl
@[simp] theorem setWork_epoch (w : Work) (s : State) : (s.setWork w).epoch = s.epoch := rfl

/-! ### setTr -/

@[simp] theorem setTr_par (xs : List Sample) (s : State) : (s.setTr xs).par = s.par := rfl
@[simp] theorem setTr_cfg (xs : List Sample) (s : State) : (s.setTr xs).cfg = s.cfg := rfl
@[simp] theorem setTr_opnd (xs : List Sample) (s : State) : (s.setTr xs).opnd = s.opnd := rfl
@[simp] theorem setTr_cmd (xs : List Sample) (s : State) : (s.setTr xs).cmd = s.cmd := rfl
@[simp] theorem setTr_clk (xs : List Sample) (s : State) : (s.setTr xs).clk = s.clk := rfl
@[simp] theorem setTr_lastClk (xs : List Sample) (s : State) :
    (s.setTr xs).lastClk =
      s.lastClk := rfl
@[simp] theorem setTr_pins (xs : List Sample) (s : State) : (s.setTr xs).pins = s.pins := rfl
@[simp] theorem setTr_prio (xs : List Sample) (s : State) : (s.setTr xs).prio = s.prio := rfl
@[simp] theorem setTr_mem (xs : List Sample) (s : State) :
    (s.setTr xs).mem =
      { s.mem with tr := xs } := rfl
@[simp] theorem setTr_wr (xs : List Sample) (s : State) : (s.setTr xs).wr = s.wr := rfl
@[simp] theorem setTr_seq (xs : List Sample) (s : State) : (s.setTr xs).seq = s.seq := rfl
@[simp] theorem setTr_st (xs : List Sample) (s : State) : (s.setTr xs).st = s.st := rfl
@[simp] theorem setTr_err (xs : List Sample) (s : State) : (s.setTr xs).err = s.err := rfl
@[simp] theorem setTr_exit (xs : List Sample) (s : State) : (s.setTr xs).exit = s.exit := rfl
@[simp] theorem setTr_wlog (xs : List Sample) (s : State) : (s.setTr xs).wlog = s.wlog := rfl
@[simp] theorem setTr_report (xs : List Sample) (s : State) : (s.setTr xs).report = s.report := rfl
@[simp] theorem setTr_env (xs : List Sample) (s : State) : (s.setTr xs).env = s.env := rfl
@[simp] theorem setTr_ret (xs : List Sample) (s : State) : (s.setTr xs).ret = s.ret := rfl
@[simp] theorem setTr_modeStarted (xs : List Sample) (s : State) :
    (s.setTr xs).modeStarted =
      s.modeStarted := rfl
@[simp] theorem setTr_epoch (xs : List Sample) (s : State) : (s.setTr xs).epoch = s.epoch := rfl

/-! ### setPay -/

@[simp] theorem setPay_par (bs : List Byte) (s : State) : (s.setPay bs).par = s.par := rfl
@[simp] theorem setPay_cfg (bs : List Byte) (s : State) : (s.setPay bs).cfg = s.cfg := rfl
@[simp] theorem setPay_opnd (bs : List Byte) (s : State) : (s.setPay bs).opnd = s.opnd := rfl
@[simp] theorem setPay_cmd (bs : List Byte) (s : State) : (s.setPay bs).cmd = s.cmd := rfl
@[simp] theorem setPay_clk (bs : List Byte) (s : State) : (s.setPay bs).clk = s.clk := rfl
@[simp] theorem setPay_lastClk (bs : List Byte) (s : State) :
    (s.setPay bs).lastClk =
      s.lastClk := rfl
@[simp] theorem setPay_pins (bs : List Byte) (s : State) : (s.setPay bs).pins = s.pins := rfl
@[simp] theorem setPay_prio (bs : List Byte) (s : State) : (s.setPay bs).prio = s.prio := rfl
@[simp] theorem setPay_mem (bs : List Byte) (s : State) :
    (s.setPay bs).mem =
      { s.mem with pay := bs } := rfl
@[simp] theorem setPay_wr (bs : List Byte) (s : State) : (s.setPay bs).wr = s.wr := rfl
@[simp] theorem setPay_seq (bs : List Byte) (s : State) : (s.setPay bs).seq = s.seq := rfl
@[simp] theorem setPay_st (bs : List Byte) (s : State) : (s.setPay bs).st = s.st := rfl
@[simp] theorem setPay_err (bs : List Byte) (s : State) : (s.setPay bs).err = s.err := rfl
@[simp] theorem setPay_exit (bs : List Byte) (s : State) : (s.setPay bs).exit = s.exit := rfl
@[simp] theorem setPay_wlog (bs : List Byte) (s : State) : (s.setPay bs).wlog = s.wlog := rfl
@[simp] theorem setPay_report (bs : List Byte) (s : State) : (s.setPay bs).report = s.report := rfl
@[simp] theorem setPay_env (bs : List Byte) (s : State) : (s.setPay bs).env = s.env := rfl
@[simp] theorem setPay_ret (bs : List Byte) (s : State) : (s.setPay bs).ret = s.ret := rfl
@[simp] theorem setPay_modeStarted (bs : List Byte) (s : State) :
    (s.setPay bs).modeStarted =
      s.modeStarted := rfl
@[simp] theorem setPay_epoch (bs : List Byte) (s : State) : (s.setPay bs).epoch = s.epoch := rfl

/-! ### setPay2 -/

@[simp] theorem setPay2_par (bs : List Byte) (s : State) : (s.setPay2 bs).par = s.par := rfl
@[simp] theorem setPay2_cfg (bs : List Byte) (s : State) : (s.setPay2 bs).cfg = s.cfg := rfl
@[simp] theorem setPay2_opnd (bs : List Byte) (s : State) : (s.setPay2 bs).opnd = s.opnd := rfl
@[simp] theorem setPay2_cmd (bs : List Byte) (s : State) : (s.setPay2 bs).cmd = s.cmd := rfl
@[simp] theorem setPay2_clk (bs : List Byte) (s : State) : (s.setPay2 bs).clk = s.clk := rfl
@[simp] theorem setPay2_lastClk (bs : List Byte) (s : State) :
    (s.setPay2 bs).lastClk =
      s.lastClk := rfl
@[simp] theorem setPay2_pins (bs : List Byte) (s : State) : (s.setPay2 bs).pins = s.pins := rfl
@[simp] theorem setPay2_prio (bs : List Byte) (s : State) : (s.setPay2 bs).prio = s.prio := rfl
@[simp] theorem setPay2_mem (bs : List Byte) (s : State) :
    (s.setPay2 bs).mem =
      { s.mem with pay2 := bs } := rfl
@[simp] theorem setPay2_wr (bs : List Byte) (s : State) : (s.setPay2 bs).wr = s.wr := rfl
@[simp] theorem setPay2_seq (bs : List Byte) (s : State) : (s.setPay2 bs).seq = s.seq := rfl
@[simp] theorem setPay2_st (bs : List Byte) (s : State) : (s.setPay2 bs).st = s.st := rfl
@[simp] theorem setPay2_err (bs : List Byte) (s : State) : (s.setPay2 bs).err = s.err := rfl
@[simp] theorem setPay2_exit (bs : List Byte) (s : State) : (s.setPay2 bs).exit = s.exit := rfl
@[simp] theorem setPay2_wlog (bs : List Byte) (s : State) : (s.setPay2 bs).wlog = s.wlog := rfl
@[simp] theorem setPay2_report (bs : List Byte) (s : State) :
    (s.setPay2 bs).report =
      s.report := rfl
@[simp] theorem setPay2_env (bs : List Byte) (s : State) : (s.setPay2 bs).env = s.env := rfl
@[simp] theorem setPay2_ret (bs : List Byte) (s : State) : (s.setPay2 bs).ret = s.ret := rfl
@[simp] theorem setPay2_modeStarted (bs : List Byte) (s : State) :
    (s.setPay2 bs).modeStarted =
      s.modeStarted := rfl
@[simp] theorem setPay2_epoch (bs : List Byte) (s : State) : (s.setPay2 bs).epoch = s.epoch := rfl

/-! ### putFile -/

@[simp] theorem putFile_par (p c : Text) (s : State) : (s.putFile p c).par = s.par := rfl
@[simp] theorem putFile_cfg (p c : Text) (s : State) : (s.putFile p c).cfg = s.cfg := rfl
@[simp] theorem putFile_opnd (p c : Text) (s : State) : (s.putFile p c).opnd = s.opnd := rfl
@[simp] theorem putFile_cmd (p c : Text) (s : State) : (s.putFile p c).cmd = s.cmd := rfl
@[simp] theorem putFile_clk (p c : Text) (s : State) : (s.putFile p c).clk = s.clk := rfl
@[simp] theorem putFile_lastClk (p c : Text) (s : State) :
    (s.putFile p c).lastClk =
      s.lastClk := rfl
@[simp] theorem putFile_pins (p c : Text) (s : State) : (s.putFile p c).pins = s.pins := rfl
@[simp] theorem putFile_prio (p c : Text) (s : State) : (s.putFile p c).prio = s.prio := rfl
@[simp] theorem putFile_mem (p c : Text) (s : State) :
    (s.putFile p c).mem =
      { s.mem with files := fileStore p c s.mem.files } := rfl
@[simp] theorem putFile_wr (p c : Text) (s : State) : (s.putFile p c).wr = s.wr := rfl
@[simp] theorem putFile_seq (p c : Text) (s : State) : (s.putFile p c).seq = s.seq := rfl
@[simp] theorem putFile_st (p c : Text) (s : State) : (s.putFile p c).st = s.st := rfl
@[simp] theorem putFile_err (p c : Text) (s : State) : (s.putFile p c).err = s.err := rfl
@[simp] theorem putFile_exit (p c : Text) (s : State) : (s.putFile p c).exit = s.exit := rfl
@[simp] theorem putFile_wlog (p c : Text) (s : State) : (s.putFile p c).wlog = s.wlog := rfl
@[simp] theorem putFile_report (p c : Text) (s : State) : (s.putFile p c).report = s.report := rfl
@[simp] theorem putFile_env (p c : Text) (s : State) : (s.putFile p c).env = s.env := rfl
@[simp] theorem putFile_ret (p c : Text) (s : State) : (s.putFile p c).ret = s.ret := rfl
@[simp] theorem putFile_modeStarted (p c : Text) (s : State) :
    (s.putFile p c).modeStarted =
      s.modeStarted := rfl
@[simp] theorem putFile_epoch (p c : Text) (s : State) : (s.putFile p c).epoch = s.epoch := rfl

/-! ### setPin -/

@[simp] theorem setPin_par (p : Nat) (r : Pin) (s : State) : (s.setPin p r).par = s.par := rfl
@[simp] theorem setPin_cfg (p : Nat) (r : Pin) (s : State) : (s.setPin p r).cfg = s.cfg := rfl
@[simp] theorem setPin_opnd (p : Nat) (r : Pin) (s : State) : (s.setPin p r).opnd = s.opnd := rfl
@[simp] theorem setPin_cmd (p : Nat) (r : Pin) (s : State) : (s.setPin p r).cmd = s.cmd := rfl
@[simp] theorem setPin_clk (p : Nat) (r : Pin) (s : State) : (s.setPin p r).clk = s.clk := rfl
@[simp] theorem setPin_lastClk (p : Nat) (r : Pin) (s : State) :
    (s.setPin p r).lastClk =
      s.lastClk := rfl
@[simp] theorem setPin_pins (p : Nat) (r : Pin) (s : State) :
    (s.setPin p r).pins =
      pinStore p r s.pins := rfl
@[simp] theorem setPin_prio (p : Nat) (r : Pin) (s : State) : (s.setPin p r).prio = s.prio := rfl
@[simp] theorem setPin_mem (p : Nat) (r : Pin) (s : State) : (s.setPin p r).mem = s.mem := rfl
@[simp] theorem setPin_wr (p : Nat) (r : Pin) (s : State) : (s.setPin p r).wr = s.wr := rfl
@[simp] theorem setPin_seq (p : Nat) (r : Pin) (s : State) : (s.setPin p r).seq = s.seq := rfl
@[simp] theorem setPin_st (p : Nat) (r : Pin) (s : State) : (s.setPin p r).st = s.st := rfl
@[simp] theorem setPin_err (p : Nat) (r : Pin) (s : State) : (s.setPin p r).err = s.err := rfl
@[simp] theorem setPin_exit (p : Nat) (r : Pin) (s : State) : (s.setPin p r).exit = s.exit := rfl
@[simp] theorem setPin_wlog (p : Nat) (r : Pin) (s : State) : (s.setPin p r).wlog = s.wlog := rfl
@[simp] theorem setPin_report (p : Nat) (r : Pin) (s : State) :
    (s.setPin p r).report =
      s.report := rfl
@[simp] theorem setPin_env (p : Nat) (r : Pin) (s : State) : (s.setPin p r).env = s.env := rfl
@[simp] theorem setPin_ret (p : Nat) (r : Pin) (s : State) : (s.setPin p r).ret = s.ret := rfl
@[simp] theorem setPin_modeStarted (p : Nat) (r : Pin) (s : State) :
    (s.setPin p r).modeStarted =
      s.modeStarted := rfl
@[simp] theorem setPin_epoch (p : Nat) (r : Pin) (s : State) : (s.setPin p r).epoch = s.epoch := rfl

/-! ### setPrio -/

@[simp] theorem setPrio_par (p : Prio) (s : State) : (s.setPrio p).par = s.par := rfl
@[simp] theorem setPrio_cfg (p : Prio) (s : State) : (s.setPrio p).cfg = s.cfg := rfl
@[simp] theorem setPrio_opnd (p : Prio) (s : State) : (s.setPrio p).opnd = s.opnd := rfl
@[simp] theorem setPrio_cmd (p : Prio) (s : State) : (s.setPrio p).cmd = s.cmd := rfl
@[simp] theorem setPrio_clk (p : Prio) (s : State) : (s.setPrio p).clk = s.clk := rfl
@[simp] theorem setPrio_lastClk (p : Prio) (s : State) : (s.setPrio p).lastClk = s.lastClk := rfl
@[simp] theorem setPrio_pins (p : Prio) (s : State) : (s.setPrio p).pins = s.pins := rfl
@[simp] theorem setPrio_prio (p : Prio) (s : State) : (s.setPrio p).prio = p := rfl
@[simp] theorem setPrio_mem (p : Prio) (s : State) : (s.setPrio p).mem = s.mem := rfl
@[simp] theorem setPrio_wr (p : Prio) (s : State) : (s.setPrio p).wr = s.wr := rfl
@[simp] theorem setPrio_seq (p : Prio) (s : State) : (s.setPrio p).seq = s.seq := rfl
@[simp] theorem setPrio_st (p : Prio) (s : State) : (s.setPrio p).st = s.st := rfl
@[simp] theorem setPrio_err (p : Prio) (s : State) : (s.setPrio p).err = s.err := rfl
@[simp] theorem setPrio_exit (p : Prio) (s : State) : (s.setPrio p).exit = s.exit := rfl
@[simp] theorem setPrio_wlog (p : Prio) (s : State) : (s.setPrio p).wlog = s.wlog := rfl
@[simp] theorem setPrio_report (p : Prio) (s : State) : (s.setPrio p).report = s.report := rfl
@[simp] theorem setPrio_env (p : Prio) (s : State) : (s.setPrio p).env = s.env := rfl
@[simp] theorem setPrio_ret (p : Prio) (s : State) : (s.setPrio p).ret = s.ret := rfl
@[simp] theorem setPrio_modeStarted (p : Prio) (s : State) :
    (s.setPrio p).modeStarted =
      s.modeStarted := rfl
@[simp] theorem setPrio_epoch (p : Prio) (s : State) : (s.setPrio p).epoch = s.epoch := rfl

/-! ### readClock -/

@[simp] theorem readClock_par (s : State) : s.readClock.par = s.par := rfl
@[simp] theorem readClock_cfg (s : State) : s.readClock.cfg = s.cfg := rfl
@[simp] theorem readClock_opnd (s : State) : s.readClock.opnd = s.opnd := rfl
@[simp] theorem readClock_cmd (s : State) : s.readClock.cmd = s.cmd := rfl
@[simp] theorem readClock_pins (s : State) : s.readClock.pins = s.pins := rfl
@[simp] theorem readClock_prio (s : State) : s.readClock.prio = s.prio := rfl
@[simp] theorem readClock_mem (s : State) : s.readClock.mem = s.mem := rfl
@[simp] theorem readClock_wr (s : State) : s.readClock.wr = s.wr := rfl
@[simp] theorem readClock_seq (s : State) : s.readClock.seq = s.seq := rfl
@[simp] theorem readClock_st (s : State) : s.readClock.st = s.st := rfl
@[simp] theorem readClock_err (s : State) : s.readClock.err = s.err := rfl
@[simp] theorem readClock_exit (s : State) : s.readClock.exit = s.exit := rfl
@[simp] theorem readClock_wlog (s : State) : s.readClock.wlog = s.wlog := rfl
@[simp] theorem readClock_report (s : State) : s.readClock.report = s.report := rfl
@[simp] theorem readClock_ret (s : State) : s.readClock.ret = s.ret := rfl
@[simp] theorem readClock_modeStarted (s : State) : s.readClock.modeStarted = s.modeStarted := rfl
@[simp] theorem readClock_epoch (s : State) : s.readClock.epoch = s.epoch := rfl

/-! ### readNow -/

@[simp] theorem readNow_par (s : State) : s.readNow.par = s.par := rfl
@[simp] theorem readNow_cfg (s : State) : s.readNow.cfg = s.cfg := rfl
@[simp] theorem readNow_opnd (s : State) : s.readNow.opnd = s.opnd := rfl
@[simp] theorem readNow_cmd (s : State) : s.readNow.cmd = s.cmd := rfl
@[simp] theorem readNow_pins (s : State) : s.readNow.pins = s.pins := rfl
@[simp] theorem readNow_prio (s : State) : s.readNow.prio = s.prio := rfl
@[simp] theorem readNow_mem (s : State) : s.readNow.mem = s.mem := rfl
@[simp] theorem readNow_seq (s : State) : s.readNow.seq = s.seq := rfl
@[simp] theorem readNow_st (s : State) : s.readNow.st = s.st := rfl
@[simp] theorem readNow_err (s : State) : s.readNow.err = s.err := rfl
@[simp] theorem readNow_exit (s : State) : s.readNow.exit = s.exit := rfl
@[simp] theorem readNow_wlog (s : State) : s.readNow.wlog = s.wlog := rfl
@[simp] theorem readNow_report (s : State) : s.readNow.report = s.report := rfl
@[simp] theorem readNow_ret (s : State) : s.readNow.ret = s.ret := rfl
@[simp] theorem readNow_modeStarted (s : State) : s.readNow.modeStarted = s.modeStarted := rfl
@[simp] theorem readNow_epoch (s : State) : s.readNow.epoch = s.epoch := rfl

/-! ### drawPinOk -/

@[simp] theorem drawPinOk_par (s : State) : s.drawPinOk.2.par = s.par := rfl
@[simp] theorem drawPinOk_cfg (s : State) : s.drawPinOk.2.cfg = s.cfg := rfl
@[simp] theorem drawPinOk_opnd (s : State) : s.drawPinOk.2.opnd = s.opnd := rfl
@[simp] theorem drawPinOk_cmd (s : State) : s.drawPinOk.2.cmd = s.cmd := rfl
@[simp] theorem drawPinOk_clk (s : State) : s.drawPinOk.2.clk = s.clk := rfl
@[simp] theorem drawPinOk_lastClk (s : State) : s.drawPinOk.2.lastClk = s.lastClk := rfl
@[simp] theorem drawPinOk_pins (s : State) : s.drawPinOk.2.pins = s.pins := rfl
@[simp] theorem drawPinOk_prio (s : State) : s.drawPinOk.2.prio = s.prio := rfl
@[simp] theorem drawPinOk_mem (s : State) : s.drawPinOk.2.mem = s.mem := rfl
@[simp] theorem drawPinOk_wr (s : State) : s.drawPinOk.2.wr = s.wr := rfl
@[simp] theorem drawPinOk_seq (s : State) : s.drawPinOk.2.seq = s.seq := rfl
@[simp] theorem drawPinOk_st (s : State) : s.drawPinOk.2.st = s.st := rfl
@[simp] theorem drawPinOk_err (s : State) : s.drawPinOk.2.err = s.err := rfl
@[simp] theorem drawPinOk_exit (s : State) : s.drawPinOk.2.exit = s.exit := rfl
@[simp] theorem drawPinOk_wlog (s : State) : s.drawPinOk.2.wlog = s.wlog := rfl
@[simp] theorem drawPinOk_report (s : State) : s.drawPinOk.2.report = s.report := rfl
@[simp] theorem drawPinOk_ret (s : State) : s.drawPinOk.2.ret = s.ret := rfl
@[simp] theorem drawPinOk_modeStarted (s : State) : s.drawPinOk.2.modeStarted = s.modeStarted := rfl
@[simp] theorem drawPinOk_epoch (s : State) : s.drawPinOk.2.epoch = s.epoch := rfl

/-! ### drawWritable -/

@[simp] theorem drawWritable_par (s : State) : s.drawWritable.2.par = s.par := rfl
@[simp] theorem drawWritable_cfg (s : State) : s.drawWritable.2.cfg = s.cfg := rfl
@[simp] theorem drawWritable_opnd (s : State) : s.drawWritable.2.opnd = s.opnd := rfl
@[simp] theorem drawWritable_cmd (s : State) : s.drawWritable.2.cmd = s.cmd := rfl
@[simp] theorem drawWritable_clk (s : State) : s.drawWritable.2.clk = s.clk := rfl
@[simp] theorem drawWritable_lastClk (s : State) : s.drawWritable.2.lastClk = s.lastClk := rfl
@[simp] theorem drawWritable_pins (s : State) : s.drawWritable.2.pins = s.pins := rfl
@[simp] theorem drawWritable_prio (s : State) : s.drawWritable.2.prio = s.prio := rfl
@[simp] theorem drawWritable_mem (s : State) : s.drawWritable.2.mem = s.mem := rfl
@[simp] theorem drawWritable_wr (s : State) : s.drawWritable.2.wr = s.wr := rfl
@[simp] theorem drawWritable_seq (s : State) : s.drawWritable.2.seq = s.seq := rfl
@[simp] theorem drawWritable_st (s : State) : s.drawWritable.2.st = s.st := rfl
@[simp] theorem drawWritable_err (s : State) : s.drawWritable.2.err = s.err := rfl
@[simp] theorem drawWritable_exit (s : State) : s.drawWritable.2.exit = s.exit := rfl
@[simp] theorem drawWritable_wlog (s : State) : s.drawWritable.2.wlog = s.wlog := rfl
@[simp] theorem drawWritable_report (s : State) : s.drawWritable.2.report = s.report := rfl
@[simp] theorem drawWritable_ret (s : State) : s.drawWritable.2.ret = s.ret := rfl
@[simp] theorem drawWritable_modeStarted (s : State) :
    s.drawWritable.2.modeStarted =
      s.modeStarted := rfl
@[simp] theorem drawWritable_epoch (s : State) : s.drawWritable.2.epoch = s.epoch := rfl

/-! ### drawReadable -/

@[simp] theorem drawReadable_par (s : State) : s.drawReadable.2.par = s.par := rfl
@[simp] theorem drawReadable_cfg (s : State) : s.drawReadable.2.cfg = s.cfg := rfl
@[simp] theorem drawReadable_opnd (s : State) : s.drawReadable.2.opnd = s.opnd := rfl
@[simp] theorem drawReadable_cmd (s : State) : s.drawReadable.2.cmd = s.cmd := rfl
@[simp] theorem drawReadable_clk (s : State) : s.drawReadable.2.clk = s.clk := rfl
@[simp] theorem drawReadable_lastClk (s : State) : s.drawReadable.2.lastClk = s.lastClk := rfl
@[simp] theorem drawReadable_pins (s : State) : s.drawReadable.2.pins = s.pins := rfl
@[simp] theorem drawReadable_prio (s : State) : s.drawReadable.2.prio = s.prio := rfl
@[simp] theorem drawReadable_mem (s : State) : s.drawReadable.2.mem = s.mem := rfl
@[simp] theorem drawReadable_wr (s : State) : s.drawReadable.2.wr = s.wr := rfl
@[simp] theorem drawReadable_seq (s : State) : s.drawReadable.2.seq = s.seq := rfl
@[simp] theorem drawReadable_st (s : State) : s.drawReadable.2.st = s.st := rfl
@[simp] theorem drawReadable_err (s : State) : s.drawReadable.2.err = s.err := rfl
@[simp] theorem drawReadable_exit (s : State) : s.drawReadable.2.exit = s.exit := rfl
@[simp] theorem drawReadable_wlog (s : State) : s.drawReadable.2.wlog = s.wlog := rfl
@[simp] theorem drawReadable_report (s : State) : s.drawReadable.2.report = s.report := rfl
@[simp] theorem drawReadable_ret (s : State) : s.drawReadable.2.ret = s.ret := rfl
@[simp] theorem drawReadable_modeStarted (s : State) :
    s.drawReadable.2.modeStarted =
      s.modeStarted := rfl
@[simp] theorem drawReadable_epoch (s : State) : s.drawReadable.2.epoch = s.epoch := rfl

/-! ### drawDelay -/

@[simp] theorem drawDelay_par (s : State) : s.drawDelay.2.par = s.par := rfl
@[simp] theorem drawDelay_cfg (s : State) : s.drawDelay.2.cfg = s.cfg := rfl
@[simp] theorem drawDelay_opnd (s : State) : s.drawDelay.2.opnd = s.opnd := rfl
@[simp] theorem drawDelay_cmd (s : State) : s.drawDelay.2.cmd = s.cmd := rfl
@[simp] theorem drawDelay_clk (s : State) : s.drawDelay.2.clk = s.clk := rfl
@[simp] theorem drawDelay_lastClk (s : State) : s.drawDelay.2.lastClk = s.lastClk := rfl
@[simp] theorem drawDelay_pins (s : State) : s.drawDelay.2.pins = s.pins := rfl
@[simp] theorem drawDelay_prio (s : State) : s.drawDelay.2.prio = s.prio := rfl
@[simp] theorem drawDelay_mem (s : State) : s.drawDelay.2.mem = s.mem := rfl
@[simp] theorem drawDelay_wr (s : State) : s.drawDelay.2.wr = s.wr := rfl
@[simp] theorem drawDelay_seq (s : State) : s.drawDelay.2.seq = s.seq := rfl
@[simp] theorem drawDelay_st (s : State) : s.drawDelay.2.st = s.st := rfl
@[simp] theorem drawDelay_err (s : State) : s.drawDelay.2.err = s.err := rfl
@[simp] theorem drawDelay_exit (s : State) : s.drawDelay.2.exit = s.exit := rfl
@[simp] theorem drawDelay_wlog (s : State) : s.drawDelay.2.wlog = s.wlog := rfl
@[simp] theorem drawDelay_report (s : State) : s.drawDelay.2.report = s.report := rfl
@[simp] theorem drawDelay_ret (s : State) : s.drawDelay.2.ret = s.ret := rfl
@[simp] theorem drawDelay_modeStarted (s : State) : s.drawDelay.2.modeStarted = s.modeStarted := rfl
@[simp] theorem drawDelay_epoch (s : State) : s.drawDelay.2.epoch = s.epoch := rfl

/-! ### appendReport -/

@[simp] theorem appendReport_par (r : Report) (s : State) : (s.appendReport r).par = s.par := rfl
@[simp] theorem appendReport_cfg (r : Report) (s : State) : (s.appendReport r).cfg = s.cfg := rfl
@[simp] theorem appendReport_opnd (r : Report) (s : State) : (s.appendReport r).opnd = s.opnd := rfl
@[simp] theorem appendReport_cmd (r : Report) (s : State) : (s.appendReport r).cmd = s.cmd := rfl
@[simp] theorem appendReport_clk (r : Report) (s : State) : (s.appendReport r).clk = s.clk := rfl
@[simp] theorem appendReport_lastClk (r : Report) (s : State) :
    (s.appendReport r).lastClk =
      s.lastClk := rfl
@[simp] theorem appendReport_pins (r : Report) (s : State) : (s.appendReport r).pins = s.pins := rfl
@[simp] theorem appendReport_prio (r : Report) (s : State) : (s.appendReport r).prio = s.prio := rfl
@[simp] theorem appendReport_mem (r : Report) (s : State) : (s.appendReport r).mem = s.mem := rfl
@[simp] theorem appendReport_wr (r : Report) (s : State) : (s.appendReport r).wr = s.wr := rfl
@[simp] theorem appendReport_seq (r : Report) (s : State) : (s.appendReport r).seq = s.seq := rfl
@[simp] theorem appendReport_st (r : Report) (s : State) : (s.appendReport r).st = s.st := rfl
@[simp] theorem appendReport_err (r : Report) (s : State) : (s.appendReport r).err = s.err := rfl
@[simp] theorem appendReport_exit (r : Report) (s : State) : (s.appendReport r).exit = s.exit := rfl
@[simp] theorem appendReport_wlog (r : Report) (s : State) : (s.appendReport r).wlog = s.wlog := rfl
@[simp] theorem appendReport_report (r : Report) (s : State) :
    (s.appendReport r).report =
      s.report ++ [r] := rfl
@[simp] theorem appendReport_env (r : Report) (s : State) : (s.appendReport r).env = s.env := rfl
@[simp] theorem appendReport_ret (r : Report) (s : State) : (s.appendReport r).ret = s.ret := rfl
@[simp] theorem appendReport_modeStarted (r : Report) (s : State) :
    (s.appendReport r).modeStarted =
      s.modeStarted := rfl
@[simp] theorem appendReport_epoch (r : Report) (s : State) :
    (s.appendReport r).epoch =
      s.epoch := rfl

/-! ### reportAnomaly -/

@[simp] theorem reportAnomaly_par (a : Anomaly) (s : State) : (s.reportAnomaly a).par = s.par := rfl
@[simp] theorem reportAnomaly_cfg (a : Anomaly) (s : State) : (s.reportAnomaly a).cfg = s.cfg := rfl
@[simp] theorem reportAnomaly_opnd (a : Anomaly) (s : State) :
    (s.reportAnomaly a).opnd =
      s.opnd := rfl
@[simp] theorem reportAnomaly_cmd (a : Anomaly) (s : State) : (s.reportAnomaly a).cmd = s.cmd := rfl
@[simp] theorem reportAnomaly_clk (a : Anomaly) (s : State) : (s.reportAnomaly a).clk = s.clk := rfl
@[simp] theorem reportAnomaly_lastClk (a : Anomaly) (s : State) :
    (s.reportAnomaly a).lastClk =
      s.lastClk := rfl
@[simp] theorem reportAnomaly_pins (a : Anomaly) (s : State) :
    (s.reportAnomaly a).pins =
      s.pins := rfl
@[simp] theorem reportAnomaly_prio (a : Anomaly) (s : State) :
    (s.reportAnomaly a).prio =
      s.prio := rfl
@[simp] theorem reportAnomaly_mem (a : Anomaly) (s : State) : (s.reportAnomaly a).mem = s.mem := rfl
@[simp] theorem reportAnomaly_wr (a : Anomaly) (s : State) : (s.reportAnomaly a).wr = s.wr := rfl
@[simp] theorem reportAnomaly_seq (a : Anomaly) (s : State) : (s.reportAnomaly a).seq = s.seq := rfl
@[simp] theorem reportAnomaly_st (a : Anomaly) (s : State) :
    (s.reportAnomaly a).st =
      s.st.raised a := rfl
@[simp] theorem reportAnomaly_err (a : Anomaly) (s : State) : (s.reportAnomaly a).err = s.err := rfl
@[simp] theorem reportAnomaly_exit (a : Anomaly) (s : State) :
    (s.reportAnomaly a).exit =
      s.exit := rfl
@[simp] theorem reportAnomaly_wlog (a : Anomaly) (s : State) :
    (s.reportAnomaly a).wlog =
      s.wlog := rfl
@[simp] theorem reportAnomaly_report (a : Anomaly) (s : State) :
    (s.reportAnomaly a).report =
      s.report ++ [.anomaly a] := rfl
@[simp] theorem reportAnomaly_env (a : Anomaly) (s : State) : (s.reportAnomaly a).env = s.env := rfl
@[simp] theorem reportAnomaly_ret (a : Anomaly) (s : State) : (s.reportAnomaly a).ret = s.ret := rfl
@[simp] theorem reportAnomaly_modeStarted (a : Anomaly) (s : State) :
    (s.reportAnomaly a).modeStarted =
      s.modeStarted := rfl
@[simp] theorem reportAnomaly_epoch (a : Anomaly) (s : State) :
    (s.reportAnomaly a).epoch =
      s.epoch := rfl

/-! ### raise -/

@[simp] theorem raise_par (e : FatalError) (s : State) : (raise e s).par = s.par := rfl
@[simp] theorem raise_cfg (e : FatalError) (s : State) : (raise e s).cfg = s.cfg := rfl
@[simp] theorem raise_opnd (e : FatalError) (s : State) : (raise e s).opnd = s.opnd := rfl
@[simp] theorem raise_cmd (e : FatalError) (s : State) : (raise e s).cmd = s.cmd := rfl
@[simp] theorem raise_clk (e : FatalError) (s : State) : (raise e s).clk = s.clk := rfl
@[simp] theorem raise_lastClk (e : FatalError) (s : State) : (raise e s).lastClk = s.lastClk := rfl
@[simp] theorem raise_pins (e : FatalError) (s : State) : (raise e s).pins = s.pins := rfl
@[simp] theorem raise_prio (e : FatalError) (s : State) : (raise e s).prio = s.prio := rfl
@[simp] theorem raise_mem (e : FatalError) (s : State) : (raise e s).mem = s.mem := rfl
@[simp] theorem raise_wr (e : FatalError) (s : State) : (raise e s).wr = s.wr := rfl
@[simp] theorem raise_seq (e : FatalError) (s : State) : (raise e s).seq = .idle := rfl
@[simp] theorem raise_st (e : FatalError) (s : State) : (raise e s).st = s.st := rfl
@[simp] theorem raise_err (e : FatalError) (s : State) : (raise e s).err = e.registers := rfl
@[simp] theorem raise_exit (e : FatalError) (s : State) : (raise e s).exit = some e.kind.code := rfl
@[simp] theorem raise_wlog (e : FatalError) (s : State) : (raise e s).wlog = s.wlog := rfl
@[simp] theorem raise_report (e : FatalError) (s : State) :
    (raise e s).report =
      s.report ++ [.fatal e] := rfl
@[simp] theorem raise_env (e : FatalError) (s : State) : (raise e s).env = s.env := rfl
@[simp] theorem raise_ret (e : FatalError) (s : State) : (raise e s).ret = s.ret := rfl
@[simp] theorem raise_modeStarted (e : FatalError) (s : State) :
    (raise e s).modeStarted =
      s.modeStarted := rfl
@[simp] theorem raise_epoch (e : FatalError) (s : State) : (raise e s).epoch = s.epoch := rfl

/-! ### finish -/

@[simp] theorem finish_par (s : State) : s.finish.par = s.par := rfl
@[simp] theorem finish_cfg (s : State) : s.finish.cfg = s.cfg := rfl
@[simp] theorem finish_opnd (s : State) : s.finish.opnd = s.opnd := rfl
@[simp] theorem finish_cmd (s : State) : s.finish.cmd = s.cmd := rfl
@[simp] theorem finish_clk (s : State) : s.finish.clk = s.clk := rfl
@[simp] theorem finish_lastClk (s : State) : s.finish.lastClk = s.lastClk := rfl
@[simp] theorem finish_pins (s : State) : s.finish.pins = s.pins := rfl
@[simp] theorem finish_prio (s : State) : s.finish.prio = s.prio := rfl
@[simp] theorem finish_mem (s : State) : s.finish.mem = s.mem := rfl
@[simp] theorem finish_wr (s : State) : s.finish.wr = s.wr := rfl
@[simp] theorem finish_seq (s : State) : s.finish.seq = .idle := rfl
@[simp] theorem finish_st (s : State) : s.finish.st = s.st := rfl
@[simp] theorem finish_err (s : State) : s.finish.err = s.err := rfl
@[simp] theorem finish_exit (s : State) : s.finish.exit = s.exit := rfl
@[simp] theorem finish_wlog (s : State) : s.finish.wlog = s.wlog := rfl
@[simp] theorem finish_report (s : State) : s.finish.report = s.report := rfl
@[simp] theorem finish_env (s : State) : s.finish.env = s.env := rfl
@[simp] theorem finish_ret (s : State) : s.finish.ret = s.ret := rfl
@[simp] theorem finish_modeStarted (s : State) : s.finish.modeStarted = s.modeStarted := rfl
@[simp] theorem finish_epoch (s : State) : s.finish.epoch = s.epoch := rfl

/-! ### suspend -/

@[simp] theorem suspend_par (t : Task) (rest : List Task) (s : State) :
    (s.suspend t rest).par =
      s.par := rfl
@[simp] theorem suspend_cfg (t : Task) (rest : List Task) (s : State) :
    (s.suspend t rest).cfg =
      s.cfg := rfl
@[simp] theorem suspend_opnd (t : Task) (rest : List Task) (s : State) :
    (s.suspend t rest).opnd =
      s.opnd := rfl
@[simp] theorem suspend_cmd (t : Task) (rest : List Task) (s : State) :
    (s.suspend t rest).cmd =
      s.cmd := rfl
@[simp] theorem suspend_clk (t : Task) (rest : List Task) (s : State) :
    (s.suspend t rest).clk =
      s.clk := rfl
@[simp] theorem suspend_lastClk (t : Task) (rest : List Task) (s : State) :
    (s.suspend t rest).lastClk =
      s.lastClk := rfl
@[simp] theorem suspend_pins (t : Task) (rest : List Task) (s : State) :
    (s.suspend t rest).pins =
      s.pins := rfl
@[simp] theorem suspend_prio (t : Task) (rest : List Task) (s : State) :
    (s.suspend t rest).prio =
      s.prio := rfl
@[simp] theorem suspend_mem (t : Task) (rest : List Task) (s : State) :
    (s.suspend t rest).mem =
      s.mem := rfl
@[simp] theorem suspend_wr (t : Task) (rest : List Task) (s : State) :
    (s.suspend t rest).wr =
      s.wr := rfl
@[simp] theorem suspend_seq (t : Task) (rest : List Task) (s : State) :
    (s.suspend t rest).seq =
      { busy := true, op := some t.place.1, phase := t.place.2, todo := t :: rest } := rfl
@[simp] theorem suspend_st (t : Task) (rest : List Task) (s : State) :
    (s.suspend t rest).st =
      s.st := rfl
@[simp] theorem suspend_err (t : Task) (rest : List Task) (s : State) :
    (s.suspend t rest).err =
      s.err := rfl
@[simp] theorem suspend_exit (t : Task) (rest : List Task) (s : State) :
    (s.suspend t rest).exit =
      s.exit := rfl
@[simp] theorem suspend_wlog (t : Task) (rest : List Task) (s : State) :
    (s.suspend t rest).wlog =
      s.wlog := rfl
@[simp] theorem suspend_report (t : Task) (rest : List Task) (s : State) :
    (s.suspend t rest).report =
      s.report := rfl
@[simp] theorem suspend_env (t : Task) (rest : List Task) (s : State) :
    (s.suspend t rest).env =
      s.env := rfl
@[simp] theorem suspend_ret (t : Task) (rest : List Task) (s : State) :
    (s.suspend t rest).ret =
      s.ret := rfl
@[simp] theorem suspend_modeStarted (t : Task) (rest : List Task) (s : State) :
    (s.suspend t rest).modeStarted =
      s.modeStarted := rfl
@[simp] theorem suspend_epoch (t : Task) (rest : List Task) (s : State) :
    (s.suspend t rest).epoch =
      s.epoch := rfl

/-! ### removeFile -/

@[simp] theorem removeFile_par (p : Text) (s : State) :
    (s.removeFile p).par = s.par := rfl
@[simp] theorem removeFile_cfg (p : Text) (s : State) :
    (s.removeFile p).cfg = s.cfg := rfl
@[simp] theorem removeFile_opnd (p : Text) (s : State) :
    (s.removeFile p).opnd = s.opnd := rfl
@[simp] theorem removeFile_cmd (p : Text) (s : State) :
    (s.removeFile p).cmd = s.cmd := rfl
@[simp] theorem removeFile_clk (p : Text) (s : State) :
    (s.removeFile p).clk = s.clk := rfl
@[simp] theorem removeFile_lastClk (p : Text) (s : State) :
    (s.removeFile p).lastClk = s.lastClk := rfl
@[simp] theorem removeFile_pins (p : Text) (s : State) :
    (s.removeFile p).pins = s.pins := rfl
@[simp] theorem removeFile_prio (p : Text) (s : State) :
    (s.removeFile p).prio = s.prio := rfl
@[simp] theorem removeFile_mem (p : Text) (s : State) :
    (s.removeFile p).mem = { s.mem with files := fileErase p s.mem.files } := rfl
@[simp] theorem removeFile_wr (p : Text) (s : State) :
    (s.removeFile p).wr = s.wr := rfl
@[simp] theorem removeFile_seq (p : Text) (s : State) :
    (s.removeFile p).seq = s.seq := rfl
@[simp] theorem removeFile_st (p : Text) (s : State) :
    (s.removeFile p).st = s.st := rfl
@[simp] theorem removeFile_err (p : Text) (s : State) :
    (s.removeFile p).err = s.err := rfl
@[simp] theorem removeFile_exit (p : Text) (s : State) :
    (s.removeFile p).exit = s.exit := rfl
@[simp] theorem removeFile_wlog (p : Text) (s : State) :
    (s.removeFile p).wlog = s.wlog := rfl
@[simp] theorem removeFile_report (p : Text) (s : State) :
    (s.removeFile p).report = s.report := rfl
@[simp] theorem removeFile_env (p : Text) (s : State) :
    (s.removeFile p).env = s.env := rfl
@[simp] theorem removeFile_ret (p : Text) (s : State) :
    (s.removeFile p).ret = s.ret := rfl
@[simp] theorem removeFile_modeStarted (p : Text) (s : State) :
    (s.removeFile p).modeStarted = s.modeStarted := rfl
@[simp] theorem removeFile_epoch (p : Text) (s : State) :
    (s.removeFile p).epoch = s.epoch := rfl

/-! ### startMode -/

@[simp] theorem startMode_par (s : State) : s.startMode.par = s.par := rfl
@[simp] theorem startMode_cfg (s : State) : s.startMode.cfg = s.cfg := rfl
@[simp] theorem startMode_opnd (s : State) : s.startMode.opnd = s.opnd := rfl
@[simp] theorem startMode_cmd (s : State) : s.startMode.cmd = s.cmd := rfl
@[simp] theorem startMode_clk (s : State) : s.startMode.clk = s.clk := rfl
@[simp] theorem startMode_lastClk (s : State) : s.startMode.lastClk = s.lastClk := rfl
@[simp] theorem startMode_pins (s : State) : s.startMode.pins = s.pins := rfl
@[simp] theorem startMode_prio (s : State) : s.startMode.prio = s.prio := rfl
@[simp] theorem startMode_mem (s : State) : s.startMode.mem = s.mem := rfl
@[simp] theorem startMode_wr (s : State) : s.startMode.wr = s.wr := rfl
@[simp] theorem startMode_seq (s : State) : s.startMode.seq = s.seq := rfl
@[simp] theorem startMode_st (s : State) : s.startMode.st = s.st := rfl
@[simp] theorem startMode_err (s : State) : s.startMode.err = s.err := rfl
@[simp] theorem startMode_exit (s : State) : s.startMode.exit = s.exit := rfl
@[simp] theorem startMode_wlog (s : State) : s.startMode.wlog = s.wlog := rfl
@[simp] theorem startMode_report (s : State) : s.startMode.report = s.report := rfl
@[simp] theorem startMode_env (s : State) : s.startMode.env = s.env := rfl
@[simp] theorem startMode_ret (s : State) : s.startMode.ret = s.ret := rfl
@[simp] theorem startMode_modeStarted (s : State) : s.startMode.modeStarted = true := rfl
@[simp] theorem startMode_epoch (s : State) : s.startMode.epoch = s.epoch := rfl

/-! ### takeCommand -/

@[simp] theorem takeCommand_par (s : State) : s.takeCommand.par = s.par := rfl
@[simp] theorem takeCommand_cfg (s : State) : s.takeCommand.cfg = s.cfg := rfl
@[simp] theorem takeCommand_opnd (s : State) : s.takeCommand.opnd = s.opnd := rfl
@[simp] theorem takeCommand_cmd (s : State) : s.takeCommand.cmd = none := rfl
@[simp] theorem takeCommand_clk (s : State) : s.takeCommand.clk = s.clk := rfl
@[simp] theorem takeCommand_lastClk (s : State) : s.takeCommand.lastClk = s.lastClk := rfl
@[simp] theorem takeCommand_pins (s : State) : s.takeCommand.pins = s.pins := rfl
@[simp] theorem takeCommand_prio (s : State) : s.takeCommand.prio = s.prio := rfl
@[simp] theorem takeCommand_mem (s : State) : s.takeCommand.mem = s.mem := rfl
@[simp] theorem takeCommand_wr (s : State) : s.takeCommand.wr = s.wr := rfl
@[simp] theorem takeCommand_seq (s : State) : s.takeCommand.seq = s.seq := rfl
@[simp] theorem takeCommand_st (s : State) : s.takeCommand.st = s.st := rfl
@[simp] theorem takeCommand_err (s : State) : s.takeCommand.err = s.err := rfl
@[simp] theorem takeCommand_exit (s : State) : s.takeCommand.exit = s.exit := rfl
@[simp] theorem takeCommand_wlog (s : State) : s.takeCommand.wlog = s.wlog := rfl
@[simp] theorem takeCommand_report (s : State) : s.takeCommand.report = s.report := rfl
@[simp] theorem takeCommand_env (s : State) : s.takeCommand.env = s.env := rfl
@[simp] theorem takeCommand_ret (s : State) : s.takeCommand.ret = s.ret := rfl
@[simp] theorem takeCommand_modeStarted (s : State) :
    s.takeCommand.modeStarted =
      s.modeStarted := rfl
@[simp] theorem takeCommand_epoch (s : State) : s.takeCommand.epoch = s.epoch := rfl

/-! ### writeCommand -/

@[simp] theorem writeCommand_par (w : CmdWord) (s : State) : (s.writeCommand w).par = s.par := rfl
@[simp] theorem writeCommand_cfg (w : CmdWord) (s : State) :
    (s.writeCommand w).cfg =
      s.cfg.withCommand w := rfl
@[simp] theorem writeCommand_opnd (w : CmdWord) (s : State) :
    (s.writeCommand w).opnd =
      s.opnd := rfl
@[simp] theorem writeCommand_cmd (w : CmdWord) (s : State) : (s.writeCommand w).cmd = some w := rfl
@[simp] theorem writeCommand_clk (w : CmdWord) (s : State) : (s.writeCommand w).clk = s.clk := rfl
@[simp] theorem writeCommand_lastClk (w : CmdWord) (s : State) :
    (s.writeCommand w).lastClk =
      s.lastClk := rfl
@[simp] theorem writeCommand_pins (w : CmdWord) (s : State) :
    (s.writeCommand w).pins =
      s.pins := rfl
@[simp] theorem writeCommand_prio (w : CmdWord) (s : State) :
    (s.writeCommand w).prio =
      s.prio := rfl
@[simp] theorem writeCommand_mem (w : CmdWord) (s : State) : (s.writeCommand w).mem = s.mem := rfl
@[simp] theorem writeCommand_wr (w : CmdWord) (s : State) : (s.writeCommand w).wr = s.wr := rfl
@[simp] theorem writeCommand_seq (w : CmdWord) (s : State) : (s.writeCommand w).seq = s.seq := rfl
@[simp] theorem writeCommand_st (w : CmdWord) (s : State) : (s.writeCommand w).st = s.st := rfl
@[simp] theorem writeCommand_err (w : CmdWord) (s : State) : (s.writeCommand w).err = s.err := rfl
@[simp] theorem writeCommand_exit (w : CmdWord) (s : State) :
    (s.writeCommand w).exit =
      s.exit := rfl
@[simp] theorem writeCommand_wlog (w : CmdWord) (s : State) :
    (s.writeCommand w).wlog =
      s.wlog := rfl
@[simp] theorem writeCommand_report (w : CmdWord) (s : State) :
    (s.writeCommand w).report =
      s.report := rfl
@[simp] theorem writeCommand_env (w : CmdWord) (s : State) : (s.writeCommand w).env = s.env := rfl
@[simp] theorem writeCommand_ret (w : CmdWord) (s : State) : (s.writeCommand w).ret = s.ret := rfl
@[simp] theorem writeCommand_modeStarted (w : CmdWord) (s : State) :
    (s.writeCommand w).modeStarted =
      s.modeStarted := rfl
@[simp] theorem writeCommand_epoch (w : CmdWord) (s : State) :
    (s.writeCommand w).epoch =
      s.epoch := rfl

end Sys2Proof.Machine.Laws
end

