-- ==== Sys2Proof/Laws/Ops.lean ====
section
/-! SUPPORT. For each shared operation, once, everything it can do: the tapes, the clock, the busy-wait,
the pin accesses, and how operations are chained. -/

namespace Sys2Proof.Machine.Laws

/-! ### onClock -/

@[simp] theorem onClock_par (n : Nat) (a : Nat → Nat) (s : State) :
    (s.onClock n a).par = s.par := rfl
@[simp] theorem onClock_cfg (n : Nat) (a : Nat → Nat) (s : State) :
    (s.onClock n a).cfg = s.cfg := rfl
@[simp] theorem onClock_opnd (n : Nat) (a : Nat → Nat) (s : State) :
    (s.onClock n a).opnd = s.opnd := rfl
@[simp] theorem onClock_cmd (n : Nat) (a : Nat → Nat) (s : State) :
    (s.onClock n a).cmd = s.cmd := rfl
@[simp] theorem onClock_clk (n : Nat) (a : Nat → Nat) (s : State) :
    (s.onClock n a).clk = s.clk := rfl
@[simp] theorem onClock_lastClk (n : Nat) (a : Nat → Nat) (s : State) :
    (s.onClock n a).lastClk = s.lastClk := rfl
@[simp] theorem onClock_pins (n : Nat) (a : Nat → Nat) (s : State) :
    (s.onClock n a).pins = s.pins := rfl
@[simp] theorem onClock_prio (n : Nat) (a : Nat → Nat) (s : State) :
    (s.onClock n a).prio = s.prio := rfl
@[simp] theorem onClock_mem (n : Nat) (a : Nat → Nat) (s : State) :
    (s.onClock n a).mem = s.mem := rfl
@[simp] theorem onClock_wr (n : Nat) (a : Nat → Nat) (s : State) :
    (s.onClock n a).wr = s.wr := rfl
@[simp] theorem onClock_seq (n : Nat) (a : Nat → Nat) (s : State) :
    (s.onClock n a).seq = s.seq := rfl
@[simp] theorem onClock_st (n : Nat) (a : Nat → Nat) (s : State) :
    (s.onClock n a).st = s.st := rfl
@[simp] theorem onClock_err (n : Nat) (a : Nat → Nat) (s : State) :
    (s.onClock n a).err = s.err := rfl
@[simp] theorem onClock_exit (n : Nat) (a : Nat → Nat) (s : State) :
    (s.onClock n a).exit = s.exit := rfl
@[simp] theorem onClock_wlog (n : Nat) (a : Nat → Nat) (s : State) :
    (s.onClock n a).wlog = s.wlog := rfl
@[simp] theorem onClock_report (n : Nat) (a : Nat → Nat) (s : State) :
    (s.onClock n a).report = s.report := rfl
@[simp] theorem onClock_env (n : Nat) (a : Nat → Nat) (s : State) :
    (s.onClock n a).env =
      { s.env with clock := { s.env.clock with script := (List.range n).map a } } := rfl
@[simp] theorem onClock_ret (n : Nat) (a : Nat → Nat) (s : State) :
    (s.onClock n a).ret = s.ret := rfl
@[simp] theorem onClock_modeStarted (n : Nat) (a : Nat → Nat) (s : State) :
    (s.onClock n a).modeStarted = s.modeStarted := rfl
@[simp] theorem onClock_epoch (n : Nat) (a : Nat → Nat) (s : State) :
    (s.onClock n a).epoch = s.epoch := rfl

/-- The readings of a state put on a clock are that clock's, as far as its script goes. -/
theorem clockReading_onClock (n : Nat) (a : Nat → Nat) (s : State) (k : Nat) (h : k < n) :
    (s.onClock n a).clockReading k = clockAfter s.clk a k := by
  have answer : ∀ k, k < n → (s.onClock n a).env.clock.answer Config.clkAdvance k = a k := fun k hk => by
    simp [Tape.answer, List.getElem?_map, List.getElem?_range hk]
  induction k with
  | zero => rw [State.clockReading, clockAfter, answer 0 h]; rfl
  | succ k ih => rw [State.clockReading, clockAfter, ih (by omega), answer (k + 1) h]


/-! ### Tapes -/

section Tapes
variable {α : Type} (free : Nat → α) (t : Tape α)

theorem tape_next (free : Nat → α) (t : Tape α) : t.next free = (t.answer free 0, t.skip 1) := by
  obtain ⟨script, used⟩ := t
  cases script <;> rfl

theorem tape_skip_zero (t : Tape α) : t.skip 0 = t := by
  obtain ⟨script, used⟩ := t
  simp [Tape.skip]

theorem tape_skip_skip (t : Tape α) (j k : Nat) : (t.skip j).skip k = t.skip (j + k) := by
  simp [Tape.skip, Nat.add_assoc]

theorem tape_answer_skip (free : Nat → α) (t : Tape α) (j k : Nat) :
    (t.skip j).answer free k = t.answer free (j + k) := by
  simp only [Tape.answer, Tape.skip, List.getElem?_drop, Nat.add_assoc]

end Tapes

/-! ### The clock -/

theorem readClock_eq (s : State) :
    s.readClock =
      { s with
        clk := s.clockReading 0
        lastClk := some (s.clockReading 0)
        env := { s.env with clock := s.env.clock.skip 1 } } := by
  simp only [State.readClock, tape_next, State.clockReading]

@[simp] theorem readClock_clk (s : State) : s.readClock.clk = s.clockReading 0 := by
  rw [readClock_eq]

@[simp] theorem readClock_lastClk (s : State) : s.readClock.lastClk = some (s.clockReading 0) := by
  rw [readClock_eq]

@[simp] theorem readClock_env (s : State) :
    s.readClock.env = { s.env with clock := s.env.clock.skip 1 } := by
  rw [readClock_eq]

theorem readNow_eq (s : State) :
    s.readNow = { s.readClock with wr := { s.wr with now := s.clockReading 0 } } := by
  simp only [State.readNow, readClock_clk]

@[simp] theorem readNow_clk (s : State) : s.readNow.clk = s.clockReading 0 := by
  rw [readNow_eq, readClock_clk]

@[simp] theorem readNow_lastClk (s : State) : s.readNow.lastClk = some (s.clockReading 0) := by
  rw [readNow_eq, readClock_lastClk]

@[simp] theorem readNow_env (s : State) :
    s.readNow.env = { s.env with clock := s.env.clock.skip 1 } := by
  rw [readNow_eq, readClock_env]

@[simp] theorem readNow_wr (s : State) :
    s.readNow.wr = { s.wr with now := s.clockReading 0 } := by
  rw [readNow_eq]

theorem drawPinOk_eq (s : State) :
    s.drawPinOk = (s.nextPinOk, { s with env := { s.env with pinOk := s.env.pinOk.skip 1 } }) := by
  simp only [State.drawPinOk, State.nextPinOk, tape_next]

theorem drawWritable_eq (s : State) :
    s.drawWritable =
      (s.nextWritable, { s with env := { s.env with writable := s.env.writable.skip 1 } }) := by
  simp only [State.drawWritable, State.nextWritable, tape_next]

theorem drawReadable_eq (s : State) :
    s.drawReadable =
      (s.nextReadable, { s with env := { s.env with readable := s.env.readable.skip 1 } }) := by
  simp only [State.drawReadable, State.nextReadable, tape_next]

theorem drawDelay_eq (s : State) :
    s.drawDelay = (s.nextDelay, { s with env := { s.env with delay := s.env.delay.skip 1 } }) := by
  simp only [State.drawDelay, State.nextDelay, tape_next]

/-- The clock after `k` reads that also wrote `NOW`, `k` at least 1: only the last value stays. -/
theorem iterate_readNow (s : State) (k : Nat) :
    State.readNow^[k + 1] s =
      { s with
        clk := s.clockReading k
        lastClk := some (s.clockReading k)
        env := { s.env with clock := s.env.clock.skip (k + 1) }
        wr := { s.wr with now := s.clockReading k } } := by
  induction k with
  | zero =>
    simp only [Nat.zero_add, Function.iterate_one, readNow_eq, readClock_eq]
  | succ k ih =>
    rw [Function.iterate_succ_apply', ih]
    simp only [readNow_eq, readClock_eq, State.clockReading, tape_skip_skip,
      tape_answer_skip, Nat.add_zero]

theorem clockReading_of_clock {s t : State} (hc : t.clk = s.clk)
    (he : t.env.clock = s.env.clock) (k : Nat) : t.clockReading k = s.clockReading k := by
  induction k with
  | zero => simp only [State.clockReading, hc, he]
  | succ k ih => simp only [State.clockReading, ih, he]

/-- After the readings up to number `j` the coming readings are those that follow. -/
theorem clockReading_after {s t : State} (j : Nat) (hc : t.clk = s.clockReading j)
    (he : t.env.clock = s.env.clock.skip (j + 1)) (k : Nat) :
    t.clockReading k = s.clockReading (j + 1 + k) := by
  induction k with
  | zero => simp only [State.clockReading, hc, he, tape_answer_skip, Nat.add_zero]
  | succ k ih =>
    rw [State.clockReading, ih, he, tape_answer_skip, ← Nat.add_assoc (j + 1) k 1]
    rfl

theorem readClock_clockReading (s : State) (k : Nat) :
    s.readClock.clockReading k = s.clockReading (k + 1) := by
  rw [clockReading_after 0 (by rw [readClock_eq]) (by rw [readClock_eq]), Nat.add_comm]

/-! ### The busy-wait -/

/-- What a busy-wait does: it ends at the first value that is due, if there is one among `fuel` reads, and
otherwise has read `fuel` values, none of them due. -/
theorem pollClock_cases (due : U32 → Bool) (fuel : Nat) (s : State) :
    (∃ k < fuel, (∀ j < k, due (s.clockReading j) = false) ∧ due (s.clockReading k) = true
        ∧ pollClock due fuel s = (true, State.readNow^[k + 1] s))
      ∨ ((∀ j < fuel, due (s.clockReading j) = false)
        ∧ pollClock due fuel s = (false, State.readNow^[fuel] s)) := by
  induction fuel generalizing s with
  | zero => right; exact ⟨fun j h => absurd h (Nat.not_lt_zero j), rfl⟩
  | succ n ih =>
    have hnow : s.readNow.wr.now = s.clockReading 0 := by rw [readNow_wr]
    have hread : ∀ k, s.readNow.clockReading k = s.clockReading (k + 1) := by
      intro k
      rw [clockReading_after 0 (readNow_clk s) (by rw [readNow_env]), Nat.add_comm]
    by_cases h : due (s.clockReading 0) = true
    · left
      refine ⟨0, Nat.succ_pos n, fun j hj => absurd hj (Nat.not_lt_zero j), h, ?_⟩
      rw [pollClock, hnow, if_pos h]
      rfl
    · have h' : due (s.clockReading 0) = false := by simpa using h
      have hstep : pollClock due (n + 1) s = pollClock due n s.readNow := by
        rw [pollClock, hnow, h']
        rfl
      rcases ih s.readNow with ⟨k, hk, hlt, hdue, hp⟩ | ⟨hno, hp⟩
      · left
        refine ⟨k + 1, by omega, ?_, by rw [← hread]; exact hdue, ?_⟩
        · intro j hj
          cases j with
          | zero => exact h'
          | succ j => rw [← hread]; exact hlt j (by omega)
        · rw [hstep, hp, Function.iterate_succ_apply State.readNow (k + 1)]
      · right
        refine ⟨?_, ?_⟩
        · intro j hj
          cases j with
          | zero => exact h'
          | succ j => rw [← hread]; exact hno j (by omega)
        · rw [hstep, hp, Function.iterate_succ_apply]

/-- A busy-wait whose first due value is number `k` of at most `fuel`. -/
theorem pollClock_due {due : U32 → Bool} {fuel k : Nat} {s : State} (hk : k < fuel)
    (hbefore : ∀ j < k, due (s.clockReading j) = false) (hdue : due (s.clockReading k) = true) :
    pollClock due fuel s = (true, State.readNow^[k + 1] s) := by
  rcases pollClock_cases due fuel s with ⟨k', hk', hlt, hd, hp⟩ | ⟨hno, -⟩
  · have : k' = k := by
      rcases Nat.lt_trichotomy k' k with h | h | h
      · rw [hbefore k' h] at hd; cases hd
      · exact h
      · rw [hlt k h] at hdue; cases hdue
    rw [hp, this]
  · rw [hno k hk] at hdue; cases hdue

/-- A busy-wait none of whose `fuel` values is due. -/
theorem pollClock_notDue {due : U32 → Bool} {fuel : Nat} {s : State}
    (hno : ∀ j < fuel, due (s.clockReading j) = false) :
    pollClock due fuel s = (false, State.readNow^[fuel] s) := by
  rcases pollClock_cases due fuel s with ⟨k, hk, -, hd, -⟩ | ⟨-, hp⟩
  · rw [hno k hk] at hd; cases hd
  · exact hp

/-! ### Pins -/

theorem pinLookup_store (p q : Nat) (r : Pin) (l : List (Nat × Pin)) :
    pinLookup q (pinStore p r l) = if q = p then some r else pinLookup q l := by
  induction l with
  | nil => simp [pinStore, pinLookup]
  | cons e rest ih =>
    obtain ⟨a, x⟩ := e
    by_cases hlt : p < a
    · by_cases hq : q = p
      · simp [pinStore, hlt, pinLookup, hq]
      · simp [pinStore, hlt, pinLookup, hq]
    · by_cases hpa : p = a
      · subst hpa
        by_cases hq : q = p
        · simp [pinStore, pinLookup, hq]
        · simp [pinStore, pinLookup, hq]
      · simp only [pinStore, if_neg hlt, if_neg hpa, pinLookup, ih]
        by_cases hq : q = p
        · subst hq; simp [hpa]
        · simp [hq]

/-- Writing one pin's registers leaves every other pin as it was. -/
theorem setPin_pinAt (p q : Nat) (r : Pin) (s : State) :
    (s.setPin p r).pinAt q = if q = p then r else s.pinAt q := by
  simp only [State.pinAt, State.setPin, pinLookup_store]
  by_cases h : q = p <;> simp [h]

theorem pinStore_rising (p : Nat) (r : Pin) (l : List (Nat × Pin))
    (h : pinsRising l = true) : pinsRising (pinStore p r l) = true := by
  induction l with
  | nil => rfl
  | cons e rest ih =>
    obtain ⟨a, x⟩ := e
    by_cases hlt : p < a
    · simp [pinStore, hlt, pinsRising, h]
    · by_cases hpa : p = a
      · subst hpa
        cases rest with
        | nil => simp [pinStore, pinsRising]
        | cons f rest' => simpa [pinStore, pinsRising] using h
      · have hap : a < p := by omega
        simp only [pinStore, if_neg hlt, if_neg hpa]
        cases rest with
        | nil => simp [pinStore, pinsRising, hap]
        | cons f rest' =>
          obtain ⟨b, y⟩ := f
          simp only [pinsRising, Bool.and_eq_true, decide_eq_true_eq] at h
          have ih' := ih h.2
          by_cases hlt' : p < b
          · simp only [pinStore, if_pos hlt', pinsRising, Bool.and_eq_true, decide_eq_true_eq]
            exact ⟨hap, hlt', h.2⟩
          · by_cases hpb : p = b
            · simp only [pinStore, if_neg hlt', if_pos hpb] at ih' ⊢
              subst hpb
              cases rest' with
              | nil => simp [pinsRising, hap]
              | cons g rest'' =>
                simp only [pinsRising, Bool.and_eq_true, decide_eq_true_eq] at ih' ⊢
                exact ⟨hap, ih'⟩
            · simp only [pinStore, if_neg hlt', if_neg hpb] at ih' ⊢
              simp only [pinsRising, Bool.and_eq_true, decide_eq_true_eq]
              exact ⟨h.1, ih'⟩

theorem pinStore_mem {p : Nat} {r : Pin} {l : List (Nat × Pin)} {e : Nat × Pin}
    (h : e ∈ pinStore p r l) : e = (p, r) ∨ e ∈ l := by
  induction l with
  | nil => simpa [pinStore] using h
  | cons f rest ih =>
    obtain ⟨a, x⟩ := f
    simp only [pinStore] at h
    split at h
    · simpa using h
    · split at h
      · rcases List.mem_cons.1 h with h | h
        · exact .inl h
        · exact .inr (List.mem_cons_of_mem _ h)
      · rcases List.mem_cons.1 h with h | h
        · exact .inr (h ▸ List.mem_cons_self)
        · rcases ih h with h | h
          · exact .inl h
          · exact .inr (List.mem_cons_of_mem _ h)

/-- CONFIGURE_PIN (R70): an invalid index fails without asking the platform; otherwise the platform's answer
decides. -/
theorem configurePin_cases (pin : Nat) (dir : Direction) (pull : Pull) (s : State) :
    (s.par.pinCount ≤ pin ∧ configurePin pin dir pull s = .fatal (raise (.pinConfigError pin) s))
      ∨ (pin < s.par.pinCount ∧ s.nextPinOk = false
        ∧ configurePin pin dir pull s = .fatal (raise (.pinConfigError pin) s.drawPinOk.2))
      ∨ (pin < s.par.pinCount ∧ s.nextPinOk = true
        ∧ configurePin pin dir pull s =
          .done () (s.drawPinOk.2.setPin pin { s.pinAt pin with dir := dir.pinDir, pull := pull })) := by
  have hd : s.drawPinOk = (s.nextPinOk, s.drawPinOk.2) := by
    rw [drawPinOk_eq]
  by_cases hv : pin < s.par.pinCount
  · right
    cases hok : s.nextPinOk with
    | false =>
      left
      rw [hok] at hd
      refine ⟨hv, rfl, ?_⟩
      simp only [configurePin, State.validPin, hv, decide_true, if_true]
      rw [hd]
    | true =>
      right
      rw [hok] at hd
      refine ⟨hv, rfl, ?_⟩
      simp only [configurePin, State.validPin, hv, decide_true, if_true]
      rw [hd]
      rfl
  · left
    exact ⟨by omega, by simp [configurePin, State.validPin, hv]⟩

/-- READ_PIN (R71): ENV's next level, for a valid input only. -/
theorem readPin_cases (pin : Nat) (s : State) :
    (pin < s.par.pinCount ∧ (s.pinAt pin).dir = .input
        ∧ readPin pin s =
          .done (s.levelReading 0) { s with env := { s.env with level := s.env.level.skip 1 } })
      ∨ (¬ (pin < s.par.pinCount ∧ (s.pinAt pin).dir = .input)
        ∧ readPin pin s = .refused (.readOfNonInput pin)) := by
  by_cases h : pin < s.par.pinCount ∧ (s.pinAt pin).dir = .input
  · left
    refine ⟨h.1, h.2, ?_⟩
    simp [readPin, State.validPin, h, tape_next, State.levelReading]
  · right
    refine ⟨h, ?_⟩
    simp only [readPin, State.validPin, decide_eq_true_eq]
    rw [if_neg h]

/-- WRITE_PIN (R72): the latch and one log entry, for a valid output only. -/
theorem writePin_cases (pin : Nat) (level : Level) (s : State) :
    (pin < s.par.pinCount ∧ (s.pinAt pin).dir = .output
        ∧ writePin pin level s =
          .done () { s.setPin pin { s.pinAt pin with out := level } with
            wlog := s.wlog ++ [{ pin := pin, level := level, clock := s.lastClk }] })
      ∨ (¬ (pin < s.par.pinCount ∧ (s.pinAt pin).dir = .output)
        ∧ writePin pin level s = .refused (.writeToNonOutput pin)) := by
  by_cases h : pin < s.par.pinCount ∧ (s.pinAt pin).dir = .output
  · exact .inl ⟨h.1, h.2, by simp [writePin, State.validPin, h]⟩
  · exact .inr ⟨h, by simp only [writePin, State.validPin, decide_eq_true_eq]; rw [if_neg h]⟩

/-! ### Chains of operations -/

/-- An operation followed by another ends done only where both are. -/
theorem andThen_done {α β : Type} {x : Act α} {k : α → State → Act β} {b : β} {t : State}
    (h : x.andThen k = .done b t) : ∃ a s, x = .done a s ∧ k a s = .done b t := by
  cases x <;> simp [Act.andThen] at h
  exact ⟨_, _, rfl, h⟩

@[simp] theorem andThen_of_done {α β : Type} (a : α) (s : State) (k : α → State → Act β) :
    (Act.done a s).andThen k = k a s := rfl

@[simp] theorem andThen_of_fatal {α β : Type} (s : State) (k : α → State → Act β) :
    (Act.fatal s : Act α).andThen k = .fatal s := rfl

@[simp] theorem andThen_of_wait {α β : Type} (t : Task) (s : State) (k : α → State → Act β) :
    (Act.wait t s : Act α).andThen k = .wait t s := rfl

@[simp] theorem andThen_of_fault {α β : Type} (f : Fault) (k : α → State → Act β) :
    (Act.fault f : Act α).andThen k = .fault f := rfl

@[simp] theorem andThen_of_refused {α β : Type} (r : Refusal) (k : α → State → Act β) :
    (Act.refused r : Act α).andThen k = .refused r := rfl

/-- `P` holds of the state wherever an operation leaves one: done, by a fatal error, or at a poll. -/
def leaves {α : Type} (P : State → Prop) : Act α → Prop
  | .done _ s => P s
  | .fatal s => P s
  | .wait _ s => P s
  | .fault _ => True
  | .refused _ => True

theorem leaves_andThen {α β : Type} {P : State → Prop} {x : Act α} {k : α → State → Act β}
    (hx : leaves P x) (hk : ∀ a s, x = .done a s → P s → leaves P (k a s)) :
    leaves P (x.andThen k) := by
  cases x with
  | done a s => exact hk a s rfl hx
  | fatal s => exact hx
  | wait t s => exact hx
  | fault f => trivial
  | refused r => trivial

end Sys2Proof.Machine.Laws
end

