-- ==== Sys2Proof/Laws/Memory.lean ====
section
/-! SUPPORT. The memories: reading the file store after a write, and that every operation on a memory keeps
the canonical form `Memory.wf`. -/

namespace Sys2Proof.Machine.Laws

/-! ### The order of paths -/

theorem textLt_total {p q : Text} (h : textLt p q = false) (hne : p ≠ q) : textLt q p = true := by
  induction p generalizing q with
  | nil =>
    cases q with
    | nil => exact absurd rfl hne
    | cons b bs => simp [textLt] at h
  | cons a as ih =>
    cases q with
    | nil => rfl
    | cons b bs =>
      simp only [textLt] at h ⊢
      by_cases hab : a.toNat < b.toNat
      · simp [hab] at h
      · rw [if_neg hab] at h
        by_cases hba : b.toNat < a.toNat
        · rw [if_pos hba]
        · have e : a = b := BitVec.eq_of_toNat_eq (by omega)
          subst e
          rw [if_pos rfl] at h
          rw [if_neg hba, if_pos rfl]
          exact ih h fun hc => hne (by rw [hc])

/-! ### The file store (R27) -/

/-- One entry is added or replaced; every other path reads as before. -/
theorem fileLookup_store (p q c : Text) (l : List (Text × Text)) :
    fileLookup q (fileStore p c l) = if q = p then some c else fileLookup q l := by
  induction l with
  | nil => simp [fileStore, fileLookup]
  | cons e rest ih =>
    obtain ⟨a, x⟩ := e
    by_cases hlt : textLt p a = true
    · by_cases hq : q = p <;> simp [fileStore, hlt, fileLookup, hq]
    · by_cases hpa : p = a
      · subst hpa
        by_cases hq : q = p <;> simp [fileStore, hlt, fileLookup, hq]
      · simp only [fileStore, if_neg hlt, if_neg hpa, fileLookup, ih]
        by_cases hq : q = p
        · subst hq; simp [hpa]
        · simp [hq]

theorem filesRising_cons {p c : Text} {l : List (Text × Text)}
    (h : filesRising l = true) (hp : ∀ e ∈ l.head?, textLt p e.1 = true) :
    filesRising ((p, c) :: l) = true := by
  cases l with
  | nil => rfl
  | cons e rest =>
    obtain ⟨q, x⟩ := e
    simp only [filesRising, Bool.and_eq_true]
    exact ⟨hp (q, x) (by simp), h⟩

theorem filesRising_tail {e : Text × Text} {l : List (Text × Text)}
    (h : filesRising (e :: l) = true) : filesRising l = true := by
  cases l with
  | nil => rfl
  | cons f rest =>
    simp only [filesRising, Bool.and_eq_true] at h
    exact h.2

theorem filesRising_head {p c : Text} {l : List (Text × Text)}
    (h : filesRising ((p, c) :: l) = true) : ∀ e ∈ l.head?, textLt p e.1 = true := by
  cases l with
  | nil => simp
  | cons f rest =>
    simp only [filesRising, Bool.and_eq_true] at h
    simp [h.1]

theorem textLt_trans {p q r : Text} (h1 : textLt p q = true) (h2 : textLt q r = true) :
    textLt p r = true := by
  induction p generalizing q r with
  | nil =>
    cases q with
    | nil => simp [textLt] at h1
    | cons b bs =>
      cases r with
      | nil => simp [textLt] at h2
      | cons c cs => rfl
  | cons a as ih =>
    cases q with
    | nil => simp [textLt] at h1
    | cons b bs =>
      cases r with
      | nil => simp [textLt] at h2
      | cons c cs =>
        simp only [textLt] at h1 h2 ⊢
        split at h1
        · next hab =>
          split at h2
          · next hbc => rw [if_pos (by omega)]
          · next hbc =>
            split at h2
            · next e => subst e; rw [if_pos hab]
            · cases h2
        · next hab =>
          split at h1
          · next e =>
            subst e
            split at h2
            · next hbc => rw [if_pos hbc]
            · next hbc =>
              split at h2
              · next e =>
                subst e
                rw [if_neg hab, if_pos rfl]
                exact ih h1 h2
              · cases h2
          · cases h1

/-- The first path of a store lies before every other. -/
theorem filesRising_below {p c : Text} {l : List (Text × Text)} (h : filesRising ((p, c) :: l) = true) :
    ∀ e ∈ l, textLt p e.1 = true := by
  induction l generalizing p c with
  | nil => simp
  | cons f rest ih =>
    obtain ⟨q, x⟩ := f
    have hpq : textLt p q = true := filesRising_head h (q, x) (by simp)
    intro e he
    rcases List.mem_cons.1 he with rfl | he
    · exact hpq
    · exact textLt_trans hpq (ih (filesRising_tail h) e he)

theorem fileErase_rising (path : Text) (l : List (Text × Text)) (h : filesRising l = true) :
    filesRising (fileErase path l) = true := by
  induction l with
  | nil => rfl
  | cons f rest ih =>
    obtain ⟨q, x⟩ := f
    have hrest := ih (filesRising_tail h)
    rw [fileErase, List.filter_cons]
    split
    · refine filesRising_cons hrest fun e he => filesRising_below h e ?_
      exact List.mem_of_mem_filter (List.mem_of_mem_head? he)
    · exact hrest

/-- One entry is removed; every other path reads as before. -/
theorem fileLookup_erase (p q : Text) (l : List (Text × Text)) :
    fileLookup q (fileErase p l) = if q = p then none else fileLookup q l := by
  induction l with
  | nil => simp [fileErase, fileLookup]
  | cons f rest ih =>
    obtain ⟨a, x⟩ := f
    rw [fileErase] at ih
    rw [fileErase, List.filter_cons]
    by_cases ha : a = p
    · rw [if_neg (by simp [ha]), ih]
      by_cases hq : q = p
      · rw [if_pos hq, if_pos hq]
      · rw [if_neg hq, if_neg hq, fileLookup, if_neg (by rw [ha]; exact hq)]
    · rw [if_pos (by simp [ha]), fileLookup, fileLookup, ih]
      by_cases hq : q = a
      · rw [if_pos hq, if_pos hq, if_neg (by rw [hq]; exact ha)]
      · rw [if_neg hq, if_neg hq]

theorem fileStore_head {p c a x : Text} {l : List (Text × Text)} (hap : textLt a p = true)
    (h : ∀ e ∈ l.head?, textLt a e.1 = true) :
    ∀ e ∈ (fileStore p c ((a, x) :: l).tail).head?, textLt a e.1 = true := by
  cases l with
  | nil => simpa [fileStore] using hap
  | cons f rest =>
    obtain ⟨b, y⟩ := f
    simp only [List.head?_cons, Option.mem_def, Option.some.injEq, forall_eq'] at h
    simp only [List.tail_cons, fileStore]
    split
    · simpa using hap
    · split
      · simpa using hap
      · simpa using h

/-- A write keeps the paths strictly rising. -/
theorem fileStore_rising (p c : Text) (l : List (Text × Text)) (h : filesRising l = true) :
    filesRising (fileStore p c l) = true := by
  induction l with
  | nil => rfl
  | cons e rest ih =>
    obtain ⟨a, x⟩ := e
    simp only [fileStore]
    split
    · next hlt => exact filesRising_cons h (by simpa using hlt)
    · next hlt =>
      split
      · next hpa =>
        subst hpa
        exact filesRising_cons (filesRising_tail h) (filesRising_head h)
      · next hpa =>
        have hap : textLt a p = true := textLt_total (by simpa using hlt) hpa
        exact filesRising_cons (ih (filesRising_tail h))
          (fileStore_head (x := x) hap (filesRising_head h))

/-! ### The canonical form -/

/-- The canonical form, conjunct by conjunct. -/
theorem wf_iff (cap : Nat) (m : Memory) :
    m.wf cap = true ↔
      m.raw.length ≤ Config.bufCap ∧ m.tr.length ≤ Config.trCap ∧ m.obs.length ≤ Config.trCap
        ∧ m.pay.length ≤ cap ∧ m.pay2.length ≤ cap ∧ filesRising m.files = true := by
  simp only [Memory.wf, Bool.and_eq_true, decide_eq_true_eq, and_assoc]

section Kept
variable {cap : Nat} {m : Memory} (h : m.wf cap = true)
include h

theorem wf_raw {xs : List Sample} (hx : xs.length ≤ Config.bufCap) :
    ({ m with raw := xs } : Memory).wf cap = true := by
  rw [wf_iff] at h ⊢; exact ⟨hx, h.2⟩

theorem wf_tr {xs : List Sample} (hx : xs.length ≤ Config.trCap) :
    ({ m with tr := xs } : Memory).wf cap = true := by
  rw [wf_iff] at h ⊢; exact ⟨h.1, hx, h.2.2⟩

theorem wf_obs {xs : List U32} (hx : xs.length ≤ Config.trCap) :
    ({ m with obs := xs } : Memory).wf cap = true := by
  rw [wf_iff] at h ⊢; exact ⟨h.1, h.2.1, hx, h.2.2.2⟩

theorem wf_pay {bs : List Byte} (hx : bs.length ≤ cap) :
    ({ m with pay := bs } : Memory).wf cap = true := by
  rw [wf_iff] at h ⊢; exact ⟨h.1, h.2.1, h.2.2.1, hx, h.2.2.2.2⟩

theorem wf_pay2 {bs : List Byte} (hx : bs.length ≤ cap) :
    ({ m with pay2 := bs } : Memory).wf cap = true := by
  rw [wf_iff] at h ⊢; exact ⟨h.1, h.2.1, h.2.2.1, h.2.2.2.1, hx, h.2.2.2.2.2⟩

/-- A file write keeps the canonical form. -/
theorem wf_putFile {path contents : Text} :
    ({ m with files := fileStore path contents m.files } : Memory).wf cap = true := by
  rw [wf_iff] at h ⊢
  exact ⟨h.1, h.2.1, h.2.2.1, h.2.2.2.1, h.2.2.2.2.1, fileStore_rising _ _ _ h.2.2.2.2.2⟩

/-- A file removed keeps the canonical form. -/
theorem wf_removeFile {path : Text} :
    ({ m with files := fileErase path m.files } : Memory).wf cap = true := by
  rw [wf_iff] at h ⊢
  exact ⟨h.1, h.2.1, h.2.2.1, h.2.2.2.1, h.2.2.2.2.1, fileErase_rising _ _ h.2.2.2.2.2⟩

end Kept

/-- Reset's memory has the canonical form. -/
theorem wf_reset (cap : Nat) : Memory.reset.wf cap = true := by
  rw [wf_iff]; simp [Memory.reset, filesRising]

/-! ### The appends -/

/-- A store to `RAW`: the record is appended while there is room, and otherwise the machine stops. -/
theorem storeRaw_cases (x : Sample) (s : State) :
    (s.mem.raw.length < Config.bufCap
        ∧ storeRaw x s = .done () { s with
            mem := { s.mem with raw := s.mem.raw ++ [x] }
            wr := { s.wr with k := s.mem.raw.length + 1 } })
      ∨ (Config.bufCap ≤ s.mem.raw.length
        ∧ storeRaw x s = .fault (.recordOutOfRange .raw s.mem.raw.length)) := by
  by_cases h : s.mem.raw.length < Config.bufCap
  · exact .inl ⟨h, by rw [storeRaw, if_pos h]⟩
  · exact .inr ⟨Nat.not_lt.1 h, by rw [storeRaw, if_neg h]⟩

/-- A store to `OBS`. -/
theorem storeObs_cases (c : U32) (s : State) :
    (s.mem.obs.length < Config.trCap
        ∧ storeObs c s = .done () { s with mem := { s.mem with obs := s.mem.obs ++ [c] } })
      ∨ (Config.trCap ≤ s.mem.obs.length
        ∧ storeObs c s = .fault (.recordOutOfRange .obs s.mem.obs.length)) := by
  by_cases h : s.mem.obs.length < Config.trCap
  · exact .inl ⟨h, by rw [storeObs, if_pos h]⟩
  · exact .inr ⟨Nat.not_lt.1 h, by rw [storeObs, if_neg h]⟩

end Sys2Proof.Machine.Laws
end

