-- ==== Sys2Proof/Laws/Contract.lean ====
section
/-! SUPPORT. The contract every operation keeps, from every state: what it may only add to, what it leaves to
the sequencer, how it takes an error, and, from a sound state, that it ends sound and without a fault. One
lemma per shared operation; the invariant and the whole-machine rules rest on these. -/

namespace Sys2Proof.Machine.Laws

/-! ### Growth -/

theorem keeps_refl (a : Status) : a.keeps a := ⟨id, id, id, id⟩

theorem keeps_trans {a b c : Status} (h : a.keeps b) (h' : b.keeps c) : a.keeps c :=
  ⟨fun x => h'.1 (h.1 x), fun x => h'.2.1 (h.2.1 x), fun x => h'.2.2.1 (h.2.2.1 x),
    fun x => h'.2.2.2 (h.2.2.2 x)⟩

theorem keeps_raised (a : Anomaly) (st : Status) : st.keeps (st.raised a) := by
  cases a <;> refine ⟨?_, ?_, ?_, ?_⟩ <;> intro h <;> first | exact h | rfl

theorem grows_refl (s : State) : s.Grows s :=
  ⟨List.prefix_refl _, List.prefix_refl _, keeps_refl _, rfl, rfl, rfl, rfl⟩

theorem grows_trans {s t u : State} (h : s.Grows t) (h' : t.Grows u) : s.Grows u :=
  ⟨h.wlog.trans h'.wlog, h.report.trans h'.report, keeps_trans h.flags h'.flags,
    h'.cfg.trans h.cfg, h'.opnd.trans h.opnd, h'.par.trans h.par, h'.epoch.trans h.epoch⟩

/-! ### Soundness -/

/-- The part of the invariant an operation keeps by itself: the memories and the pins. -/
structure Sound (s : State) : Prop where
  memory : s.mem.wf s.par.payCap = true
  pinsOrdered : pinsRising s.pins = true
  pinsConfigured : ∀ e ∈ s.pins, e.1 < s.par.pinCount ∧ e.2.dir ≠ .unconfigured

/-- What an operation that ends done leaves of the control registers. -/
structure SameControl (s t : State) : Prop where
  seq : t.seq = s.seq
  err : t.err = s.err
  cmd : t.cmd = s.cmd
  modeStarted : t.modeStarted = s.modeStarted

theorem sameControl_refl (s : State) : SameControl s s := ⟨rfl, rfl, rfl, rfl⟩

theorem sameControl_trans {s t u : State} (h : SameControl s t) (h' : SameControl t u) :
    SameControl s u :=
  ⟨h'.seq.trans h.seq, h'.err.trans h.err, h'.cmd.trans h.cmd, h'.modeStarted.trans h.modeStarted⟩

/-- A fatal error has been taken (R127): its registers, its report, its exit status, nothing running. -/
def Taken (t : State) : Prop :=
  ∃ e : FatalError, t.err = e.registers ∧ t.exit = some e.kind.code ∧ t.seq = .idle
    ∧ t.report.getLast? = some (.fatal e)

theorem taken_raise (e : FatalError) (s : State) : Taken (raise e s) :=
  ⟨e, rfl, rfl, rfl, by simp [raise]⟩

/-- The contract of an operation from `s`, `P` being what its caller owes: wherever it ends it has only
grown; done, it leaves the control registers alone, may have written `EXIT <- 0`, and gives `D`; with `P` it
ends sound, does not fault and is not refused. -/
inductive Ends {α : Type} (P : Prop) (s : State) (D : α → State → Prop) : Act α → Prop where
  | done {a : α} {t : State} (grows : s.Grows t) (control : SameControl s t)
      (exit : t.exit = s.exit ∨ t.exit = some 0) (gives : P → Sound t ∧ D a t) :
      Ends P s D (.done a t)
  | fatal {t : State} (grows : s.Grows t) (taken : Taken t) (cmd : t.cmd = s.cmd)
      (mode : t.modeStarted = s.modeStarted) (gives : P → Sound t) : Ends P s D (.fatal t)
  | wait {k : Task} {t : State} (grows : s.Grows t) (control : SameControl s t)
      (exit : t.exit = s.exit ∨ t.exit = some 0) (gives : P → Sound t ∧ t.polling k) :
      Ends P s D (.wait k t)
  | fault {f : Fault} (never : ¬ P) : Ends P s D (.fault f)
  | refused {r : Refusal} (never : ¬ P) : Ends P s D (.refused r)

/-- `Ends`, its operation written before what it gives. -/
abbrev Contract {α : Type} (P : Prop) (s : State) (x : Act α) (D : α → State → Prop) : Prop :=
  Ends P s D x

section
variable {α : Type} {P P' : Prop} {s t : State} {x : Act α} {D D' : α → State → Prop}

theorem contract_mono (hP : P → P') (hD : ∀ a t, D a t → D' a t) (h : Contract P' s x D) :
    Contract P s x D' := by
  cases h with
  | done hg hc he hp => exact .done hg hc he fun p => ⟨(hp (hP p)).1, hD _ _ (hp (hP p)).2⟩
  | fatal hg ht hc hm hp => exact .fatal hg ht hc hm fun p => hp (hP p)
  | wait hg hc he hp => exact .wait hg hc he fun p => hp (hP p)
  | fault h => exact .fault fun p => h (hP p)
  | refused h => exact .refused fun p => h (hP p)

/-- An operation that ends done has ended by an equation. -/
theorem contract_done {a : α} (hg : s.Grows t) (hc : SameControl s t) (he : t.exit = s.exit)
    (hp : P → Sound t ∧ D a t) : Contract P s (Act.done a t) D :=
  .done hg hc (.inl he) hp

/-- A raise whose state has grown from `s` (R127). -/
theorem contract_raise (e : FatalError) (hg : s.Grows t) (hc : SameControl s t) (hp : P → Sound t) :
    Contract P s (Act.fatal (raise e t) : Act α) D :=
  .fatal ⟨hg.wlog, hg.report.trans (List.prefix_append _ _), hg.flags, hg.cfg, hg.opnd, hg.par, hg.epoch⟩
    (taken_raise e t) hc.cmd hc.modeStarted
    fun p => ⟨(hp p).memory, (hp p).pinsOrdered, (hp p).pinsConfigured⟩

/-- What follows an operation that has only grown keeps the contract from its start. -/
theorem contract_after {Q : Prop} (hg : s.Grows t) (hc : SameControl s t)
    (he : t.exit = s.exit ∨ t.exit = some 0) (hP : P → Q) (h : Contract Q t x D) :
    Contract P s x D := by
  have exit : ∀ u : State, (u.exit = t.exit ∨ u.exit = some 0) →
      (u.exit = s.exit ∨ u.exit = some 0) := by
    intro u hu
    rcases hu with hu | hu
    · exact he.imp hu.trans hu.trans
    · exact .inr hu
  cases h with
  | done hg' hc' he' hp =>
    exact .done (grows_trans hg hg') (sameControl_trans hc hc') (exit _ he') fun p => hp (hP p)
  | fatal hg' ht hcmd hm hp =>
    exact .fatal (grows_trans hg hg') ht (hcmd.trans hc.cmd) (hm.trans hc.modeStarted) fun p => hp (hP p)
  | wait hg' hc' he' hp =>
    exact .wait (grows_trans hg hg') (sameControl_trans hc hc') (exit _ he') fun p => hp (hP p)
  | fault h => exact .fault fun p => h (hP p)
  | refused h => exact .refused fun p => h (hP p)

/-- A contract used by a caller that owes more; what it owes is still known after the operation. -/
theorem contract_use (h : Contract P' s x D) (hP : P → P') :
    Contract P s x fun a t => P ∧ D a t := by
  cases h with
  | done hg hc he hp => exact .done hg hc he fun p => ⟨(hp (hP p)).1, p, (hp (hP p)).2⟩
  | fatal hg ht hc hm hp => exact .fatal hg ht hc hm fun p => hp (hP p)
  | wait hg hc he hp => exact .wait hg hc he fun p => hp (hP p)
  | fault h => exact .fault fun p => h (hP p)
  | refused h => exact .refused fun p => h (hP p)

/-- Chaining: what the first operation gives, the second may rely on. -/
theorem contract_andThen {β : Type} {k : α → State → Act β} {E : β → State → Prop}
    (hx : Contract P s x D) (hk : ∀ a t, Contract (Sound t ∧ D a t) t (k a t) E) :
    Contract P s (x.andThen k) E := by
  cases hx with
  | done hg hc he hp => exact contract_after hg hc he hp (hk _ _)
  | fatal hg ht hc hm hp => exact .fatal hg ht hc hm hp
  | wait hg hc he hp => exact .wait hg hc he hp
  | fault h => exact .fault h
  | refused h => exact .refused h

end

end Sys2Proof.Machine.Laws
end

