-- ==== Sys2Proof/Laws/FacadeContracts.lean ====
section
/-! SUPPORT. The contracts of the facade operations, the busy-wait, the trace store and the sampler. -/

namespace Sys2Proof.Machine.Laws

/-! ### Updates that touch neither a log, nor a flag, nor what HOST writes, nor the sequencer -/

/-- `t` differs from `s` in the clock, the pins, the priority, the memories, the working registers, the
agents or the returned value only. -/
structure Quiet (s t : State) : Prop where
  wlog : t.wlog = s.wlog
  report : t.report = s.report
  st : t.st = s.st
  cfg : t.cfg = s.cfg
  opnd : t.opnd = s.opnd
  par : t.par = s.par
  epoch : t.epoch = s.epoch
  seq : t.seq = s.seq
  err : t.err = s.err
  cmd : t.cmd = s.cmd
  modeStarted : t.modeStarted = s.modeStarted
  exit : t.exit = s.exit

theorem quiet_refl (s : State) : Quiet s s := ⟨rfl, rfl, rfl, rfl, rfl, rfl, rfl, rfl, rfl, rfl, rfl, rfl⟩

theorem quiet_trans {s t u : State} (h : Quiet s t) (h' : Quiet t u) : Quiet s u :=
  ⟨h'.1.trans h.1, h'.2.trans h.2, h'.3.trans h.3, h'.4.trans h.4, h'.5.trans h.5, h'.6.trans h.6,
    h'.7.trans h.7, h'.8.trans h.8, h'.9.trans h.9, h'.10.trans h.10, h'.11.trans h.11,
    h'.12.trans h.12⟩

theorem quiet_grows {s t : State} (h : Quiet s t) : s.Grows t :=
  ⟨by rw [h.wlog], by rw [h.report], by rw [h.st]; exact keeps_refl _, h.cfg, h.opnd, h.par, h.epoch⟩

theorem quiet_control {s t : State} (h : Quiet s t) : SameControl s t :=
  ⟨h.seq, h.err, h.cmd, h.modeStarted⟩

theorem contract_quiet {α : Type} {P : Prop} {s t : State} {a : α} {D : α → State → Prop}
    (h : Quiet s t) (hp : P → Sound t ∧ D a t) : Contract P s (Act.done a t) D :=
  contract_done (quiet_grows h) (quiet_control h) h.exit hp

/-- An operation that runs from `t`, to which `s` has come quietly. -/
theorem contract_of_quiet {α : Type} {P Q : Prop} {s t : State} {x : Act α} {D : α → State → Prop}
    (hq : Quiet s t) (hP : P → Q) (h : Contract Q t x D) : Contract P s x D :=
  contract_after (quiet_grows hq) (quiet_control hq) (.inl hq.exit) hP h

/-- Soundness looks at the memories, the pins and two parameters. -/
theorem sound_of_eq {s t : State} (h : Sound s) (hm : t.mem = s.mem) (hp : t.pins = s.pins)
    (hpar : t.par = s.par) : Sound t :=
  ⟨by rw [hm, hpar]; exact h.memory, by rw [hp]; exact h.pinsOrdered,
    by rw [hp, hpar]; exact h.pinsConfigured⟩

/-- Soundness after a change of the memories that keeps their canonical form. -/
theorem sound_of_mem {s t : State} (h : Sound s) (hm : t.mem.wf s.par.payCap = true)
    (hp : t.pins = s.pins) (hpar : t.par = s.par) : Sound t :=
  ⟨by rw [hpar]; exact hm, by rw [hp]; exact h.pinsOrdered,
    by rw [hp, hpar]; exact h.pinsConfigured⟩

/-- Soundness after the registers of a valid pin have been written. -/
theorem sound_setPin {s : State} (h : Sound s) {p : Nat} {r : Pin} (hp : p < s.par.pinCount)
    (hr : r.dir ≠ .unconfigured) : Sound (s.setPin p r) :=
  ⟨h.memory, pinStore_rising _ _ _ h.pinsOrdered, fun e he => by
    rcases pinStore_mem he with rfl | he
    · exact ⟨hp, hr⟩
    · exact h.pinsConfigured e he⟩

/-- A pin is ready for READ_PIN or WRITE_PIN: valid and of that direction (R71, R72). -/
def Ready (s : State) (pin : Nat) (dir : PinDir) : Prop :=
  pin < s.par.pinCount ∧ (s.pinAt pin).dir = dir

theorem ready_of_eq {s t : State} {pin : Nat} {dir : PinDir} (h : Ready s pin dir)
    (hp : t.pins = s.pins) (hpar : t.par = s.par) (he : t.epoch = s.epoch) : Ready t pin dir := by
  unfold Ready State.pinAt at *
  rwa [hp, hpar, he]

/-! ### The clock and the busy-wait -/

theorem quiet_readClock (s : State) : Quiet s s.readClock := by
  rw [readClock_eq]; exact ⟨rfl, rfl, rfl, rfl, rfl, rfl, rfl, rfl, rfl, rfl, rfl, rfl⟩

theorem quiet_setWork (w : Work) (s : State) : Quiet s (s.setWork w) :=
  ⟨rfl, rfl, rfl, rfl, rfl, rfl, rfl, rfl, rfl, rfl, rfl, rfl⟩

theorem quiet_setTr (xs : List Sample) (s : State) : Quiet s (s.setTr xs) :=
  ⟨rfl, rfl, rfl, rfl, rfl, rfl, rfl, rfl, rfl, rfl, rfl, rfl⟩

theorem quiet_setPrio (p : Prio) (s : State) : Quiet s (s.setPrio p) :=
  ⟨rfl, rfl, rfl, rfl, rfl, rfl, rfl, rfl, rfl, rfl, rfl, rfl⟩

/-- What a busy-wait leaves: the clock has been read, `NOW` written, nothing else. -/
theorem pollClock_leaves (due : U32 → Bool) (fuel : Nat) (s : State) :
    Quiet s (pollClock due fuel s).2 ∧ (pollClock due fuel s).2.mem = s.mem
      ∧ (pollClock due fuel s).2.pins = s.pins ∧ (pollClock due fuel s).2.prio = s.prio
      ∧ ∃ c, (pollClock due fuel s).2.wr = { s.wr with now := c } := by
  have hs : ∀ j, Quiet s (State.readNow^[j] s) ∧ (State.readNow^[j] s).mem = s.mem
      ∧ (State.readNow^[j] s).pins = s.pins ∧ (State.readNow^[j] s).prio = s.prio
      ∧ ∃ c, (State.readNow^[j] s).wr = { s.wr with now := c } := by
    intro j
    cases j with
    | zero => exact ⟨quiet_refl s, rfl, rfl, rfl, s.wr.now, rfl⟩
    | succ j =>
      rw [iterate_readNow]
      exact ⟨⟨rfl, rfl, rfl, rfl, rfl, rfl, rfl, rfl, rfl, rfl, rfl, rfl⟩, rfl, rfl, rfl, _, rfl⟩
  rcases pollClock_cases due fuel s with ⟨k, -, -, -, h⟩ | ⟨-, h⟩ <;> rw [h] <;> exact hs _

/-! ### Pins -/

theorem configurePin_contract (pin : Nat) (dir : Direction) (pull : Pull) (s : State) :
    Contract (Sound s) s (configurePin pin dir pull s) fun _ t =>
      Ready t pin dir.pinDir ∧ t.mem = s.mem ∧ t.wr = s.wr ∧ t.prio = s.prio := by
  rcases configurePin_cases pin dir pull s with ⟨-, h⟩ | ⟨-, -, h⟩ | ⟨hv, -, h⟩
  · rw [h]
    exact contract_raise _ (grows_refl s) (sameControl_refl s) id
  · rw [h]
    have hq : Quiet s s.drawPinOk.2 := by
      rw [drawPinOk_eq]; exact ⟨rfl, rfl, rfl, rfl, rfl, rfl, rfl, rfl, rfl, rfl, rfl, rfl⟩
    exact contract_raise _ (quiet_grows hq) (quiet_control hq) fun h =>
      sound_of_eq h (by rw [drawPinOk_eq]) (by rw [drawPinOk_eq]) (by rw [drawPinOk_eq])
  · rw [h, drawPinOk_eq]
    refine contract_quiet ⟨rfl, rfl, rfl, rfl, rfl, rfl, rfl, rfl, rfl, rfl, rfl, rfl⟩ fun hs => ⟨?_, ?_⟩
    · refine sound_setPin (s := { s with env := { s.env with pinOk := s.env.pinOk.skip 1 } })
        (sound_of_eq hs rfl rfl rfl) hv ?_
      cases dir <;> simp [Direction.pinDir]
    · exact ⟨⟨hv, by rw [setPin_pinAt, if_pos rfl]⟩, rfl, rfl, rfl⟩

theorem readPin_contract (pin : Nat) (s : State) :
    Contract (Sound s ∧ Ready s pin .input) s (readPin pin s) fun _ t =>
      Ready t pin .input ∧ t.mem = s.mem ∧ t.wr = s.wr ∧ t.prio = s.prio := by
  rcases readPin_cases pin s with ⟨-, -, h⟩ | ⟨hn, h⟩
  · rw [h]
    refine contract_quiet ⟨rfl, rfl, rfl, rfl, rfl, rfl, rfl, rfl, rfl, rfl, rfl, rfl⟩ fun hs => ?_
    exact ⟨sound_of_eq hs.1 rfl rfl rfl, ready_of_eq hs.2 rfl rfl rfl, rfl, rfl, rfl⟩
  · rw [h]
    exact .refused fun hs => hn hs.2

theorem writePin_contract (pin : Nat) (level : Level) (s : State) :
    Contract (Sound s ∧ Ready s pin .output) s (writePin pin level s) fun _ t =>
      Ready t pin .output ∧ t.mem = s.mem ∧ t.wr = s.wr ∧ t.prio = s.prio := by
  rcases writePin_cases pin level s with ⟨hv, hd, h⟩ | ⟨hn, h⟩
  · rw [h]
    refine contract_done ?_ ⟨rfl, rfl, rfl, rfl⟩ rfl fun hs => ⟨?_, ⟨hv, ?_⟩, rfl, rfl, rfl⟩
    · exact ⟨List.prefix_append _ _, List.prefix_refl _, keeps_refl _, rfl, rfl, rfl, rfl⟩
    · have := sound_setPin hs.1 (r := { s.pinAt pin with out := level }) hv (by simp [hd])
      exact ⟨this.memory, this.pinsOrdered, this.pinsConfigured⟩
    · have := setPin_pinAt pin pin { s.pinAt pin with out := level } s
      rw [if_pos rfl] at this
      show ((s.setPin pin { s.pinAt pin with out := level }).pinAt pin).dir = .output
      rw [this]
      exact hd
  · rw [h]
    exact .refused fun hs => hn hs.2

/-- The wrap guard: it reads the clock and nothing else. -/
theorem avoidClockWrap_contract (m : Nat) (s : State) :
    Contract (Sound s) s (avoidClockWrap m s) fun _ t =>
      t.mem = s.mem ∧ t.pins = s.pins ∧ t.prio = s.prio := by
  unfold avoidClockWrap
  split
  · exact contract_raise _ (grows_refl s) (sameControl_refl s) id
  · next hm =>
    obtain ⟨hq, hmem, hpins, hprio, -⟩ := pollClock_leaves (farFromWrap m) s.clockPolls s
    cases h : pollClock (farFromWrap m) s.clockPolls s with
    | mk b t =>
      rw [h] at hq hmem hpins hprio
      have hs : Sound s → Sound t := fun hs => sound_of_eq hs hmem hpins hq.par
      cases b with
      | true => exact contract_quiet hq fun p => ⟨hs p, hmem, hpins, hprio⟩
      | false =>
        exact .wait (quiet_grows hq) (quiet_control hq) (.inl hq.exit) fun p =>
          ⟨hs p, Nat.not_lt.1 hm⟩

/-! ### The trace store -/

theorem compactFrom_length (l : Level) (xs : List Sample) : (compactFrom l xs).length ≤ xs.length := by
  induction xs generalizing l with
  | nil => exact Nat.le_refl _
  | cons x xs ih =>
    simp only [compactFrom]
    split
    · exact Nat.le_succ_of_le (ih _)
    · exact Nat.succ_le_succ (ih _)

theorem compactTrace_length (xs : List Sample) : (compactTrace xs).length ≤ xs.length := by
  cases xs with
  | nil => exact Nat.le_refl _
  | cons x xs => exact Nat.succ_le_succ (compactFrom_length _ _)

theorem quiet_compact (s : State) : Quiet s (compact s) :=
  ⟨rfl, rfl, rfl, rfl, rfl, rfl, rfl, rfl, rfl, rfl, rfl, rfl⟩

theorem sound_setTr {s : State} (h : Sound s) {xs : List Sample} (hx : xs.length ≤ Config.trCap) :
    Sound (s.setTr xs) :=
  sound_of_mem h (wf_tr h.memory hx) rfl rfl

theorem sound_tr {s : State} (h : Sound s) : s.mem.tr.length ≤ Config.trCap :=
  ((wf_iff _ _).1 h.memory).2.1

theorem sound_compact {s : State} (h : Sound s) : Sound (compact s) :=
  sound_of_eq (sound_setTr h ((compactTrace_length _).trans (sound_tr h))) rfl rfl rfl

theorem traceWrite_contract (path : Text) (flank : Bool) (s : State) :
    Contract (Sound s) s (traceWrite path flank s) fun _ t => t.mem.tr = s.mem.tr := by
  unfold traceWrite
  simp only [drawWritable_eq]
  split
  · next s2 h =>
    simp only [Prod.mk.injEq] at h
    obtain ⟨-, rfl⟩ := h
    refine contract_quiet ⟨rfl, rfl, rfl, rfl, rfl, rfl, rfl, rfl, rfl, rfl, rfl, rfl⟩ fun hs => ⟨?_, rfl⟩
    exact sound_of_mem hs (wf_putFile hs.memory) rfl rfl
  · next s2 h =>
    simp only [Prod.mk.injEq] at h
    obtain ⟨-, rfl⟩ := h
    exact contract_raise _ (quiet_grows ⟨rfl, rfl, rfl, rfl, rfl, rfl, rfl, rfl, rfl, rfl, rfl, rfl⟩)
      ⟨rfl, rfl, rfl, rfl⟩ fun hs => sound_of_eq hs rfl rfl rfl

theorem readLines_contract (path : Text) (ls : List Text) :
    ∀ (k : Nat) (s : State), Contract (Sound s) s (readLines path k ls s) fun _ _ => True := by
  induction ls with
  | nil => exact fun k s => contract_quiet (quiet_refl s) fun h => ⟨h, trivial⟩
  | cons l rest ih =>
    intro k s
    simp only [readLines]
    split
    · exact contract_raise _ (grows_refl s) (sameControl_refl s) id
    · next x hx =>
      split
      · next hlt =>
        exact contract_of_quiet (quiet_setTr _ s)
          (fun h => sound_setTr h (by rw [List.length_append]; exact hlt)) (ih (k + 1) _)
      · exact contract_raise _ (grows_refl s) (sameControl_refl s) id

theorem traceRead_contract (path : Text) (s : State) :
    Contract (Sound s) s (traceRead path s) fun _ _ => True := by
  unfold traceRead
  split
  · exact contract_raise _ (grows_refl s) (sameControl_refl s) id
  · simp only [drawReadable_eq]
    split
    · next s1 h =>
      simp only [Prod.mk.injEq] at h
      obtain ⟨-, rfl⟩ := h
      exact contract_raise _ (quiet_grows ⟨rfl, rfl, rfl, rfl, rfl, rfl, rfl, rfl, rfl, rfl, rfl, rfl⟩)
        ⟨rfl, rfl, rfl, rfl⟩ fun hs => sound_of_eq hs rfl rfl rfl
    · next contents _ _ s1 h =>
      simp only [Prod.mk.injEq] at h
      obtain ⟨-, rfl⟩ := h
      refine contract_of_quiet (t := State.setTr []
          { s with env := { s.env with readable := s.env.readable.skip 1 } })
        ⟨rfl, rfl, rfl, rfl, rfl, rfl, rfl, rfl, rfl, rfl, rfl, rfl⟩ (fun h => ?_)
        (readLines_contract path _ 2 _)
      exact sound_of_eq (sound_setTr h (Nat.zero_le _)) rfl rfl rfl

end Sys2Proof.Machine.Laws
end

