-- ==== Sys2Proof/Laws/SamplerContracts.lean ====
section
/-! SUPPORT. The contracts of the sampler's steps. -/

namespace Sys2Proof.Machine.Laws

/-- SAMPLE with its pin configured and `K` records stored of the `N` it will store. -/
structure Sampling (s : State) (pin : Nat) : Prop where
  ready : Ready s pin .input
  stored : s.mem.raw.length = s.wr.k
  notFull : s.wr.k ≤ s.wr.n
  capacity : s.wr.n ≤ Config.bufCap
  atLeastOne : 1 ≤ s.wr.n

theorem storeRaw_contract (x : Sample) (s : State) :
    Contract (Sound s ∧ s.mem.raw.length < Config.bufCap) s (storeRaw x s) fun _ t =>
      t.mem.raw.length = s.mem.raw.length + 1 ∧ t.wr = { s.wr with k := s.mem.raw.length + 1 }
        ∧ t.pins = s.pins ∧ t.par = s.par ∧ t.epoch = s.epoch := by
  rcases storeRaw_cases x s with ⟨hlt, h⟩ | ⟨hge, h⟩
  · rw [h]
    refine contract_quiet ⟨rfl, rfl, rfl, rfl, rfl, rfl, rfl, rfl, rfl, rfl, rfl, rfl⟩ fun hs => ⟨?_, ?_⟩
    · exact sound_of_mem hs.1 (wf_raw hs.1.memory (by rw [List.length_append]; exact hlt)) rfl rfl
    · exact ⟨by simp, rfl, rfl, rfl, rfl⟩
  · rw [h]
    exact .fault fun hs => absurd hs.2 (Nat.not_lt.2 hge)

theorem sound_readClock {s : State} (h : Sound s) : Sound s.readClock :=
  sound_of_eq h (by rw [readClock_eq]) (by rw [readClock_eq]) (by rw [readClock_eq])

theorem ready_readClock {s : State} {pin : Nat} {dir : PinDir} (h : Ready s pin dir) :
    Ready s.readClock pin dir :=
  ready_of_eq h (by rw [readClock_eq]) (by rw [readClock_eq]) (by rw [readClock_eq])

/-- The capture loop stores `count` records. -/
theorem capture_contract (pin count : Nat) (s : State) :
    Contract (Sound s ∧ Ready s pin .input ∧ s.mem.raw.length + count ≤ Config.bufCap) s
      (capture pin count s) fun _ t => t.mem.raw.length = s.mem.raw.length + count := by
  induction count generalizing s with
  | zero => exact contract_quiet (quiet_refl s) fun h => ⟨h.1, rfl⟩
  | succ n ih =>
    simp only [capture]
    have hmem : s.readClock.mem = s.mem := by rw [readClock_eq]
    refine contract_of_quiet (Q := (Sound s.readClock ∧ Ready s.readClock pin .input)
        ∧ s.mem.raw.length + (n + 1) ≤ Config.bufCap) (quiet_readClock s)
      (fun h => ⟨⟨sound_readClock h.1, ready_readClock h.2.1⟩, h.2.2⟩) ?_
    refine contract_andThen (contract_use (readPin_contract pin s.readClock) And.left) ?_
    intro l s1
    refine contract_andThen (contract_use (storeRaw_contract _ s1) ?_) ?_
    · rintro ⟨hs, ⟨-, hcap⟩, -, hm, -⟩
      refine ⟨hs, ?_⟩
      rw [hm, hmem]; omega
    · intro _ s2
      refine contract_mono id ?_ (contract_use (ih s2) ?_)
      · rintro _ t ⟨⟨-, ⟨-, ⟨-, -⟩, -, hm, -⟩, hl, -⟩, ht⟩
        rw [ht, hl, hm, hmem]; omega
      · rintro ⟨hs2, ⟨-, ⟨-, hcap⟩, hr, hm, -⟩, hl, -, hp, hpar, hep⟩
        refine ⟨hs2, ready_of_eq hr hp hpar hep, ?_⟩
        rw [hl, hm, hmem]; omega

theorem trimAndRebase_contract (s : State) :
    Contract (Sound s ∧ s.mem.raw ≠ []) s (trimAndRebase s) fun _ _ => True := by
  unfold trimAndRebase
  split
  · split
    · exact contract_raise _ (grows_refl s) (sameControl_refl s) And.left
    · simp only
      split
      · exact contract_raise _ (quiet_grows (quiet_setWork _ s)) (quiet_control (quiet_setWork _ s))
          fun h => sound_of_eq h.1 rfl rfl rfl
      · next hcap =>
        refine contract_quiet (quiet_trans (quiet_setWork _ s) (quiet_setTr _ _)) fun h => ⟨?_, trivial⟩
        have hw : ∀ w, Sound (s.setWork w) := fun w => sound_of_eq h.1 rfl rfl rfl
        refine sound_setTr (hw _) ?_
        simp only [rebase, List.length_map, List.length_take]
        omega
  · next hno =>
    refine .refused ?_
    rintro ⟨-, hne⟩
    cases hr : s.mem.raw with
    | nil => exact hne hr
    | cons x xs =>
      refine hno x ((x :: xs).getLast (by simp)) (by simp [hr]) ?_
      rw [hr, List.getLast?_eq_some_getLast]

/-- Steps 3 to 7 of SAMPLE. -/
theorem sampleCapture_contract (pin : Nat) (s : State) :
    Contract (Sound s ∧ Sampling s pin) s (sampleCapture pin s) fun _ _ => True := by
  unfold sampleCapture
  refine contract_of_quiet (Q := (Sound (s.setPrio .realtime) ∧ Ready (s.setPrio .realtime) pin .input
      ∧ (s.setPrio .realtime).mem.raw.length + (s.wr.n - s.wr.k) ≤ Config.bufCap)
      ∧ Sampling s pin) (quiet_setPrio .realtime s) ?_ ?_
  · rintro ⟨hs, hp⟩
    refine ⟨⟨sound_of_eq hs rfl rfl rfl, ready_of_eq hp.ready rfl rfl rfl, ?_⟩, hp⟩
    have := hp.stored
    have := hp.notFull
    have := hp.capacity
    show s.mem.raw.length + _ ≤ _
    omega
  · refine contract_andThen
      (contract_use (capture_contract pin _ _) And.left) ?_
    intro _ s1
    refine contract_of_quiet (quiet_setPrio .normal s1) ?_ (trimAndRebase_contract _)
    rintro ⟨hs1, ⟨-, hp⟩, hl⟩
    refine ⟨sound_of_eq hs1 rfl rfl rfl, fun hnil => ?_⟩
    have : s1.mem.raw.length = 0 := by
      have : s1.mem.raw = [] := hnil
      rw [this]; rfl
    have h1 := hp.stored
    have h2 := hp.notFull
    have h3 := hp.atLeastOne
    have h4 : s1.mem.raw.length = s.mem.raw.length + (s.wr.n - s.wr.k) := hl
    omega

/-- The trigger poll leaves the memories and the working registers as they are. -/
theorem pollPin_contract (pin fuel : Nat) (s : State) :
    Contract (Sound s ∧ Ready s pin .input) s (pollPin pin fuel s) fun _ t =>
      Ready t pin .input ∧ t.mem = s.mem ∧ t.wr = s.wr ∧ t.prio = s.prio := by
  induction fuel generalizing s with
  | zero => exact contract_quiet (quiet_refl s) fun h => ⟨h.1, h.2, rfl, rfl, rfl⟩
  | succ n ih =>
    simp only [pollPin]
    refine contract_of_quiet (Q := Sound s.readClock ∧ Ready s.readClock pin .input)
      (quiet_readClock s) (fun h => ⟨sound_readClock h.1, ready_readClock h.2⟩) ?_
    refine contract_andThen (readPin_contract pin s.readClock) ?_
    intro l s1
    have hm : s.readClock.mem = s.mem := by rw [readClock_eq]
    have hw : s.readClock.wr = s.wr := by rw [readClock_eq]
    have hp : s.readClock.prio = s.prio := by rw [readClock_eq]
    split
    · refine contract_mono id ?_ (contract_use (ih s1) fun h => And.intro h.1 h.2.1)
      · rintro _ t ⟨⟨-, -, h2, h3, h4⟩, hr, h5, h6, h7⟩
        exact ⟨hr, by rw [h5, h2, hm], by rw [h6, h3, hw], by rw [h7, h4, hp]⟩
    · refine contract_quiet (quiet_refl s1) fun h => ⟨h.1, h.2.1, ?_, ?_, ?_⟩
      · rw [h.2.2.1, hm]
      · rw [h.2.2.2.1, hw]
      · rw [h.2.2.2.2, hp]

theorem samplePoll_contract (pin : Nat) (s : State) :
    Contract (Sound s ∧ s.polling (.samplePoll pin)) s (samplePoll pin s) fun _ _ => True := by
  unfold samplePoll
  refine contract_andThen (contract_use (pollPin_contract pin _ s)
    fun (h : Sound s ∧ s.polling (.samplePoll pin)) => ⟨h.1, h.2.1, h.2.2.1⟩) ?_
  intro r s1
  cases r with
  | none =>
    refine .wait (grows_refl s1) (sameControl_refl s1) (.inl rfl) ?_
    rintro ⟨hs1, ⟨-, -, -, hcap, hone, hraw⟩, hr, hm, hw, -⟩
    exact ⟨hs1, hr.1, hr.2, by rw [hw]; exact hcap, by rw [hw]; exact hone, by rw [hm]; exact hraw⟩
  | some x =>
    refine contract_andThen (contract_use (storeRaw_contract x s1) ?_) ?_
    · rintro ⟨hs1, ⟨-, -, -, -, -, hraw⟩, -, hm, -⟩
      refine ⟨hs1, ?_⟩
      rw [hm, hraw]
      simp [Config.bufCap]
    · intro _ s2
      refine contract_mono ?_ (fun _ _ h => h) (sampleCapture_contract pin s2)
      rintro ⟨hs2, ⟨-, ⟨-, -, -, hcap, hone, hraw⟩, hr, hm, hw, -⟩, hl, hw2, hp, hpar, hep⟩
      have hl1 : s2.mem.raw.length = 1 := by rw [hl, hm, hraw]; rfl
      have hk : s2.wr.k = 1 := by rw [hw2, hm, hraw]; rfl
      have hn : s2.wr.n = s.wr.n := by rw [hw2, hw]
      exact ⟨hs2, ready_of_eq hr hp hpar hep, by rw [hl1, hk], by rw [hk, hn]; exact hone,
        by rw [hn]; exact hcap, by rw [hn]; exact hone⟩

theorem sample_contract (pin capacity : Nat) (trigger verbose : Bool) (s : State) :
    Contract (Sound s) s (sample pin capacity trigger verbose s) fun _ _ => True := by
  unfold sample
  split
  · exact contract_raise _ (grows_refl s) (sameControl_refl s) id
  · next hcap =>
    refine contract_of_quiet (quiet_setWork { s.wr with n := capacity } s) (Q := Sound (s.setWork { s.wr with n := capacity })) (fun h => sound_of_eq h rfl rfl rfl) ?_
    refine contract_andThen (configurePin_contract pin .input .off _) ?_
    intro _ s1
    refine contract_andThen (contract_use (readPin_contract pin s1) fun h => ⟨h.1, h.2.1⟩) ?_
    intro l s2
    have hq : Quiet s2 { s2 with mem := { s2.mem with raw := [] }, wr := { s2.wr with l0 := l, k := 0 } } :=
      ⟨rfl, rfl, rfl, rfl, rfl, rfl, rfl, rfl, rfl, rfl, rfl, rfl⟩
    simp only
    split
    · refine contract_of_quiet hq ?_ (samplePoll_contract pin _)
      rintro ⟨hs2, ⟨hs1, hr1, hm1, hw1, hp1⟩, hr2, hm2, hw2, hp2⟩
      refine ⟨sound_of_mem hs2 (wf_raw hs2.memory (Nat.zero_le _)) rfl rfl, hr2.1, hr2.2, ?_, ?_, rfl⟩
      · show s2.wr.n ≤ _
        rw [hw2, hw1]; show capacity ≤ _; omega
      · show 1 ≤ s2.wr.n
        rw [hw2, hw1]; show 1 ≤ capacity; omega
    · refine contract_of_quiet hq ?_ (sampleCapture_contract pin _)
      rintro ⟨hs2, ⟨hs1, hr1, hm1, hw1, hp1⟩, hr2, hm2, hw2, hp2⟩
      refine ⟨sound_of_mem hs2 (wf_raw hs2.memory (Nat.zero_le _)) rfl rfl, hr2, rfl, Nat.zero_le _, ?_, ?_⟩
      · show s2.wr.n ≤ _
        rw [hw2, hw1]; show capacity ≤ _; omega
      · show 1 ≤ s2.wr.n
        rw [hw2, hw1]; show 1 ≤ capacity; omega

end Sys2Proof.Machine.Laws
end

