-- ==== Sys2Proof/Laws/TransmitterContracts.lean ====
section
/-! SUPPORT. The contracts of the transmitter's steps. -/

namespace Sys2Proof.Machine.Laws

/-- TRANSMIT in step 5 with `i` edges written. -/
structure Emitting (s : State) (pin : Nat) (stats : Bool) (i : Nat) : Prop where
  ready : Ready s pin .output
  realtime : s.prio = .realtime
  observed : stats = true → s.mem.obs.length = i

theorem storeObs_contract (c : U32) (s : State) :
    Contract (Sound s ∧ s.mem.obs.length < Config.trCap) s (storeObs c s) fun _ t =>
      t = { s with mem := { s.mem with obs := s.mem.obs ++ [c] } } := by
  rcases storeObs_cases c s with ⟨hlt, h⟩ | ⟨hge, h⟩
  · rw [h]
    refine contract_quiet ⟨rfl, rfl, rfl, rfl, rfl, rfl, rfl, rfl, rfl, rfl, rfl, rfl⟩ fun hs => ⟨?_, rfl⟩
    exact sound_of_mem hs.1 (wf_obs hs.1.memory (by rw [List.length_append]; exact hlt)) rfl rfl
  · rw [h]
    exact .fault fun hs => absurd hs.2 (Nat.not_lt.2 hge)

theorem emitEdge_contract (pin : Nat) (stats : Bool) (level : Level) (i : Nat) (s : State) :
    Contract (Sound s ∧ Emitting s pin stats i ∧ i < Config.trCap) s (emitEdge pin stats level s)
      fun _ t => Emitting t pin stats (i + 1) ∧ t.mem.tr = s.mem.tr ∧ t.wr = s.wr := by
  unfold emitEdge
  split
  · next hst =>
    refine contract_of_quiet (Q := (Sound s.readClock ∧ Ready s.readClock pin .output)
        ∧ s.readClock.prio = .realtime ∧ s.readClock.mem.obs.length = i ∧ i < Config.trCap)
      (quiet_readClock s) ?_ ?_
    · rintro ⟨hs, he, hi⟩
      refine ⟨⟨sound_readClock hs, ready_readClock he.ready⟩, ?_, ?_, hi⟩
      · rw [readClock_eq]; exact he.realtime
      · rw [readClock_eq]; exact he.observed hst
    · refine contract_andThen (contract_use (storeObs_contract _ _)
        fun h => ⟨h.1.1, by rw [h.2.2.1]; exact h.2.2.2⟩) ?_
      rintro _ s1
      refine contract_mono id ?_ (contract_use (writePin_contract pin level s1) ?_)
      · rintro _ t ⟨⟨-, ⟨⟨-, -⟩, hp, ho, -⟩, rfl⟩, hr, hm, hw, hpr⟩
        refine ⟨⟨hr, by rw [hpr]; exact hp, fun _ => ?_⟩, ?_, ?_⟩
        · rw [hm, List.length_append, ho]; rfl
        · rw [hm]; show s.readClock.mem.tr = _; rw [readClock_eq]
        · rw [hw]; show s.readClock.wr = _; rw [readClock_eq]
      · rintro ⟨hs1, ⟨⟨-, hr⟩, -⟩, rfl⟩
        exact ⟨hs1, hr⟩
  · next hst =>
    refine contract_mono id ?_ (contract_use (writePin_contract pin level s) fun h => ⟨h.1, h.2.1.ready⟩)
    rintro _ t ⟨⟨-, he, -⟩, hr, hm, hw, hpr⟩
    exact ⟨⟨hr, by rw [hpr]; exact he.realtime, fun h => absurd h hst⟩, by rw [hm], hw⟩

/-- Step 5 from index `i` on. -/
theorem emit_contract (pin : Nat) (stats : Bool) (xs : List Sample) :
    ∀ (i : Nat) (s : State),
      Contract (Sound s ∧ Emitting s pin stats i ∧ i + xs.length = s.mem.tr.length) s
        (emit pin stats i xs s) fun _ t =>
          Emitting t pin stats (i + xs.length) ∧ t.mem.tr = s.mem.tr := by
  induction xs with
  | nil => exact fun i s => contract_quiet (quiet_refl s) fun h => ⟨h.1, h.2.1, rfl⟩
  | cons x xs ih =>
    intro i s
    simp only [emit]
    obtain ⟨hq, hmem, hpins, hprio, c, hwr⟩ :=
      pollClock_leaves (isDue x.t) s.clockPolls (s.setWork { s.wr with i := i })
    have hq' := quiet_trans (quiet_setWork { s.wr with i := i } s) hq
    have keep : Sound s ∧ Emitting s pin stats i →
        Sound (pollClock (isDue x.t) s.clockPolls (s.setWork { s.wr with i := i })).2
          ∧ Emitting (pollClock (isDue x.t) s.clockPolls (s.setWork { s.wr with i := i })).2 pin
            stats i := by
      rintro ⟨hs, he⟩
      exact ⟨sound_of_eq hs hmem hpins hq'.par, ready_of_eq he.ready hpins hq'.par hq'.epoch,
        hprio.trans he.realtime, fun h => by rw [hmem]; exact he.observed h⟩
    cases hp : pollClock (isDue x.t) s.clockPolls (s.setWork { s.wr with i := i }) with
    | mk b s1 =>
      rw [hp] at hq' hmem hwr keep
      cases b with
      | false =>
        refine .wait (quiet_grows hq') (quiet_control hq') (.inl hq'.exit) ?_
        rintro ⟨hs, he, hl⟩
        obtain ⟨hs1, he1⟩ := keep ⟨hs, he⟩
        have hi : s1.wr.i = i := by
          have := congrArg Work.i hwr; exact this
        refine ⟨hs1, he1.ready.1, he1.ready.2, he1.realtime, ?_, ?_⟩
        · rw [hi, hmem]
          show i < s.mem.tr.length
          rw [← hl, List.length_cons]; omega
        · intro h; rw [hi]; exact he1.observed h
      | true =>
        refine contract_of_quiet (Q := (Sound s1 ∧ Emitting s1 pin stats i ∧ i < Config.trCap)
            ∧ i + (x :: xs).length = s1.mem.tr.length) hq' ?_ ?_
        · rintro ⟨hs, he, hl⟩
          obtain ⟨hs1, he1⟩ := keep ⟨hs, he⟩
          have htr : s1.mem.tr = s.mem.tr := by rw [hmem]; rfl
          refine ⟨⟨hs1, he1, ?_⟩, by rw [htr]; exact hl⟩
          have := sound_tr hs
          rw [← hl, List.length_cons] at this
          omega
        · have htr : s1.mem.tr = s.mem.tr := by
            have : s1.mem = s.mem := hmem
            rw [this]
          refine contract_andThen (contract_use (emitEdge_contract pin stats x.v i s1) And.left) ?_
          rintro _ s2
          refine contract_mono id ?_ (contract_use (ih (i + 1) s2) ?_)
          · rintro _ t ⟨⟨-, -, -, h2, -⟩, he, h3⟩
            have e : i + (x :: xs).length = i + 1 + xs.length := by simp; omega
            rw [e]
            exact ⟨he, by rw [h3, h2, htr]⟩
          · rintro ⟨hs2, ⟨-, hl⟩, he, h2, -⟩
            refine ⟨hs2, he, ?_⟩
            rw [h2, ← hl, List.length_cons]; omega

/-! ### Statistics -/

theorem grows_reportAnomaly (a : Anomaly) (s : State) : s.Grows (s.reportAnomaly a) :=
  ⟨List.prefix_refl _, List.prefix_append _ _, keeps_raised _ _, rfl, rfl, rfl, rfl⟩

theorem control_reportAnomaly (a : Anomaly) (s : State) : SameControl s (s.reportAnomaly a) :=
  ⟨rfl, rfl, rfl, rfl⟩

/-- The loop of step 7 reports, and leaves memories, pins and the sequencer alone. -/
theorem statsLoop_leaves (ps : List (Sample × U32)) :
    ∀ (i : Nat) (s : State), s.Grows (statsLoop i ps s) ∧ SameControl s (statsLoop i ps s)
      ∧ (statsLoop i ps s).exit = s.exit ∧ (statsLoop i ps s).mem = s.mem
      ∧ (statsLoop i ps s).pins = s.pins ∧ (statsLoop i ps s).prio = s.prio := by
  induction ps with
  | nil => exact fun i s => ⟨grows_refl s, sameControl_refl s, rfl, rfl, rfl, rfl⟩
  | cons p rest ih =>
    obtain ⟨x, o⟩ := p
    intro i s
    simp only [statsLoop]
    split
    · obtain ⟨hg, hc, he, hm, hp, hpr⟩ := ih (i + 1) (State.reportAnomaly
        (.timingAnomaly i x.t (lateness o x.t)) (s.setWork { s.wr with
          i := i
          statSum := s.wr.statSum + lateness o x.t
          statMax := if s.wr.statMax < lateness o x.t then lateness o x.t else s.wr.statMax }))
      exact ⟨grows_trans (grows_trans (quiet_grows (quiet_setWork _ s)) (grows_reportAnomaly _ _)) hg,
        sameControl_trans (sameControl_trans (quiet_control (quiet_setWork _ s))
          (control_reportAnomaly _ _)) hc, he, hm, hp, hpr⟩
    · obtain ⟨hg, hc, he, hm, hp, hpr⟩ := ih (i + 1) (s.setWork { s.wr with
          i := i
          statSum := s.wr.statSum + lateness o x.t
          statMax := if s.wr.statMax < lateness o x.t then lateness o x.t else s.wr.statMax })
      exact ⟨grows_trans (quiet_grows (quiet_setWork _ s)) hg,
        sameControl_trans (quiet_control (quiet_setWork _ s)) hc, he, hm, hp, hpr⟩

theorem statistics_contract (s : State) :
    Contract (Sound s ∧ s.mem.obs.length = s.mem.tr.length) s (statistics s) fun _ t =>
      t.prio = s.prio := by
  unfold statistics
  split
  · next x xs o os htr hobs =>
    split
    · obtain ⟨hg, hc, he, hm, hp, hpr⟩ := statsLoop_leaves ((x :: xs).zip (o :: os)) 0
        (s.setWork { s.wr with statMax := lateness o x.t, statSum := 0 })
      have hg' := grows_trans (quiet_grows (quiet_setWork
        { s.wr with statMax := lateness o x.t, statSum := 0 } s)) hg
      refine contract_done ?_ ?_ ?_ ?_
      · exact ⟨hg'.wlog, hg'.report.trans (List.prefix_append _ _), hg'.flags, hg'.cfg, hg'.opnd, hg'.par,
          hg'.epoch⟩
      · exact ⟨hc.seq, hc.err, hc.cmd, hc.modeStarted⟩
      · exact he
      · exact fun h => ⟨sound_of_eq h.1 hm hp hg'.par, hpr⟩
    · next hlen =>
      refine .refused ?_
      rintro ⟨-, h⟩
      rw [htr, hobs] at h
      simp only [List.length_cons] at h
      omega
  · next x xs htr hobs =>
    refine .refused ?_
    rintro ⟨-, h⟩
    rw [htr, hobs] at h
    simp at h
  · exact contract_quiet (quiet_refl s) fun h => ⟨h.1, rfl⟩

/-! ### TRANSMIT -/

theorem transmitFrom_contract (pin : Nat) (stats : Bool) (i : Nat) (s : State) :
    Contract (Sound s ∧ Emitting s pin stats i ∧ i ≤ s.mem.tr.length) s
      (transmitFrom pin stats i s) fun _ t => t.prio = .normal := by
  unfold transmitFrom
  refine contract_andThen (contract_use (emit_contract pin stats _ i s) ?_) ?_
  · rintro ⟨hs, he, hi⟩
    exact ⟨hs, he, by rw [List.length_drop]; omega⟩
  · intro _ s1
    split
    · next hst =>
      refine contract_of_quiet (quiet_setPrio .normal s1) ?_ (contract_mono id ?_
        (statistics_contract (s1.setPrio .normal)))
      · rintro ⟨hs1, ⟨-, -, hi⟩, he, htr⟩
        refine ⟨sound_of_eq hs1 rfl rfl rfl, ?_⟩
        show s1.mem.obs.length = s1.mem.tr.length
        rw [he.observed hst, htr, List.length_drop]
        omega
      · exact fun _ t h => h
    · exact contract_quiet (quiet_setPrio .normal s1) fun h => ⟨sound_of_eq h.1 rfl rfl rfl, rfl⟩

theorem transmitWait_contract (pin : Nat) (stats : Bool) (s : State) :
    Contract (Sound s ∧ s.polling (.transmitWait pin stats)) s (transmitWait pin stats s) fun _ t =>
      t.prio = .normal := by
  refine contract_mono ?_ (fun _ _ h => h) (transmitFrom_contract pin stats s.wr.i s)
  rintro ⟨hs, hv, hd, hp, hi, ho⟩
  exact ⟨hs, ⟨⟨hv, hd⟩, hp, ho⟩, Nat.le_of_lt hi⟩

theorem transmit_contract (pin : Nat) (stats : Bool) (s : State) :
    Contract (Sound s) s (transmit pin stats s) fun _ t => t.prio = .normal := by
  unfold transmit
  simp only [drawDelay_eq]
  have hq : Quiet s (State.setWork { s.wr with
      c0 := s.readClock.clk, startEpoch := s.readClock.clk + s.readClock.nextDelay }
      { s.readClock with env := { s.readClock.env with delay := s.readClock.env.delay.skip 1 } }) := by
    rw [readClock_eq]; exact ⟨rfl, rfl, rfl, rfl, rfl, rfl, rfl, rfl, rfl, rfl, rfl, rfl⟩
  have hmem : (State.setWork { s.wr with
      c0 := s.readClock.clk, startEpoch := s.readClock.clk + s.readClock.nextDelay }
      { s.readClock with env := { s.readClock.env with delay := s.readClock.env.delay.skip 1 } }).mem
      = s.mem := by rw [readClock_eq]; rfl
  have hpins : (State.setWork { s.wr with
      c0 := s.readClock.clk, startEpoch := s.readClock.clk + s.readClock.nextDelay }
      { s.readClock with env := { s.readClock.env with delay := s.readClock.env.delay.skip 1 } }).pins
      = s.pins := by rw [readClock_eq]; rfl
  generalize State.setWork { s.wr with
      c0 := s.readClock.clk, startEpoch := s.readClock.clk + s.readClock.nextDelay }
      { s.readClock with env := { s.readClock.env with delay := s.readClock.env.delay.skip 1 } } = s2
    at hq hmem hpins ⊢
  have hs2 : Sound s → Sound s2 := fun h => sound_of_eq h hmem hpins hq.par
  split
  · exact contract_raise _ (quiet_grows hq) (quiet_control hq) hs2
  · -- steps 2 to 7
    have h4 : ∀ s4 : State, Quiet s2 s4 → (Sound s2 → Sound s4) →
        Contract (Sound s) s ((configurePin pin .output .off s4).andThen fun _ s5 =>
          transmitFrom pin stats 0
            ((if stats = true then { s5 with mem := { s5.mem with obs := [] } } else s5).setPrio
              .realtime)) fun _ t => t.prio = .normal := by
      intro s4 hq4 hs4
      refine contract_of_quiet (Q := Sound s4) (quiet_trans hq hq4) (fun h => hs4 (hs2 h)) ?_
      refine contract_andThen (configurePin_contract pin .output .off s4) ?_
      intro _ s5
      cases stats with
      | true =>
        refine contract_of_quiet (t := State.setPrio .realtime { s5 with mem := { s5.mem with obs := [] } })
          ⟨rfl, rfl, rfl, rfl, rfl, rfl, rfl, rfl, rfl, rfl, rfl, rfl⟩ ?_
          (transmitFrom_contract pin true 0 _)
        rintro ⟨hs5, hr, -⟩
        exact ⟨sound_of_mem hs5 (wf_obs hs5.memory (Nat.zero_le _)) rfl rfl,
          ⟨ready_of_eq hr rfl rfl rfl, rfl, fun _ => rfl⟩, Nat.zero_le _⟩
      | false =>
        refine contract_of_quiet (t := s5.setPrio .realtime) (quiet_setPrio _ _) ?_
          (transmitFrom_contract pin false 0 _)
        rintro ⟨hs5, hr, -⟩
        exact ⟨sound_of_eq hs5 rfl rfl rfl, ⟨ready_of_eq hr rfl rfl rfl, rfl, fun h => by cases h⟩,
          Nat.zero_le _⟩
    have hb : Sound s2 → Sound (s2.setTr (preBias (s.readClock.clk + s.readClock.nextDelay) s.mem.tr)) := by
      intro h
      refine sound_setTr h ?_
      rw [preBias, List.length_map, ← hmem]
      exact sound_tr h
    split
    · exact h4 _ (quiet_setTr _ _) hb
    · exact h4 _ (quiet_trans (quiet_setTr _ _) (quiet_setWork _ _)) fun h =>
        sound_of_eq (hb h) rfl rfl rfl

end Sys2Proof.Machine.Laws
end

