-- ==== Sys2Proof/Laws/CodecContracts.lean ====
section
/-! SUPPORT. The contracts of the decoder's and the encoder's steps, and of every stack entry. -/

namespace Sys2Proof.Machine.Laws

/-! ### FLATTEN -/

theorem flattenFrom_length (xs : List Sample) (a : Sample) :
    (flattenFrom a xs).1.length = xs.length + 1 := by
  induction xs generalizing a with
  | nil => rfl
  | cons b rest ih =>
    cases rest with
    | nil => rfl
    | cons c cs =>
      rw [flattenFrom]
      split
      · exact congrArg (· + 1) (ih _)
      · exact congrArg (· + 1) (ih _)

theorem flattenTrace_length (xs : List Sample) : (flattenTrace xs).1.length = xs.length := by
  cases xs with
  | nil => rfl
  | cons a rest => exact flattenFrom_length rest a

theorem quiet_flatten (s : State) : Quiet s (flatten s) :=
  ⟨rfl, rfl, rfl, rfl, rfl, rfl, rfl, rfl, rfl, rfl, rfl, rfl⟩

theorem sound_flatten {s : State} (h : Sound s) : Sound (flatten s) :=
  sound_of_eq (sound_setTr h (by rw [flattenTrace_length]; exact sound_tr h)) rfl rfl rfl

/-! ### EXTRACT_BITS -/

theorem shiftIn_bytes (cap : Nat) (dt : U32) (k : BitScan) (h : k.bytes.length ≤ cap) :
    (k.shiftIn cap dt).bytes.length ≤ cap := by
  unfold BitScan.shiftIn
  simp only
  split
  · split
    · exact h
    · simp only [List.length_append, List.length_singleton]; omega
  · exact h

theorem scanBits_bytes (cap : Nat) (xs : List Sample) (k : BitScan) (h : k.bytes.length ≤ cap) :
    (scanBits cap xs k).bytes.length ≤ cap := by
  induction xs, k using scanBits.induct with
  | cap => exact cap
  | case1 k a b rest dt he => rw [scanBits]; simp only; rw [if_pos he]; exact h
  | case2 k a b rest dt he k1 hf =>
    rw [scanBits]; simp only
    rw [if_neg he, if_pos hf]
    exact shiftIn_bytes _ _ _ h
  | case3 k a b rest dt he k1 hf ih =>
    rw [scanBits]; simp only
    rw [if_neg he, if_neg hf]
    exact ih (shiftIn_bytes _ _ _ h)
  | case4 => rw [scanBits]; exacts [h, by assumption]

theorem extract_bytes (cap : Nat) (xs : List Sample) : (extract cap xs).bytes.length ≤ cap :=
  scanBits_bytes cap _ _ (Nat.zero_le _)

/-- EXTRACT_BITS as DECODE calls it changes working registers only, and returns at most `PAY_CAP` bytes. -/
theorem extractBits_contract (b : Nat) (s : State) :
    Contract (Sound s) s (extractBits b s) fun p t =>
      p.length ≤ s.par.payCap ∧ t.mem = s.mem ∧ t.par = s.par ∧ t.prio = s.prio := by
  unfold extractBits
  simp only
  split
  · exact contract_raise _ (quiet_grows (quiet_setWork _ s)) (quiet_control (quiet_setWork _ s))
      fun h => sound_of_eq h rfl rfl rfl
  · exact contract_quiet (quiet_setWork _ s) fun h =>
      ⟨sound_of_eq h rfl rfl rfl, extract_bytes _ _, rfl, rfl, rfl⟩

/-! ### Operations that only report -/

/-- From `s` to `t` reports were made and working registers written. -/
structure Reports (s t : State) : Prop where
  grows : s.Grows t
  control : SameControl s t
  exit : t.exit = s.exit
  mem : t.mem = s.mem
  pins : t.pins = s.pins
  prio : t.prio = s.prio

theorem reports_anomaly (a : Anomaly) (s : State) : Reports s (s.reportAnomaly a) :=
  ⟨grows_reportAnomaly a s, control_reportAnomaly a s, rfl, rfl, rfl, rfl⟩

theorem reports_setWork (w : Work) (s : State) : Reports s (s.setWork w) :=
  ⟨quiet_grows (quiet_setWork w s), quiet_control (quiet_setWork w s), rfl, rfl, rfl, rfl⟩

theorem reports_trans {s t u : State} (h : Reports s t) (h' : Reports t u) : Reports s u :=
  ⟨grows_trans h.grows h'.grows, sameControl_trans h.control h'.control, h'.exit.trans h.exit,
    h'.mem.trans h.mem, h'.pins.trans h.pins, h'.prio.trans h.prio⟩

theorem sound_reports {s t : State} (h : Reports s t) (hs : Sound s) : Sound t :=
  sound_of_eq hs h.mem h.pins h.grows.par

theorem contract_reports {α : Type} {P : Prop} {s t : State} {a : α} {D : α → State → Prop}
    (h : Reports s t) (hP : P → Sound s ∧ D a t) : Contract P s (Act.done a t) D :=
  contract_done h.grows h.control h.exit fun p => ⟨sound_reports h (hP p).1, (hP p).2⟩

theorem checksum_reports (p : List Byte) (d : Nat) (s : State) : Reports s (checksum p d s) := by
  unfold checksum
  split
  · exact reports_anomaly _ s
  · simp only
    split
    · exact reports_setWork _ s
    · exact reports_trans (reports_setWork _ s) (reports_anomaly _ _)

theorem compareHalves_reports (d : Nat) (p q : List Byte) (s : State) :
    Reports s (compareHalves d p q s) := by
  unfold compareHalves
  split
  · split
    · exact reports_anomaly _ s
    · exact reports_setWork s.wr s
  · exact reports_anomaly _ s

/-! ### DECODE -/

theorem halfFrame_contract (b d : Nat) (s : State) :
    Contract (Sound s) s (halfFrame b d s) fun p t =>
      p.length ≤ s.par.payCap ∧ t.mem = s.mem ∧ t.par = s.par ∧ t.prio = s.prio := by
  unfold halfFrame
  refine contract_of_quiet (t := s.setDepth d) (Q := Sound (s.setDepth d))
    (quiet_setWork _ s) (fun h => sound_of_eq h rfl rfl rfl) ?_
  refine contract_andThen (extractBits_contract b (s.setDepth d)) ?_
  intro p s1
  have hr := checksum_reports p d s1
  refine contract_reports hr fun h => ⟨h.1, h.2.1, ?_, ?_, ?_⟩
  · rw [hr.mem, h.2.2.1]; rfl
  · rw [hr.grows.par, h.2.2.2.1]; rfl
  · rw [hr.prio, h.2.2.2.2]; rfl

/-- `decode_at`: working registers and reports only; both payloads within `PAY_CAP`. -/
theorem decodeAt_contract (fuel : Nat) :
    ∀ (b d : Nat) (s : State), Contract (Sound s) s (decodeAt fuel b d s) fun r t =>
      r.1.length ≤ s.par.payCap ∧ (r.2.getD []).length ≤ s.par.payCap ∧ t.mem = s.mem
        ∧ t.par = s.par ∧ t.prio = s.prio := by
  induction fuel with
  | zero =>
    intro b d s
    simp only [decodeAt]
    refine contract_andThen (halfFrame_contract b d s) ?_
    intro p s1
    exact contract_quiet (quiet_refl s1) fun h => ⟨h.1, h.2.1, Nat.zero_le _, h.2.2.1, h.2.2.2⟩
  | succ n ih =>
    intro b d s
    simp only [decodeAt]
    refine contract_andThen (halfFrame_contract b d s) ?_
    intro p s1
    split
    · refine contract_andThen (contract_use (ih (b + s1.wr.lastIndex) (d + 1) s1) And.left) ?_
      intro q s2
      have hr := reports_trans (t := s2.setDepth d) (reports_setWork _ s2)
        (compareHalves_reports d p q.1 (s2.setDepth d))
      refine contract_reports hr ?_
      rintro ⟨hs2, ⟨-, hp, hm1, hpar1, hpr1⟩, hq, -, hm2, hpar2, hpr2⟩
      refine ⟨hs2, hp, ?_, ?_, ?_, ?_⟩
      · rw [← hpar1]; exact hq
      · rw [hr.mem, hm2, hm1]
      · rw [hr.grows.par, hpar2, hpar1]
      · rw [hr.prio, hpr2, hpr1]
    · exact contract_quiet (quiet_refl s1) fun h => ⟨h.1, h.2.1, Nat.zero_le _, h.2.2.1, h.2.2.2⟩

theorem decodeTrace_contract (s : State) :
    Contract (Sound s) s (decodeTrace s) fun _ t => t.prio = s.prio := by
  unfold decodeTrace
  have hq : Quiet s (compact (flatten (compact s))) :=
    quiet_trans (quiet_compact s) (quiet_trans (quiet_flatten _) (quiet_compact _))
  have hs : Sound s → Sound (compact (flatten (compact s))) :=
    fun h => sound_compact (sound_flatten (sound_compact h))
  have hpr : (compact (flatten (compact s))).prio = s.prio := by
    simp only [compact, flatten, setWork_prio, setTr_prio]
  generalize compact (flatten (compact s)) = s1 at hq hs hpr
  refine contract_of_quiet hq hs (contract_andThen (decodeAt_contract _ 0 0 s1) ?_)
  intro r s2
  refine contract_quiet (t := (s2.setPay r.1).setPay2 (r.2.getD []))
    ⟨rfl, rfl, rfl, rfl, rfl, rfl, rfl, rfl, rfl, rfl, rfl, rfl⟩ ?_
  rintro ⟨hs2, hp, hq, -, hpar, hpr2⟩
  refine ⟨?_, hpr2.trans hpr⟩
  have h1 : (s2.mem.wf s2.par.payCap) = true := hs2.memory
  rw [← hpar] at hp hq
  exact sound_of_mem hs2 (wf_pay2 (wf_pay h1 hp) hq) rfl rfl

/-! ### The encoder -/

theorem hexParse_contract (hex : Text) (s : State) :
    Contract (Sound s) s (hexParse hex s) fun _ _ => True := by
  unfold hexParse
  split
  · exact contract_raise _ (grows_refl s) (sameControl_refl s) id
  · split
    · exact contract_raise _ (grows_refl s) (sameControl_refl s) id
    · next ps _ hlen =>
      exact contract_quiet ⟨rfl, rfl, rfl, rfl, rfl, rfl, rfl, rfl, rfl, rfl, rfl, rfl⟩ fun h =>
        ⟨sound_of_mem h (wf_pay h.memory (Nat.not_lt.1 hlen)) rfl rfl, trivial⟩

theorem burst_contract (m sp : U32) (s : State) :
    Contract (Sound s) s (burst m sp s) fun _ _ => True := by
  unfold burst
  simp only
  split
  · next hd =>
    have hlen := List.drop_eq_nil_iff.1 hd
    refine contract_quiet ⟨rfl, rfl, rfl, rfl, rfl, rfl, rfl, rfl, rfl, rfl, rfl, rfl⟩ fun h => ⟨?_, trivial⟩
    have := sound_tr h
    refine sound_of_eq (sound_setTr h (xs := s.mem.tr ++ (burstSamples s.wr.tcur m).1) ?_) rfl rfl rfl
    rw [List.length_append]; omega
  · refine contract_raise _ (quiet_grows ⟨rfl, rfl, rfl, rfl, rfl, rfl, rfl, rfl, rfl, rfl, rfl, rfl⟩)
      ⟨rfl, rfl, rfl, rfl⟩ fun h => ?_
    have := sound_tr h
    refine sound_of_eq (sound_setTr h (xs := s.mem.tr ++
      (burstSamples s.wr.tcur m).1.take (Config.trCap - s.mem.tr.length)) ?_) rfl rfl rfl
    rw [List.length_append, List.length_take]; omega

theorem bursts_contract (bs : List (U32 × U32)) :
    ∀ s : State, Contract (Sound s) s (bursts bs s) fun _ _ => True := by
  induction bs with
  | nil => exact fun s => contract_quiet (quiet_refl s) fun h => ⟨h, trivial⟩
  | cons b rest ih =>
    obtain ⟨m, sp⟩ := b
    intro s
    simp only [bursts]
    refine contract_andThen (burst_contract m sp s) ?_
    exact fun _ s1 => contract_mono And.left (fun _ _ h => h) (ih s1)

theorem encodePayload_contract (s : State) :
    Contract (Sound s) s (encodePayload s) fun _ _ => True := by
  unfold encodePayload
  have hone : [({ t := 0, v := false } : Sample)].length ≤ Config.trCap := by
    simp [Config.trCap, Config.bufCap]
  have hs : Sound s → Sound ((s.setTr [{ t := 0, v := false }]).setCursor Config.initOffset) :=
    fun h => sound_of_eq (sound_setTr h hone) rfl rfl rfl
  have hq : Quiet s ((s.setTr [{ t := 0, v := false }]).setCursor Config.initOffset) :=
    quiet_trans (quiet_setTr _ s) (quiet_setWork _ _)
  generalize (s.setTr [{ t := 0, v := false }]).setCursor Config.initOffset = s1 at hq hs
  exact contract_of_quiet hq hs (bursts_contract _ _)

/-! ### The stack -/

theorem contract_true {α : Type} {P : Prop} {s : State} {x : Act α} {D : α → State → Prop}
    (h : Contract P s x D) : Contract P s x fun _ _ => True :=
  contract_mono id (fun _ _ _ => trivial) h

/-- Every stack entry keeps the contract: one that starts an operation from any sound state, one that goes
on with a poll from the state its poll left. -/
theorem runTask_contract (k : Task) (s : State) :
    Contract (Sound s ∧ (k.fresh = true ∨ s.polling k)) s (runTask k s) fun _ _ => True := by
  cases k <;> simp only [runTask]
  case avoidClockWrap m => exact contract_mono And.left (fun _ _ _ => trivial) (avoidClockWrap_contract m s)
  case sample pin c tr v => exact contract_mono And.left (fun _ _ h => h) (sample_contract pin c tr v s)
  case samplePoll pin =>
    refine contract_mono ?_ (fun _ _ h => h) (samplePoll_contract pin s)
    exact fun h => ⟨h.1, h.2.resolve_left (by simp [Task.fresh])⟩
  case transmit pin st => exact contract_mono And.left (fun _ _ _ => trivial) (transmit_contract pin st s)
  case transmitWait pin st =>
    refine contract_mono ?_ (fun _ _ _ => trivial) (transmitWait_contract pin st s)
    exact fun h => ⟨h.1, h.2.resolve_left (by simp [Task.fresh])⟩
  case traceWrite p f => exact contract_mono And.left (fun _ _ _ => trivial) (traceWrite_contract p f s)
  case traceRead p => exact contract_mono And.left (fun _ _ h => h) (traceRead_contract p s)
  case hexParse h => exact contract_mono And.left (fun _ _ h => h) (hexParse_contract h s)
  case encode => exact contract_mono And.left (fun _ _ h => h) (encodePayload_contract s)
  case decode => exact contract_mono And.left (fun _ _ _ => trivial) (decodeTrace_contract s)
  case reportDecoded m =>
    refine contract_done ⟨List.prefix_refl _, List.prefix_append _ _, keeps_refl _, rfl, rfl, rfl, rfl⟩
      ⟨rfl, rfl, rfl, rfl⟩ rfl fun h => ⟨sound_of_eq h.1 rfl rfl rfl, trivial⟩
  case complete m =>
    exact .done ⟨List.prefix_refl _, List.prefix_refl _, keeps_refl _, rfl, rfl, rfl, rfl⟩
      ⟨rfl, rfl, rfl, rfl⟩ (.inr rfl) fun h => ⟨sound_of_eq h.1 rfl rfl rfl, trivial⟩

end Sys2Proof.Machine.Laws
end

