-- ==== Sys2Proof/Laws/Decoder.lean ====
section
/-! SUPPORT. The decoder's steps in closed form: which samples a compaction keeps, what the bit extraction
reads, what a checksum reports, the sequence DECODE reads its half-frames from and when they fit. -/

namespace Sys2Proof.Machine.Laws

/-! ### Compaction (R78) -/

/-- After a kept sample of level `last` the kept samples alternate, beginning with the other level. -/
theorem compactFrom_isChain (last : Level) (xs : List Sample) :
    (compactFrom last xs).IsChain (fun a b => a.v ≠ b.v)
      ∧ ∀ y ∈ (compactFrom last xs).head?, y.v ≠ last := by
  induction xs generalizing last with
  | nil => exact ⟨List.isChain_nil, fun y h => by simp [compactFrom] at h⟩
  | cons x xs ih =>
    by_cases hx : x.v = last
    · rw [compactFrom, if_pos hx]; exact ih last
    · rw [compactFrom, if_neg hx]
      refine ⟨List.isChain_cons.2 ⟨fun y hy => ((ih x.v).2 y hy).symm, (ih x.v).1⟩, fun y hy => ?_⟩
      rw [List.head?_cons, Option.mem_some_iff] at hy
      rw [← hy]; exact hx

/-- A compacted trace is compact. -/
theorem compactTrace_isCompact (xs : List Sample) : isCompact (compactTrace xs) := by
  cases xs with
  | nil => exact List.isChain_nil
  | cons x xs =>
    exact List.isChain_cons.2
      ⟨fun y hy => ((compactFrom_isChain x.v xs).2 y hy).symm, (compactFrom_isChain x.v xs).1⟩

/-- A compact trace is its own compaction. -/
theorem compactTrace_of_isCompact (xs : List Sample) (h : isCompact xs) : compactTrace xs = xs := by
  have keep : ∀ (ys : List Sample) (x : Sample), (x :: ys).IsChain (fun a b => a.v ≠ b.v) →
      compactFrom x.v ys = ys := by
    intro ys
    induction ys with
    | nil => intro x _; rfl
    | cons y ys ih =>
      intro x hc
      have hne : y.v ≠ x.v := ((List.isChain_cons.1 hc).1 y (by simp)).symm
      rw [compactFrom, if_neg hne, ih y (List.isChain_cons.1 hc).2]
  cases xs with
  | nil => rfl
  | cons x xs => rw [compactTrace, keep xs x h]

theorem compactTrace_length_le (xs : List Sample) : (compactTrace xs).length ≤ xs.length := by
  have h : ∀ (ys : List Sample) (l : Level), (compactFrom l ys).length ≤ ys.length := by
    intro ys
    induction ys with
    | nil => intro l; exact Nat.le_refl _
    | cons y ys ih =>
      intro l
      by_cases hy : y.v = l
      · rw [compactFrom, if_pos hy]; exact Nat.le_succ_of_le (ih l)
      · rw [compactFrom, if_neg hy]; exact Nat.succ_le_succ (ih y.v)
  cases xs with
  | nil => exact Nat.le_refl _
  | cons x xs => exact Nat.succ_le_succ (h xs x.v)

/-! ### Bit extraction (R99) -/

/-- The lows a scan of these samples measures. -/
def lowsOf : List Sample → List U32
  | a :: b :: rest => (b.t - a.t) :: lowsOf rest
  | _ => []

theorem lowsOf_eq (xs : List Sample) :
    lowsOf xs = (List.range (xs.length / 2)).map fun j => timeAt xs (1 + 2 * j) - timeAt xs (2 * j) := by
  match xs with
  | [] => rfl
  | [a] => simp [lowsOf]
  | a :: b :: rest =>
    have hlen : (a :: b :: rest).length / 2 = rest.length / 2 + 1 := by simp only [List.length_cons]; omega
    rw [lowsOf, lowsOf_eq rest, hlen, List.range_succ_eq_map, List.map_cons, List.map_map]
    refine congrArg₂ List.cons rfl (List.map_congr_left fun j _ => ?_)
    have h1 : 1 + 2 * (j + 1) = 1 + 2 * j + 1 + 1 := by omega
    have h2 : 2 * (j + 1) = 2 * j + 1 + 1 := by omega
    simp only [Function.comp_apply, Nat.succ_eq_add_one]
    rw [h1, h2]
    simp only [timeAt, List.getElem?_cons_succ]

/-- The lows of a trace are those of its samples from index 4 on. -/
theorem measuredLows_eq (xs : List Sample) : measuredLows xs = lowsOf (xs.drop 4) := by
  rw [lowsOf_eq, measuredLows, List.length_drop]
  refine List.map_congr_left fun j _ => ?_
  simp only [timeAt, List.getElem?_drop]
  rw [show 4 + (1 + 2 * j) = 5 + 2 * j by omega]

/-- The bits a scan has read: those of its bytes and those in `CUR`. -/
def BitScan.bits (k : BitScan) : List Bool :=
  wireBits k.bytes ++ (List.range k.nbits).map fun b => k.cur.getLsbD b

/-- `CUR` holds fewer than eight bits and nothing above them. -/
structure BitScan.Tidy (k : BitScan) : Prop where
  few : k.nbits < 8
  clear : ∀ b, k.nbits ≤ b → k.cur.getLsbD b = false
  going : k.full = false

theorem bitScan_start_tidy : BitScan.Tidy .start := ⟨by decide, fun b _ => by simp [BitScan.start], rfl⟩

/-- One low that is a bit: the payload is full, or one bit more has been read. -/
theorem shiftIn_cases (cap : Nat) (dt : U32) (k : BitScan) (hk : BitScan.Tidy k) :
    (k.nbits = 7 ∧ k.bytes.length = cap ∧ (k.shiftIn cap dt).full = true
        ∧ (k.shiftIn cap dt).bytes = k.bytes)
      ∨ (BitScan.Tidy (k.shiftIn cap dt) ∧ (k.nbits = 7 → k.bytes.length ≠ cap)
        ∧ BitScan.bits (k.shiftIn cap dt) = BitScan.bits k ++ [bitOfLow dt]
        ∧ (k.shiftIn cap dt).i = k.i + 2 ∧ (k.shiftIn cap dt).lastIndex = k.lastIndex
        ∧ 8 * (k.shiftIn cap dt).bytes.length + (k.shiftIn cap dt).nbits =
            8 * k.bytes.length + k.nbits + 1) := by
  have hcur : ∀ b, (k.cur ||| (if bitOfLow dt then BitVec.ofNat 8 (2 ^ k.nbits) else 0)).getLsbD b =
      if b = k.nbits then bitOfLow dt else k.cur.getLsbD b := by
    intro b
    have hn := hk.few
    cases bitOfLow dt with
    | false =>
      simp only [Bool.false_eq_true, if_false, BitVec.getLsbD_or]
      by_cases hb : b = k.nbits
      · rw [if_pos hb, hk.clear b (by omega)]; simp
      · rw [if_neg hb]; simp
    | true =>
      simp only [if_true, BitVec.getLsbD_or]
      have htwo : (BitVec.ofNat 8 (2 ^ k.nbits)).getLsbD b = decide (b = k.nbits) := by
        rw [BitVec.getLsbD_ofNat, Nat.testBit_two_pow]
        by_cases hb : b = k.nbits
        · rw [hb]; simp [hn]
        · simp [hb, Ne.symm hb]
      rw [htwo]
      by_cases hb : b = k.nbits
      · rw [if_pos hb]; simp [hb]
      · rw [if_neg hb]; simp [hb]
  by_cases h8 : k.nbits + 1 = 8
  · have h7 : k.nbits = 7 := by omega
    by_cases hcap : k.bytes.length = cap
    · refine .inl ⟨h7, hcap, ?_, ?_⟩
      · simp [BitScan.shiftIn, h8, hcap]
      · simp [BitScan.shiftIn, h8, hcap]
    · have heq : k.shiftIn cap dt = { k with
          i := k.i + 2
          dt := some dt
          cur := 0
          nbits := 0
          bytes := k.bytes ++ [k.cur ||| (if bitOfLow dt then BitVec.ofNat 8 (2 ^ k.nbits) else 0)] } := by
        simp [BitScan.shiftIn, h8, hcap]
      rw [heq]
      refine .inr ⟨⟨by show 0 < 8; omega, fun b _ => by simp, hk.going⟩, fun _ => hcap, ?_, rfl, rfl, ?_⟩
      · simp only [BitScan.bits, wireBits, List.flatMap_append, List.flatMap_cons, List.flatMap_nil,
          List.append_nil, List.range_zero, List.map_nil, List.append_assoc, hcur]
        rw [h7]
        rfl
      · simp only [List.length_append, List.length_singleton]; omega
  · have heq : k.shiftIn cap dt = { k with
        i := k.i + 2
        dt := some dt
        cur := k.cur ||| (if bitOfLow dt then BitVec.ofNat 8 (2 ^ k.nbits) else 0)
        nbits := k.nbits + 1 } := by
      simp [BitScan.shiftIn, h8]
    rw [heq]
    have hn := hk.few
    refine .inr ⟨⟨by show k.nbits + 1 < 8; omega, fun b hb => ?_, hk.going⟩, fun h => by omega, ?_, rfl,
      rfl, by show 8 * k.bytes.length + (k.nbits + 1) = _; omega⟩
    · have hb' : k.nbits + 1 ≤ b := hb
      show BitVec.getLsbD _ b = false
      rw [hcur, if_neg (by omega), hk.clear b (by omega)]
    · simp only [BitScan.bits, hcur, List.range_succ, List.map_append, List.map_cons, List.map_nil, if_true,
        List.append_assoc]
      refine congrArg _ (congrArg (· ++ _) (List.map_congr_left fun b hb => ?_))
      rw [if_neg (by have := List.mem_range.1 hb; omega)]

/-- What a scan does (R99): with room for the bytes it reads every low before the first that is longer than
2000 as a bit, and notes where that one begins; otherwise it stops full. -/
theorem scanBits_spec (cap : Nat) (ys : List Sample) (k : BitScan) (hk : BitScan.Tidy k)
    (hle : k.bytes.length ≤ cap) (fs : List U32)
    (hfs : fs = (lowsOf ys).takeWhile fun dt => dt.toNat ≤ 2000) :
    (8 * k.bytes.length + k.nbits + fs.length < 8 * (cap + 1) →
      BitScan.Tidy (scanBits cap ys k)
      ∧ BitScan.bits (scanBits cap ys k) = BitScan.bits k ++ fs.map bitOfLow
      ∧ 8 * (scanBits cap ys k).bytes.length + (scanBits cap ys k).nbits =
          8 * k.bytes.length + k.nbits + fs.length
      ∧ (scanBits cap ys k).lastIndex =
          if fs.length < (lowsOf ys).length then k.i + 2 * fs.length else k.lastIndex)
    ∧ (8 * (cap + 1) ≤ 8 * k.bytes.length + k.nbits + fs.length →
      (scanBits cap ys k).full = true ∧ (scanBits cap ys k).bytes.length = cap
      ∧ wireBits (scanBits cap ys k).bytes <+: BitScan.bits k ++ fs.map bitOfLow) := by
  match ys with
  | [] =>
    have hnil : fs = [] := hfs
    subst hnil
    have hn := hk.few
    exact ⟨fun _ => ⟨hk, by simp [scanBits], by simp [scanBits], by simp [scanBits, lowsOf]⟩,
      fun h => by simp only [List.length_nil] at h; omega⟩
  | [a] =>
    have hnil : fs = [] := hfs
    subst hnil
    have hn := hk.few
    exact ⟨fun _ => ⟨hk, by simp [scanBits], by simp [scanBits], by simp [scanBits, lowsOf]⟩,
      fun h => by simp only [List.length_nil] at h; omega⟩
  | a :: b :: rest =>
    rw [lowsOf, List.takeWhile_cons] at hfs
    have hn := hk.few
    by_cases hend : endsFrame (b.t - a.t) = true
    · have hlong : ¬ (b.t - a.t).toNat ≤ 2000 := by
        have := of_decide_eq_true hend
        simp only [Config.endThresh] at this; omega
      rw [decide_eq_false hlong, if_neg (by simp)] at hfs
      subst hfs
      have heq : scanBits cap (a :: b :: rest) k =
          { k with dt := some (b.t - a.t), lastIndex := k.i } := by
        simp [scanBits, hend]
      rw [heq]
      refine ⟨fun _ => ⟨⟨hk.few, hk.clear, hk.going⟩, by simp [BitScan.bits], by simp, by simp [lowsOf]⟩,
        fun h => by simp only [List.length_nil] at h; omega⟩
    · have hshort : (b.t - a.t).toNat ≤ 2000 := by
        by_contra hc
        exact hend (decide_eq_true (by simp only [Config.endThresh]; omega))
      rw [decide_eq_true hshort, if_pos rfl] at hfs
      obtain ⟨gs, hgs⟩ : ∃ gs, gs = (lowsOf rest).takeWhile fun dt => decide (dt.toNat ≤ 2000) := ⟨_, rfl⟩
      rw [← hgs] at hfs
      subst hfs
      rcases shiftIn_cases cap (b.t - a.t) k hk with ⟨h7, hcap, hfull, hbytes⟩ | ⟨ht, hroom, hbits, hi, hl, hcount⟩
      · have heq : scanBits cap (a :: b :: rest) k = k.shiftIn cap (b.t - a.t) := by
          simp [scanBits, hend, hfull]
        rw [heq]
        refine ⟨fun h => by simp only [List.length_cons] at h; omega, fun _ => ⟨hfull, ?_, ?_⟩⟩
        · rw [hbytes, hcap]
        · rw [hbytes, BitScan.bits, List.append_assoc]
          exact List.prefix_append _ _
      · have heq : scanBits cap (a :: b :: rest) k = scanBits cap rest (k.shiftIn cap (b.t - a.t)) := by
          simp [scanBits, hend, ht.going]
        rw [heq]
        have hle' : (k.shiftIn cap (b.t - a.t)).bytes.length ≤ cap := by
          have := ht.few
          by_cases h7 : k.nbits = 7
          · have := hroom h7; omega
          · omega
        obtain ⟨hfit, hover⟩ := scanBits_spec cap rest (k.shiftIn cap (b.t - a.t)) ht hle' gs hgs
        simp only [List.length_cons, List.map_cons, lowsOf]
        refine ⟨fun h => ?_, fun h => ?_⟩
        · obtain ⟨g1, g2, g3, g4⟩ := hfit (by omega)
          refine ⟨g1, by rw [g2, hbits, List.append_assoc]; rfl, by omega, ?_⟩
          rw [g4, hi, hl]
          simp only [Nat.add_lt_add_iff_right]
          by_cases hlt : gs.length < (lowsOf rest).length
          · rw [if_pos hlt, if_pos hlt]; omega
          · rw [if_neg hlt, if_neg hlt]
        · obtain ⟨g1, g2, g3⟩ := hover (by omega)
          rw [hbits, List.append_assoc] at g3
          exact ⟨g1, g2, g3⟩

theorem wireBits_length (ps : List Byte) : (wireBits ps).length = 8 * ps.length := by
  simp [wireBits, List.length_flatMap, Nat.mul_comm]

/-- Bit `b` of byte `k` of a payload in wire order (R40). -/
theorem wireBits_getElem (ps : List Byte) (k b : Nat) (p : Byte) (hp : ps[k]? = some p) (hb : b < 8) :
    (wireBits ps)[8 * k + b]? = some (p.getLsbD b) := by
  induction ps generalizing k with
  | nil => simp at hp
  | cons q ps ih =>
    have hcons : wireBits (q :: ps) = ((List.range 8).map fun j => q.getLsbD j) ++ wireBits ps := rfl
    rw [hcons]
    cases k with
    | zero =>
      rw [List.getElem?_cons_zero, Option.some.injEq] at hp
      rw [List.getElem?_append_left (by simpa using hb), hp, Nat.mul_zero, Nat.zero_add]
      simp [hb]
    | succ k =>
      rw [List.getElem?_cons_succ] at hp
      rw [List.getElem?_append_right (by simp; omega), ← ih k hp]
      simp only [List.length_map, List.length_range]
      congr 1
      omega

/-! ### Checksum and comparison (R100, R103) -/

theorem byteSum_eq (acc : Byte) (ps : List Byte) :
    byteSum acc ps = acc + BitVec.ofNat 8 ((ps.map BitVec.toNat).sum) := by
  induction ps generalizing acc with
  | nil => simp [byteSum]
  | cons p ps ih =>
    rw [byteSum, ih, List.map_cons, List.sum_cons, BitVec.ofNat_add, BitVec.ofNat_toNat, BitVec.add_assoc]
    simp

/-- What CHECKSUM reports. -/
theorem checksum_report (ps : List Byte) (d : Nat) (s : State) :
    (checksum ps d s).report = s.report ++ checksumReports d ps := by
  unfold checksum checksumReports
  cases ps.getLast? with
  | none => rfl
  | some last =>
    have hsum : byteSum 0 ps.dropLast = BitVec.ofNat 8 ((ps.dropLast.map BitVec.toNat).sum) := by
      rw [byteSum_eq]; simp
    simp only [hsum]
    by_cases h : BitVec.ofNat 8 ((ps.dropLast.map BitVec.toNat).sum) = last
    · rw [if_pos h, if_pos h, List.append_nil]; rfl
    · rw [if_neg h, if_neg h]; rfl

/-! ### The sequence DECODE reads (R101 steps 0 to 2) -/

@[simp] theorem timeAt_zero (x : Sample) (xs : List Sample) : timeAt (x :: xs) 0 = x.t := rfl
@[simp] theorem timeAt_succ (x : Sample) (xs : List Sample) (i : Nat) :
    timeAt (x :: xs) (i + 1) = timeAt xs i := rfl
@[simp] theorem levelAt_zero (x : Sample) (xs : List Sample) : levelAt (x :: xs) 0 = x.v := rfl
@[simp] theorem levelAt_succ (x : Sample) (xs : List Sample) (i : Nat) :
    levelAt (x :: xs) (i + 1) = levelAt xs i := rfl

/-- The edges of a trace that follows a sample of level `l`. -/
def edgesAfter (l : Level) (xs : List Sample) : List Sample :=
  (List.range xs.length).filterMap fun i =>
    if levelAt xs i != levelAt (⟨0, l⟩ :: xs) i then xs[i]? else none

theorem edgesAfter_eq (l : Level) (xs : List Sample) : edgesAfter l xs = compactFrom l xs := by
  induction xs generalizing l with
  | nil => rfl
  | cons x xs ih =>
    have step : edgesAfter l (x :: xs) = (if x.v != l then [x] else []) ++ edgesAfter x.v xs := by
      rw [edgesAfter, List.length_cons, List.range_succ_eq_map, List.filterMap_cons, List.filterMap_map]
      have tail : (List.range xs.length).filterMap ((fun i =>
          if levelAt (x :: xs) i != levelAt (⟨0, l⟩ :: x :: xs) i then (x :: xs)[i]? else none) ∘ Nat.succ) =
          edgesAfter x.v xs := by
        refine List.filterMap_congr fun i _ => ?_
        have : levelAt (x :: xs) i = levelAt (⟨0, x.v⟩ :: xs) i := by cases i <;> rfl
        show (if levelAt xs i != levelAt (x :: xs) i then xs[i]? else none) = _
        rw [this]
      rw [tail]
      by_cases h : (x.v != l) = true
      · have : (if levelAt (x :: xs) 0 != levelAt (⟨0, l⟩ :: x :: xs) 0 then (x :: xs)[0]? else none) = some x :=
          if_pos h
        rw [this, if_pos h]; rfl
      · have : (if levelAt (x :: xs) 0 != levelAt (⟨0, l⟩ :: x :: xs) 0 then (x :: xs)[0]? else none) = none :=
          if_neg h
        rw [this, if_neg h]; rfl
    rw [step, ih, compactFrom]
    by_cases h : x.v = l
    · rw [if_pos h, h]; simp
    · rw [if_neg h]; simp [h]

/-- What COMPACT keeps is the edges (R78). -/
theorem compactTrace_eq_edgesOf (xs : List Sample) : compactTrace xs = edgesOf xs := by
  cases xs with
  | nil => rfl
  | cons x xs =>
    rw [compactTrace, ← edgesAfter_eq, edgesOf, List.length_cons, List.range_succ_eq_map,
      List.filterMap_cons, List.filterMap_map]
    refine congrArg (List.cons x) (List.filterMap_congr fun i _ => ?_)
    have : levelAt (x :: xs) i = levelAt (⟨0, x.v⟩ :: xs) i := by cases i <;> rfl
    rw [← this]
    rfl

/-- FLATTEN on the samples that follow one of level `l`. -/
def filledAfter (l : Level) : List Sample → List Sample
  | [] => []
  | [b] => [b]
  | b :: c :: rest =>
    { b with v := b.v || (l && c.v && decide ((c.t - b.t).toNat < 200)) } :: filledAfter b.v (c :: rest)

theorem filledAfter_high (l m : Level) (b : Sample) (rest : List Sample) (h : b.v = true) :
    filledAfter l (b :: rest) = filledAfter m (b :: rest) := by
  cases rest with
  | nil => rfl
  | cons c rest => simp [filledAfter, h]

theorem flattenFrom_eq (a : Sample) (xs : List Sample) :
    (flattenFrom a xs).1 = a :: filledAfter a.v xs := by
  induction xs generalizing a with
  | nil => rfl
  | cons b rest ih =>
    cases rest with
    | nil => rfl
    | cons c rest =>
      rw [flattenFrom]
      simp only
      by_cases h : a.v = true ∧ b.v = false ∧ c.v = true
      · rw [if_pos h]
        show a :: (flattenFrom _ (c :: rest)).1 = _
        rw [ih, filledAfter, filledAfter_high _ b.v c rest h.2.2]
        have hb : ({ t := b.t, v := false } : Sample) = b := by rw [← h.2.1]
        simp only [h.1, h.2.1, h.2.2, Bool.false_or, Bool.true_and]
        by_cases hd : (c.t - b.t).toNat < Config.flatMax
        · rw [if_pos hd, decide_eq_true (show (c.t - b.t).toNat < 200 from hd)]
        · rw [if_neg hd, decide_eq_false (show ¬ (c.t - b.t).toNat < 200 from hd), hb]
      · rw [if_neg h, ih, filledAfter]
        have : (b.v || (a.v && c.v && decide ((c.t - b.t).toNat < 200))) = b.v := by
          cases ha : a.v <;> cases hb : b.v <;> cases hc : c.v <;> simp_all
        simp only [this]

/-- Each sample of a trace that follows one of level `l`, its level set to 1 if it is a short low. -/
theorem filledAfter_eq (l : Level) (xs : List Sample) :
    filledAfter l xs = (List.range xs.length).map fun i =>
      { t := timeAt xs i
        v := levelAt xs i || (decide (i + 1 < xs.length) && levelAt (⟨0, l⟩ :: xs) i && levelAt xs (i + 1)
          && decide ((timeAt xs (i + 1) - timeAt xs i).toNat < 200)) } := by
  induction xs generalizing l with
  | nil => rfl
  | cons b rest ih =>
    cases rest with
    | nil => simp [filledAfter, timeAt, levelAt]
    | cons c rest =>
      rw [filledAfter, ih]
      conv_rhs => rw [List.length_cons, List.range_succ_eq_map, List.map_cons, List.map_map]
      refine congrArg₂ List.cons ?_ (List.map_congr_left fun i _ => ?_)
      · simp
      · have : levelAt (⟨0, b.v⟩ :: c :: rest) i = levelAt (b :: c :: rest) i := by cases i <;> rfl
        simp only [Function.comp_apply, this, Nat.succ_eq_add_one, timeAt_succ, levelAt_succ, List.length_cons,
          Nat.add_lt_add_iff_right]
        rfl

/-- What FLATTEN leaves is the trace with its short lows filled (R98). -/
theorem flattenTrace_eq_lowsFilled (xs : List Sample) : (flattenTrace xs).1 = lowsFilled xs := by
  cases xs with
  | nil => rfl
  | cons a rest =>
    rw [flattenTrace, flattenFrom_eq, filledAfter_eq, lowsFilled]
    conv_rhs => rw [List.length_cons, List.range_succ_eq_map, List.map_cons, List.map_map]
    refine congrArg₂ List.cons ?_ (List.map_congr_left fun i _ => ?_)
    · simp
    · have : levelAt (⟨0, a.v⟩ :: rest) i = levelAt (a :: rest) i := by cases i <;> rfl
      simp only [Function.comp_apply, this, Nat.succ_eq_add_one, timeAt_succ, levelAt_succ,
        Nat.add_lt_add_iff_right, Nat.add_sub_cancel, Nat.zero_lt_succ, decide_true, Bool.true_and]
      rfl

/-- Steps 0 to 2 of DECODE (R101), as the machine computes them. -/
theorem decodeInput_eq (xs : List Sample) :
    decodeInput xs = compactTrace (flattenTrace (compactTrace xs)).1 := by
  rw [decodeInput, compactTrace_eq_edgesOf, compactTrace_eq_edgesOf, flattenTrace_eq_lowsFilled]

/-! ### The half-frames of a sequence -/

theorem inWindow_iff (xs : List Sample) :
    inWindow xs.length (frameEnd xs) = true ↔ secondWindow xs := by
  simp [inWindow, secondWindow, and_assoc, List.length_pos_iff]

/-- The tail of a sequence with a second frame is shorter (R103 (c)). -/
theorem secondWindow_drop_lt {xs : List Sample} (h : secondWindow xs) :
    (xs.drop (frameEnd xs)).length < xs.length := by
  obtain ⟨hne, hlo, -⟩ := h
  have := List.length_pos_iff.2 hne
  rw [List.length_drop]
  omega

/-- The bytes of a first half-frame are at most one for every 16 samples after the first four. -/
theorem frameLows_length_le (xs : List Sample) : (frameLows xs).length ≤ (xs.length - 4) / 2 := by
  refine Nat.le_trans (List.takeWhile_sublist _).length_le ?_
  simp [measuredLows]

/-- A sequence that is short enough fits, whatever it holds. -/
theorem framesFit_of_length {cap : Nat} (xs : List Sample) (h : xs.length ≤ 16 * cap + 19) :
    FramesFit cap xs := by
  induction hn : xs.length using Nat.strong_induction_on generalizing xs with
  | _ n ih =>
    have := frameLows_length_le xs
    refine .intro (by omega) fun hw => ?_
    have := secondWindow_drop_lt hw
    exact ih _ (by omega) _ (by omega) rfl

end Sys2Proof.Machine.Laws
end

