-- ==== Sys2Proof/Laws/Encoder.lean ====
section
/-! SUPPORT. The encoder's steps in closed form: the cycles of a burst, a burst, a sequence of bursts. -/

namespace Sys2Proof.Machine.Laws

/-! ### One burst (R106) -/

theorem markCycles_of_count {t m : U32} {n : Nat} (h : m.toNat / 26 = n) :
    markCycles t m = (List.range n).flatMap fun j =>
      [{ t := t + BitVec.ofNat 32 (26 * j), v := true },
       { t := t + BitVec.ofNat 32 (26 * j + 15), v := false }] := by
  rw [markCycles, h]

/-- The loop of R106 from a cursor from which `n` more whole cycles fit. -/
theorem burstCycles_eq (start : U32) (m n fuel : Nat) (t : U32) (hm : m < 4294967296)
    (hfuel : n < fuel) (hfit : (t - start).toNat + 26 * n ≤ m) (hend : m < (t - start).toNat + 26 * (n + 1)) :
    burstCycles start m fuel t =
      ((List.range n).flatMap fun j =>
        [{ t := t + BitVec.ofNat 32 (26 * j), v := true },
         { t := t + BitVec.ofNat 32 (26 * j + 15), v := false }],
       t + BitVec.ofNat 32 (26 * n)) := by
  induction n generalizing fuel t with
  | zero =>
    obtain ⟨fuel, rfl⟩ : ∃ k, fuel = k + 1 := ⟨fuel - 1, by omega⟩
    rw [burstCycles, if_neg (by simp only [Config.hTime, Config.lTime]; omega)]
    simp
  | succ n ih =>
    obtain ⟨fuel, rfl⟩ : ∃ k, fuel = k + 1 := ⟨fuel - 1, by omega⟩
    have hstep : t + BitVec.ofNat 32 Config.hTime + BitVec.ofNat 32 Config.lTime = t + 26#32 := by
      simp only [Config.hTime, Config.lTime, BitVec.add_assoc]
      rfl
    have hsub : (t + 26#32 - start).toNat = (t - start).toNat + 26 := by
      have h : t + 26#32 - start = (t - start) + 26#32 := by
        rw [BitVec.sub_eq_add_neg, BitVec.sub_eq_add_neg, BitVec.add_assoc, BitVec.add_assoc,
          BitVec.add_comm (26#32)]
      rw [h, BitVec.toNat_add]
      simp only [BitVec.toNat_ofNat]
      omega
    rw [burstCycles, if_pos (by simp only [Config.hTime, Config.lTime]; omega)]
    simp only [hstep]
    rw [ih fuel (t + 26#32) (by omega) (by rw [hsub]; omega) (by rw [hsub]; omega)]
    have shift : ∀ k : Nat, t + 26#32 + BitVec.ofNat 32 k = t + BitVec.ofNat 32 (26 + k) := fun k => by
      rw [BitVec.add_assoc, show (26#32 : U32) = BitVec.ofNat 32 26 from rfl, ← BitVec.ofNat_add]
    refine Prod.ext ?_ ?_
    · simp only [List.range_succ_eq_map, List.flatMap_cons, List.flatMap_map, shift, Config.hTime,
        Nat.mul_zero, Nat.zero_add, BitVec.add_zero]
      refine congrArg _ (congrArg _ (List.flatMap_congr fun j _ => ?_))
      simp only [Nat.succ_eq_add_one, Nat.mul_add, Nat.mul_one, Nat.add_comm 26, Nat.add_assoc,
        Nat.add_left_comm]
    · simp only [shift]
      rw [Nat.mul_add, Nat.mul_one, Nat.add_comm]

/-- The samples of a burst and the cursor after its last cycle (R106). -/
theorem burstSamples_eq (t m : U32) :
    burstSamples t m = (markCycles t m, t + BitVec.ofNat 32 (26 * (m.toNat / 26))) := by
  have hm := m.isLt
  rw [burstSamples, markCycles, burstCycles_eq t m.toNat (m.toNat / 26)]
  · exact hm
  · simp [Config.hTime, Config.lTime]
  · rw [BitVec.sub_self]; simp only [BitVec.toNat_ofNat]; omega
  · rw [BitVec.sub_self]; simp only [BitVec.toNat_ofNat]; omega

theorem markCycles_length (t m : U32) : (markCycles t m).length = 2 * (m.toNat / 26) := by
  simp [markCycles, List.length_flatMap, Nat.mul_comm]

/-- A burst that fits (R106). -/
theorem burst_fits {m sp : U32} {s : State}
    (h : s.mem.tr.length + 2 * (m.toNat / 26) ≤ Config.trCap) :
    burst m sp s = .done () { s with
      mem := { s.mem with tr := s.mem.tr ++ markCycles s.wr.tcur m }
      wr := { s.wr with
        bstart := s.wr.tcur, tcur := cursorAfter s.wr.tcur m sp, tcurWritten := true } } := by
  have hdrop : (markCycles s.wr.tcur m).drop (Config.trCap - s.mem.tr.length) = [] := by
    rw [List.drop_eq_nil_iff, markCycles_length]; omega
  simp only [burst, burstSamples_eq, hdrop]
  rfl

/-- A burst that does not fit (R106, R121): the samples that fit are appended. -/
theorem burst_full {m sp : U32} {s : State} (hle : s.mem.tr.length ≤ Config.trCap)
    (h : Config.trCap < s.mem.tr.length + 2 * (m.toNat / 26)) :
    ∃ c, burst m sp s = .fatal (raise (.capacityExceeded .tr) { s with
      mem := { s.mem with
        tr := s.mem.tr ++ (markCycles s.wr.tcur m).take (Config.trCap - s.mem.tr.length) }
      wr := { s.wr with bstart := s.wr.tcur, tcur := c, tcurWritten := true } }) := by
  cases hdrop : (markCycles s.wr.tcur m).drop (Config.trCap - s.mem.tr.length) with
  | nil =>
    rw [List.drop_eq_nil_iff, markCycles_length] at hdrop
    omega
  | cons x rest =>
    refine ⟨x.t, ?_⟩
    simp only [burst, burstSamples_eq, hdrop]
    rfl

/-! ### A sequence of bursts (R107) -/

/-- The number of samples of a sequence of symbols. -/
theorem symbolTrace_length (t : U32) (ms : List (U32 × U32)) :
    (symbolTrace t ms).length = (ms.map fun p => 2 * (p.1.toNat / 26)).sum := by
  induction ms generalizing t with
  | nil => rfl
  | cons p ms ih => simp [symbolTrace, markCycles_length, ih]

/-- The cursor after a sequence of symbols. -/
def cursorEnd (t : U32) (ms : List (U32 × U32)) : U32 :=
  ms.foldl (fun c p => cursorAfter c p.1 p.2) t

theorem symbolTrace_append (t : U32) (ms ns : List (U32 × U32)) :
    symbolTrace t (ms ++ ns) = symbolTrace t ms ++ symbolTrace (cursorEnd t ms) ns := by
  induction ms generalizing t with
  | nil => rfl
  | cons p ms ih =>
    rw [List.cons_append, symbolTrace, symbolTrace, ih, List.append_assoc]
    rfl

/-- A sequence of bursts that fits, with at least one burst. -/
theorem bursts_fit (p : U32 × U32) (ms : List (U32 × U32)) (s : State)
    (h : s.mem.tr.length + (symbolTrace s.wr.tcur (p :: ms)).length ≤ Config.trCap) :
    ∃ b, bursts (p :: ms) s = .done () { s with
      mem := { s.mem with tr := s.mem.tr ++ symbolTrace s.wr.tcur (p :: ms) }
      wr := { s.wr with bstart := b, tcur := cursorEnd s.wr.tcur (p :: ms), tcurWritten := true } } := by
  induction ms generalizing p s with
  | nil =>
    refine ⟨s.wr.tcur, ?_⟩
    simp only [symbolTrace, List.append_nil, markCycles_length] at h
    rw [bursts, burst_fits h]
    simp only [bursts, Act.andThen, symbolTrace, List.append_nil]
    rfl
  | cons q ms ih =>
    rw [symbolTrace, List.length_append, markCycles_length] at h
    rw [bursts, burst_fits (by omega)]
    obtain ⟨b, hb⟩ := ih q { s with
      mem := { s.mem with tr := s.mem.tr ++ markCycles s.wr.tcur p.1 }
      wr := { s.wr with
        bstart := s.wr.tcur, tcur := cursorAfter s.wr.tcur p.1 p.2, tcurWritten := true } } (by
          simp only [List.length_append, markCycles_length]
          omega)
    refine ⟨b, ?_⟩
    simp only [Act.andThen]
    rw [hb, symbolTrace.eq_def s.wr.tcur (p :: q :: ms)]
    simp only [List.append_assoc]
    rfl

/-- A sequence of bursts that does not fit leaves `TR` full (R121). -/
theorem bursts_full (ms : List (U32 × U32)) (s : State) (hle : s.mem.tr.length ≤ Config.trCap)
    (h : Config.trCap < s.mem.tr.length + (symbolTrace s.wr.tcur ms).length) :
    ∃ w, bursts ms s = .fatal (raise (.capacityExceeded .tr) { s with
      mem := { s.mem with tr := (s.mem.tr ++ symbolTrace s.wr.tcur ms).take Config.trCap }
      wr := w }) := by
  induction ms generalizing s with
  | nil => simp only [symbolTrace, List.length_nil] at h; omega
  | cons p ms ih =>
    rw [symbolTrace, List.length_append, markCycles_length] at h
    by_cases hfit : s.mem.tr.length + 2 * (p.1.toNat / 26) ≤ Config.trCap
    · rw [bursts, burst_fits hfit]
      obtain ⟨w, hw⟩ := ih { s with
        mem := { s.mem with tr := s.mem.tr ++ markCycles s.wr.tcur p.1 }
        wr := { s.wr with
          bstart := s.wr.tcur, tcur := cursorAfter s.wr.tcur p.1 p.2, tcurWritten := true } }
        (by simpa [markCycles_length] using hfit)
        (by simp only [List.length_append, markCycles_length]; omega)
      refine ⟨w, ?_⟩
      simp only [Act.andThen]
      rw [hw]
      simp only [symbolTrace, List.append_assoc]
    · obtain ⟨c, hc⟩ := burst_full (m := p.1) (sp := p.2) hle (by omega)
      refine ⟨{ s.wr with bstart := s.wr.tcur, tcur := c, tcurWritten := true }, ?_⟩
      rw [bursts, hc]
      simp only [Act.andThen]
      have htake : (s.mem.tr ++ symbolTrace s.wr.tcur (p :: ms)).take Config.trCap =
          s.mem.tr ++ (markCycles s.wr.tcur p.1).take (Config.trCap - s.mem.tr.length) := by
        rw [List.take_append, List.take_of_length_le hle, symbolTrace,
          List.take_append_of_le_length (by rw [markCycles_length]; omega)]
      rw [htake]

/-- The symbols ENCODE calls BURST with are those of the frame (R59, R107). -/
theorem frameBursts_eq (ps : List Byte) :
    frameBursts ps = halfFrameSymbols ps ++ halfFrameSymbols ps := by
  have bits : ps.flatMap bitsOfByte = wireBits ps := by
    rw [wireBits]
    refine List.flatMap_congr fun p _ => ?_
    rfl
  have half : halfFrameBursts ps = halfFrameSymbols ps := by
    rw [halfFrameBursts, halfFrameSymbols, bits]
    rfl
  rw [frameBursts, half]
  simp [Config.repeats, List.replicate]

end Sys2Proof.Machine.Laws
end

