-- ==== Sys2Proof/Laws/Envelope.lean ====
section
/-! SUPPORT. What the decoder makes of an encoded trace: the sub-carrier of each mark is flattened, and the
trace compacts to its envelope, one rise and one fall per mark. -/

namespace Sys2Proof.Machine.Laws

/-! ### The cycles of a mark, one by one -/

/-- `n` cycles from `t` on. -/
def cycles : U32 → Nat → List Sample
  | _, 0 => []
  | t, n + 1 => ⟨t, true⟩ :: ⟨t + 15#32, false⟩ :: cycles (t + 26#32) n

/-- The fall of the last of `n + 1` cycles from `t` on. -/
def lastFall : U32 → Nat → U32
  | t, 0 => t + 15#32
  | t, n + 1 => lastFall (t + 26#32) n

theorem lastFall_eq (t : U32) (n : Nat) : lastFall t n = t + BitVec.ofNat 32 (26 * n + 15) := by
  induction n generalizing t with
  | zero => rfl
  | succ n ih =>
    rw [lastFall, ih, BitVec.add_assoc, show (26#32 : U32) = BitVec.ofNat 32 26 from rfl, ← BitVec.ofNat_add]
    congr 2
    omega

theorem markCycles_eq (t m : U32) : markCycles t m = cycles t (m.toNat / 26) := by
  rw [markCycles]
  generalize m.toNat / 26 = n
  induction n generalizing t with
  | zero => rfl
  | succ n ih =>
    have shift : ∀ k : Nat, t + 26#32 + BitVec.ofNat 32 k = t + BitVec.ofNat 32 (26 + k) := fun k => by
      rw [BitVec.add_assoc, show (26#32 : U32) = BitVec.ofNat 32 26 from rfl, ← BitVec.ofNat_add]
    rw [cycles, ← ih, List.range_succ_eq_map, List.flatMap_cons, List.flatMap_map]
    simp only [shift, Nat.mul_zero, Nat.zero_add, BitVec.add_zero, List.cons_append, List.nil_append]
    refine congrArg _ (congrArg _ (List.flatMap_congr fun j _ => ?_))
    simp only [Nat.succ_eq_add_one, Nat.mul_add, Nat.mul_one, Nat.add_comm 26, Nat.add_assoc,
      Nat.add_left_comm]

/-- `n` cycles after FLATTEN: only the last low stays. -/
def flatCycles : U32 → Nat → List Sample
  | _, 0 => []
  | t, 1 => [⟨t, true⟩, ⟨t + 15#32, false⟩]
  | t, n + 2 => ⟨t, true⟩ :: ⟨t + 15#32, true⟩ :: flatCycles (t + 26#32) (n + 1)

/-- A trace before which a low is not flattened: empty, or a rise 200 µs or more after `u`. -/
def farRise (u : U32) : List Sample → Prop
  | [] => True
  | h :: _ => h.v = true ∧ 200 ≤ (h.t - u).toNat

/-! ### FLATTEN (R98) -/

theorem flattenFrom_low {a b : Sample} {rest : List Sample} (h : ¬ (a.v = true ∧ b.v = false)) :
    (flattenFrom a (b :: rest)).1 = a :: (flattenFrom b rest).1 := by
  cases rest with
  | nil => rfl
  | cons c rest =>
    rw [flattenFrom]
    simp only
    rw [if_neg (fun hc => h ⟨hc.1, hc.2.1⟩)]

theorem flattenFrom_fill {a b c : Sample} {rest : List Sample} (ha : a.v = true) (hb : b.v = false)
    (hc : c.v = true) (ht : (c.t - b.t).toNat < 200) :
    (flattenFrom a (b :: c :: rest)).1 = a :: (flattenFrom { b with v := true } (c :: rest)).1 := by
  rw [flattenFrom]
  simp only
  rw [if_pos ⟨ha, hb, hc⟩, if_pos (by simpa [Config.flatMax] using ht)]

theorem flattenFrom_keep {a b : Sample} {rest : List Sample} (hb : farRise b.t rest) :
    (flattenFrom a (b :: rest)).1 = a :: (flattenFrom b rest).1 := by
  cases rest with
  | nil => rfl
  | cons c rest =>
    rw [flattenFrom]
    simp only
    by_cases h : a.v = true ∧ b.v = false ∧ c.v = true
    · rw [if_pos h, if_neg (by have := hb.2; simp only [Config.flatMax]; omega)]
    · rw [if_neg h]

/-- FLATTEN on one mark of `n + 1` cycles and what follows it. -/
theorem flattenFrom_cycles (t : U32) (n : Nat) (R : List Sample) (hR : farRise (lastFall t n) R) :
    (flattenFrom ⟨t, true⟩ (⟨t + 15#32, false⟩ :: cycles (t + 26#32) n ++ R)).1 =
      (flatCycles t (n + 1)).dropLast ++ (flattenFrom ⟨lastFall t n, false⟩ R).1 := by
  induction n generalizing t with
  | zero => exact flattenFrom_keep hR
  | succ n ih =>
    have hdt : (t + 26#32 - (t + 15#32)).toNat < 200 := by
      have : t + 26#32 - (t + 15#32) = 11#32 := by bv_omega
      rw [this]; decide
    have hne : flatCycles (t + 26#32) (n + 1) ≠ [] := by cases n <;> simp [flatCycles]
    have fill := flattenFrom_fill (a := ⟨t, true⟩) (b := ⟨t + 15#32, false⟩) (c := ⟨t + 26#32, true⟩)
      (rest := (⟨t + 26#32 + 15#32, false⟩ : Sample) :: (cycles (t + 26#32 + 26#32) n ++ R)) rfl rfl rfl hdt
    have low := flattenFrom_low (a := ⟨t + 15#32, true⟩) (b := ⟨t + 26#32, true⟩)
      (rest := (⟨t + 26#32 + 15#32, false⟩ : Sample) :: (cycles (t + 26#32 + 26#32) n ++ R))
      (fun h => Bool.noConfusion h.2)
    rw [cycles, List.cons_append, List.cons_append, List.cons_append, fill]
    show _ :: (flattenFrom ⟨t + 15#32, true⟩ _).1 = _
    rw [low, ← List.cons_append, ih (t + 26#32) hR, flatCycles,
      List.dropLast_cons_of_ne_nil (List.cons_ne_nil _ _), List.dropLast_cons_of_ne_nil hne]
    rfl

theorem flatCycles_last (t : U32) (n : Nat) :
    flatCycles t (n + 1) = (flatCycles t (n + 1)).dropLast ++ [⟨lastFall t n, false⟩] := by
  induction n generalizing t with
  | zero => rfl
  | succ n ih =>
    have hne : flatCycles (t + 26#32) (n + 1) ≠ [] := by cases n <;> simp [flatCycles]
    rw [flatCycles, List.dropLast_cons_of_ne_nil (by simp), List.dropLast_cons_of_ne_nil hne]
    conv_lhs => rw [ih]
    rfl

/-- Marks of at least one cycle, and spaces that are not flattened. -/
def Solid (ms : List (U32 × U32)) : Prop :=
  ∀ p ∈ ms, 1 ≤ p.1.toNat / 26 ∧ 200 ≤ (11#32 + p.2).toNat

/-- A sequence of symbols after FLATTEN. -/
def flatTrace : U32 → List (U32 × U32) → List Sample
  | _, [] => []
  | t, (m, sp) :: rest => flatCycles t (m.toNat / 26) ++ flatTrace (cursorAfter t m sp) rest

theorem symbolTrace_farRise (t m sp : U32) (n : Nat) (hn : m.toNat / 26 = n + 1)
    (rest : List (U32 × U32)) (h : Solid ((m, sp) :: rest)) :
    farRise (lastFall t n) (symbolTrace (cursorAfter t m sp) rest) := by
  cases rest with
  | nil => trivial
  | cons q rest =>
    obtain ⟨k, hk⟩ : ∃ k, q.1.toNat / 26 = k + 1 :=
      ⟨q.1.toNat / 26 - 1, by have := (h q (by simp)).1; omega⟩
    rw [symbolTrace, markCycles_eq, hk, cycles]
    refine ⟨rfl, ?_⟩
    have hdiff : cursorAfter t m sp - lastFall t n = 11#32 + sp := by
      rw [lastFall_eq, cursorAfter, hn, show 26 * (n + 1) = 26 * n + 15 + 11 by omega, BitVec.ofNat_add]
      generalize BitVec.ofNat 32 (26 * n + 15) = x
      have : (BitVec.ofNat 32 11 : U32) = 11#32 := rfl
      rw [this]
      bv_omega
    show 200 ≤ (cursorAfter t m sp - lastFall t n).toNat
    rw [hdiff]
    exact (h (m, sp) (by simp)).2

/-- FLATTEN on a low followed by symbols. -/
theorem flattenFrom_symbols (ms : List (U32 × U32)) (t : U32) (x : Sample) (hx : x.v = false)
    (h : Solid ms) : (flattenFrom x (symbolTrace t ms)).1 = x :: flatTrace t ms := by
  induction ms generalizing t x with
  | nil => rfl
  | cons p ms ih =>
    obtain ⟨m, sp⟩ := p
    obtain ⟨n, hn⟩ : ∃ n, m.toNat / 26 = n + 1 :=
      ⟨m.toNat / 26 - 1, by have := (h (m, sp) (by simp)).1; simp only at this; omega⟩
    have hrest : Solid ms := fun q hq => h q (List.mem_cons_of_mem _ hq)
    rw [symbolTrace, markCycles_eq, hn, cycles, List.cons_append,
      flattenFrom_low (by rw [hx]; simp),
      flattenFrom_cycles t n _ (symbolTrace_farRise t m sp n hn ms h), ih _ _ rfl hrest, flatTrace, hn]
    conv_rhs => rw [flatCycles_last]
    simp only [List.append_assoc, List.singleton_append]

/-! ### The envelope (R102, R104) -/

/-- One rise and one fall per mark. -/
def envelope : U32 → List (U32 × U32) → List Sample
  | _, [] => []
  | t, (m, sp) :: rest =>
    ⟨t, true⟩ :: ⟨lastFall t (m.toNat / 26 - 1), false⟩ :: envelope (cursorAfter t m sp) rest

theorem compactFrom_cycles (t : U32) (n : Nat) (R : List Sample) :
    compactFrom false (flatCycles t (n + 1) ++ R) =
        ⟨t, true⟩ :: ⟨lastFall t n, false⟩ :: compactFrom false R
      ∧ compactFrom true (flatCycles t (n + 1) ++ R) = ⟨lastFall t n, false⟩ :: compactFrom false R := by
  induction n generalizing t with
  | zero => constructor <;> simp [flatCycles, compactFrom, lastFall]
  | succ n ih =>
    have h := (ih (t + 26#32)).2
    constructor <;> simp [flatCycles, compactFrom, lastFall, h]

theorem compactFrom_flatTrace (ms : List (U32 × U32)) (t : U32) (h : Solid ms) :
    compactFrom false (flatTrace t ms) = envelope t ms := by
  induction ms generalizing t with
  | nil => rfl
  | cons p ms ih =>
    obtain ⟨m, sp⟩ := p
    obtain ⟨n, hn⟩ : ∃ n, m.toNat / 26 = n + 1 :=
      ⟨m.toNat / 26 - 1, by have := (h (m, sp) (by simp)).1; simp only at this; omega⟩
    rw [flatTrace, envelope, hn, (compactFrom_cycles t n _).1,
      ih _ fun q hq => h q (List.mem_cons_of_mem _ hq)]
    rfl

/-- The samples of symbols alternate, beginning with a rise. -/
theorem symbolTrace_isCompact (ms : List (U32 × U32)) (t : U32) (x : Sample) (hx : x.v = false) :
    isCompact (x :: symbolTrace t ms) := by
  have mark : ∀ (n : Nat) (u : U32) (R : List Sample) (y : Sample), y.v = false →
      (∀ z : Sample, z.v = false → isCompact (z :: R)) → isCompact (y :: (cycles u n ++ R)) := by
    intro n
    induction n with
    | zero => intro u R y hy hR; exact hR y hy
    | succ n ih =>
      intro u R y hy hR
      rw [cycles, List.cons_append, List.cons_append]
      refine List.isChain_cons.2 ⟨fun z hz => ?_, List.isChain_cons.2 ⟨fun z hz => ?_, ?_⟩⟩
      · rw [List.head?_cons, Option.mem_some_iff] at hz
        rw [hy, ← hz]; exact Bool.false_ne_true
      · rw [List.head?_cons, Option.mem_some_iff] at hz
        rw [← hz]; exact Bool.false_ne_true.symm
      · exact ih (u + 26#32) R ⟨u + 15#32, false⟩ rfl hR
  induction ms generalizing t x with
  | nil => exact List.isChain_singleton _
  | cons p ms ih =>
    rw [symbolTrace, markCycles_eq]
    exact mark _ _ _ x hx fun z hz => ih _ z hz

theorem solid_append {ms ns : List (U32 × U32)} (h1 : Solid ms) (h2 : Solid ns) : Solid (ms ++ ns) :=
  fun p hp => (List.mem_append.1 hp).elim (h1 p) (h2 p)

theorem halfFrame_solid (ps : List Byte) : Solid (halfFrameSymbols ps) := by
  intro p hp
  simp only [halfFrameSymbols, List.mem_append, List.mem_singleton, List.mem_map] at hp
  rcases hp with (rfl | ⟨b, -, rfl⟩) | rfl
  · decide
  · cases b <;> decide
  · decide

/-- Steps 0 to 2 of DECODE (R101) on an encoded trace: its envelope. -/
theorem preprocessed_encodedTrace (ps : List Byte) :
    compactTrace (flattenTrace (compactTrace (encodedTrace ps))).1 =
      ⟨0, false⟩ :: envelope 700 (halfFrameSymbols ps ++ halfFrameSymbols ps) := by
  have hs : Solid (halfFrameSymbols ps ++ halfFrameSymbols ps) :=
    solid_append (halfFrame_solid ps) (halfFrame_solid ps)
  rw [encodedTrace, compactTrace_of_isCompact _ (symbolTrace_isCompact _ _ _ rfl), flattenTrace,
    flattenFrom_symbols _ _ _ rfl hs, compactTrace, compactFrom_flatTrace _ _ hs]

theorem envelope_length (t : U32) (ms : List (U32 × U32)) : (envelope t ms).length = 2 * ms.length := by
  induction ms generalizing t with
  | nil => rfl
  | cons p ms ih => simp only [envelope, List.length_cons, ih]; omega

/-- The samples of an envelope from the fall of its `k`-th mark on. -/
theorem envelope_drop (ms : List (U32 × U32)) (t : U32) (k : Nat) (p : U32 × U32) (rest : List (U32 × U32))
    (h : ms.drop k = p :: rest) :
    ∃ u, (envelope t ms).drop (2 * k + 1) =
      ⟨lastFall u (p.1.toNat / 26 - 1), false⟩ :: envelope (cursorAfter u p.1 p.2) rest := by
  induction ms generalizing t k with
  | nil => simp at h
  | cons q ms ih =>
    cases k with
    | zero =>
      rw [List.drop_zero] at h
      obtain ⟨rfl, rfl⟩ := List.cons.inj h
      exact ⟨t, rfl⟩
    | succ k =>
      obtain ⟨u, hu⟩ := ih (cursorAfter t q.1 q.2) k (by simpa using h)
      refine ⟨u, ?_⟩
      rw [← hu, show 2 * (k + 1) + 1 = (2 * k + 1) + 1 + 1 by omega]
      rfl

/-- The lows measured from the fall of a mark on: 11 µs and the space, for every mark but the last. -/
theorem lowsOf_envelope (p : U32 × U32) (rest : List (U32 × U32)) (u : U32)
    (h : Solid (p :: rest)) :
    lowsOf (⟨lastFall u (p.1.toNat / 26 - 1), false⟩ :: envelope (cursorAfter u p.1 p.2) rest) =
      (p :: rest).dropLast.map fun q => 11#32 + q.2 := by
  induction rest generalizing p u with
  | nil => rfl
  | cons q rest ih =>
    obtain ⟨n, hn⟩ : ∃ n, p.1.toNat / 26 = n + 1 :=
      ⟨p.1.toNat / 26 - 1, by have := (h p (by simp)).1; omega⟩
    have hdiff : cursorAfter u p.1 p.2 - lastFall u (p.1.toNat / 26 - 1) = 11#32 + p.2 := by
      rw [lastFall_eq, cursorAfter, hn, show 26 * (n + 1) = 26 * n + 15 + 11 by omega,
        show n + 1 - 1 = n by omega, BitVec.ofNat_add]
      generalize BitVec.ofNat 32 (26 * n + 15) = x
      have : (BitVec.ofNat 32 11 : U32) = 11#32 := rfl
      rw [this]
      bv_omega
    rw [envelope, lowsOf, ih q (cursorAfter u p.1 p.2) fun r hr => h r (List.mem_cons_of_mem _ hr),
      show (p :: q :: rest).dropLast = p :: (q :: rest).dropLast from rfl, List.map_cons]
    exact congrArg (List.cons · _) hdiff

end Sys2Proof.Machine.Laws
end

