-- ==== Sys2Proof/Laws/HostPort.lean ====
section
/-! SUPPORT. The moves of HOST: when one is refused, and what is left of one that is not. -/

namespace Sys2Proof.Machine.Laws

/-- A reset is never refused. -/
theorem hostMove_reset (s : State) : hostMove .reset s = .next s.resetAgain := rfl

/-- Everything a move other than a reset can do: refused while an operation is under way, refused after a
fatal error, applied otherwise. -/
theorem hostMove_cases (m : HostMove) (s : State) (hm : m ≠ .reset) :
    (s.underWay = true ∧ hostMove m s = .refused m.whileBusy)
      ∨ (s.underWay = false ∧ s.err.kind ≠ .none ∧ hostMove m s = .refused .invocationOver)
      ∨ (s.underWay = false ∧ s.err.kind = .none ∧ hostMove m s = HostMove.apply s m) := by
  rw [hostMove, if_neg hm]
  cases hu : s.underWay with
  | true => exact .inl ⟨rfl, if_pos rfl⟩
  | false =>
    rw [if_neg Bool.false_ne_true]
    by_cases he : s.err.kind = .none
    · exact .inr (.inr ⟨rfl, he, if_pos he⟩)
    · exact .inr (.inl ⟨rfl, he, if_neg he⟩)

theorem underWay_iff (s : State) : s.underWay = true ↔ s.seq.busy = true ∨ s.cmd ≠ none := by
  rw [State.underWay, Bool.or_eq_true, Option.isSome_iff_ne_none]

end Sys2Proof.Machine.Laws
end

