-- ==== Sys2Proof/Laws/Modes.lean ====
section
/-! SUPPORT. The checks of ranges that every mode makes (spec/46_dispatch.md R111): all that `runMode` can do. -/

namespace Sys2Proof.Machine.Laws

theorem pinOutOfRange_iff (s : State) :
    s.pinOutOfRange = true ↔ ∃ p, s.cfg.pin = some p ∧ s.par.pinCount ≤ p := by
  unfold State.pinOutOfRange State.validPin
  cases s.cfg.pin <;> simp

/-- A mode whose pin is out of range, or else whose capacity is, is a configuration error; any other runs. -/
theorem runMode_cases (tasks : List Task) (s : State) :
    (s.pinOutOfRange = true ∧ runMode tasks s = .next (raise (.configError .pin) s))
    ∨ (s.pinOutOfRange = false ∧ (s.cfg.capacity < 1 ∨ Config.bufCap < s.cfg.capacity)
        ∧ runMode tasks s = .next (raise (.configError .capacity) s))
    ∨ (s.pinOutOfRange = false ∧ 1 ≤ s.cfg.capacity ∧ s.cfg.capacity ≤ Config.bufCap
        ∧ runMode tasks s = runTasks tasks s) := by
  unfold runMode
  by_cases hp : s.pinOutOfRange = true
  · exact .inl ⟨hp, if_pos hp⟩
  · have hp' : s.pinOutOfRange = false := by simpa using hp
    rw [if_neg hp]
    by_cases hc : s.cfg.capacity < 1 ∨ Config.bufCap < s.cfg.capacity
    · exact .inr (.inl ⟨hp', hc, if_pos hc⟩)
    · exact .inr (.inr ⟨hp', by omega, by omega, if_neg hc⟩)

/-- With a pin that is absent or valid and a capacity in range a mode runs its operations. -/
theorem runMode_of_ranges {tasks : List Task} {s : State}
    (hp : ∀ p, s.cfg.pin = some p → p < s.par.pinCount) (h1 : 1 ≤ s.cfg.capacity)
    (h2 : s.cfg.capacity ≤ Config.bufCap) : runMode tasks s = runTasks tasks s := by
  rcases runMode_cases tasks s with ⟨h, -⟩ | ⟨-, h, -⟩ | ⟨-, -, -, h⟩
  · obtain ⟨p, hs, hge⟩ := (pinOutOfRange_iff s).1 h
    exact absurd (hp p hs) (Nat.not_lt.2 hge)
  · omega
  · exact h

end Sys2Proof.Machine.Laws
end

