-- ==== Sys2Proof/Laws/PerInstr.lean ====
section
/-! SUPPORT. One lemma per command: its word is well-formed and carries its operation code and its flags. -/

namespace Sys2Proof.Laws.EncodedWord

/-- The word of a command has bits 15:12 clear and the operation's code in bits 4:0 (R61, R62), so that it is
well-formed (R64), and its bits 11:5 are the command's flags. -/
def Statement (i : Instr) : Prop :=
  CmdWord.wellFormed (encode i) = true ∧ CmdWord.opField (encode i) = i.op.code
    ∧ flagsOf (encode i) = i.flags

/-- The same of an operation and a flag field: 22 codes and 128 flag fields. -/
theorem statement_withFlags (op : Op) (f : CmdFlags) : Statement (op.withFlags f) := by
  obtain ⟨a, b, c, d, e, g, h⟩ := f
  revert a b c d e g h
  cases op <;> (unfold Statement; decide)

theorem configurePin (f : CmdFlags) : Statement (.configurePin f) := statement_withFlags .configurePin f

theorem readPin (f : CmdFlags) : Statement (.readPin f) := statement_withFlags .readPin f

theorem writePin (f : CmdFlags) : Statement (.writePin f) := statement_withFlags .writePin f

theorem nowMicros (f : CmdFlags) : Statement (.nowMicros f) := statement_withFlags .nowMicros f

theorem raisePriority (f : CmdFlags) : Statement (.raisePriority f) := statement_withFlags .raisePriority f

theorem restorePriority (f : CmdFlags) : Statement (.restorePriority f) := statement_withFlags .restorePriority f

theorem avoidClockWrap (f : CmdFlags) : Statement (.avoidClockWrap f) := statement_withFlags .avoidClockWrap f

theorem compact (f : CmdFlags) : Statement (.compact f) := statement_withFlags .compact f

theorem traceWrite (f : CmdFlags) : Statement (.traceWrite f) := statement_withFlags .traceWrite f

theorem traceRead (f : CmdFlags) : Statement (.traceRead f) := statement_withFlags .traceRead f

theorem sample (f : CmdFlags) : Statement (.sample f) := statement_withFlags .sample f

theorem transmit (f : CmdFlags) : Statement (.transmit f) := statement_withFlags .transmit f

theorem flatten (f : CmdFlags) : Statement (.flatten f) := statement_withFlags .flatten f

theorem extractBits (f : CmdFlags) : Statement (.extractBits f) := statement_withFlags .extractBits f

theorem checksum (f : CmdFlags) : Statement (.checksum f) := statement_withFlags .checksum f

theorem decode (f : CmdFlags) : Statement (.decode f) := statement_withFlags .decode f

theorem hexParse (f : CmdFlags) : Statement (.hexParse f) := statement_withFlags .hexParse f

theorem burst (f : CmdFlags) : Statement (.burst f) := statement_withFlags .burst f

theorem encode (f : CmdFlags) : Statement (.encode f) := statement_withFlags .encode f

theorem modeSample (f : CmdFlags) : Statement (.modeSample f) := statement_withFlags .modeSample f

theorem modeSendHex (f : CmdFlags) : Statement (.modeSendHex f) := statement_withFlags .modeSendHex f

theorem modeReplayFile (f : CmdFlags) : Statement (.modeReplayFile f) := statement_withFlags .modeReplayFile f

end Sys2Proof.Laws.EncodedWord
end

