-- ==== Sys2Proof/Laws/Sampler.lean ====
section
/-! SUPPORT. The sampler's steps in closed form: what the capture loop stores, when the trigger poll ends,
where the trim cuts. -/

namespace Sys2Proof.Machine.Laws

theorem levelReading_after {s t : State} (j : Nat) (he : t.env.level = s.env.level.skip j) (k : Nat) :
    t.levelReading k = s.levelReading (j + k) := by
  simp only [State.levelReading, he, tape_answer_skip]

/-- The state after `k + 1` passes that read the clock and then the pin (R83, R84). -/
def polled (s : State) (k : Nat) : State :=
  { s with
    clk := s.clockReading k
    lastClk := some (s.clockReading k)
    env := { s.env with clock := s.env.clock.skip (k + 1), level := s.env.level.skip (k + 1) } }

theorem polled_clock (s : State) (j k : Nat) :
    (polled s j).clockReading k = s.clockReading (j + 1 + k) :=
  clockReading_after j rfl rfl k

theorem polled_level (s : State) (j k : Nat) :
    (polled s j).levelReading k = s.levelReading (j + 1 + k) :=
  levelReading_after (j + 1) rfl k

theorem polled_polled (s : State) (j k : Nat) : polled (polled s j) k = polled s (j + 1 + k) := by
  have h : polled (polled s j) k = { s with
      clk := (polled s j).clockReading k
      lastClk := some ((polled s j).clockReading k)
      env := { s.env with
        clock := (s.env.clock.skip (j + 1)).skip (k + 1)
        level := (s.env.level.skip (j + 1)).skip (k + 1) } } := rfl
  rw [h, polled_clock, tape_skip_skip, tape_skip_skip]
  rfl

/-- One pass of the capture loop or of the trigger poll. -/
theorem readPin_readClock {pin : Nat} {s : State} (hv : pin < s.par.pinCount)
    (hd : (s.pinAt pin).dir = .input) :
    readPin pin s.readClock = .done (s.levelReading 0) (polled s 0) := by
  rcases readPin_cases pin s.readClock with ⟨-, -, h⟩ | ⟨hn, -⟩
  · rw [h, readClock_eq]; rfl
  · refine absurd ⟨?_, ?_⟩ hn
    · rw [readClock_eq]; exact hv
    · rw [readClock_eq]; exact hd

/-! ### The capture loop -/

theorem capturedFrom_succ (s : State) (c l n : Nat) :
    s.capturedFrom c l (n + 1) =
      { t := s.clockReading c, v := s.levelReading l } :: s.capturedFrom (c + 1) (l + 1) n := by
  simp only [State.capturedFrom, List.range_succ_eq_map, List.map_cons, List.map_map, Nat.add_zero,
    List.cons.injEq, true_and]
  refine List.map_congr_left fun k _ => ?_
  simp only [Function.comp_apply, Nat.succ_eq_add_one]
  rw [Nat.add_assoc, Nat.add_comm 1 k, Nat.add_assoc, Nat.add_comm 1 k]

theorem capturedFrom_length (s : State) (c l n : Nat) : (s.capturedFrom c l n).length = n := by
  simp [State.capturedFrom]

/-- The coming readings seen from a state that has read the clock `i + 1` times and the pin `j` times more. -/
theorem capturedFrom_after {s t : State} {i j : Nat} (hc : t.clk = s.clockReading i)
    (he : t.env.clock = s.env.clock.skip (i + 1)) (hl : t.env.level = s.env.level.skip j)
    (c l n : Nat) : t.capturedFrom c l n = s.capturedFrom (i + 1 + c) (j + l) n := by
  simp only [State.capturedFrom, clockReading_after i hc he, levelReading_after j hl, Nat.add_assoc]

/-- The capture loop (R84): `n + 1` pairs of the coming readings are appended to `RAW`. -/
theorem capture_eq (pin n : Nat) (s : State) (hv : pin < s.par.pinCount)
    (hd : (s.pinAt pin).dir = .input) (hcap : s.mem.raw.length + (n + 1) ≤ Config.bufCap) :
    capture pin (n + 1) s = .done () { polled s n with
      mem := { s.mem with raw := s.mem.raw ++ s.capturedFrom 0 0 (n + 1) }
      wr := { s.wr with k := s.mem.raw.length + (n + 1) } } := by
  induction n generalizing s with
  | zero =>
    rw [capture, readPin_readClock hv hd, andThen_of_done]
    rcases storeRaw_cases { t := s.readClock.clk, v := s.levelReading 0 } (polled s 0) with ⟨-, h⟩ | ⟨hge, -⟩
    · rw [h, readClock_clk]; rfl
    · exact absurd hge (by show ¬ Config.bufCap ≤ s.mem.raw.length; omega)
  | succ n ih =>
    rw [capture, readPin_readClock hv hd, andThen_of_done]
    rcases storeRaw_cases { t := s.readClock.clk, v := s.levelReading 0 } (polled s 0) with ⟨-, h⟩ | ⟨hge, -⟩
    · have hone : ∀ (m : Memory) (w : Work), polled { polled s 0 with mem := m, wr := w } n =
          { polled s (n + 1) with mem := m, wr := w } := by
        intro m w
        have hr := clockReading_after (s := s) (t := { polled s 0 with mem := m, wr := w }) 0 rfl rfl n
        have h1 : polled { polled s 0 with mem := m, wr := w } n = { s with
            mem := m
            wr := w
            clk := State.clockReading { polled s 0 with mem := m, wr := w } n
            lastClk := some (State.clockReading { polled s 0 with mem := m, wr := w } n)
            env := { s.env with
              clock := (s.env.clock.skip 1).skip (n + 1)
              level := (s.env.level.skip 1).skip (n + 1) } } := rfl
        rw [h1, hr, tape_skip_skip, tape_skip_skip, Nat.zero_add, Nat.add_comm 1 n,
          Nat.add_comm 1 (n + 1)]
        rfl
      have hc : ∀ (m : Memory) (w : Work) (c : Nat),
          State.capturedFrom { polled s 0 with mem := m, wr := w } 0 0 c = s.capturedFrom 1 1 c :=
        fun m w c => capturedFrom_after (s := s) rfl rfl rfl 0 0 c
      rw [h, readClock_clk, andThen_of_done]
      refine (ih { polled s 0 with
          mem := { s.mem with raw := s.mem.raw ++ [{ t := s.clockReading 0, v := s.levelReading 0 }] }
          wr := { s.wr with k := s.mem.raw.length + 1 } } hv hd ?_).trans ?_
      · show (s.mem.raw ++ [_]).length + (n + 1) ≤ _
        rw [List.length_append, List.length_singleton]; omega
      · rw [hone, hc, capturedFrom_succ s 0 0 (n + 1)]
        simp only [List.append_assoc, List.length_append, List.length_singleton,
          List.singleton_append, Nat.zero_add, Nat.add_assoc, Nat.add_comm 1 (n + 1), Nat.reduceAdd]
    · exact absurd hge (by show ¬ Config.bufCap ≤ s.mem.raw.length; omega)

/-! ### The trigger poll -/

/-- The trigger poll that sees a level other than `L0` at its read number `j` (R83). -/
theorem pollPin_some (pin fuel j : Nat) (s : State) (hv : pin < s.par.pinCount)
    (hd : (s.pinAt pin).dir = .input) (hj : j < fuel)
    (hsame : ∀ i < j, s.levelReading i = s.wr.l0) (hne : s.levelReading j ≠ s.wr.l0) :
    pollPin pin fuel s =
      .done (some { t := s.clockReading j, v := s.levelReading j }) (polled s j) := by
  induction fuel generalizing s j with
  | zero => omega
  | succ n ih =>
    rw [pollPin, readPin_readClock hv hd, andThen_of_done]
    cases j with
    | zero => rw [if_neg (show ¬ s.levelReading 0 = (polled s 0).wr.l0 from hne), readClock_clk]
    | succ j =>
      have hl : ∀ k, (polled s 0).levelReading k = s.levelReading (k + 1) :=
        fun k => by rw [polled_level, Nat.add_comm]
      rw [if_pos (show s.levelReading 0 = (polled s 0).wr.l0 from hsame 0 (Nat.succ_pos _)),
        ih j (polled s 0) hv hd (by omega) (fun i hi => by rw [hl]; exact hsame (i + 1) (by omega))
          (by rw [hl]; exact hne),
        hl, polled_clock, polled_polled, Nat.zero_add, Nat.add_comm 1 j]

/-- The trigger poll that sees no change in its `n + 1` reads (R151). -/
theorem pollPin_none (pin n : Nat) (s : State) (hv : pin < s.par.pinCount)
    (hd : (s.pinAt pin).dir = .input) (hsame : ∀ i ≤ n, s.levelReading i = s.wr.l0) :
    pollPin pin (n + 1) s = .done none (polled s n) := by
  induction n generalizing s with
  | zero =>
    rw [pollPin, readPin_readClock hv hd, andThen_of_done,
      if_pos (show s.levelReading 0 = (polled s 0).wr.l0 from hsame 0 (Nat.le_refl 0))]
    rfl
  | succ n ih =>
    have hl : ∀ k, (polled s 0).levelReading k = s.levelReading (k + 1) :=
      fun k => by rw [polled_level, Nat.add_comm]
    rw [pollPin, readPin_readClock hv hd, andThen_of_done,
      if_pos (show s.levelReading 0 = (polled s 0).wr.l0 from hsame 0 (Nat.zero_le _)),
      ih (polled s 0) hv hd (fun i hi => by rw [hl]; exact hsame (i + 1) (by omega)),
      polled_polled, Nat.zero_add, Nat.add_comm 1 n]

/-! ### The trim (R86) -/

/-- From the trim index on every level is the last one, and the sample before it has another level. -/
theorem trimIndex_spec (last : Level) (xs : List Sample) :
    trimIndex last xs ≤ xs.length
      ∧ (∀ j x, trimIndex last xs ≤ j → xs[j]? = some x → x.v = last)
      ∧ (∀ x, 0 < trimIndex last xs → xs[trimIndex last xs - 1]? = some x → x.v ≠ last) := by
  have key : ∀ ys : List Sample, ∀ L, L = (ys.dropWhile fun x => x.v == last).length →
      L ≤ ys.length ∧ (∀ j x, L ≤ j → ys.reverse[j]? = some x → x.v = last)
        ∧ (∀ x, 0 < L → ys.reverse[L - 1]? = some x → x.v ≠ last) := by
    intro ys
    induction ys with
    | nil => intro L hL; subst hL; simp
    | cons y ys ih =>
      intro L hL
      by_cases hy : y.v = last
      · have hd : (y :: ys).dropWhile (fun x => x.v == last) = ys.dropWhile fun x => x.v == last := by
          simp [hy]
        rw [hd] at hL
        obtain ⟨h1, h2, h3⟩ := ih L hL
        refine ⟨Nat.le_succ_of_le h1, ?_, ?_⟩
        · intro j x hj hx
          rw [List.reverse_cons] at hx
          by_cases hlt : j < ys.length
          · rw [List.getElem?_append_left (by simpa using hlt)] at hx
            exact h2 j x hj hx
          · rw [List.getElem?_append_right (by simpa using hlt)] at hx
            have : j - ys.reverse.length = 0 := by
              by_contra hc
              rw [List.getElem?_eq_none (by simpa using Nat.one_le_iff_ne_zero.2 hc)] at hx
              cases hx
            rw [this] at hx
            simp only [List.getElem?_cons_zero, Option.some.injEq] at hx
            rw [← hx]; exact hy
        · intro x hL0 hx
          rw [List.reverse_cons, List.getElem?_append_left (by simp; omega)] at hx
          exact h3 x hL0 hx
      · have hd : (y :: ys).dropWhile (fun x => x.v == last) = y :: ys := by
          simp [hy]
        rw [hd] at hL
        subst hL
        refine ⟨Nat.le_refl _, ?_, ?_⟩
        · intro j x hj hx
          rw [List.getElem?_eq_none (by simpa using hj)] at hx
          cases hx
        · intro x _ hx
          rw [List.reverse_cons, List.getElem?_append_right (by simp)] at hx
          simp at hx
          rw [← hx]; exact hy
  have := key xs.reverse (trimIndex last xs) rfl
  simpa using this

/-- Steps 5a to 7 of a capture whose clock has not wrapped (R85, R86, R87). -/
theorem trimAndRebase_eq {s : State} {first last : Sample} (hf : s.mem.raw.head? = some first)
    (hl : s.mem.raw.getLast? = some last) (hle : first.t.toNat ≤ last.t.toNat)
    (hcap : s.mem.raw.length ≤ Config.bufCap) :
    trimAndRebase s = .done () { s with
      mem := { s.mem with tr := trimmed s.mem.raw }
      wr := { s.wr with l := trimIndex last.v s.mem.raw, t0 := first.t } } := by
  have hne : s.mem.raw ≠ [] := by rintro h; rw [h] at hf; cases hf
  have hlen : 0 < s.mem.raw.length := List.length_pos_of_ne_nil hne
  have hlast : levelAt s.mem.raw (s.mem.raw.length - 1) = last.v := by
    rw [List.getLast?_eq_getElem?] at hl
    simp [levelAt, hl]
  have hfirst : timeAt s.mem.raw 0 = first.t := by
    rw [List.head?_eq_getElem?] at hf
    simp [timeAt, hf]
  have htrim : trimIndex last.v s.mem.raw + 1 ≤ Config.trCap := by
    obtain ⟨h1, -, h3⟩ := trimIndex_spec last.v s.mem.raw
    by_contra hc
    have he : trimIndex last.v s.mem.raw = s.mem.raw.length := by
      simp only [Config.trCap] at hc; omega
    rw [he] at h3
    rw [List.getLast?_eq_getElem?] at hl
    exact h3 last hlen hl rfl
  unfold trimAndRebase
  rw [hf, hl]
  simp only
  rw [if_neg (Nat.not_lt.2 hle), if_neg (Nat.not_lt.2 htrim)]
  simp only [trimmed, hlast, hfirst, rebase]
  rfl

end Sys2Proof.Machine.Laws
end

