-- ==== Sys2Proof/Laws/Transmitter.lean ====
section
/-! SUPPORT. The emission loop of the transmitter in closed form: what it writes when each of its waits ends
within the coming answers of the clock. -/

namespace Sys2Proof.Machine.Laws

/-! ### The waits (R94) -/

/-- The waits seen from a state that has read the clock `c` times more. -/
theorem waitsEnd_after {s t : State} {extra c : Nat} (hs : t.env.clock.script = s.env.clock.script.drop c)
    (hr : ∀ k, t.clockReading k = s.clockReading (c + k)) (xs : List Sample) (j : Nat) (ds : List Nat)
    (h : s.waitsEnd extra (c + j) xs ds) :
    ∃ es, ds = es.map (c + ·) ∧ t.waitsEnd extra j xs es := by
  induction xs generalizing j ds with
  | nil =>
    cases ds with
    | nil => exact ⟨[], rfl, trivial⟩
    | cons d ds => exact h.elim
  | cons x xs ih =>
    cases ds with
    | nil => exact h.elim
    | cons d ds =>
      obtain ⟨h1, h2, h3, h4, h5⟩ := h
      obtain ⟨e, rfl⟩ : ∃ e, d = c + e := ⟨d - c, by omega⟩
      obtain ⟨es, rfl, hes⟩ := ih (e + 1 + extra) ds (by
        rw [show c + (e + 1 + extra) = c + e + 1 + extra by omega]; exact h5)
      refine ⟨e :: es, rfl, by omega, ?_, fun k hk1 hk2 => ?_, ?_, hes⟩
      · rw [hs, List.length_drop]; omega
      · rw [hr]; exact h3 (c + k) (by omega) (by omega)
      · rw [hr]; exact h4

/-- As many waits as edges. -/
theorem waitsEnd_length {s : State} {extra : Nat} (xs : List Sample) (j : Nat) (ds : List Nat)
    (h : s.waitsEnd extra j xs ds) : ds.length = xs.length := by
  induction xs generalizing j ds with
  | nil =>
    cases ds with
    | nil => rfl
    | cons d ds => exact h.elim
  | cons x xs ih =>
    cases ds with
    | nil => exact h.elim
    | cons d ds => exact congrArg (· + 1) (ih _ ds h.2.2.2.2)

/-- One edge of the loop (R94): the wait that ends at its read number `d`. -/
theorem emit_cons {pin i d : Nat} {stats : Bool} {x : Sample} {xs : List Sample} {s : State}
    (hd : d ≤ s.env.clock.script.length) (hbefore : ∀ k < d, (s.clockReading k).toNat < x.t.toNat)
    (hdue : x.t.toNat ≤ (s.clockReading d).toNat) :
    emit pin stats i (x :: xs) s =
      (emitEdge pin stats x.v { s with
        clk := s.clockReading d
        lastClk := some (s.clockReading d)
        env := { s.env with clock := s.env.clock.skip (d + 1) }
        wr := { s.wr with i := i, now := s.clockReading d } }).andThen
        fun _ s2 => emit pin stats (i + 1) xs s2 := by
  obtain ⟨s0, hs0⟩ : ∃ s0 : State, s0 = s.setWork { s.wr with i := i } := ⟨_, rfl⟩
  have hread : ∀ k, s0.clockReading k = s.clockReading k :=
    fun k => clockReading_of_clock (by rw [hs0]; rfl) (by rw [hs0]; rfl) k
  have hpoll : pollClock (isDue x.t) s.clockPolls s0 = (true, State.readNow^[d + 1] s0) :=
    pollClock_due (Nat.lt_succ_of_le hd)
      (fun k hk => by rw [hread]; simpa [isDue] using hbefore k hk)
      (by rw [hread]; simpa [isDue] using hdue)
  rw [emit, ← hs0, hpoll, iterate_readNow]
  simp only [hread]
  subst hs0
  rfl

/-- The pin writes of edges that went out at the readings `ds`. -/
def writesAt (s : State) (pin : Nat) (xs : List Sample) (ds : List Nat) : List PinWrite :=
  (xs.zip ds).map fun p => { pin := pin, level := p.1.v, clock := some (s.clockReading p.2) }

theorem writesAt_cons (s : State) (pin d : Nat) (x : Sample) (xs : List Sample) (ds : List Nat) :
    writesAt s pin (x :: xs) (d :: ds) =
      { pin := pin, level := x.v, clock := some (s.clockReading d) } :: writesAt s pin xs ds := rfl

theorem writesAt_after {s t : State} {c : Nat} (hr : ∀ k, t.clockReading k = s.clockReading (c + k))
    (pin : Nat) (xs : List Sample) (es : List Nat) :
    writesAt t pin xs es = writesAt s pin xs (es.map (c + ·)) := by
  simp only [writesAt, List.zip_map_right, List.map_map, hr]
  rfl

/-- The loop without statistics (R94): each edge is written at the read that ends its wait. -/
theorem emit_writes (pin : Nat) (xs : List Sample) (i : Nat) (s : State) (ds : List Nat)
    (hv : pin < s.par.pinCount) (hdir : (s.pinAt pin).dir = .output) (h : s.waitsEnd 0 0 xs ds) :
    ∃ t, emit pin false i xs s = .done () t
      ∧ t = { s with
          clk := t.clk, lastClk := t.lastClk, pins := t.pins
          env := { s.env with clock := t.env.clock }
          wr := { s.wr with i := t.wr.i, now := t.wr.now }
          wlog := s.wlog ++ writesAt s pin xs ds }
      ∧ (xs = [] → t = s)
      ∧ (xs ≠ [] → t.clk = s.clockReading (ds.getLastD 0)
          ∧ t.lastClk = some (s.clockReading (ds.getLastD 0))
          ∧ t.env.clock = s.env.clock.skip (ds.getLastD 0 + 1))
      ∧ t.pinAt pin =
          { s.pinAt pin with out := (xs.getLast?.map (·.v)).getD (s.pinAt pin).out }
      ∧ ∀ q, q ≠ pin → t.pinAt q = s.pinAt q := by
  induction xs generalizing i s ds with
  | nil =>
    cases ds with
    | nil => exact ⟨s, rfl, by simp [writesAt], fun _ => rfl, fun hn => absurd rfl hn, rfl, fun _ _ => rfl⟩
    | cons d ds => exact h.elim
  | cons x xs ih =>
    cases ds with
    | nil => exact h.elim
    | cons d ds =>
      obtain ⟨-, hd, hbefore, hdue, hrest⟩ := h
      rw [emit_cons hd (fun k hk => hbefore k (Nat.zero_le k) hk) hdue]
      obtain ⟨s1, hs1⟩ : ∃ s1 : State, s1 = { s with
        clk := s.clockReading d
        lastClk := some (s.clockReading d)
        env := { s.env with clock := s.env.clock.skip (d + 1) }
        wr := { s.wr with i := i, now := s.clockReading d } } := ⟨_, rfl⟩
      rw [← hs1]
      have hpin1 : ∀ q, s1.pinAt q = s.pinAt q := fun q => by rw [hs1]; rfl
      simp only [emitEdge, Bool.false_eq_true, if_false]
      rcases writePin_cases pin x.v s1 with ⟨-, -, hw⟩ | ⟨hn, -⟩
      swap
      · exact absurd ⟨by rw [hs1]; exact hv, by rw [hpin1]; exact hdir⟩ hn
      rw [hw, andThen_of_done]
      obtain ⟨s2, hs2⟩ : ∃ s2 : State, s2 = { s1.setPin pin { s1.pinAt pin with out := x.v } with
        wlog := s1.wlog ++ [{ pin := pin, level := x.v, clock := s1.lastClk }] } := ⟨_, rfl⟩
      rw [← hs2]
      have hpin2 : ∀ q, s2.pinAt q = if q = pin then { s.pinAt pin with out := x.v } else s.pinAt q := by
        intro q
        have : s2.pinAt q = (s1.setPin pin { s1.pinAt pin with out := x.v }).pinAt q := by rw [hs2]; rfl
        rw [this, setPin_pinAt, hpin1, hpin1]
      have hread : ∀ k, s2.clockReading k = s.clockReading (d + 1 + k) :=
        clockReading_after d (by rw [hs2, hs1]; rfl) (by rw [hs2, hs1]; rfl)
      obtain ⟨es, rfl, hes⟩ := waitsEnd_after (s := s) (t := s2) (c := d + 1)
        (by rw [hs2, hs1]; rfl) hread xs 0 ds hrest
      obtain ⟨t, ht, hteq, htnil, htcons, htpin, htother⟩ := ih (i + 1) s2 es
        (by rw [hs2, hs1]; exact hv) (by rw [hpin2, if_pos rfl]; exact hdir) hes
      refine ⟨t, ht, ?_, fun hc => absurd hc (by simp), fun _ => ?_, ?_, fun q hq => ?_⟩
      · refine hteq.trans ?_
        rw [writesAt_after hread, writesAt_cons]
        simp only [hs2, hs1, State.setPin, List.append_assoc, List.singleton_append]
      · cases xs with
        | nil =>
          have hes0 : es = [] := by
            cases es with
            | nil => rfl
            | cons e es => exact hes.elim
          rw [htnil rfl, hs2, hs1, hes0]
          exact ⟨rfl, rfl, rfl⟩
        | cons y ys =>
          obtain ⟨hc, hl, he⟩ := htcons (by simp)
          have hlast : ((d :: es.map (d + 1 + ·)).getLastD 0) = d + 1 + es.getLastD 0 := by
            cases es with
            | nil => exact hes.elim
            | cons e es => simp [List.getLastD_eq_getLast?, List.getLast?_map, List.getLast?_cons]
          rw [hlast, hc, hl, he, hread]
          refine ⟨rfl, rfl, ?_⟩
          rw [hs2, hs1]
          exact (tape_skip_skip _ _ _).trans (by simp only [Nat.add_assoc])
      · rw [htpin, hpin2, if_pos rfl]
        cases xs with
        | nil => rfl
        | cons y ys => simp [List.getLast?_cons]
      · rw [htother q hq, hpin2, if_neg hq]

/-- The loop with statistics (R94): one more read follows each wait, is stored in `OBS` and logged. -/
theorem emit_observes (pin : Nat) (xs : List Sample) (i : Nat) (s : State) (ds : List Nat)
    (hv : pin < s.par.pinCount) (hdir : (s.pinAt pin).dir = .output)
    (hcap : s.mem.obs.length + xs.length ≤ Config.trCap) (h : s.waitsEnd 1 0 xs ds) :
    ∃ t, emit pin true i xs s = .done () t
      ∧ t = { s with
          clk := t.clk, lastClk := t.lastClk, pins := t.pins
          env := { s.env with clock := t.env.clock }
          wr := { s.wr with i := t.wr.i, now := t.wr.now }
          mem := { s.mem with obs := s.mem.obs ++ ds.map fun d => s.clockReading (d + 1) }
          wlog := s.wlog ++ writesAt s pin xs (ds.map (· + 1)) }
      ∧ ∀ q, q ≠ pin → t.pinAt q = s.pinAt q := by
  induction xs generalizing i s ds with
  | nil =>
    cases ds with
    | nil => exact ⟨s, rfl, by simp [writesAt], fun _ _ => rfl⟩
    | cons d ds => exact h.elim
  | cons x xs ih =>
    cases ds with
    | nil => exact h.elim
    | cons d ds =>
      obtain ⟨-, hd, hbefore, hdue, hrest⟩ := h
      rw [List.length_cons] at hcap
      rw [emit_cons hd (fun k hk => hbefore k (Nat.zero_le k) hk) hdue]
      obtain ⟨s0, hs0⟩ : ∃ s0 : State, s0 = { s with
        clk := s.clockReading d
        lastClk := some (s.clockReading d)
        env := { s.env with clock := s.env.clock.skip (d + 1) }
        wr := { s.wr with i := i, now := s.clockReading d } } := ⟨_, rfl⟩
      rw [← hs0]
      have hread0 : ∀ k, s0.clockReading k = s.clockReading (d + 1 + k) :=
        clockReading_after d (by rw [hs0]) (by rw [hs0])
      simp only [emitEdge, if_true]
      rcases storeObs_cases s0.readClock.clk s0.readClock with ⟨-, hw⟩ | ⟨hge, -⟩
      swap
      · exact absurd hge (by rw [readClock_eq, hs0]; show ¬ Config.trCap ≤ s.mem.obs.length; omega)
      rw [hw, andThen_of_done]
      obtain ⟨s1, hs1⟩ : ∃ s1 : State, s1 = { s0.readClock with
        mem := { s0.readClock.mem with obs := s0.readClock.mem.obs ++ [s0.readClock.clk] } } := ⟨_, rfl⟩
      rw [← hs1]
      rw [readClock_eq, hread0, Nat.add_zero] at hs1
      have hpin1 : ∀ q, s1.pinAt q = s.pinAt q := fun q => by rw [hs1, hs0]; rfl
      rcases writePin_cases pin x.v s1 with ⟨-, -, hw⟩ | ⟨hn, -⟩
      swap
      · exact absurd ⟨by rw [hs1, hs0]; exact hv, by rw [hpin1]; exact hdir⟩ hn
      rw [hw, andThen_of_done]
      obtain ⟨s2, hs2⟩ : ∃ s2 : State, s2 = { s1.setPin pin { s1.pinAt pin with out := x.v } with
        wlog := s1.wlog ++ [{ pin := pin, level := x.v, clock := s1.lastClk }] } := ⟨_, rfl⟩
      rw [← hs2]
      have hpin2 : ∀ q, s2.pinAt q = if q = pin then { s.pinAt pin with out := x.v } else s.pinAt q := by
        intro q
        have : s2.pinAt q = (s1.setPin pin { s1.pinAt pin with out := x.v }).pinAt q := by rw [hs2]; rfl
        rw [this, setPin_pinAt, hpin1, hpin1]
      have hclk : s2.env.clock = s.env.clock.skip (d + 1 + 1) := by
        rw [hs2, hs1, hs0]; exact tape_skip_skip _ _ _
      have hread : ∀ k, s2.clockReading k = s.clockReading (d + 1 + 1 + k) :=
        clockReading_after (d + 1) (by rw [hs2, hs1]; rfl) hclk
      obtain ⟨es, rfl, hes⟩ := waitsEnd_after (s := s) (t := s2) (c := d + 1 + 1)
        (by rw [hclk]; rfl) hread xs 0 ds hrest
      obtain ⟨t, ht, hteq, htother⟩ := ih (i + 1) s2 es
        (by rw [hs2, hs1, hs0]; exact hv) (by rw [hpin2, if_pos rfl]; exact hdir)
        (by rw [hs2, hs1, hs0]
            show (s.mem.obs ++ [_]).length + xs.length ≤ _
            rw [List.length_append, List.length_singleton]; omega) hes
      have hmap : (es.map (d + 1 + 1 + ·)).map (· + 1) = (es.map (· + 1)).map (d + 1 + 1 + ·) := by
        rw [List.map_map, List.map_map]; rfl
      refine ⟨t, ht, ?_, fun q hq => by rw [htother q hq, hpin2, if_neg hq]⟩
      refine hteq.trans ?_
      have hobs : (es.map fun e => s2.clockReading (e + 1)) =
          (es.map (d + 1 + 1 + ·)).map fun e => s.clockReading (e + 1) := by
        simp only [hread, List.map_map]; rfl
      rw [writesAt_after hread, List.map_cons, List.map_cons, writesAt_cons, hmap, hobs]
      simp only [hs2, hs1, hs0, State.setPin, List.append_assoc, List.singleton_append]

end Sys2Proof.Machine.Laws
end

