-- ==== Sys2Proof/Tests/Slice0.lean ====
section
/-! SUPPORT. Tests: the command-word checks and the decoder on words written out from spec/30_encoding.md, one or
two steps per operation with the results of spec/95_test_vectors.md, and for every statement with hypotheses a
state and operands that meet them. -/

set_option Elab.async false

namespace Sys2Proof.Tests

open Sys2Proof.Machine

/-! ### Helpers -/

/-- No flag bit set. -/
def noFlags : CmdFlags := ⟨false, false, false, false, false, false, false⟩

/-- All flag bits set. -/
def allFlags : CmdFlags := ⟨true, true, true, true, true, true, true⟩

/-- The parameters of the programs of spec/95_test_vectors.md section 3. -/
def demoPar : Params := ⟨32, 32, 2, none⟩

/-- The state after reset with those parameters, the clock at 0 and every draw true. -/
def demo : State :=
  { State.reset with
    par := demoPar
    clk := 0
    env := { Env.reset with
      pinOk := ⟨[true], 0⟩, writable := ⟨[true], 0⟩, readable := ⟨[true], 0⟩, delay := ⟨[500], 0⟩ } }

/-- The advances that make a clock at `c` read the given values. -/
def advances : Nat → List Nat → List Nat
  | _, [] => []
  | c, r :: rs => (r + 4294967296 - c) % 4294967296 :: advances r rs

/-- The clock, standing at 0, reads these values next. -/
def withReads (rs : List Nat) (s : State) : State :=
  { s with clk := 0, env := { s.env with clock := ⟨advances 0 rs, 0⟩ } }

/-- ENV presents these levels next. -/
def withLevels (ls : List Bool) (s : State) : State := { s with env := { s.env with level := ⟨ls, 0⟩ } }

/-- The next pin configuration is refused by the platform. -/
def pinRefused (s : State) : State := { s with env := { s.env with pinOk := ⟨[false], 0⟩ } }

/-- `START_DELAY` of the next transmission. -/
def withDelay (d : U32) (s : State) : State := { s with env := { s.env with delay := ⟨[d], 0⟩ } }

/-- The operand `pin`. -/
def onPin (p : Nat) (s : State) : State := { s with opnd := { s.opnd with pin := p } }

/-- The operand `N`. -/
def ofCapacity (n : Nat) (s : State) : State := { s with opnd := { s.opnd with capacity := n } }

/-- The operand `m` of the wrap guard. -/
def ofMargin (m : Nat) (s : State) : State := { s with opnd := { s.opnd with margin := m } }

/-- The operand `path`. -/
def onPath (p : Text) (s : State) : State := { s with opnd := { s.opnd with path := p } }

/-- The operand of HEX_PARSE. -/
def ofHex (h : Text) (s : State) : State := { s with opnd := { s.opnd with hex := h } }

/-- A pin already configured. -/
def configured (p : Nat) (d : PinDir) (s : State) : State := s.setPin p ⟨d, .off, false⟩

/-- Samples from pairs. -/
def samples (xs : List (Nat × Bool)) : List Sample := xs.map fun p => ⟨BitVec.ofNat 32 p.1, p.2⟩

/-- Samples of alternating levels, the first 0. -/
def alternating (ts : List Nat) : List Sample :=
  ts.zipIdx.map fun p => ⟨BitVec.ofNat 32 p.1, p.2 % 2 == 1⟩

/-- A trace in `TR`. -/
def withTrace (xs : List Sample) (s : State) : State := s.setTr xs

/-- What a next state shows. -/
def seen {α : Type} (f : State → α) : Host.Outcome State Fault Refusal → Option α
  | .next s => some (f s)
  | _ => none

/-- The trace of a state as numbers. -/
def traceOf (s : State) : List (Nat × Bool) := s.mem.tr.map fun x => (x.t.toNat, x.v)

/-- The pin writes of a state as numbers. -/
def writesOf (s : State) : List (Nat × Bool × Option Nat) :=
  s.wlog.map fun w => (w.pin, w.level, w.clock.map BitVec.toNat)

/-- The header line and its `LF`. -/
def header : Text := [0x5B, 0xC2, 0xB5, 0x73, 0x5D, 0x09, 0x53, 0x61, 0x6D, 0x70, 0x6C, 0x65, 0x0A]

/-! ### Command words (spec/30_encoding.md R61, R62, R64; spec/95_test_vectors.md 2.7) -/

/-- R64: `op` 0 is reserved. -/
theorem test_ill_formed_op_zero : CmdWord.wellFormed 0x0000 = false := by decide +kernel

/-- R64: `op` 0x17 is reserved. -/
theorem test_ill_formed_op_beyond : CmdWord.wellFormed 0x0017 = false := by decide +kernel

/-- R64: bits 15:12 must be 0. -/
theorem test_ill_formed_reserved_bit : CmdWord.wellFormed 0x1004 = false := by decide +kernel

/-- The facade's words: `op` 0x01 to 0x07. -/
theorem test_decode_facade :
    decode 0x0001 = .ok (.configurePin noFlags) ∧ decode 0x0002 = .ok (.readPin noFlags)
    ∧ decode 0x0003 = .ok (.writePin noFlags) ∧ decode 0x0004 = .ok (.nowMicros noFlags)
    ∧ decode 0x0005 = .ok (.raisePriority noFlags) ∧ decode 0x0006 = .ok (.restorePriority noFlags)
    ∧ decode 0x0007 = .ok (.avoidClockWrap noFlags) := by decide +kernel

/-- The trace store's words: `op` 0x08 to 0x0A; bit 9 is `flank`. -/
theorem test_decode_trace_store :
    decode 0x0008 = .ok (.compact noFlags)
    ∧ decode 0x0209 = .ok (.traceWrite ⟨false, false, false, false, true, false, false⟩)
    ∧ decode 0x020A = .ok (.traceRead ⟨false, false, false, false, true, false, false⟩) := by decide +kernel

/-- SAMPLE with `trigger` (bit 5), TRANSMIT with `stats` (bit 6), both with `pin_valid` (bit 11). -/
theorem test_decode_sampler_transmitter :
    decode 0x082B = .ok (.sample ⟨true, false, false, false, false, false, true⟩)
    ∧ decode 0x084C = .ok (.transmit ⟨false, true, false, false, false, false, true⟩) := by decide +kernel

/-- The decoder's and the encoder's words: `op` 0x0D to 0x13. -/
theorem test_decode_codec :
    decode 0x000D = .ok (.flatten noFlags) ∧ decode 0x000E = .ok (.extractBits noFlags)
    ∧ decode 0x000F = .ok (.checksum noFlags) ∧ decode 0x0010 = .ok (.decode noFlags)
    ∧ decode 0x0011 = .ok (.hexParse noFlags) ∧ decode 0x0012 = .ok (.burst noFlags)
    ∧ decode 0x0013 = .ok (.encode noFlags) := by decide +kernel

/-- The modes' words: P3's 0x0894 (bits 7 and 11), P6's 0x0815 (bit 11), P2's 0x08D6 (bits 6, 7 and 11). -/
theorem test_decode_modes :
    decode 0x0894 = .ok (.modeSample ⟨false, false, true, false, false, false, true⟩)
    ∧ decode 0x0815 = .ok (.modeSendHex ⟨false, false, false, false, false, false, true⟩)
    ∧ decode 0x08D6 = .ok (.modeReplayFile ⟨false, true, true, false, false, false, true⟩) := by decide +kernel

/-- Bits 8 (`verbose`) and 10 (`reencode`), and every flag at once. -/
theorem test_decode_flags :
    decode 0x0114 = .ok (.modeSample ⟨false, false, false, true, false, false, false⟩)
    ∧ decode 0x0416 = .ok (.modeReplayFile ⟨false, false, false, false, false, true, false⟩)
    ∧ decode 0x0FF6 = .ok (.modeReplayFile allFlags) := by decide +kernel

/-- The words the decoder rejects, by reason, and the two that stand next to them. -/
theorem test_decode_reserved :
    decode 0x0000 = .reservedOp 0 ∧ decode 0x0017 = .reservedOp 0x17 ∧ decode 0x001F = .reservedOp 0x1F
    ∧ decode 0x1004 = .reservedBits ∧ decode 0x1001 = .reservedBits := by decide +kernel

/-! ### The facade (spec/95_test_vectors.md 2.1) -/

/-- F1: dir and pull are written, the latch is not. -/
theorem test_configure_pin :
    seen (fun s => ((s.pinAt 4).dir, (s.pinAt 4).pull))
      (exec (.configurePin noFlags)
        { onPin 4 demo with opnd := { Operands.reset with pin := 4, dir := .output } }) =
      some (.output, .off) := by decide +kernel

/-- F3: an index of `PIN_COUNT` fails whatever the draw. -/
theorem test_configure_invalid_pin :
    seen (fun s => (s.err.kind, s.err.pin, s.exit, s.pins)) (exec (.configurePin noFlags) (onPin 32 demo)) =
      some (.pinConfigError, some 32, some 3, []) := by decide +kernel

/-- F6: ENV presents 1. -/
theorem test_read_pin :
    seen (fun s => s.ret) (exec (.readPin noFlags) (onPin 17 (configured 17 .input (withLevels [true] demo)))) =
      some (some (.level true)) := by decide +kernel

/-- F5: a read of an output is refused. -/
theorem test_read_output_refused :
    exec (.readPin noFlags) (onPin 4 (configured 4 .output demo)) = .refused (.readOfNonInput 4) := rfl

/-- F4: last clock read 1000. -/
theorem test_write_pin :
    seen (fun s => ((s.pinAt 4).out, writesOf s))
      (exec (.writePin noFlags)
        { configured 4 .output demo with
          opnd := { Operands.reset with pin := 4, level := true }, lastClk := some 1000 }) =
      some (true, [(4, true, some 1000)]) := by decide +kernel

/-- F7: the first of its two reads. -/
theorem test_now_micros :
    seen (fun s => (s.ret, s.clk.toNat)) (exec (.nowMicros noFlags) (withReads [4294967295] demo)) =
      some (some (.micros 0xFFFFFFFF), 4294967295) := by decide +kernel

/-- F8: raised twice, the priority is `realtime`. -/
theorem test_raise_priority :
    seen (fun s => s.prio) (exec (.raisePriority noFlags) { demo with prio := .realtime }) =
      some .realtime := by decide +kernel

/-- F8: one restore gives `normal`. -/
theorem test_restore_priority :
    seen (fun s => s.prio) (exec (.restorePriority noFlags) { demo with prio := .realtime }) =
      some .normal := by decide +kernel

/-- F10: distance 999999 is too small, the read of 0 ends the guard. -/
theorem test_guard_reads_again :
    seen (fun s => (s.clk.toNat, s.env.clock.used, s.seq.busy))
      (exec (.avoidClockWrap noFlags) (ofMargin 1 (withReads [4293967297, 0] demo))) =
      some (0, 2, false) := by decide +kernel

/-- F9: distance 1000000 is enough. -/
theorem test_guard_first_read :
    seen (fun s => (s.clk.toNat, s.env.clock.used, s.seq.busy))
      (exec (.avoidClockWrap noFlags) (ofMargin 1 (withReads [4293967296, 0] demo))) =
      some (4293967296, 1, false) := by decide +kernel

/-! ### The trace store (2.2) -/

/-- T1. -/
theorem test_compact :
    seen traceOf (exec (.compact noFlags)
        (withTrace (samples [(0, false), (3, false), (7, true), (9, true), (12, false)]) demo)) =
      some [(0, false), (7, true), (12, false)] := by decide +kernel

/-- T4: the file of the path `a`, 26 bytes. -/
theorem test_trace_write :
    seen (fun s => s.mem.files) (exec (.traceWrite noFlags)
        (onPath [0x61] (withTrace (samples [(0, false), (3, false), (7, true), (12, false)]) demo))) =
      some [([0x61], header ++ [0x30, 0x09, 0x30, 0x0A, 0x37, 0x09, 0x31, 0x0A,
        0x31, 0x32, 0x09, 0x30, 0x0A])] := by decide +kernel

/-- T5: with `flank` the old level stands at the new time, except before the first sample. -/
theorem test_trace_write_flank :
    seen (fun s => s.mem.files) (exec (.traceWrite { noFlags with flank := true })
        (onPath [0x62] (withTrace (samples [(0, false), (3, false), (7, true), (12, false)]) demo))) =
      some [([0x62], header ++ [0x30, 0x09, 0x30, 0x0A, 0x37, 0x09, 0x30, 0x0A, 0x37, 0x09, 0x31, 0x0A,
        0x31, 0x32, 0x09, 0x31, 0x0A, 0x31, 0x32, 0x09, 0x30, 0x0A])] := by decide +kernel

/-- The file of T10: header, `0` TAB `0`, `700` TAB `1`, `715 0`, `726` TAB `1`. -/
def badFile : Text :=
  header ++ [0x30, 0x09, 0x30, 0x0A, 0x37, 0x30, 0x30, 0x09, 0x31, 0x0A,
    0x37, 0x31, 0x35, 0x20, 0x30, 0x0A, 0x37, 0x32, 0x36, 0x09, 0x31, 0x0A]

/-- T10: the malformed line is line 4, the samples before it stay. -/
theorem test_trace_read_malformed :
    seen (fun s => (s.err.kind, s.err.line, s.exit, traceOf s))
      (exec (.traceRead noFlags) (onPath [0x62] (demo.putFile [0x62] badFile))) =
      some (.ioError, some 4, some 2, [(0, false), (700, true)]) := by decide +kernel

/-- T9: line 1 is not checked, SPACE and CR at the end of a line are removed. -/
theorem test_trace_read_blanks :
    seen traceOf (exec (.traceRead noFlags) (onPath [0x6A]
        (demo.putFile [0x6A] [0x6A, 0x75, 0x6E, 0x6B, 0x0A, 0x35, 0x09, 0x31, 0x20, 0x0D, 0x0A]))) =
      some [(5, true)] := by decide +kernel

/-! ### The sampler (2.3) -/

/-- S1: the samples up to the last edge, re-based. -/
theorem test_sample :
    seen (fun s => (traceOf s, s.wr.l, s.prio))
      (exec (.sample noFlags) (onPin 17 (ofCapacity 8
        (withLevels [false, false, false, true, true, false, false, false, false]
          (withReads [100, 100, 101, 103, 104, 105, 107, 108] demo))))) =
      some ([(0, false), (0, false), (1, true), (3, true), (4, false)], 4, .normal) := by decide +kernel

/-- S2: the first poll that differs from the initial level is `RAW[0]`. -/
theorem test_sample_trigger :
    seen (fun s => (traceOf s, s.wr.l, s.mem.raw.length))
      (exec (.sample { noFlags with trigger := true }) (onPin 17 (ofCapacity 6
        (withLevels [true, true, true, false, false, true, true, false, false]
          (withReads [10, 12, 15, 16, 18, 20, 21, 25] demo))))) =
      some ([(0, false), (1, false), (3, true), (5, true), (6, false)], 4, 6) := by decide +kernel

/-! ### The transmitter (2.4) -/

/-- The trace of X1 to X6. -/
def sentTrace : List Sample := samples [(0, false), (700, true), (715, false)]

/-- X1: each edge is written at the first read that has reached its time. -/
theorem test_transmit :
    seen (fun s => (writesOf s, traceOf s))
      (exec (.transmit noFlags) (onPin 4 (withTrace sentTrace
        (withReads [1000, 1400, 1600, 2150, 2260, 2263] demo)))) =
      some ([(4, false, some 1600), (4, true, some 2260), (4, false, some 2263)],
        [(1500, false), (2200, true), (2215, false)]) := by decide +kernel

/-- X2: the observed values, the late edges, the statistics. -/
theorem test_transmit_statistics :
    seen (fun s => (s.mem.obs.map BitVec.toNat, s.report, s.st.timingAnomaly))
      (exec (.transmit { noFlags with stats := true }) (onPin 4 (withTrace sentTrace
        (withReads [1000, 1400, 1600, 1601, 2150, 2260, 2262, 2263, 2264]
          { demo with par := { demoPar with lateLimit := some 50 } })))) =
      some ([1601, 2262, 2264],
        [.anomaly (.timingAnomaly 0 1500 101), .anomaly (.timingAnomaly 1 2200 62), .stats 101 212 3],
        true) := by decide +kernel

/-! ### The decoder (2.5) -/

/-- D4: the low of 11 is filled, the low of 459 is not. -/
theorem test_flatten :
    seen traceOf (exec (.flatten noFlags)
        (withTrace (alternating [0, 100, 115, 126, 141, 600]) demo)) =
      some [(0, false), (100, true), (115, true), (126, true), (141, false), (600, true)] := by decide +kernel

/-- D2: a low of exactly 200 stays; D1's 199 does not. -/
theorem test_flatten_limit :
    seen (fun s => levelAt s.mem.tr 2)
        (exec (.flatten noFlags) (withTrace (alternating [0, 100, 200, 400, 1000]) demo)) = some false
    ∧ seen (fun s => levelAt s.mem.tr 2)
        (exec (.flatten noFlags) (withTrace (alternating [0, 100, 200, 399, 1000]) demo)) = some true := by
  decide +kernel

/-- D5: the trace of the thresholds for a low of `x`. -/
def thresholdTrace (x : Nat) : List Sample :=
  alternating ([0, 300, 600, 900]
    ++ (List.range 8).flatMap (fun k => [1200 + k * (x + 300), 1200 + k * (x + 300) + x])
    ++ [3600 + 8 * x, 3600 + 8 * x + 5000])

/-- D5: a low of 800 is a 0 bit, of 801 a 1 bit. -/
theorem test_extract_bits :
    seen (fun s => (s.mem.pay, s.wr.lastIndex))
      (exec (.extractBits noFlags) (withTrace (thresholdTrace 800) demo)) = some ([0x00], 20)
    ∧ seen (fun s => (s.mem.pay, s.wr.lastIndex))
      (exec (.extractBits noFlags) (withTrace (thresholdTrace 801) demo)) = some ([0xFF], 20) := by decide +kernel

/-- D6: two bits before the terminator at index 8 are dropped. -/
theorem test_extract_partial_byte :
    seen (fun s => (s.mem.pay, s.wr.nbits, s.wr.lastIndex))
      (exec (.extractBits noFlags)
        (withTrace (alternating [0, 700, 4017, 5716, 6121, 7400, 7805, 8246, 8651, 20016]) demo)) =
      some ([], 2, 8) := by decide +kernel

/-- D9: `0x101` modulo 256 is 1. -/
theorem test_checksum_wraps :
    seen (fun s => s.report) (exec (.checksum noFlags) (demo.setPay [0xFF, 0x02, 0x01])) = some [] := by decide +kernel

/-- D10. -/
theorem test_checksum_mismatch :
    seen (fun s => (s.report, s.st.checksumMismatch))
      (exec (.checksum noFlags) (demo.setPay [0xFF, 0x02, 0x02])) =
      some ([.anomaly (.checksumMismatch 0 (some (0x01, 0x02)))], true) := by decide +kernel

/-- D14: the lower edge of the window, 40 <= 40. -/
theorem test_decode_window :
    seen (fun s => (s.report, s.mem.pay, s.mem.pay2))
      (exec (.decode noFlags)
        (withTrace (alternating [0, 300, 600, 900, 1200, 4000, 4300, 4600, 4900, 5200]) demo)) =
      some ([.anomaly (.checksumMismatch 0 none), .anomaly (.checksumMismatch 1 none)], [], []) := by decide +kernel

/-- D20: the envelope of `06 06`, without a second half-frame. -/
theorem test_decode_payload :
    seen (fun s => (s.report, s.mem.pay, s.mem.pay2, s.wr.lastIndex))
      (exec (.decode noFlags)
        (withTrace (alternating [0, 700, 4017, 5716, 6121, 6562, 6967, 8246, 8651, 9930, 10335, 10776, 11181,
          11622, 12027, 12468, 12873, 13314, 13719, 14160, 14565, 15006, 15411, 16690, 17095, 18374, 18779,
          19220, 19625, 20066, 20471, 20912, 21317, 21758, 22163, 22604, 23009]) demo)) =
      some ([], [0x06, 0x06], [], 0) := by decide +kernel

/-! ### The encoder (2.6) -/

/-- E0a: `a5A5`. -/
theorem test_hex_parse :
    seen (fun s => s.mem.pay) (exec (.hexParse noFlags) (ofHex [0x61, 0x35, 0x41, 0x35] demo)) =
      some [0xA5, 0xA5] := by decide +kernel

/-- `0G` is a configuration error. -/
theorem test_hex_parse_rejects :
    seen (fun s => (s.err.kind, s.err.option, s.exit, s.mem.pay))
      (exec (.hexParse noFlags) (ofHex [0x30, 0x47] demo)) =
      some (.configError, some .hexPayload, some 1, []) := by decide +kernel

/-- E1: from cursor 0 with a space of 100, `M = 52` is two cycles. -/
theorem test_burst :
    seen (fun s => (traceOf s, s.wr.tcur.toNat))
      (exec (.burst noFlags) ({ demo with opnd := { Operands.reset with mark := 52, space := 100 } }.setCursor 0)) =
      some ([(0, true), (15, false), (26, true), (41, false)], 152) := by decide +kernel

/-- E1: `M = 25` is none. -/
theorem test_burst_none :
    seen (fun s => (traceOf s, s.wr.tcur.toNat))
      (exec (.burst noFlags) ({ demo with opnd := { Operands.reset with mark := 25, space := 100 } }.setCursor 0)) =
      some ([], 100) := by decide +kernel

/-- E2: the payload `01`: 1089 samples, the last at 38119, the cursor's end, the opening samples. -/
theorem test_encode :
    seen (fun s => (s.mem.tr.length, s.mem.tr.getLast?, s.wr.tcur, (traceOf s).take 4))
      (exec (.encode noFlags) (demo.setPay [0x01])) =
      some (1089, some ⟨38119, false⟩, 49484, [(0, false), (700, true), (715, false), (726, true)]) := by
  decide +kernel

/-! ### The modes (section 3) -/

/-- P3: sample, write, decode. -/
theorem test_mode_sample :
    seen (fun s => (s.report, s.exit, s.mem.files))
      (step (State.writeCommand 0x0894
        (withLevels [false, false, false, true, true, false, false, true, true, false, false, false, false]
          (withReads [4000, 5000, 5000, 5003, 5004, 5009, 5010, 5011, 5015, 5016, 5017, 5019, 5020]
            { demo with cfg := { Cfg.reset with
                mode := some .sample, pin := some 17, capacity := 12, outputTracePath := some [0x63] } })))) =
      some ([.anomaly (.checksumMismatch 0 none), .decoded []], some 0,
        [([0x63], header ++ [0x30, 0x09, 0x30, 0x0A, 0x33, 0x09, 0x31, 0x0A, 0x39, 0x09, 0x30, 0x0A,
          0x31, 0x31, 0x09, 0x31, 0x0A, 0x31, 0x36, 0x09, 0x30, 0x0A])]) := by decide +kernel

/-- P5: `pin_valid` = 0 is the absence of the pin. -/
theorem test_mode_sample_without_pin :
    seen (fun s => (s.err.option, s.exit, s.pins, s.env.clock.used))
      (step (State.writeCommand 0x0014
        { demo with cfg := { Cfg.reset with mode := some .sample, pin := some 17 } })) =
      some (some .pin, some 1, [], 0) := by decide +kernel

/-- P6: refused at the wrap, the pin not configured. -/
theorem test_mode_send_hex_wrap :
    seen (fun s => (s.exit, s.mem.pay, s.mem.tr.length, s.pins))
      (step (State.writeCommand 0x0815
        (withDelay 453 (withReads [4294930000, 4294930400]
          { demo with
            par := { demoPar with wrapMargin := 0 }
            cfg := { Cfg.reset with
              mode := some .sendHex, pin := some 4, hexPayload := some [0x30, 0x30] } })))) =
      some (some 4, [0x00], 1089, []) := by decide +kernel

/-- P4: the malformed file of T10. -/
theorem test_mode_replay_malformed :
    seen (fun s => (s.err.line, s.exit, traceOf s, s.env.clock.used))
      (step (State.writeCommand 0x0016
        ({ demo with cfg := { Cfg.reset with
            mode := some .replayFile, inputTracePath := some [0x62] } }.putFile [0x62] badFile))) =
      some (some 4, some 2, [(0, false), (700, true)], 0) := by decide +kernel

/-- P2 on the file of T4: transmitted with `START_DELAY` 500, the schedule left in `TR`. -/
theorem test_mode_replay :
    seen (fun s => (writesOf s, s.exit, s.prio))
      (step (State.writeCommand 0x0816
        (withReads [1000, 1001, 1501, 1508, 1513]
          ({ demo with cfg := { Cfg.reset with
              mode := some .replayFile, inputTracePath := some [0x61], pin := some 4 } }.putFile [0x61]
            (header ++ [0x30, 0x09, 0x30, 0x0A, 0x37, 0x09, 0x31, 0x0A, 0x31, 0x32, 0x09, 0x30, 0x0A]))))) =
      some ([(4, false, some 1501), (4, true, some 1508), (4, false, some 1513)], some 0, .normal) := by
  decide +kernel

/-! ### States and operands that meet the hypotheses of the statements -/

/-- EncodeInvertsDecode. -/
theorem witness_encode_inverts_decode :
    decode 0x0CD6 = .ok (.modeReplayFile ⟨false, true, true, false, false, true, true⟩) := by decide

/-- DecoderVerdicts: each verdict at the ends of its range. -/
theorem witness_decoder_verdicts :
    decode 0x1000 = .reservedBits ∧ decode 0xF001 = .reservedBits
    ∧ decode 0x0FE0 = .reservedOp 0 ∧ decode 0x0017 = .reservedOp 23 ∧ decode 0x001F = .reservedOp 31
    ∧ decode 0x0001 = .ok (.configurePin noFlags) ∧ decode 0x0016 = .ok (.modeReplayFile noFlags) := by
  decide +kernel

/-- A state whose command word is `w`. -/
def commanded (w : CmdWord) : State := { demo with cmd := some w }

/-- ReservedWordsAndUnusedFlags, first clause: a reserved bit, `op` 0, `op` 23 and 31, on an idle block. -/
theorem witness_reserved_words :
    (∀ s ∈ [commanded 0x1001, commanded 0x0000, commanded 0x0017, commanded 0x001F],
      s.seq.busy = false ∧ s.err.kind = .none)
    ∧ (commanded 0x1001).cmd = some 0x1001
    ∧ (0x1001 : CmdWord).toNat / 4096 ≠ 0 ∧ (0x0000 : CmdWord).toNat % 32 = 0
    ∧ 23 ≤ (0x0017 : CmdWord).toNat % 32 ∧ 23 ≤ (0x001F : CmdWord).toNat % 32 := by decide +kernel

/-- ReservedWordsAndUnusedFlags, the flags: fields that agree on the used bits and differ on others; a word
that is no mode's. -/
theorem witness_unused_flags :
    (∀ f ∈ [({ noFlags with flank := true } : CmdFlags)], f.flank = allFlags.flank ∧ f ≠ allFlags)
    ∧ Op.readPin ≠ .traceWrite ∧ Op.readPin ≠ .sample ∧ Op.readPin ≠ .transmit
    ∧ (∀ i : Instr, i.op.isMode = true → (0x0209 : CmdWord) ≠ encode i) := by
  refine ⟨by decide +kernel, by decide, by decide, by decide, ?_⟩
  intro i h
  cases i <;> first
    | exact absurd h Bool.false_ne_true
    | rename_i f; obtain ⟨a, b, c, d, e, g, k⟩ := f; clear h; revert a b c d e g k; decide +kernel

/-- StepRunsDecodedCommand: a word that is no mode's, and a mode's first. -/
theorem witness_step_runs :
    (commanded 0x0008).cmd = some 0x0008 ∧ decode 0x0008 = .ok (.compact noFlags)
    ∧ (commanded 0x0014).cmd = some 0x0014 ∧ decode 0x0014 = .ok (.modeSample noFlags)
    ∧ (Op.modeSample.isMode = true → (commanded 0x0014).modeStarted = false)
    ∧ (commanded 0x0014).seq.busy = false ∧ (commanded 0x0014).err.kind = .none := by decide +kernel

/-- A block that polls the wrap guard. -/
def guarding : State :=
  ofMargin 1 { demo with
    seq := { busy := true, op := some .avoidClockWrap, phase := 1, todo := [.avoidClockWrap 1] } }

/-- StepsThatStartNothing: a command while an operation polls, after a fatal error, a second mode; no command
on an idle and on a polling block. -/
theorem witness_steps_that_start_nothing :
    ({ guarding with cmd := some 0x0004 }.seq.busy = true)
    ∧ ({ commanded 0x0004 with err := FatalError.wrapReject.registers }.err.kind ≠ .none)
    ∧ ({ commanded 0x0014 with modeStarted := true }.modeStarted = true)
    ∧ decode 0x0014 = .ok (.modeSample noFlags) ∧ (Instr.modeSample noFlags).op.isMode = true
    ∧ demo.cmd = none ∧ demo.seq.busy = false ∧ guarding.cmd = none := by decide +kernel

/-- ConfigurePinOutcome: pin 32 of 32, pin 31 refused by the platform, pin 31. -/
theorem witness_configure_pin :
    (onPin 32 demo).par.pinCount ≤ (onPin 32 demo).opnd.pin
    ∧ (onPin 31 (pinRefused demo)).opnd.pin < (onPin 31 (pinRefused demo)).par.pinCount
    ∧ (onPin 31 (pinRefused demo)).nextPinOk = false ∧ (onPin 31 demo).nextPinOk = true := by
  decide +kernel

/-- ReadPinOutcome: an input at the last index; an output; an index of `PIN_COUNT`; an unconfigured pin. -/
theorem witness_read_pin :
    ((configured 31 .input demo).pinAt 31).dir = .input ∧ 31 < (configured 31 .input demo).par.pinCount
    ∧ ((configured 31 .output demo).pinAt 31).dir ≠ .input ∧ ¬ 32 < demo.par.pinCount
    ∧ (demo.pinAt 0).dir = .unconfigured := by decide +kernel

/-- WritePinOutcome: the same for outputs. -/
theorem witness_write_pin :
    ((configured 31 .output demo).pinAt 31).dir = .output ∧ 31 < (configured 31 .output demo).par.pinCount
    ∧ ((configured 31 .input demo).pinAt 31).dir ≠ .output ∧ (demo.pinAt 0).dir ≠ .output := by
  decide +kernel

/-- ClockReadingsElapse: two advances that sum to 2³² - 1. -/
theorem witness_clock_readings :
    ∀ s ∈ [withReads [5, 6, 4] demo],
      ((List.range 2).map fun i => s.env.clock.answer Config.clkAdvance (0 + 1 + i)).sum < 4294967296 := by
  decide +kernel

/-- AvoidClockWrapOutcome: margin 4295 is impossible; with 4294 the first read of 967296 ends the guard, after
one of 967297 the second. -/
theorem witness_guard :
    4294967296 < (ofMargin 4295 demo).opnd.margin * 1000000
    ∧ (∀ s ∈ [ofMargin 4294 (withReads [967297, 967296] demo)],
      s.opnd.margin * 1000000 ≤ 4294967296 ∧ 1 ≤ s.env.clock.script.length
      ∧ (∀ j < 1, 4294967296 - (s.clockReading j).toNat < s.opnd.margin * 1000000)
      ∧ s.opnd.margin * 1000000 ≤ 4294967296 - (s.clockReading 1).toNat)
    ∧ (∀ s ∈ [ofMargin 0 (withReads [4294967295] demo)],
      0 ≤ s.env.clock.script.length
      ∧ s.opnd.margin * 1000000 ≤ 4294967296 - (s.clockReading 0).toNat) := by decide +kernel

/-- A clock that will read 2³² - 1, whatever amount the next read advances it by. -/
def beforeWrap : State := ofMargin 1 { demo with clk := 0xFFFFFFFF - BitVec.ofNat 32 (Config.clkAdvance 0) }

/-- AvoidClockWrapOutcome: no read is far enough, the guard blocks. -/
theorem witness_guard_blocks :
    beforeWrap.opnd.margin * 1000000 ≤ 4294967296
    ∧ ∀ j ≤ beforeWrap.env.clock.script.length,
      4294967296 - (beforeWrap.clockReading j).toNat < beforeWrap.opnd.margin * 1000000 := by
  refine ⟨by decide +kernel, fun j hj => ?_⟩
  have h : beforeWrap.clockReading 0 = 0xFFFFFFFF := by
    simp only [State.clockReading, beforeWrap, ofMargin, Tape.answer, demo, Env.reset, Tape.reset,
      List.getElem?_nil, Nat.zero_add, BitVec.sub_add_cancel]
  have hj0 : j = 0 := Nat.le_zero.mp hj
  rw [hj0, h]
  decide +kernel

/-- A clock that advances by one microsecond before each read is fair. -/
theorem fair_ticks : FairClock 0 fun _ => 1 := by
  have tick : ∀ k, clockAfter 0 (fun _ => 1) k = BitVec.ofNat 32 (k + 1) := fun k => by
    induction k with
    | zero => rfl
    | succ k ih => rw [clockAfter, ih, ← BitVec.ofNat_add]
  refine ⟨fun j => ⟨j, Nat.le_refl j, Nat.one_pos⟩, fun v j =>
    ⟨v.toNat + 4294967296 * (j + 1) - 1, by omega, ?_⟩⟩
  rw [tick, show v.toNat + 4294967296 * (j + 1) - 1 + 1 = v.toNat + 4294967296 * (j + 1) by omega,
    BitVec.toNat_ofNat, Nat.add_mul_mod_self_left, Nat.mod_eq_of_lt v.isLt]

/-- BlockedGuardReturns: the second read is far enough; and a fair clock. -/
theorem witness_blocked_guard :
    (∀ s ∈ [{ guarding with env := { guarding.env with clock := ⟨[4294967295, 1], 0⟩ } }],
      s.cmd = none
      ∧ s.seq = { busy := true, op := some .avoidClockWrap, phase := 1, todo := [.avoidClockWrap 1] }
      ∧ 1 * 1000000 ≤ 4294967296 ∧ 1 ≤ s.env.clock.script.length
      ∧ (∀ j < 1, 4294967296 - (s.clockReading j).toNat < 1 * 1000000)
      ∧ 1 * 1000000 ≤ 4294967296 - (s.clockReading 1).toNat)
    ∧ guarding.cmd = none ∧ guarding.seq.todo = [.avoidClockWrap 1] ∧ FairClock guarding.clk (fun _ => 1)
    ∧ ∀ _ : Nat, 1 ≤ 4294967296 - 1 * 1000000 :=
  ⟨by decide +kernel, rfl, rfl, fair_ticks, fun _ => by decide⟩

/-- TraceWriteOutcome: the text of a line; a path that can be written, and one that cannot. -/
theorem witness_trace_write :
    (∃ line : U32 → Level → Text,
      ∀ t v, line t v = decimal t ++ [0x09, if v = true then 0x31 else 0x30, 0x0A])
    ∧ demo.nextWritable = true
    ∧ ({ demo with env := { demo.env with writable := ⟨[false], 0⟩ } } : State).nextWritable = false :=
  ⟨⟨_, fun _ _ => rfl⟩, by decide +kernel, by decide +kernel⟩

/-- DecimalNumerals: a numeral that begins with 0. -/
theorem witness_decimal : (decimal 0).head? = some 48 := by decide +kernel

/-- FileLinesCut: a line, an empty line, and a last piece with and without a byte. -/
theorem witness_file_lines :
    (∀ l ∈ [[0x30, 0x09], ([] : Text)], (0x0A : Byte) ∉ l) ∧ (0x0A : Byte) ∉ ([] : Text)
    ∧ (0x0A : Byte) ∉ ([0x31] : Text) := by decide +kernel

/-- TraceLinesAccepted: the largest time with a blank after it, a leading zero. -/
theorem witness_trace_lines :
    parseLine [0x34, 0x32, 0x39, 0x34, 0x39, 0x36, 0x37, 0x32, 0x39, 0x35, 0x09, 0x31, 0x20] =
      some ⟨0xFFFFFFFF, true⟩
    ∧ parseLine [0x30, 0x37, 0x09, 0x30] = some ⟨7, false⟩ := by decide +kernel

/-- The state of the tests of T10. -/
def reading : State := onPath [0x62] (demo.putFile [0x62] badFile)

/-- A state with the file of T4. -/
def readingGood : State :=
  onPath [0x61] (demo.putFile [0x61]
    (header ++ [0x30, 0x09, 0x30, 0x0A, 0x37, 0x09, 0x31, 0x0A, 0x31, 0x32, 0x09, 0x30, 0x0A]))

/-- The trace of T7. -/
def readTrace : List Sample := samples [(0, false), (7, true), (12, false)]

/-- TraceReadOutcome: the file of T4, the trace of T7. -/
theorem witness_trace_read :
    ∃ contents, fileLookup readingGood.opnd.path readingGood.mem.files = some contents
      ∧ readingGood.nextReadable = true
      ∧ (fileLines contents).tail.map parseLine = readTrace.map some ∧ readTrace.length ≤ Config.trCap :=
  ⟨_, rfl, by decide +kernel, by decide +kernel, by decide +kernel⟩

/-- TraceReadRejects: no such file; one that cannot be read; the malformed third line of T10. -/
theorem witness_trace_read_rejects :
    fileLookup demo.opnd.path demo.mem.files = none
    ∧ fileLookup reading.opnd.path reading.mem.files ≠ none
    ∧ ({ reading with env := { reading.env with readable := ⟨[false], 0⟩ } } : State).nextReadable = false
    ∧ reading.nextReadable = true
    ∧ fileLookup reading.opnd.path reading.mem.files = some badFile
    ∧ (fileLines badFile).tail =
        [[0x30, 0x09, 0x30], [0x37, 0x30, 0x30, 0x09, 0x31]] ++ [0x37, 0x31, 0x35, 0x20, 0x30]
          :: [[0x37, 0x32, 0x36, 0x09, 0x31]]
    ∧ [([0x30, 0x09, 0x30] : Text), [0x37, 0x30, 0x30, 0x09, 0x31]].map parseLine =
        (samples [(0, false), (700, true)]).map some
    ∧ parseLine [0x37, 0x31, 0x35, 0x20, 0x30] = none := by decide +kernel

/-- A line `0` TAB `0` LF. -/
def oneLine : Text := [0x30, 0x09, 0x30]

/-- A file of an empty first line and `n` lines `0` TAB `0`. -/
def longFile (n : Nat) : Text := 0x0A :: (List.replicate n (oneLine ++ [0x0A])).flatten

/-- The lines of that file after the first. -/
theorem longFile_lines (n : Nat) : (fileLines (longFile n)).tail = List.replicate n oneLine := by
  have cut : cutLines (List.replicate n (oneLine ++ [0x0A])).flatten =
      List.replicate n oneLine ++ [[]] := by
    induction n with
    | zero => rfl
    | succ n ih =>
      rw [List.replicate_succ, List.flatten_cons, List.replicate_succ, List.cons_append, ← ih]
      rfl
  have drop : ∀ k, dropLastEmpty (List.replicate k oneLine ++ [[]]) = List.replicate k oneLine := by
    intro k
    induction k with
    | zero => rfl
    | succ k ih =>
      rw [List.replicate_succ, List.cons_append]
      conv_rhs => rw [← ih]
      cases k with
      | zero => rfl
      | succ k => rfl
  have first : fileLines (longFile n) = [] :: List.replicate n oneLine := by
    show dropLastEmpty ([] :: cutLines (List.replicate n (oneLine ++ [0x0A])).flatten) = _
    rw [cut]
    cases n with
    | zero => rfl
    | succ n => exact congrArg (List.cons []) (drop (n + 1))
  rw [first]
  rfl

/-- TraceReadRejects: as many lines as `TR` holds, and one more. -/
theorem witness_trace_read_full :
    (fileLines (longFile (Config.trCap + 1))).tail =
      List.replicate Config.trCap oneLine ++ oneLine :: []
    ∧ (List.replicate Config.trCap oneLine).map parseLine =
      (List.replicate Config.trCap (⟨0, false⟩ : Sample)).map some
    ∧ (List.replicate Config.trCap (⟨0, false⟩ : Sample)).length = Config.trCap
    ∧ parseLine oneLine ≠ none
    ∧ fileLookup [0x62] (demo.putFile [0x62] (longFile (Config.trCap + 1))).mem.files =
      some (longFile (Config.trCap + 1)) := by
  refine ⟨?_, ?_, List.length_replicate, by decide, rfl⟩
  · rw [longFile_lines, List.replicate_succ']
  · rw [List.map_replicate, List.map_replicate]
    exact congrArg _ (show parseLine oneLine = some ⟨0, false⟩ by decide)

/-- TraceFileRoundTrip: the trace of T7. -/
theorem witness_trace_file_round_trip :
    noFlags.flank = false ∧ isCompact (withTrace readTrace demo).mem.tr
    ∧ (withTrace readTrace demo).mem.tr.length ≤ Config.trCap
    ∧ (withTrace readTrace demo).nextWritable = true ∧ (withTrace readTrace demo).nextReadable = true := by
  unfold isCompact
  decide +kernel

/-- What HOST has set up for vector S4 and, at the last valid pin, S1. -/
def sampling : List State :=
  [onPin 31 (ofCapacity 1 (withLevels [false, true] (withReads [7] demo))),
   onPin 31 (ofCapacity 8 (withLevels [false, false, false, true, true, false, false, false, false]
     (withReads [100, 100, 101, 103, 104, 105, 107, 108] demo)))]

/-- SampleCaptures: a capture of one pair (S4) and of eight (S1). -/
theorem witness_sample_captures :
    ∀ s ∈ sampling, noFlags.trigger = false ∧ 1 ≤ s.opnd.capacity ∧ s.opnd.capacity ≤ 1000000
      ∧ s.opnd.pin < s.par.pinCount ∧ s.nextPinOk = true
      ∧ (s.clockReading 0).toNat ≤ (s.clockReading (s.opnd.capacity - 1)).toNat := by decide +kernel

/-- SampleTimesRise: the same, and its step answers a next state. -/
theorem witness_sample_times :
    ∀ s ∈ sampling, ((List.range (s.opnd.capacity - 1)).map fun i =>
        s.env.clock.answer Config.clkAdvance (1 + i)).sum < 4294967296
      ∧ seen (fun _ => ()) (exec (.sample noFlags) s) = some () := by decide +kernel

/-- Captures with the trigger, each with the number of the poll that sees the change: the first (capacity 1),
and the third of vector S2. -/
def triggered : List (Nat × State) :=
  [(1, onPin 17 (ofCapacity 1 (withLevels [false, true] (withReads [7] demo)))),
   (3, onPin 17 (ofCapacity 6 (withLevels [true, true, true, false, false, true, true, false, false]
     (withReads [10, 12, 15, 16, 18, 20, 21, 25] demo))))]

/-- SampleTriggered: those captures. -/
theorem witness_sample_triggered :
    ∀ p ∈ triggered,
      1 ≤ p.2.opnd.capacity ∧ p.2.opnd.capacity ≤ 1000000 ∧ p.2.opnd.pin < p.2.par.pinCount
      ∧ p.2.nextPinOk = true ∧ 1 ≤ p.1 ∧ p.1 ≤ p.2.env.level.script.length - 1 + 1
      ∧ (∀ i < p.1, 1 ≤ i → p.2.levelReading i = p.2.levelReading 0)
      ∧ p.2.levelReading p.1 ≠ p.2.levelReading 0
      ∧ (p.2.clockReading (p.1 - 1)).toNat ≤
          (p.2.clockReading (p.1 - 1 + (p.2.opnd.capacity - 1))).toNat := by decide +kernel

/-- SampleTimesRise: the same captures with the trigger; their steps answer a next state. -/
theorem witness_sample_times_triggered :
    ∀ p ∈ triggered, ((List.range (p.2.opnd.capacity - 1)).map fun i =>
        p.2.env.clock.answer Config.clkAdvance (p.1 + i)).sum < 4294967296
      ∧ seen (fun _ => ()) (exec (.sample { noFlags with trigger := true }) p.2) = some () := by decide +kernel

/-- A capture of two pairs that waits for the trigger; the next poll but one sees the change. -/
def awaiting : State :=
  { configured 17 .input (withLevels [false, true, true] (withReads [3, 5, 9] demo)) with
    seq := { busy := true, op := some .sample, phase := 2, todo := [.samplePoll 17] }
    wr := { Work.reset with n := 2, k := 0, l0 := false } }

/-- A pin whose initial level is the one ENV answers next, whichever that is. -/
def quietPin : State := onPin 17 (ofCapacity 5 (withLevels [Config.pinLevel 1] demo))

/-- The agents' answers after the wait: the level changes at the poll after those listed. -/
def changesAfter (quiet : List Bool) : Env :=
  (withLevels (quiet ++ [!Config.pinLevel 1]) (withReads [1, 2, 3, 4, 5, 6, 7] demo)).env

/-- SampleWaitsForTrigger: no poll sees a change; resumed, poll 0 or 2, the last one scripted, is the first to
see one, on a clock that does not wrap, or on one that does; or none does. -/
theorem witness_sample_waits :
    { noFlags with trigger := true }.trigger = true
    ∧ 1 ≤ quietPin.opnd.capacity ∧ quietPin.opnd.capacity ≤ 1000000
    ∧ quietPin.opnd.pin < quietPin.par.pinCount ∧ quietPin.nextPinOk = true
    ∧ (∀ i, i ≤ quietPin.env.level.script.length - 1 + 1 → quietPin.levelReading i = quietPin.levelReading 0)
    ∧ (∀ r : State, r.clk = 0 → r.env = changesAfter [] →
        0 ≤ r.env.level.script.length ∧ r.levelReading 0 ≠ quietPin.levelReading 0
        ∧ (r.clockReading 0).toNat ≤ (r.clockReading 4).toNat)
    ∧ (∀ r : State, r.clk = 0 → r.env = changesAfter [Config.pinLevel 1, Config.pinLevel 1] →
        2 ≤ r.env.level.script.length ∧ (∀ i < 2, r.levelReading i = quietPin.levelReading 0)
        ∧ r.levelReading 2 ≠ quietPin.levelReading 0
        ∧ (r.clockReading 2).toNat ≤ (r.clockReading (2 + 4)).toNat)
    ∧ (∀ r : State, r.clk = 4294967293 → r.env = changesAfter [] →
        (r.clockReading (0 + 4)).toNat < (r.clockReading 0).toNat)
    ∧ (∀ r : State, r.env = { demo.env with level := ⟨[], 1⟩ } →
        ∀ i, i ≤ r.env.level.script.length → r.levelReading i = quietPin.levelReading 0) := by
  refine ⟨rfl, by decide +kernel, by decide +kernel, by decide +kernel, by decide +kernel, ?_, ?_, ?_, ?_, ?_⟩
  · intro i hi
    have hle : i ≤ 1 := hi
    interval_cases i
    · rfl
    · rfl
  · intro r hclk henv
    refine ⟨by omega, ?_, ?_⟩
    · rw [State.levelReading, henv]
      exact Bool.not_ne_self (Config.pinLevel 1)
    · simp only [State.clockReading, hclk, henv]
      decide +kernel
  · intro r hclk henv
    refine ⟨by rw [henv]; exact Nat.le_succ 2, ?_, ?_, ?_⟩
    · intro i hi
      rw [State.levelReading, henv]
      interval_cases i
      · rfl
      · rfl
    · rw [State.levelReading, henv]
      exact Bool.not_ne_self (Config.pinLevel 1)
    · simp only [State.clockReading, hclk, henv]
      decide +kernel
  · intro r hclk henv
    simp only [State.clockReading, hclk, henv]
    decide +kernel
  · intro r henv i hi
    rw [henv] at hi
    have h0 : i = 0 := Nat.le_zero.1 hi
    rw [h0, State.levelReading, henv]
    rfl

/-- SampleRejections: capacities 0 and 1000001; an invalid pin; a refused pin; a clock that wraps (S5), also
with the trigger at the second poll. -/
theorem witness_sample_rejections :
    (ofCapacity 0 demo).opnd.capacity < 1 ∧ 1000000 < (ofCapacity 1000001 demo).opnd.capacity
    ∧ (∀ s ∈ [onPin 32 (ofCapacity 1000000 demo)], 1 ≤ s.opnd.capacity ∧ s.opnd.capacity ≤ 1000000
        ∧ s.par.pinCount ≤ s.opnd.pin)
    ∧ (∀ s ∈ [onPin 31 (ofCapacity 1 (pinRefused demo))], 1 ≤ s.opnd.capacity ∧ s.opnd.capacity ≤ 1000000
        ∧ s.opnd.pin < s.par.pinCount ∧ s.nextPinOk = false)
    ∧ (∀ s ∈ [onPin 17 (ofCapacity 4 (withReads [0xFFFFFFFE, 0xFFFFFFFF, 0, 1] demo))],
        s.opnd.pin < s.par.pinCount ∧ s.nextPinOk = true
        ∧ (s.clockReading (1 - 1 + (s.opnd.capacity - 1))).toNat < (s.clockReading (1 - 1)).toNat)
    ∧ (∀ s ∈ [onPin 17 (ofCapacity 3 (withLevels [true, true, false]
          (withReads [0xFFFFFFFE, 0xFFFFFFFF, 0, 1] demo)))],
        1 ≤ s.opnd.capacity ∧ s.opnd.capacity ≤ 1000000 ∧ s.opnd.pin < s.par.pinCount
        ∧ s.nextPinOk = true ∧ 2 ≤ s.env.level.script.length - 1 + 1
        ∧ (∀ i < 2, 1 ≤ i → s.levelReading i = s.levelReading 0) ∧ s.levelReading 2 ≠ s.levelReading 0
        ∧ (s.clockReading (2 - 1 + (s.opnd.capacity - 1))).toNat < (s.clockReading (2 - 1)).toNat) := by
  decide +kernel

/-- The state of vector X1. -/
def sending : State :=
  onPin 4 (withTrace sentTrace (withReads [1000, 1400, 1600, 2150, 2260, 2263] demo))

/-- The next state, where there is one. -/
def nextOf : Host.Outcome State Fault Refusal → State
  | .next s => s
  | _ => demo

/-- An outcome that is seen is a next state. -/
theorem next_of_seen (o : Host.Outcome State Fault Refusal) (h : seen (fun _ => ()) o = some ()) :
    o = .next (nextOf o) := by
  cases o with
  | next s => rfl
  | fault f => simp [seen] at h
  | refused r => simp [seen] at h

/-- A clock whose readings were checked one by one does not wrap between them. -/
theorem rises_of_checked (s : State) (n : Nat)
    (h : ∀ k < n - 1, (s.clockReading k).toNat ≤ (s.clockReading (k + 1)).toNat) : s.clockRises n :=
  fun k hk => h k (by omega)

/-- The trace of X1 fits below the wrap. -/
theorem sending_fits : fitsWindow (sending.clockReading 0) sending.nextDelay sending.mem.tr := by
  intro x hx
  have hx' : (⟨715, false⟩ : Sample) = x := by
    have : sending.mem.tr.getLast? = some ⟨715, false⟩ := by decide +kernel
    rw [this] at hx
    exact Option.some.inj hx
  rw [← hx']
  decide +kernel

/-- TransmitWrites: the waits of X1 end at the reads 2, 4 and 5. -/
theorem witness_transmit_writes :
    noFlags.stats = false ∧ sending.opnd.pin < sending.par.pinCount ∧ sending.nextPinOk = true
    ∧ fitsWindow (sending.clockReading 0) sending.nextDelay sending.mem.tr
    ∧ sending.waitsEnd 0 1 (scheduleFrom (sending.clockReading 0) sending.nextDelay sending.mem.tr)
        [2, 4, 5] := by
  refine ⟨rfl, by decide +kernel, by decide +kernel, sending_fits, ?_⟩
  have hs : scheduleFrom (sending.clockReading 0) sending.nextDelay sending.mem.tr =
      samples [(1500, false), (2200, true), (2215, false)] := by decide +kernel
  rw [hs]
  refine ⟨by decide, by decide +kernel, ?_, by decide +kernel,
    by decide, by decide +kernel, ?_, by decide +kernel,
    by decide, by decide +kernel, ?_, by decide +kernel, trivial⟩
  · decide +kernel
  · decide +kernel
  · decide +kernel

/-- The state of vector X2. -/
def measuring : State :=
  onPin 4 (withTrace sentTrace
    (withReads [1000, 1400, 1600, 1601, 2150, 2260, 2262, 2263, 2264]
      { demo with par := { demoPar with lateLimit := some 50 } }))

/-- TransmitStatistics: X2, its waits ending at the reads 2, 5 and 7, and its two late edges. -/
theorem witness_transmit_statistics :
    measuring.opnd.pin < measuring.par.pinCount ∧ measuring.nextPinOk = true
    ∧ measuring.mem.tr.length ≤ Config.trCap
    ∧ fitsWindow (measuring.clockReading 0) measuring.nextDelay measuring.mem.tr
    ∧ samples [(1500, false), (2200, true), (2215, false)] =
        scheduleFrom (measuring.clockReading 0) measuring.nextDelay measuring.mem.tr
    ∧ measuring.waitsEnd 1 1 (samples [(1500, false), (2200, true), (2215, false)]) [2, 5, 7]
    ∧ [101, 62, 49] = ((samples [(1500, false), (2200, true), (2215, false)]).zip [2, 5, 7]).map
        (fun p => (measuring.clockReading (p.2 + 1) - p.1.t).toInt)
    ∧ [Report.anomaly (.timingAnomaly 0 1500 101), .anomaly (.timingAnomaly 1 2200 62)] =
        ((((samples [(1500, false), (2200, true), (2215, false)]).zip [101, 62, 49]).zipIdx.filter fun p =>
          decide (p.1.2 < (0 : Int)) || measuring.par.lateLimit.any fun m => decide (m < p.1.2)).map
        (fun p => .anomaly (.timingAnomaly p.2 p.1.1.t p.1.2))) := by
  refine ⟨by decide +kernel, by decide +kernel, by decide +kernel, sending_fits, by decide +kernel, ?_,
    by decide +kernel, by decide +kernel⟩
  refine ⟨by decide, by decide +kernel, ?_, by decide +kernel,
    by decide, by decide +kernel, ?_, by decide +kernel,
    by decide, by decide +kernel, ?_, by decide +kernel, trivial⟩
  · decide +kernel
  · decide +kernel
  · decide +kernel

/-- TransmitWrites and TransmitStatistics: an empty trace. -/
theorem witness_transmit_nothing :
    (onPin 31 demo).mem.tr = [] ∧ fitsWindow (demo.clockReading 0) demo.nextDelay []
    ∧ demo.waitsEnd 0 1 [] [] ∧ demo.waitsEnd 1 1 [] [] :=
  ⟨rfl, fun _ h => absurd h (by simp), trivial, trivial⟩

/-- A transmission that waits at edge 1 of the schedule of X1. -/
def halfSent : State :=
  { configured 4 .output (withTrace (samples [(1500, false), (2200, true), (2215, false)])
      (withReads [2150, 2260, 2263] demo)) with
    seq := { busy := true, op := some .transmit, phase := 5, todo := [.transmitWait 4 false] }
    prio := .realtime
    wr := { Work.reset with i := 1 } }

/-- TransmitNeverEarly: X1 from its start, and from the wait of edge 1. -/
theorem witness_never_early :
    (∃ t, exec (.transmit noFlags) sending = .next t
      ∧ sending.clockRises (t.env.clock.used - sending.env.clock.used)
      ∧ sending.err.kind = .none ∧ t.err.kind = .none ∧ t.seq.busy = false)
    ∧ halfSent.cmd = none
    ∧ halfSent.seq =
        { busy := true, op := some .transmit, phase := 5, todo := [.transmitWait 4 false] }
    ∧ (∃ t, step halfSent = .next t
      ∧ halfSent.clockRises (t.env.clock.used - halfSent.env.clock.used) ∧ t.seq.busy = false) :=
  ⟨⟨_, next_of_seen _ (by decide +kernel), rises_of_checked _ _ (by decide +kernel), by decide +kernel,
      by decide +kernel, by decide +kernel⟩,
    rfl, rfl,
    ⟨_, next_of_seen _ (by decide +kernel), rises_of_checked _ _ (by decide +kernel), by decide +kernel⟩⟩

/-- ScheduleBias: X1. -/
theorem witness_schedule_bias :
    timesRise sending.mem.tr ∧ fitsWindow (sending.clockReading 0) sending.nextDelay sending.mem.tr
    ∧ ∃ t, exec (.transmit noFlags) sending = .next t :=
  ⟨by unfold timesRise; decide +kernel, sending_fits, ⟨_, next_of_seen _ (by decide +kernel)⟩⟩

/-- The states of X4 and X5: the last scheduled time is 2³² - 1, and 2³². -/
def atWrap (c0 : Nat) : State := onPin 4 (withTrace sentTrace (withReads [c0] demo))

/-- TransmitRejections: X5 crosses the wrap; X4 with an invalid pin, and with a pin that is refused. -/
theorem witness_transmit_rejections :
    ¬ fitsWindow ((atWrap 4294966081).clockReading 0) (atWrap 4294966081).nextDelay (atWrap 4294966081).mem.tr
    ∧ fitsWindow ((atWrap 4294966080).clockReading 0) (atWrap 4294966080).nextDelay (atWrap 4294966080).mem.tr
    ∧ (onPin 32 (atWrap 4294966080)).par.pinCount ≤ (onPin 32 (atWrap 4294966080)).opnd.pin
    ∧ (pinRefused (atWrap 4294966080)).nextPinOk = false := by
  have last : ∀ c, (atWrap c).mem.tr.getLast? = some ⟨715, false⟩ := fun c => by
    show sentTrace.getLast? = _
    decide +kernel
  refine ⟨fun h => ?_, ?_, by decide +kernel, by decide +kernel⟩
  · exact absurd (h ⟨715, false⟩ (last _)) (by decide +kernel)
  · intro x hx
    rw [last] at hx
    rw [← Option.some.inj hx]
    decide +kernel

/-- ExtractBitsOutcome: one byte into a payload memory of one byte, and of none. -/
theorem witness_extract_bits :
    (∀ s ∈ [withTrace (thresholdTrace 801) { demo with par := { demoPar with payCap := 1 } }],
      (frameLows s.mem.tr).length / 8 ≤ s.par.payCap)
    ∧ (∀ s ∈ [withTrace (thresholdTrace 801) { demo with par := { demoPar with payCap := 0 } }],
      s.par.payCap < (frameLows s.mem.tr).length / 8) := by decide +kernel

/-- ChecksumOutcome: D9 and D10. -/
theorem witness_checksum :
    (0x01 : Byte) = BitVec.ofNat 8 ((([0xFF, 0x02] : List Byte).map BitVec.toNat).sum)
    ∧ (0x01 : Byte) ≠ 0x02 := by decide +kernel

/-- The state after COMPACT, FLATTEN and COMPACT, three commands of HOST. -/
def preprocessed (s : State) : State :=
  nextOf (exec (.compact noFlags) (nextOf (exec (.flatten noFlags) (nextOf (exec (.compact noFlags) s)))))

/-- DecodeCompletes: the 1601 samples of D23, which fit although they are many. -/
theorem witness_decode_fits :
    FramesFit demo.par.payCap (decodeInput (encodedTrace [0xA5, 0xA6]))
    ∧ (encodedTrace [0xA5, 0xA6]).length = 1601 :=
  ⟨Laws.framesFit_of_length _ (by rw [Laws.decodeInput_eq]; decide +kernel), by decide +kernel⟩

/-- DecodeCompletes: a first half-frame of one byte, and a second one after an empty first, with room for
none. -/
theorem witness_decode_completes :
    (∀ s ∈ [withTrace (alternating ((List.range 21).map (300 * ·)))
        { demo with par := { demoPar with payCap := 0 } }],
      s.par.payCap < (frameLows (preprocessed s).mem.tr).length / 8
      ∧ ¬ FramesFit s.par.payCap (preprocessed s).mem.tr)
    ∧ (∀ s ∈ [withTrace (alternating ((List.range 17).map (300 * ·)
          ++ (List.range 22).map (fun k => 8000 + 300 * k)))
        { demo with par := { demoPar with payCap := 0 } }],
      (frameLows (preprocessed s).mem.tr).length / 8 ≤ s.par.payCap
      ∧ secondWindow (preprocessed s).mem.tr
      ∧ s.par.payCap <
          (frameLows ((preprocessed s).mem.tr.drop (frameEnd (preprocessed s).mem.tr))).length / 8) := by
  refine ⟨fun s hs => ⟨?_, fun h => ?_⟩, ?_⟩
  · revert s; decide +kernel
  · obtain ⟨first, -⟩ := h
    revert first; revert s; decide +kernel
  · unfold secondWindow; decide +kernel

/-- SecondHalfFrameCheck: D17 lies outside the window, D14 and D15 on its two edges; each decode answers a
next state. -/
theorem witness_second_half_frame :
    (∀ s ∈ [withTrace (alternating [0, 300, 600, 900, 1200, 1500, 1800, 2100, 2400, 5000]) demo],
      exec (.decode noFlags) s = .next (nextOf (exec (.decode noFlags) s))
      ∧ (frameLows (nextOf (exec (.decode noFlags) s)).mem.tr).length / 8 ≤ s.par.payCap
      ∧ ¬ secondWindow (nextOf (exec (.decode noFlags) s)).mem.tr)
    ∧ (∀ s ∈ [withTrace (alternating [0, 300, 600, 900, 1200, 4000, 4300, 4600, 4900, 5200]) demo,
        withTrace (alternating [0, 300, 600, 900, 1200, 1500, 1800, 4000, 4300, 4600]) demo],
      exec (.decode noFlags) s = .next (nextOf (exec (.decode noFlags) s))
      ∧ (frameLows (nextOf (exec (.decode noFlags) s)).mem.tr).length / 8 ≤ s.par.payCap
      ∧ secondWindow (nextOf (exec (.decode noFlags) s)).mem.tr
      ∧ ∀ tail ∈ [(nextOf (exec (.decode noFlags) s)).mem.tr.drop
            (frameEnd (nextOf (exec (.decode noFlags) s)).mem.tr)],
          (frameLows tail).length / 8 ≤ s.par.payCap ∧ ¬ secondWindow tail) := by
  unfold secondWindow
  refine ⟨fun s hs => ⟨next_of_seen _ ?_, ?_⟩, fun s hs => ⟨next_of_seen _ ?_, ?_⟩⟩ <;>
    (revert s; decide +kernel)

/-- SecondHalfFrameCheck: a sequence whose second half-frame has a second one of its own. -/
theorem witness_nested_half_frames :
    ∀ s ∈ [withTrace (alternating [0, 300, 600, 900, 1200, 1500, 1800, 2100, 2400, 5400, 5700, 6000, 6300, 9300,
        9600, 9900, 10200, 10500]) demo],
      exec (.decode noFlags) s = .next (nextOf (exec (.decode noFlags) s))
      ∧ FramesFit s.par.payCap (nextOf (exec (.decode noFlags) s)).mem.tr
      ∧ secondWindow (nextOf (exec (.decode noFlags) s)).mem.tr
      ∧ secondWindow ((nextOf (exec (.decode noFlags) s)).mem.tr.drop
          (frameEnd (nextOf (exec (.decode noFlags) s)).mem.tr)) := by
  refine fun s hs => ⟨next_of_seen _ ?_, Laws.framesFit_of_length _ ?_, ?_, ?_⟩ <;>
    (try unfold secondWindow) <;> (revert s; decide +kernel)

/-- SecondHalfFrameCheck: a block whose trace memory is empty. -/
theorem witness_decode_empty : demo.mem.tr = [] := rfl

/-- PayloadRoundTrip: the payloads `00` and `A5 A5`. -/
theorem witness_payload_round_trip :
    (demo.setPay [0x00]).mem.pay = [] ++ [0x00]
    ∧ (0x00 : Byte) = BitVec.ofNat 8 ((([] : List Byte).map BitVec.toNat).sum)
    ∧ (demo.setPay [0xA5, 0xA5]).mem.pay = [0xA5] ++ [0xA5]
    ∧ (0xA5 : Byte) = BitVec.ofNat 8 ((([0xA5] : List Byte).map BitVec.toNat).sum)
    ∧ (demo.setPay [0xA5, 0xA5]).mem.pay.length ≤ demo.par.payCap
    ∧ (demo.setPay [0xA5, 0xA5]).mem.pay.length ≤ 1951 := by decide +kernel

/-- HexParseOutcome: the digit classes and values; one digit; a character that is none; one byte for a memory
of none and of one. -/
theorem witness_hex_parse :
    (∃ (isDigit : Byte → Prop) (val : Byte → Nat),
      (∀ b, isDigit b ↔ (48 ≤ b.toNat ∧ b.toNat ≤ 57) ∨ (65 ≤ b.toNat ∧ b.toNat ≤ 70)
        ∨ (97 ≤ b.toNat ∧ b.toNat ≤ 102))
      ∧ (∀ b, val b =
        if b.toNat ≤ 57 then b.toNat - 48 else if b.toNat ≤ 70 then b.toNat - 55 else b.toNat - 87)
      ∧ ¬ isDigit 0x47 ∧ isDigit 0x61 ∧ isDigit 0x35)
    ∧ (ofHex [0x41] demo).opnd.hex.length % 2 = 1
    ∧ (0x47 : Byte) ∈ (ofHex [0x30, 0x47] demo).opnd.hex
    ∧ (∀ s ∈ [ofHex [0x61, 0x35] { demo with par := { demoPar with payCap := 0 } }],
        s.opnd.hex.length = 2 * 1 ∧ s.par.payCap < 1)
    ∧ (∀ s ∈ [ofHex [0x61, 0x35] { demo with par := { demoPar with payCap := 1 } }],
        s.opnd.hex.length = 2 * 1 ∧ 1 ≤ s.par.payCap) :=
  ⟨⟨fun b => (48 ≤ b.toNat ∧ b.toNat ≤ 57) ∨ (65 ≤ b.toNat ∧ b.toNat ≤ 70)
        ∨ (97 ≤ b.toNat ∧ b.toNat ≤ 102), _, fun _ => Iff.rfl, fun _ => rfl, by decide, by decide, by decide⟩,
    by decide +kernel, by simp [ofHex], by decide +kernel, by decide +kernel⟩

/-- HexTextParsesBack: `A5`. -/
theorem witness_hex_text :
    (ofHex [0x41, 0x35] demo).opnd.hex = hexText [0xA5] ∧ [(0xA5 : Byte)].length ≤ demo.par.payCap := by
  decide +kernel

/-- A state with a cursor, `k` places free in `TR`, and a burst of one cycle asked for. -/
def almostFull (k : Nat) : State :=
  { (demo.setTr (List.replicate (Config.trCap - k) ⟨0, false⟩)).setCursor 0 with
    opnd := { Operands.reset with mark := 51, space := 100 } }

/-- BurstOutcome: two places for the two samples of a cycle; one place; a cursor never written. -/
theorem witness_burst :
    (almostFull 2).wr.tcurWritten = true
    ∧ (almostFull 2).mem.tr.length + 2 * ((almostFull 2).opnd.mark.toNat / 26) ≤ Config.trCap
    ∧ (almostFull 1).wr.tcurWritten = true ∧ (almostFull 1).mem.tr.length ≤ Config.trCap
    ∧ Config.trCap < (almostFull 1).mem.tr.length + 2 * ((almostFull 1).opnd.mark.toNat / 26)
    ∧ demo.wr.tcurWritten = false := by
  have len : ∀ k, (almostFull k).mem.tr.length = Config.trCap - k := fun k => List.length_replicate
  rw [len, len]
  decide +kernel

/-- EncodeOutcome, EncodedTraceShape: 1951 bytes fit, 1952 do not. -/
theorem witness_encode :
    577 + 512 * (demo.setPay (List.replicate 1951 0)).mem.pay.length ≤ Config.trCap
    ∧ Config.trCap < 577 + 512 * (demo.setPay (List.replicate 1952 0)).mem.pay.length
    ∧ (List.replicate 1951 (0 : Byte)).length ≤ 1951 := by
  have len : ∀ n, (demo.setPay (List.replicate n 0)).mem.pay.length = n := fun n => List.length_replicate
  rw [len, len, List.length_replicate]
  decide +kernel

/-- A state with a configuration. -/
def withCfg (c : Cfg) : State := { demo with cfg := c }

/-- ModeConfigErrors: each missing option, a pin of `PIN_COUNT`, the capacities 0 and 1000001, a bad string. -/
theorem witness_mode_config_errors :
    demo.cfg.mode ≠ some .sample ∧ demo.cfg.mode ≠ some .sendHex ∧ demo.cfg.mode ≠ some .replayFile
    ∧ (withCfg { Cfg.reset with mode := some .sample }).cfg.pin = none
    ∧ demo.par.pinCount ≤ 32 ∧ 31 < demo.par.pinCount
    ∧ (0 < 1 ∧ 1000000 < 1000001)
    ∧ (withCfg { Cfg.reset with mode := some .sendHex }).cfg.hexPayload = none
    ∧ (withCfg { Cfg.reset with mode := some .sendHex, hexPayload := some [0x41] }).cfg.hexPayload = some [0x41]
    ∧ parseHex [0x41] = none
    ∧ (withCfg { Cfg.reset with mode := some .replayFile }).cfg.inputTracePath = none := by decide +kernel

/-- The configuration of P3. -/
def sampleCfg : Cfg :=
  { Cfg.reset with
    mode := some .sample, pin := some 17, capacity := 12, outputTracePath := some [0x63]
    decodeAfterSample := true }

/-- The start of P3. -/
def sampleMode : State :=
  withLevels [false, false, false, true, true, false, false, true, true, false, false, false, false]
    (withReads [4000, 5000, 5000, 5003, 5004, 5009, 5010, 5011, 5015, 5016, 5017, 5019, 5020] (withCfg sampleCfg))

/-- The same capture with the trigger, the guard's first read being just before the wrap. -/
def sampleModeTriggered : State :=
  withLevels [true, true, false, false, true]
    (withReads [4294967295, 4000, 5000, 5001, 5003, 5004]
      (withCfg { sampleCfg with triggerBeforeSample := true, capacity := 2 }))

/-- ModeSampleCompletes: P3; and with the trigger at the second poll, the guard reading twice. -/
theorem witness_mode_sample :
    (∀ s ∈ [sampleMode], s.cfg.mode = some .sample ∧ s.cfg.pin = some 17 ∧ 17 < s.par.pinCount
      ∧ s.cfg.triggerBeforeSample = false ∧ 1 ≤ s.cfg.capacity ∧ s.cfg.capacity ≤ 1000000
      ∧ s.par.wrapMargin * 1000000 ≤ 4294967296 - (s.clockReading 0).toNat ∧ s.nextPinOk = true
      ∧ (s.clockReading (0 + 1)).toNat ≤ (s.clockReading (0 + 1 + (s.cfg.capacity - 1))).toNat
      ∧ s.nextWritable = true ∧ s.cfg.decodeAfterSample = true)
    ∧ (∀ s ∈ [sampleModeTriggered], s.cfg.mode = some .sample ∧ s.cfg.pin = some 17
      ∧ s.cfg.triggerBeforeSample = true ∧ 1 ≤ s.env.clock.script.length
      ∧ (∀ i < 1, 4294967296 - (s.clockReading i).toNat < s.par.wrapMargin * 1000000)
      ∧ s.par.wrapMargin * 1000000 ≤ 4294967296 - (s.clockReading 1).toNat
      ∧ 2 ≤ s.env.level.script.length - 1 + 1
      ∧ (∀ i < 2, 1 ≤ i → s.levelReading i = s.levelReading 0) ∧ s.levelReading 2 ≠ s.levelReading 0
      ∧ (s.clockReading (1 + 2)).toNat ≤ (s.clockReading (1 + 2 + (s.cfg.capacity - 1))).toNat
      ∧ seen (fun t => (t.mem.raw.map fun x => (x.t.toNat, x.v), t.exit)) (exec (.modeSample noFlags) s) =
          some ([(5001, false), (5003, false)], some 0)) := by decide +kernel

/-- ModeSampleCompletes: the half-frames of the capture of P3 fit. -/
theorem witness_mode_sample_fits :
    ∀ s ∈ [sampleMode], FramesFit s.par.payCap
      (decodeInput (trimmed (s.capturedFrom (0 + 1) 1 s.cfg.capacity))) := by
  refine fun s hs => Laws.framesFit_of_length _ ?_
  rw [Laws.decodeInput_eq]
  revert s
  decide +kernel

/-- The half-frames of the trace of T7, and of a schedule of it, fit; and so does what they are encoded to. -/
theorem readTrace_frames :
    ∀ xs ∈ [readTrace, samples [(1501, false), (1508, true), (1513, false)]],
      FramesFit demo.par.payCap (decodeInput xs)
      ∧ 577 + 512 * ((frameLows (decodeInput xs)).length / 8) ≤ Config.trCap :=
  fun xs hxs => ⟨Laws.framesFit_of_length _ (by revert xs; decide +kernel), by revert xs; decide +kernel⟩

/-- ModeSendHexWithoutPin: P1. -/
theorem witness_mode_send_hex :
    ∀ s ∈ [withCfg { Cfg.reset with
        mode := some .sendHex, hexPayload := some [0x30, 0x30], outputTracePath := some [0x7A] }],
      s.cfg.mode = some .sendHex ∧ s.cfg.pin = none ∧ s.cfg.hexPayload = some [0x30, 0x30]
      ∧ 1 ≤ s.cfg.capacity ∧ s.cfg.capacity ≤ 1000000
      ∧ parseHex [0x30, 0x30] = some [0x00] ∧ [(0x00 : Byte)].length ≤ s.par.payCap
      ∧ 577 + 512 * [(0x00 : Byte)].length ≤ Config.trCap ∧ s.nextWritable = true := by decide +kernel

/-- A clock that reads the last value before the wrap, 0, 1000 and then 1000000 for ever. -/
def lateClock : Nat → State → State := fun n s =>
  { s with clk := 0, env := { s.env with
      clock := ⟨[4294967295, 1, 1000, 999000] ++ List.replicate n 0, 0⟩ } }

/-- The empty hex string to be sent on pin 4: the 577 samples of two half-frames without a byte. -/
def sendMode (stats : Bool) : State :=
  lateClock 1154 (withCfg { Cfg.reset with
    mode := some .sendHex, hexPayload := some [], pin := some 4, enableSendStatistics := stats })

/-- From the fourth read on the clock reads 1000000. -/
theorem sendMode_reads (stats : Bool) (k : Nat) (hk : k ≤ 1154) :
    (sendMode stats).clockReading (k + 3) = 1000000 := by
  induction k with
  | zero => cases stats <;> decide +kernel
  | succ k ih =>
    have zero : (sendMode stats).env.clock.answer Config.clkAdvance (k + 4) = 0 := by
      have h : (sendMode stats).env.clock.script[k + 4]? = some 0 := by
        show (List.replicate 1154 0)[k]? = some 0
        rw [List.getElem?_replicate, if_pos (by omega)]
      simp only [Tape.answer, h]
    show (sendMode stats).clockReading (k + 3) + BitVec.ofNat 32 _ = _
    rw [zero, ih (by omega)]
    decide

/-- Waits that each end at their first read. -/
theorem waitsEnd_at_once (s : State) (extra : Nat) (xs : List Sample) (j : Nat)
    (hlen : j + (1 + extra) * xs.length ≤ s.env.clock.script.length + 1)
    (due : ∀ x ∈ xs, ∀ k, j ≤ k → k < j + (1 + extra) * xs.length →
      x.t.toNat ≤ (s.clockReading k).toNat) :
    s.waitsEnd extra j xs (List.range' j xs.length (1 + extra)) := by
  induction xs generalizing j with
  | nil => trivial
  | cons x xs ih =>
    simp only [List.length_cons, Nat.mul_add, Nat.mul_one] at hlen due ⊢
    refine ⟨le_refl j, by omega, fun k h1 h2 => absurd h2 (by omega),
      due x List.mem_cons_self j (le_refl j) (by omega), ?_⟩
    rw [Nat.add_assoc j 1 extra]
    exact ih (j + (1 + extra)) (by omega)
      fun y hy k h1 h2 => due y (List.mem_cons_of_mem x hy) k (by omega) (by omega)

/-- ModeSendHexTransmits: the empty payload, every edge due at once, the guard reading twice, without
statistics and with them. -/
theorem witness_mode_send_hex_transmits (stats : Bool) :
    (sendMode stats).cfg.mode = some .sendHex ∧ (sendMode stats).cfg.pin = some 4
    ∧ 4 < (sendMode stats).par.pinCount
    ∧ 1 ≤ (sendMode stats).cfg.capacity ∧ (sendMode stats).cfg.capacity ≤ 1000000
    ∧ (sendMode stats).cfg.hexPayload = some [] ∧ parseHex [] = some []
    ∧ ([] : List Byte).length ≤ (sendMode stats).par.payCap
    ∧ 577 + 512 * ([] : List Byte).length ≤ Config.trCap
    ∧ (sendMode stats).cfg.enableSendStatistics = stats ∧ (sendMode stats).cfg.outputTracePath = none
    ∧ (sendMode stats).nextPinOk = true ∧ 1 ≤ (sendMode stats).env.clock.script.length
    ∧ (∀ i < 1, 4294967296 - ((sendMode stats).clockReading i).toNat <
        (sendMode stats).par.wrapMargin * 1000000)
    ∧ (sendMode stats).par.wrapMargin * 1000000 ≤ 4294967296 - ((sendMode stats).clockReading 1).toNat
    ∧ fitsWindow ((sendMode stats).clockReading (1 + 1)) (sendMode stats).nextDelay (encodedTrace [])
    ∧ (sendMode stats).waitsEnd (if stats = true then 1 else 0) (1 + 2)
        (scheduleFrom ((sendMode stats).clockReading (1 + 1)) (sendMode stats).nextDelay (encodedTrace []))
        (List.range' 3 577 (1 + if stats = true then 1 else 0)) := by
  have hlen : (scheduleFrom ((sendMode stats).clockReading (1 + 1)) (sendMode stats).nextDelay
      (encodedTrace [])).length = 577 := by cases stats <;> decide +kernel
  refine ⟨rfl, rfl, by cases stats <;> decide +kernel, by cases stats <;> decide +kernel,
    by cases stats <;> decide +kernel, rfl, rfl, by cases stats <;> decide +kernel, by decide +kernel,
    rfl, rfl, by cases stats <;> decide +kernel, by cases stats <;> decide +kernel,
    by cases stats <;> decide +kernel, by cases stats <;> decide +kernel, ?_, ?_⟩
  · intro x hx
    have last : (encodedTrace []).getLast? = some ⟨22907, false⟩ := by decide +kernel
    rw [last] at hx
    rw [← Option.some.inj hx]
    cases stats <;> decide +kernel
  · have all : ∀ y ∈ scheduleFrom ((sendMode stats).clockReading (1 + 1)) (sendMode stats).nextDelay
        (encodedTrace []), y.t.toNat ≤ (1000000 : U32).toNat := by cases stats <;> decide +kernel
    revert hlen all
    generalize scheduleFrom ((sendMode stats).clockReading (1 + 1)) (sendMode stats).nextDelay
      (encodedTrace []) = xs
    intro hlen all
    have script : (sendMode stats).env.clock.script.length = 1158 := by cases stats <;> decide +kernel
    have two : (1 + if stats = true then 1 else 0) ≤ 2 := by cases stats <;> decide
    have bound : (1 + if stats = true then 1 else 0) * xs.length ≤ 1154 := by
      rw [hlen]; exact Nat.mul_le_mul_right 577 two
    have h := waitsEnd_at_once (sendMode stats) (if stats = true then 1 else 0) xs 3 (by omega)
      fun x hx k h1 h2 => by
        have hk : k = k - 3 + 3 := by omega
        rw [hk, sendMode_reads stats (k - 3) (by omega)]
        exact all x hx
    rw [hlen] at h
    exact h

/-- The replay of the file of T4, decoded and re-encoded to another path. -/
def replayMode : State :=
  { (demo.putFile [0x61] (header ++ [0x30, 0x09, 0x30, 0x0A, 0x37, 0x09, 0x31, 0x0A,
      0x31, 0x32, 0x09, 0x30, 0x0A])) with
    cfg := { Cfg.reset with
      mode := some .replayFile, inputTracePath := some [0x61], outputTracePath := some [0x62]
      decodeAfterSample := true, reencode := true } }

/-- ModeReplayWithoutPin: the file of T4 (its half-frames: readTrace_frames). -/
theorem witness_mode_replay :
    ∃ contents, replayMode.cfg.mode = some .replayFile ∧ replayMode.cfg.pin = none
      ∧ 1 ≤ replayMode.cfg.capacity ∧ replayMode.cfg.capacity ≤ 1000000
      ∧ replayMode.cfg.inputTracePath = some [0x61]
      ∧ fileLookup [0x61] replayMode.mem.files = some contents ∧ replayMode.nextReadable = true
      ∧ (fileLines contents).tail.map parseLine = readTrace.map some ∧ readTrace.length ≤ Config.trCap
      ∧ replayMode.par = demo.par ∧ replayMode.nextWritable = true :=
  ⟨_, rfl, rfl, by decide, by decide, rfl, rfl, by decide +kernel, by decide +kernel, by decide +kernel,
    rfl, by decide +kernel⟩

/-- The replay of the file of T4 on pin 4. -/
def replaySent : State :=
  withReads [1000, 1001, 1501, 1508, 1513]
    { replayMode with cfg := { Cfg.reset with
      mode := some .replayFile, inputTracePath := some [0x61], pin := some 4 } }

/-- The same with statistics, decoded and re-encoded, the guard reading twice. -/
def replayMeasured : State :=
  withReads [4294967295, 1000, 1001, 1501, 1502, 1508, 1509, 1513, 1514]
    { replayMode with cfg := { replayMode.cfg with pin := some 4, enableSendStatistics := true } }

/-- The trace of T7 fits below the wrap of a clock that reads 1001. -/
theorem readTrace_fits : fitsWindow 1001 500 readTrace := by
  intro x hx
  have last : readTrace.getLast? = some ⟨12, false⟩ := by decide +kernel
  rw [last] at hx
  rw [← Option.some.inj hx]
  decide +kernel

/-- ModeReplayTransmits: each wait ends at its first read. -/
theorem witness_mode_replay_transmits :
    replaySent.cfg.pin = some 4 ∧ 4 < replaySent.par.pinCount ∧ replaySent.cfg.decodeAfterSample = false
    ∧ replaySent.cfg.enableSendStatistics = false ∧ replaySent.nextPinOk = true
    ∧ replaySent.par.wrapMargin * 1000000 ≤ 4294967296 - (replaySent.clockReading 0).toNat
    ∧ fitsWindow (replaySent.clockReading (0 + 1)) replaySent.nextDelay readTrace
    ∧ scheduleFrom (replaySent.clockReading (0 + 1)) replaySent.nextDelay readTrace =
        samples [(1501, false), (1508, true), (1513, false)]
    ∧ replaySent.waitsEnd 0 (0 + 2) (samples [(1501, false), (1508, true), (1513, false)]) [2, 3, 4] := by
  refine ⟨rfl, by decide +kernel, rfl, rfl, by decide +kernel, by decide +kernel, ?_, by decide +kernel, ?_⟩
  · have hc : replaySent.clockReading (0 + 1) = 1001 ∧ replaySent.nextDelay = 500 := by decide +kernel
    rw [hc.1, hc.2]
    exact readTrace_fits
  · exact ⟨by decide, by decide +kernel, fun k h1 h2 => absurd h2 (by omega), by decide +kernel,
      by decide, by decide +kernel, fun k h1 h2 => absurd h2 (by omega), by decide +kernel,
      by decide, by decide +kernel, fun k h1 h2 => absurd h2 (by omega), by decide +kernel, trivial⟩

/-- ModeReplayTransmits: with statistics, decoding, re-encoding and a guard that reads twice (the half-frames:
readTrace_frames). -/
theorem witness_mode_replay_measured :
    replayMeasured.cfg.mode = some .replayFile ∧ replayMeasured.cfg.pin = some 4
    ∧ replayMeasured.cfg.enableSendStatistics = true ∧ replayMeasured.cfg.decodeAfterSample = true
    ∧ replayMeasured.cfg.reencode = true ∧ replayMeasured.cfg.outputTracePath = some [0x62]
    ∧ 1 ≤ replayMeasured.env.clock.script.length
    ∧ (∀ i < 1, 4294967296 - (replayMeasured.clockReading i).toNat <
        replayMeasured.par.wrapMargin * 1000000)
    ∧ replayMeasured.par.wrapMargin * 1000000 ≤ 4294967296 - (replayMeasured.clockReading 1).toNat
    ∧ fitsWindow (replayMeasured.clockReading (1 + 1)) replayMeasured.nextDelay readTrace
    ∧ scheduleFrom (replayMeasured.clockReading (1 + 1)) replayMeasured.nextDelay readTrace =
        samples [(1501, false), (1508, true), (1513, false)]
    ∧ replayMeasured.waitsEnd 1 (1 + 2) (samples [(1501, false), (1508, true), (1513, false)]) [3, 5, 7]
    ∧ replayMeasured.par = demo.par ∧ replayMeasured.nextWritable = true := by
  refine ⟨rfl, rfl, rfl, rfl, rfl, rfl, by decide +kernel, by decide +kernel, by decide +kernel, ?_,
    by decide +kernel, ?_, rfl, by decide +kernel⟩
  · have hc : replayMeasured.clockReading (1 + 1) = 1001 ∧ replayMeasured.nextDelay = 500 := by decide +kernel
    rw [hc.1, hc.2]
    exact readTrace_fits
  · exact ⟨by decide, by decide +kernel, fun k h1 h2 => absurd h2 (by omega), by decide +kernel,
      by decide, by decide +kernel, fun k h1 h2 => absurd h2 (by omega), by decide +kernel,
      by decide, by decide +kernel, fun k h1 h2 => absurd h2 (by omega), by decide +kernel, trivial⟩

/-- ErrorsAreTakenWhole: a reserved command word. -/
theorem witness_error_taken :
    ∃ t, step (commanded 0x0000) = .next t ∧ t.err ≠ (commanded 0x0000).err :=
  ⟨_, next_of_seen _ (by decide +kernel), by decide +kernel⟩

/-- PriorityGivenBack: a transmission that ends; one that waits and ends; one on a fair clock (its invariant
is halfSent_inv). -/
theorem witness_priority_given_back :
    (Instr.transmit noFlags).op ≠ .raisePriority ∧ sending.prio = .normal
    ∧ (∃ t, exec (.transmit noFlags) sending = .next t ∧ t.seq.busy = false)
    ∧ halfSent.cmd = none ∧ halfSent.seq.busy = true ∧ halfSent.seq.todo = [.transmitWait 4 false]
    ∧ (∃ t, step halfSent = .next t ∧ t.seq.busy = false)
    ∧ FairClock halfSent.clk (fun _ => 1) :=
  ⟨by decide, rfl, ⟨_, next_of_seen _ (by decide +kernel), by decide +kernel⟩, rfl, rfl, rfl,
    ⟨_, next_of_seen _ (by decide +kernel), by decide +kernel⟩, fair_ticks⟩

/-- WhoWritesFilesAndPins: an operation that is none of those named. -/
theorem witness_who_writes :
    (∃ t, exec (.compact noFlags) demo = .next t)
    ∧ (Instr.compact noFlags).op ≠ .traceWrite ∧ (Instr.compact noFlags).op.isMode = false
    ∧ (Instr.compact noFlags).op ≠ .writePin ∧ (Instr.compact noFlags).op ≠ .transmit :=
  ⟨⟨_, rfl⟩, by decide, by decide, by decide, by decide⟩

/-- The demo state has the invariant. -/
theorem demo_inv : demo.Inv where
  memory := by decide +kernel
  pinsOrdered := by decide +kernel
  pinsConfigured := by decide +kernel
  errorExit := fun h => absurd rfl h
  cleanExit := fun _ => .inl rfl
  sequenced := .inl rfl

/-- So has a transmission that waits. -/
theorem halfSent_inv : halfSent.Inv where
  memory := by decide +kernel
  pinsOrdered := by decide +kernel
  pinsConfigured := by decide +kernel
  errorExit := fun h => absurd rfl h
  cleanExit := fun _ => .inl rfl
  sequenced := .inr ⟨.transmitWait 4 false, [], rfl,
    ⟨by decide +kernel, by decide +kernel, rfl, by decide +kernel, fun h => absurd h (by decide)⟩, rfl⟩

/-- So has a capture that waits for the trigger. -/
theorem awaiting_inv : awaiting.Inv where
  memory := by decide +kernel
  pinsOrdered := by decide +kernel
  pinsConfigured := by decide +kernel
  errorExit := fun h => absurd rfl h
  cleanExit := fun _ => .inl rfl
  sequenced := .inr ⟨.samplePoll 17, [], rfl,
    ⟨by decide +kernel, by decide +kernel, by decide +kernel, by decide +kernel, rfl⟩, rfl⟩

/-- SampleTimesRise: that capture, resumed, begins at poll 1 (its invariant is awaiting_inv). -/
theorem witness_sample_times_resumed :
    awaiting.cmd = none
    ∧ awaiting.seq = { busy := true, op := some .sample, phase := 2, todo := [.samplePoll 17] }
    ∧ 1 ≤ awaiting.env.level.script.length ∧ (∀ i < 1, awaiting.levelReading i = awaiting.wr.l0)
    ∧ awaiting.levelReading 1 ≠ awaiting.wr.l0
    ∧ ((List.range (awaiting.wr.n - 1)).map fun i =>
        awaiting.env.clock.answer Config.clkAdvance (1 + 1 + i)).sum < 4294967296
    ∧ (awaiting.clockReading 1).toNat ≤ (awaiting.clockReading (1 + (awaiting.wr.n - 1))).toNat
    ∧ seen traceOf (step awaiting) = some [(0, true)] := by decide +kernel

/-- InvariantKept, StepsOnlyAdd: a step of a transmission that waits, and an idle one. -/
theorem witness_invariant_kept :
    halfSent.Inv ∧ (∃ t, step halfSent = .next t) ∧ demo.Inv ∧ step demo = .next demo :=
  ⟨halfSent_inv, ⟨_, next_of_seen _ (by decide +kernel)⟩, demo_inv, rfl⟩

/-- A command word keeps the invariant of an idle block. -/
theorem commanded_inv (w : CmdWord) : (commanded w).Inv :=
  ⟨demo_inv.memory, demo_inv.pinsOrdered, demo_inv.pinsConfigured, demo_inv.errorExit, demo_inv.cleanExit,
    .inl rfl⟩

/-- StopsOnlyAsStated: a burst with a cursor never written, a pin that is no input, one that is no output, a
second mode, each from a state with the invariant. -/
theorem witness_stops :
    (commanded 0x0012).Inv ∧ step (commanded 0x0012) = .refused .unwrittenCursor
    ∧ step (commanded 0x0002) = .refused (.readOfNonInput 0)
    ∧ step (commanded 0x0003) = .refused (.writeToNonOutput 0)
    ∧ step { commanded 0x0014 with modeStarted := true } = .refused .secondMode := by
  exact ⟨commanded_inv _, rfl, rfl, rfl, rfl⟩

/-- HostMoves: moves while the block polls, while a command word waits, after an error, on an idle block; a
file written and removed; more records than fit. -/
theorem witness_host_moves :
    (∃ t, hostMove (.writeFile [0x61] []) demo = .next t) ∧ demo.Inv
    ∧ guarding.seq.busy = true ∧ (commanded 0x0004).cmd ≠ none
    ∧ HostMove.writeCommand 0 ≠ .reset ∧ HostMove.writeTrace [] ≠ .reset
    ∧ (∀ w, HostMove.writeTrace [] ≠ .writeCommand w)
    ∧ ({ demo with err := FatalError.wrapReject.registers }.err.kind ≠ .none)
    ∧ demo.seq.busy = false ∧ demo.cmd = none ∧ demo.err.kind = .none
    ∧ demo.par.payCap < (List.replicate 33 (0 : Byte)).length
    ∧ Config.trCap < (List.replicate 1000001 (⟨0, false⟩ : Sample)).length :=
  ⟨⟨_, rfl⟩, demo_inv, rfl, by decide, by decide, by decide, fun _ h => HostMove.noConfusion h, by decide, rfl, rfl, rfl,
    by decide +kernel, by rw [List.length_replicate]; decide⟩

/-- R129, R61: after a fatal error, and while a command word waits, HOST can only reset; and a file goes. -/
theorem test_host_refused :
    hostMove (.writeCommand 0x0004) { demo with err := FatalError.wrapReject.registers } =
        .refused .invocationOver
    ∧ hostMove (.writeCommand 0x0004) (commanded 0x0008) = .refused .startedWhileBusy
    ∧ seen (fun s => s.mem.files) (hostMove (.removeFile [0x61]) (demo.putFile [0x61] [])) = some [] :=
  ⟨rfl, rfl, by decide +kernel⟩

/-- The table of R124, codes 16 to 19. -/
theorem test_anomaly_codes :
    (Anomaly.checksumMismatch 0 none).code = 16 ∧ (Anomaly.countMismatch 0 2 3).code = 17
    ∧ (Anomaly.contentMismatch 0 0 0xA5 0xA4).code = 18 ∧ (Anomaly.timingAnomaly 0 0 0).code = 19 := by decide

/-- U18: a mode name that is none of the three is a configuration error. -/
theorem test_mode_unknown :
    seen (fun s => (s.err.option, s.exit))
      (exec (.modeSample noFlags) { demo with cfg := { Cfg.reset with mode := some (.other [0x78]) } }) =
      some (some .mode, some 1) := by decide +kernel

/-- R111, U18: a capacity outside `1 .. BUF_CAP` is a configuration error of the modes that capture nothing. -/
theorem test_mode_capacity :
    (∀ c ∈ [0, 1000001], seen (fun s => (s.err.option, s.exit))
      (exec (.modeSendHex noFlags)
        { demo with cfg := { Cfg.reset with mode := some .sendHex, hexPayload := some [], capacity := c } }) =
      some (some .capacity, some 1))
    ∧ (∀ c ∈ [0, 1000001], seen (fun s => (s.err.option, s.exit))
      (exec (.modeReplayFile noFlags)
        { demo with cfg := { Cfg.reset with
            mode := some .replayFile, inputTracePath := some [0x61], capacity := c } }) =
      some (some .capacity, some 1)) := by decide +kernel

end Sys2Proof.Tests
end

section
/-! The moves of HOST (spec/00_scope.md R6, spec/60_exceptions.md R129, R137): a write reaches neither the pins,
nor the parameters, nor the error registers, nor the sequencer, so on an idle block only the memories can break
the invariant, and every write leaves them in canonical form. -/

namespace Sys2Proof.Proofs
open Sys2Proof.Machine Sys2Proof.Machine.Laws

/-! ### What a write of HOST leaves alone -/

/-- What no write of HOST reaches: the parameters, the pins, the error registers with `EXIT`, the sequencer. -/
structure SameBlock (s t : State) : Prop where
  par : t.par = s.par
  pins : t.pins = s.pins
  err : t.err = s.err
  exit : t.exit = s.exit
  seq : t.seq = s.seq

/-- With the invariant, `BUSY = 0` leaves nothing of an operation in the sequencer (R29). -/
theorem seq_idle_of_not_busy {s : State} (h : s.Inv) (hb : s.seq.busy = false) : s.seq = .idle := by
  rcases h.sequenced with hidle | ⟨task, rest, hseq, _⟩
  · exact hidle
  · rw [hseq] at hb
    cases hb

/-- On an idle block the invariant survives any change that keeps the memories in canonical form and the rest
of what it speaks of as it was. -/
theorem inv_of_sameBlock {s t : State} (h : s.Inv) (hb : s.seq.busy = false) (same : SameBlock s t)
    (hmem : t.mem.wf s.par.payCap = true) : t.Inv := by
  have sound : Sound t :=
    sound_of_mem ⟨h.memory, h.pinsOrdered, h.pinsConfigured⟩ hmem same.pins same.par
  exact
    { memory := sound.memory
      pinsOrdered := sound.pinsOrdered
      pinsConfigured := sound.pinsConfigured
      errorExit := by rw [same.err, same.exit, same.seq]; exact h.errorExit
      cleanExit := by rw [same.err, same.exit]; exact h.cleanExit
      sequenced := .inl (same.seq.trans (seq_idle_of_not_busy h hb)) }

/-- What a write of HOST can do, whatever the write: the block stays the same, and memories in canonical form
stay so, each write of records being within the capacity of its space (R38). -/
theorem apply_next {s t : State} {m : HostMove} (hm : m ≠ .reset) (h : HostMove.apply s m = .next t) :
    SameBlock s t ∧ (s.mem.wf s.par.payCap = true → t.mem.wf s.par.payCap = true) := by
  cases m with
  | writeCfg c => cases h; exact ⟨⟨rfl, rfl, rfl, rfl, rfl⟩, id⟩
  | writeOperands o => cases h; exact ⟨⟨rfl, rfl, rfl, rfl, rfl⟩, id⟩
  | writeTrace xs =>
    simp only [HostMove.apply] at h
    split at h
    · next hfits => cases h; exact ⟨⟨rfl, rfl, rfl, rfl, rfl⟩, fun hwf => wf_tr hwf hfits⟩
    · cases h
  | writePayload bs =>
    simp only [HostMove.apply] at h
    split at h
    · next hfits => cases h; exact ⟨⟨rfl, rfl, rfl, rfl, rfl⟩, fun hwf => wf_pay hwf hfits⟩
    · cases h
  | writeFile path contents => cases h; exact ⟨⟨rfl, rfl, rfl, rfl, rfl⟩, fun hwf => wf_putFile hwf⟩
  | removeFile path => cases h; exact ⟨⟨rfl, rfl, rfl, rfl, rfl⟩, fun hwf => wf_removeFile hwf⟩
  | writeCommand w => cases h; exact ⟨⟨rfl, rfl, rfl, rfl, rfl⟩, id⟩
  | reset => exact absurd rfl hm

/-! ### The invariant -/

/-- Reset empties the record spaces and keeps the file store (R138), so only the order of its paths matters. -/
theorem wf_reset_with_files {cap cap' : Nat} {m : Memory} (h : m.wf cap = true) :
    ({ Memory.reset with files := m.files } : Memory).wf cap' = true := by
  obtain ⟨_, _, _, _, _, hfiles⟩ := (wf_iff cap m).1 h
  obtain ⟨hraw, htr, hobs, hpay, hpay2, _⟩ := (wf_iff cap' Memory.reset).1 (wf_reset cap')
  exact (wf_iff cap' _).2 ⟨hraw, htr, hobs, hpay, hpay2, hfiles⟩

/-- A reset keeps the invariant, at whatever point it comes (R138). -/
theorem resetAgain_inv {s : State} (h : s.Inv) : s.resetAgain.Inv where
  memory := wf_reset_with_files h.memory
  pinsOrdered := rfl
  pinsConfigured := fun _ he => absurd he List.not_mem_nil
  errorExit := fun hkind => absurd rfl hkind
  cleanExit := fun _ => .inl rfl
  sequenced := .inl rfl

/-- A move of HOST keeps the invariant: a reset sets it up again, and any other move that is not refused is a
write on an idle block. -/
theorem hostMove_keeps_inv {s t : State} {m : HostMove} (h : s.Inv) (hn : hostMove m s = .next t) :
    t.Inv := by
  by_cases hm : m = .reset
  · subst hm
    rw [hostMove_reset] at hn
    cases hn
    exact resetAgain_inv h
  · rcases hostMove_cases m s hm with ⟨_, he⟩ | ⟨_, _, he⟩ | ⟨hfree, _, he⟩
    · rw [he] at hn; cases hn
    · rw [he] at hn; cases hn
    · have hb : s.seq.busy = false := (Bool.or_eq_false_iff.1 hfree).1
      obtain ⟨same, keeps⟩ := apply_next hm (he.symm.trans hn)
      exact inv_of_sameBlock h hb same (keeps h.memory)

/-! ### Refused or applied -/

/-- Nothing is under way once `BUSY = 0` and no command word waits. -/
theorem not_underWay {s : State} (hb : s.seq.busy = false) (hc : s.cmd = none) : s.underWay = false := by
  rw [State.underWay, hb, hc]; rfl

/-- While an operation is under way every move but a reset is refused (U5, log entry 29). -/
theorem hostMove_underWay {s : State} {m : HostMove} (hm : m ≠ .reset) (hu : s.underWay = true) :
    hostMove m s = .refused m.whileBusy := by
  rcases hostMove_cases m s hm with ⟨_, h⟩ | ⟨hfree, _⟩ | ⟨hfree, _⟩
  · exact h
  · rw [hfree] at hu; cases hu
  · rw [hfree] at hu; cases hu

/-- The kind of that refusal for a move that writes no command word. -/
theorem whileBusy_of_not_command {m : HostMove} (h : ∀ w, m ≠ .writeCommand w) :
    m.whileBusy = .hostWriteWhileBusy := by
  cases m with
  | writeCommand w => exact absurd rfl (h w)
  | _ => rfl

/-- After a fatal error every move but a reset is refused (R129). -/
theorem hostMove_after_error {s : State} {m : HostMove} (hm : m ≠ .reset) (hu : s.underWay = false)
    (he : s.err.kind ≠ .none) : hostMove m s = .refused .invocationOver := by
  rcases hostMove_cases m s hm with ⟨hbusy, _⟩ | ⟨_, _, h⟩ | ⟨_, hclear, _⟩
  · rw [hu] at hbusy; cases hbusy
  · exact h
  · exact absurd hclear he

/-- On an idle block without an error a move takes effect. -/
theorem hostMove_applied {s : State} {m : HostMove} (hm : m ≠ .reset) (hu : s.underWay = false)
    (he : s.err.kind = .none) : hostMove m s = HostMove.apply s m := by
  rcases hostMove_cases m s hm with ⟨hbusy, _⟩ | ⟨_, herr, _⟩ | ⟨_, _, h⟩
  · rw [hu] at hbusy; cases hbusy
  · exact absurd he herr
  · exact h

/-- Settles O59: the invariant by `hostMove_keeps_inv`; then the two ways a move is refused; then each write,
as `HostMove.apply` makes it, the file store read back by its laws. -/
theorem hostMoves : Obligations.HostMoves := by
  refine ⟨fun s t m => hostMove_keeps_inv, fun s m hm hbusy => ?_, fun s m hm hb hc he => ?_,
    fun s hb hc he => ?_⟩
  · have refusal := hostMove_underWay hm ((underWay_iff s).2 hbusy)
    refine ⟨?_, fun hother => ?_⟩
    · rintro ⟨w, rfl⟩
      exact refusal
    · rw [refusal, whileBusy_of_not_command hother]
  · exact hostMove_after_error hm (not_underWay hb hc) he
  · have applied : ∀ m : HostMove, m ≠ .reset → hostMove m s = HostMove.apply s m :=
      fun m hm => hostMove_applied hm (not_underWay hb hc) he
    refine ⟨fun c => applied _ nofun, fun o => applied _ nofun, fun xs => ⟨fun hfits => ?_, fun hover => ?_⟩,
      fun bs => ⟨fun hfits => ?_, fun hover => ?_⟩, fun path contents => ?_, fun path => ?_,
      fun w => applied _ nofun⟩
    · exact (applied (.writeTrace xs) nofun).trans (if_pos hfits)
    · exact (applied (.writeTrace xs) nofun).trans (if_neg (Nat.not_le.2 hover))
    · exact (applied (.writePayload bs) nofun).trans (if_pos hfits)
    · exact (applied (.writePayload bs) nofun).trans (if_neg (Nat.not_le.2 hover))
    · exact ⟨s.putFile path contents, applied _ nofun, rfl,
        fun q => fileLookup_store path q contents s.mem.files⟩
    · exact ⟨s.removeFile path, applied _ nofun, rfl, fun q => fileLookup_erase path q s.mem.files⟩

end Sys2Proof.Proofs
end

section
/-! One step of the block (spec/10_state.md R14, R29, R30, R32, R35, R38): from the contract of each operation, what
the state it leaves owes to the state it began in. An operation that ends has only grown; from a calm state, sound
and without an error, it ends in a state with the invariant. -/

namespace Sys2Proof.Proofs
open Sys2Proof.Machine Sys2Proof.Machine.Laws

/-! ### The invariant where a step can end -/

/-- A state in which an operation may begin or go on: sound, no error raised, no exit status but 0. -/
structure Calm (s : State) : Prop where
  sound : Sound s
  noError : s.err.kind = .none
  exit : s.exit = none ∨ s.exit = some 0

/-- With the invariant and no error the block is calm. -/
theorem calm_of_inv {s : State} (h : s.Inv) (he : s.err.kind = .none) : Calm s :=
  ⟨⟨h.memory, h.pinsOrdered, h.pinsConfigured⟩, he, h.cleanExit he⟩

/-- After a fatal error nothing runs, so a block whose sequencer is busy has raised none. -/
theorem noError_of_busy {s : State} (h : s.Inv) (hb : s.seq.busy = true) : s.err.kind = .none := by
  by_contra he
  rw [(h.errorExit he).2] at hb
  cases hb

theorem sound_seq {s : State} (q : Sequencer) (h : Sound s) : Sound { s with seq := q } :=
  ⟨h.memory, h.pinsOrdered, h.pinsConfigured⟩

/-- What a polling operation relies on does not lie in the sequencer. -/
theorem polling_suspend {s : State} {k j : Task} {rest : List Task} (h : s.polling k) :
    (s.suspend j rest).polling k := by
  cases k with
  | avoidClockWrap m => exact h
  | samplePoll pin => exact h
  | transmitWait pin stats => exact h
  | _ => exact h.elim

/-- A calm block whose sequencer is as R29 has it meets the invariant. -/
theorem inv_of_calm {s : State} (h : Calm s) (hseq : s.sequenced) : s.Inv where
  memory := h.sound.memory
  pinsOrdered := h.sound.pinsOrdered
  pinsConfigured := h.sound.pinsConfigured
  errorExit := fun he => absurd h.noError he
  cleanExit := fun _ => h.exit
  sequenced := hseq

theorem inv_finish {s : State} (h : Calm s) : s.finish.Inv :=
  inv_of_calm ⟨sound_seq .idle h.sound, h.noError, h.exit⟩ (.inl rfl)

theorem inv_suspend {s : State} {k : Task} {rest : List Task} (h : Calm s) (hk : s.polling k)
    (hrest : rest.all Task.fresh = true) : (s.suspend k rest).Inv :=
  inv_of_calm ⟨sound_seq _ h.sound, h.noError, h.exit⟩
    (.inr ⟨k, rest, rfl, polling_suspend hk, hrest⟩)

/-- The kind an error writes to `ERR.kind` is its own, never `none` (R124, R127). -/
theorem registers_kind (e : FatalError) : e.registers.kind = e.kind ∧ e.kind ≠ .none := by
  cases e <;> exact ⟨rfl, nofun⟩

theorem inv_taken {s : State} (h : Sound s) (ht : Taken s) : s.Inv := by
  obtain ⟨e, herr, hexit, hseq, _⟩ := ht
  obtain ⟨hkind, hsome⟩ := registers_kind e
  exact
    { memory := h.memory
      pinsOrdered := h.pinsOrdered
      pinsConfigured := h.pinsConfigured
      errorExit := fun _ => ⟨by rw [hexit, herr, hkind], hseq⟩
      cleanExit := fun hnone => absurd (by rw [← hkind, ← herr]; exact hnone) hsome
      sequenced := .inl hseq }

/-- An operation that has ended done or at a poll leaves a calm block calm. -/
theorem calm_after {s t : State} (h : Calm s) (hc : SameControl s t) (he : t.exit = s.exit ∨ t.exit = some 0)
    (ht : Sound t) : Calm t :=
  ⟨ht, by rw [hc.err]; exact h.noError, he.elim (fun heq => heq ▸ h.exit) .inr⟩

/-! ### What an outcome owes -/

/-- What a step from `s` that answers a next state owes: it has only grown (R14, R30, R32), and, where `P` held,
it has the invariant. -/
inductive Lands (P : Prop) (s : State) : Host.Outcome State Fault Refusal → Prop where
  | next {t : State} (grows : s.Grows t) (inv : P → t.Inv) : Lands P s (.next t)
  | fault {f : Fault} : Lands P s (.fault f)
  | refused {r : Refusal} : Lands P s (.refused r)

theorem lands_next {P : Prop} {s t : State} (h : Lands P s (.next t)) : s.Grows t ∧ (P → t.Inv) := by
  cases h with
  | next hg hi => exact ⟨hg, hi⟩

/-- What lands from a state that `s` has grown into lands from `s`. -/
theorem lands_after {P Q : Prop} {s t : State} {o : Host.Outcome State Fault Refusal} (hg : s.Grows t)
    (hP : P → Q) (h : Lands Q t o) : Lands P s o := by
  cases h with
  | next hg' hi => exact .next (grows_trans hg hg') fun p => hi (hP p)
  | fault => exact .fault
  | refused => exact .refused

/-- The sequencer is none of what a step may only add to. -/
theorem grows_seq {s t : State} (q : Sequencer) (h : s.Grows t) : s.Grows { t with seq := q } :=
  ⟨h.wlog, h.report, h.flags, h.cfg, h.opnd, h.par, h.epoch⟩

/-- An operation that HOST started lands by its contract. -/
theorem lands_outcome {P : Prop} {s : State} {x : Act Unit} {D : Unit → State → Prop}
    (hP : Calm s → P) (h : Contract P s x D) : Lands (Calm s) s x.outcome := by
  cases h with
  | done hg hc he hp =>
    exact .next (grows_seq _ hg) fun c => inv_finish (calm_after c hc he (hp (hP c)).1)
  | fatal hg ht _ _ hp => exact .next hg fun c => inv_taken (hp (hP c)) ht
  | wait hg hc he hp =>
    refine .next (grows_seq _ hg) fun c => ?_
    obtain ⟨hs, hpoll⟩ := hp (hP c)
    exact inv_suspend (calm_after c hc he hs) hpoll rfl
  | fault _ => exact .fault
  | refused _ => exact .refused

/-- An operation that only makes a quiet change. -/
theorem lands_quiet {s t : State} (hq : Quiet s t) (hs : Sound s → Sound t) :
    Lands (Calm s) s (.next t.finish) :=
  lands_outcome (x := .done () t) (D := fun _ _ => True) Calm.sound
    (contract_quiet hq fun h => ⟨hs h, trivial⟩)

theorem lands_raise (e : FatalError) {s t : State} (hq : Quiet s t) (hs : Sound s → Sound t) :
    Lands (Calm s) s (.next (raise e t)) :=
  lands_outcome (x := .fatal (raise e t)) (D := fun _ _ => True) Calm.sound
    (contract_raise e (quiet_grows hq) (quiet_control hq) hs)

/-! ### The sequencer's stack (R29) -/

/-- One stack entry and then the entries below it: where the entry is one that begins or that a poll left, and
those below it all begin, the stack lands as the entries below it do. -/
theorem runTasks_cons_lands (k : Task) (rest : List Task) (s : State)
    (htail : ∀ t, Lands (Calm t ∧ rest.all Task.fresh = true) t (runTasks rest t)) :
    Lands (Calm s ∧ (k.fresh = true ∨ s.polling k) ∧ rest.all Task.fresh = true) s
      (runTasks (k :: rest) s) := by
  have h := runTask_contract k s
  rw [runTasks]
  cases hx : runTask k s <;> rw [hx] at h <;> cases h
  case done hg hc he hp =>
    refine lands_after hg ?_ (htail _)
    rintro ⟨hcalm, hk, hrest⟩
    exact ⟨calm_after hcalm hc he (hp ⟨hcalm.sound, hk⟩).1, hrest⟩
  case fatal hg ht _ _ hp =>
    exact .next hg fun ⟨hcalm, hk, _⟩ => inv_taken (hp ⟨hcalm.sound, hk⟩) ht
  case wait hg hc he hp =>
    refine .next (grows_seq _ hg) ?_
    rintro ⟨hcalm, hk, hrest⟩
    obtain ⟨hs, hpoll⟩ := hp ⟨hcalm.sound, hk⟩
    exact inv_suspend (calm_after hcalm hc he hs) hpoll hrest
  case fault => exact .fault
  case refused => exact .refused

/-- The stack with entries that all begin an operation or a step. -/
theorem runTasks_lands (ts : List Task) (s : State) :
    Lands (Calm s ∧ ts.all Task.fresh = true) s (runTasks ts s) := by
  induction ts generalizing s with
  | nil => exact .next (grows_seq _ (grows_refl s)) fun c => inv_finish c.1
  | cons k rest ih =>
    refine lands_after (grows_refl s) ?_ (runTasks_cons_lands k rest s ih)
    rintro ⟨hcalm, hall⟩
    obtain ⟨hk, hrest⟩ := Bool.and_eq_true_iff.1 hall
    exact ⟨hcalm, .inl hk, hrest⟩

/-- A block that polls goes on with what its invariant says of its stack (R29). -/
theorem resume_lands (s : State) : Lands (s.Inv ∧ s.seq.busy = true) s (resume s) := by
  rw [resume]
  cases hs : s.seq.todo with
  | nil =>
    refine .next (grows_seq _ (grows_refl s)) ?_
    rintro ⟨hinv, hb⟩
    exact inv_finish (calm_of_inv hinv (noError_of_busy hinv hb))
  | cons k rest =>
    refine lands_after (grows_refl s) ?_ (runTasks_cons_lands k rest s (runTasks_lands rest))
    rintro ⟨hinv, hb⟩
    refine ⟨calm_of_inv hinv (noError_of_busy hinv hb), ?_⟩
    rcases hinv.sequenced with hidle | ⟨j, below, hseq, hpoll, hfresh⟩
    · rw [hidle] at hb; cases hb
    · rw [hseq] at hs
      cases hs
      exact ⟨.inr hpoll, hfresh⟩

/-! ### The modes (R110 to R114) -/

section
variable {p : Task → Bool} (c : Cfg)

/-- The parts of a mode's chain, present or absent as the configuration has it: what is true of each entry is true
of all. -/
theorem storeTasks_all (hwrite : ∀ path flank, p (.traceWrite path flank) = true) :
    (storeTasks c).all p = true := by
  unfold storeTasks
  split
  · rfl
  · simp [hwrite]

theorem transmitTasks_all (margin : Nat) (hguard : ∀ m, p (.avoidClockWrap m) = true)
    (htransmit : ∀ pin stats, p (.transmit pin stats) = true) : (transmitTasks margin c).all p = true := by
  unfold transmitTasks
  split
  · rfl
  · simp [hguard, htransmit]

theorem decodeTasks_all (mode : Op) (hdecode : p .decode = true) (hreport : p (.reportDecoded mode) = true) :
    (decodeTasks mode c).all p = true := by
  unfold decodeTasks
  split
  · simp [hdecode, hreport]
  · rfl

theorem reencodeTasks_all (hencode : p .encode = true)
    (hwrite : ∀ path flank, p (.traceWrite path flank) = true) : (reencodeTasks c).all p = true := by
  unfold reencodeTasks
  split
  · split
    · rfl
    · simp [hencode, hwrite]
  · rfl

end

/-- A mode is a chain of operations each of which begins anew, whatever the configuration. -/
theorem modeSampleTasks_fresh (margin pin : Nat) (c : Cfg) :
    (modeSampleTasks margin pin c).all Task.fresh = true := by
  rw [modeSampleTasks, List.all_append, List.all_append, List.all_append, storeTasks_all c fun _ _ => rfl,
    decodeTasks_all c _ rfl rfl]
  rfl

theorem modeSendHexTasks_fresh (margin : Nat) (hex : Text) (c : Cfg) :
    (modeSendHexTasks margin hex c).all Task.fresh = true := by
  rw [modeSendHexTasks, List.all_append, List.all_append, List.all_append, storeTasks_all c fun _ _ => rfl,
    transmitTasks_all c margin (fun _ => rfl) fun _ _ => rfl]
  rfl

theorem modeReplayTasks_fresh (margin : Nat) (path : Text) (c : Cfg) :
    (modeReplayTasks margin path c).all Task.fresh = true := by
  rw [modeReplayTasks, List.all_append, List.all_append, List.all_append, List.all_append,
    transmitTasks_all c margin (fun _ => rfl) fun _ _ => rfl, decodeTasks_all c _ rfl rfl,
    reencodeTasks_all c rfl fun _ _ => rfl]
  rfl

/-- The start of a mode, noted, is none of what the contracts speak of. -/
theorem grows_startMode (s : State) : s.Grows s.startMode :=
  ⟨List.prefix_refl _, List.prefix_refl _, keeps_refl _, rfl, rfl, rfl, rfl⟩

theorem calm_startMode {s : State} (h : Calm s) : Calm s.startMode :=
  ⟨sound_of_eq h.sound rfl rfl rfl, h.noError, h.exit⟩

theorem configFailure_lands (what : ConfigOption) (s : State) :
    Lands (Calm s) s (configFailure what s.startMode) :=
  lands_after (grows_startMode s) calm_startMode (lands_raise _ (quiet_refl _) id)

/-- A mode that passes step 0 fails a check of ranges or runs its chain (R111). -/
theorem runMode_lands {tasks : List Task} (hfresh : tasks.all Task.fresh = true) (s : State) :
    Lands (Calm s) s (runMode tasks s.startMode) := by
  rcases runMode_cases tasks s.startMode with ⟨_, h⟩ | ⟨_, _, h⟩ | ⟨_, _, _, h⟩ <;> rw [h]
  · exact configFailure_lands .pin s
  · exact configFailure_lands .capacity s
  · exact lands_after (grows_startMode s) (fun c => ⟨calm_startMode c, hfresh⟩) (runTasks_lands tasks _)

theorem execModeSample_lands (s : State) : Lands (Calm s) s (execModeSample s) := by
  unfold execModeSample
  split
  · split
    · exact configFailure_lands .pin s
    · exact runMode_lands (modeSampleTasks_fresh _ _ _) s
  · exact configFailure_lands .mode s

theorem execModeSendHex_lands (s : State) : Lands (Calm s) s (execModeSendHex s) := by
  unfold execModeSendHex
  split
  · split
    · exact configFailure_lands .hexPayload s
    · exact runMode_lands (modeSendHexTasks_fresh _ _ _) s
  · exact configFailure_lands .mode s

theorem execModeReplayFile_lands (s : State) : Lands (Calm s) s (execModeReplayFile s) := by
  unfold execModeReplayFile
  split
  · split
    · exact configFailure_lands .inputTracePath s
    · exact runMode_lands (modeReplayTasks_fresh _ _ _) s
  · exact configFailure_lands .mode s

/-! ### The operations HOST starts -/

/-- A field HOST reads back, `ret`, is none of what the contracts speak of. -/
theorem quiet_ret (r : Option Returned) (s : State) : Quiet s { s with ret := r } :=
  ⟨rfl, rfl, rfl, rfl, rfl, rfl, rfl, rfl, rfl, rfl, rfl, rfl⟩

/-- READ_PIN lands from any pin: of one that is no input it is refused (R71). -/
theorem execReadPin_lands (s : State) : Lands (Calm s) s (execReadPin s) := by
  rw [execReadPin]
  rcases readPin_cases s.opnd.pin s with ⟨_, _, h⟩ | ⟨_, h⟩ <;> rw [h]
  · exact lands_quiet ⟨rfl, rfl, rfl, rfl, rfl, rfl, rfl, rfl, rfl, rfl, rfl, rfl⟩
      fun hs => sound_of_eq hs rfl rfl rfl
  · exact .refused

/-- WRITE_PIN lands to any pin: to one that is no output it is refused (R72). -/
theorem execWritePin_lands (s : State) : Lands (Calm s) s (execWritePin s) := by
  rw [execWritePin]
  rcases writePin_cases s.opnd.pin s.opnd.level s with ⟨hv, hd, _⟩ | ⟨_, h⟩
  · exact lands_outcome (fun c => ⟨c.sound, hv, hd⟩) (writePin_contract s.opnd.pin s.opnd.level s)
  · rw [h]; exact .refused

theorem execNowMicros_lands (s : State) : Lands (Calm s) s (execNowMicros s) :=
  lands_quiet (quiet_trans (quiet_readClock s) (quiet_ret _ _))
    fun hs => sound_of_eq (sound_readClock hs) rfl rfl rfl

/-- EXTRACT_BITS that HOST started writes `PAY` with at most `PAY_CAP` bytes, full or not (R99, R121). -/
theorem execExtractBits_lands (s : State) : Lands (Calm s) s (execExtractBits s) := by
  have hq (k : BitScan) : Quiet s ((s.setWork (s.wr.afterScan k)).setPay k.bytes) :=
    ⟨rfl, rfl, rfl, rfl, rfl, rfl, rfl, rfl, rfl, rfl, rfl, rfl⟩
  have hs (h : Sound s) : Sound ((s.setWork (s.wr.afterScan (extract s.par.payCap s.mem.tr))).setPay
      (extract s.par.payCap s.mem.tr).bytes) :=
    sound_of_mem h (wf_pay h.memory (extract_bytes _ _)) rfl rfl
  unfold execExtractBits
  simp only
  split
  · exact lands_raise _ (hq _) hs
  · exact lands_quiet (hq _) hs

theorem execChecksum_lands (s : State) : Lands (Calm s) s (execChecksum s) :=
  lands_outcome (x := .done () (checksum s.mem.pay 0 s)) (D := fun _ _ => True) Calm.sound
    (contract_reports (checksum_reports _ 0 s) fun h => ⟨h, trivial⟩)

/-- BURST with a cursor that nothing has written is refused (R39, U3). -/
theorem execBurst_lands (s : State) : Lands (Calm s) s (execBurst s) := by
  rw [execBurst]
  split
  · exact lands_outcome Calm.sound (burst_contract _ _ s)
  · exact .refused

theorem execEncode_lands (s : State) : Lands (Calm s) s (execEncode s) := by
  rw [execEncode]
  exact lands_outcome Calm.sound (encodePayload_contract s)

/-- Every command, from a calm block. -/
theorem exec_lands (i : Instr) (s : State) : Lands (Calm s) s (exec i s) := by
  cases i with
  | configurePin f => exact lands_outcome Calm.sound (configurePin_contract _ _ _ s)
  | readPin f => exact execReadPin_lands s
  | writePin f => exact execWritePin_lands s
  | nowMicros f => exact execNowMicros_lands s
  | raisePriority f => exact lands_quiet (quiet_setPrio _ s) fun h => sound_of_eq h rfl rfl rfl
  | restorePriority f => exact lands_quiet (quiet_setPrio _ s) fun h => sound_of_eq h rfl rfl rfl
  | avoidClockWrap f => exact lands_outcome Calm.sound (avoidClockWrap_contract _ s)
  | compact f => exact lands_quiet (quiet_compact s) sound_compact
  | traceWrite f => exact lands_outcome Calm.sound (traceWrite_contract _ _ s)
  | traceRead f => exact lands_outcome Calm.sound (traceRead_contract _ s)
  | sample f => exact lands_outcome Calm.sound (sample_contract _ _ _ _ s)
  | transmit f => exact lands_outcome Calm.sound (transmit_contract _ _ s)
  | flatten f => exact lands_quiet (quiet_flatten s) sound_flatten
  | extractBits f => exact execExtractBits_lands s
  | checksum f => exact execChecksum_lands s
  | decode f => exact lands_outcome Calm.sound (decodeTrace_contract s)
  | hexParse f => exact lands_outcome Calm.sound (hexParse_contract _ s)
  | burst f => exact execBurst_lands s
  | encode f => exact execEncode_lands s
  | modeSample f => exact execModeSample_lands s
  | modeSendHex f => exact execModeSendHex_lands s
  | modeReplayFile f => exact execModeReplayFile_lands s

/-! ### The step -/

/-- `CMD` is none of what the contracts speak of. -/
theorem grows_takeCommand (s : State) : s.Grows s.takeCommand :=
  ⟨List.prefix_refl _, List.prefix_refl _, keeps_refl _, rfl, rfl, rfl, rfl⟩

theorem calm_takeCommand {s : State} (h : Calm s) : Calm s.takeCommand :=
  ⟨sound_of_eq h.sound rfl rfl rfl, h.noError, h.exit⟩

/-- A command word is refused, or runs on a block without an error, or is itself the error (R64). -/
theorem runCommand_lands (w : CmdWord) (s : State) : Lands s.Inv s (runCommand w s) := by
  unfold runCommand
  split
  · exact .refused
  · split
    · next he =>
      have hcalm : s.Inv → Calm s.takeCommand := fun h => calm_takeCommand (calm_of_inv h he)
      have hreserved : Lands s.Inv s (.next (raise (.configError .command) s.takeCommand)) :=
        lands_after (grows_takeCommand s) hcalm (lands_raise _ (quiet_refl _) id)
      split
      · next i _ =>
        rw [runInstr]
        split
        · exact .refused
        · exact lands_after (grows_takeCommand s) hcalm (exec_lands i _)
      · exact hreserved
      · exact hreserved
    · exact .refused

/-- Every step only grows, and keeps the invariant. -/
theorem step_lands (s : State) : Lands s.Inv s (step s) := by
  unfold step
  split
  · exact runCommand_lands _ s
  · split
    · next hb => exact lands_after (grows_refl s) (fun h => ⟨h, hb⟩) (resume_lands s)
    · exact .next (grows_refl s) id

/-- Settles O56, from the contracts of the operations, through `step_lands`. -/
theorem invariantKept : Obligations.InvariantKept :=
  fun s _ hinv hn => (lands_next (hn ▸ step_lands s)).2 hinv

/-- Settles O54, from the same contracts, which ask nothing of the state for this half. -/
theorem stepsOnlyAdd : Obligations.StepsOnlyAdd :=
  fun s _ hn => (lands_next (hn ▸ step_lands s)).1

end Sys2Proof.Proofs
end

section
/-! How a step begins (spec/10_state.md R29, spec/60_exceptions.md R129, R137), what a reset leaves (R34, R138), and
the clock read by read (R18, R19, R73). -/

namespace Sys2Proof.Proofs
open Sys2Proof.Machine Sys2Proof.Machine.Laws

/-! ### Where a step takes its work from -/

theorem step_of_command {s : State} {w : CmdWord} (h : s.cmd = some w) : step s = runCommand w s := by
  simp only [step, h]

theorem step_of_idle {s : State} (h : s.cmd = none) (hb : s.seq.busy = false) : step s = .next s := by
  simp [step, h, hb]

theorem step_of_busy {s : State} (h : s.cmd = none) (hb : s.seq.busy = true) :
    step s = runTasks s.seq.todo s := by
  simp [step, h, hb, resume]

theorem runCommand_busy (w : CmdWord) {s : State} (hb : s.seq.busy = true) :
    runCommand w s = .refused .startedWhileBusy :=
  if_pos hb

theorem runCommand_after_error (w : CmdWord) {s : State} (hb : s.seq.busy = false)
    (he : s.err.kind ≠ .none) : runCommand w s = .refused .invocationOver := by
  rw [runCommand, hb, if_neg Bool.false_ne_true, if_neg he]

/-- A word that decodes, on an idle block without an error (R61). -/
theorem runCommand_decoded {w : CmdWord} {i : Instr} {s : State} (hw : decode w = .ok i)
    (hb : s.seq.busy = false) (he : s.err.kind = .none) : runCommand w s = runInstr i s.takeCommand := by
  rw [runCommand, hb, if_neg Bool.false_ne_true, if_pos he, hw]

/-- Every command but a second mode runs (R110). -/
theorem runInstr_runs {i : Instr} {s : State} (h : i.op.isMode = true → s.modeStarted = false) :
    runInstr i s = exec i s := by
  refine if_neg fun hsecond => ?_
  obtain ⟨hmode, hstarted⟩ := Bool.and_eq_true_iff.1 hsecond
  rw [h hmode] at hstarted
  cases hstarted

/-- A second mode is refused (U6). -/
theorem runInstr_secondMode {i : Instr} {s : State} (hm : i.op.isMode = true) (hs : s.modeStarted = true) :
    runInstr i s = .refused .secondMode :=
  if_pos (Bool.and_eq_true_iff.2 ⟨hm, hs⟩)

/-- Settles O6: the word is taken, decoded, and no ground for a refusal is left. -/
theorem stepRunsDecodedCommand : Obligations.StepRunsDecodedCommand := by
  intro s w i hcmd hw hb he hmode
  calc step s
      _ = runCommand w s := step_of_command hcmd
      _ = runInstr i s.takeCommand := runCommand_decoded hw hb he
      _ = exec i s.takeCommand := runInstr_runs hmode

/-- Settles O7: each refusal under its own condition; then the idle step and the polling one. -/
theorem stepsThatStartNothing : Obligations.StepsThatStartNothing := by
  refine ⟨fun s w hcmd => ⟨fun hb => ?_, fun hb he => ?_, fun hb he hs => ?_⟩,
    fun s hcmd => ⟨step_of_idle hcmd, step_of_busy hcmd⟩⟩
  · exact (step_of_command hcmd).trans (runCommand_busy w hb)
  · exact (step_of_command hcmd).trans (runCommand_after_error w hb he)
  · rintro ⟨i, hw, hm⟩
    rw [step_of_command hcmd, runCommand_decoded hw hb he]
    exact runInstr_secondMode hm hs

/-! ### Reset (R34, R138) -/

/-- Settles O57: the first reset directly, a later one by `resetAgain_inv`. -/
theorem invariantAtReset : Obligations.InvariantAtReset := by
  refine ⟨?_, fun s => resetAgain_inv⟩
  exact
    { memory := wf_reset _
      pinsOrdered := rfl
      pinsConfigured := fun _ he => absurd he List.not_mem_nil
      errorExit := fun hkind => absurd rfl hkind
      cleanExit := fun _ => .inl rfl
      sequenced := .inl rfl }

/-- Settles O60: a reset is never refused, and each register is read off the state it answers. -/
theorem resetState : Obligations.ResetState := fun s =>
  ⟨s.resetAgain, hostMove_reset s, rfl, rfl, rfl, rfl, rfl, rfl, rfl, rfl, rfl, rfl, rfl, rfl, rfl, rfl, rfl,
    rfl, rfl, fun _ => rfl, rfl⟩

/-! ### The clock (R18, R19, R73) -/

/-- Settles O11: NOW_MICROS is one clock read, its value kept for HOST. -/
theorem nowMicrosOutcome : Obligations.NowMicrosOutcome := by
  intro f s
  have hread : exec (.nowMicros f) s =
      .next ({ s.readClock with ret := some (.micros s.readClock.clk) } : State).finish := by rfl
  rw [hread, readClock_clk, readClock_eq]
  rfl

/-- The microseconds `CLK` advances in the `n` reads after read number `j`. -/
def elapsed (s : State) (j n : Nat) : Nat :=
  ((List.range n).map fun i => s.env.clock.answer Config.clkAdvance (j + 1 + i)).sum

theorem elapsed_zero (s : State) (j : Nat) : elapsed s j 0 = 0 := rfl

theorem elapsed_succ (s : State) (j n : Nat) :
    elapsed s j (n + 1) = elapsed s j n + s.env.clock.answer Config.clkAdvance (j + 1 + n) := by
  simp [elapsed, List.range_succ]

/-- Time does not run backwards: more reads, at least as much time. -/
theorem elapsed_mono (s : State) (j : Nat) {m n : Nat} (h : m ≤ n) : elapsed s j m ≤ elapsed s j n := by
  induction n, h using Nat.le_induction with
  | base => exact Nat.le_refl _
  | succ n _ ih => exact ih.trans (by rw [elapsed_succ]; exact Nat.le_add_right _ _)

/-- Each read is the one `n` reads before it and the time elapsed, modulo 2³² (R18). -/
theorem clockReading_add (s : State) (j n : Nat) :
    s.clockReading (j + n) = s.clockReading j + BitVec.ofNat 32 (elapsed s j n) := by
  induction n with
  | zero => simp [elapsed_zero]
  | succ n ih =>
    rw [elapsed_succ, BitVec.ofNat_add, ← BitVec.add_assoc, ← ih, Nat.add_right_comm j 1 n]
    rfl

/-- The difference of two readings fewer than 2³² µs apart is the time between them (R19). -/
theorem clockReading_sub (s : State) (j n : Nat) (h : elapsed s j n < 4294967296) :
    (s.clockReading (j + n) - s.clockReading j).toNat = elapsed s j n := by
  rw [clockReading_add, BitVec.add_comm, BitVec.add_sub_cancel, BitVec.toNat_ofNat, Nat.mod_eq_of_lt h]

/-- Settles O12. -/
theorem clockReadingsElapse : Obligations.ClockReadingsElapse :=
  clockReading_sub

end Sys2Proof.Proofs
end

section
/-! The configuration errors of the modes (spec/46_dispatch.md R111 to R114, spec/60_exceptions.md R117): each mode
tests its name, then its required option, then the ranges, and until then touches nothing but `modeStarted`. -/

namespace Sys2Proof.Proofs
open Sys2Proof.Machine Sys2Proof.Machine.Laws

/-! ### The checks of ranges -/

/-- A configured pin at or beyond `PIN_COUNT` is the first failure. -/
theorem runMode_pin (tasks : List Task) {s : State} (h : ∃ p, s.cfg.pin = some p ∧ s.par.pinCount ≤ p) :
    runMode tasks s = configFailure .pin s :=
  if_pos ((pinOutOfRange_iff s).2 h)

/-- With a pin that is absent or valid, a capacity out of range is the next. -/
theorem runMode_capacity (tasks : List Task) {s : State} (hp : ∀ p, s.cfg.pin = some p → p < s.par.pinCount)
    (hc : s.cfg.capacity < 1 ∨ Config.bufCap < s.cfg.capacity) :
    runMode tasks s = configFailure .capacity s := by
  have hin : ¬ s.pinOutOfRange = true := fun h => by
    obtain ⟨p, hpin, hge⟩ := (pinOutOfRange_iff s).1 h
    exact absurd (hp p hpin) (Nat.not_lt.2 hge)
  rw [runMode, if_neg hin, if_pos hc]

/-! ### The modes, test by test -/

theorem execModeSample_unnamed {s : State} (h : s.cfg.mode ≠ some .sample) :
    execModeSample s = configFailure .mode s.startMode := if_neg h

theorem execModeSample_pinless {s : State} (h : s.cfg.mode = some .sample) (hp : s.cfg.pin = none) :
    execModeSample s = configFailure .pin s.startMode := by
  rw [execModeSample, if_pos h, hp]

theorem execModeSample_runs {s : State} {pin : Nat} (h : s.cfg.mode = some .sample)
    (hp : s.cfg.pin = some pin) :
    execModeSample s = runMode (modeSampleTasks s.par.wrapMargin pin s.cfg) s.startMode := by
  rw [execModeSample, if_pos h, hp]

theorem execModeSendHex_unnamed {s : State} (h : s.cfg.mode ≠ some .sendHex) :
    execModeSendHex s = configFailure .mode s.startMode := if_neg h

theorem execModeSendHex_without {s : State} (h : s.cfg.mode = some .sendHex)
    (hx : s.cfg.hexPayload = none) : execModeSendHex s = configFailure .hexPayload s.startMode := by
  rw [execModeSendHex, if_pos h, hx]

theorem execModeSendHex_runs {s : State} {hex : Text} (h : s.cfg.mode = some .sendHex)
    (hx : s.cfg.hexPayload = some hex) :
    execModeSendHex s = runMode (modeSendHexTasks s.par.wrapMargin hex s.cfg) s.startMode := by
  rw [execModeSendHex, if_pos h, hx]

theorem execModeReplayFile_unnamed {s : State} (h : s.cfg.mode ≠ some .replayFile) :
    execModeReplayFile s = configFailure .mode s.startMode := if_neg h

theorem execModeReplayFile_without {s : State} (h : s.cfg.mode = some .replayFile)
    (hx : s.cfg.inputTracePath = none) :
    execModeReplayFile s = configFailure .inputTracePath s.startMode := by
  rw [execModeReplayFile, if_pos h, hx]

theorem execModeReplayFile_runs {s : State} {path : Text} (h : s.cfg.mode = some .replayFile)
    (hx : s.cfg.inputTracePath = some path) :
    execModeReplayFile s = runMode (modeReplayTasks s.par.wrapMargin path s.cfg) s.startMode := by
  rw [execModeReplayFile, if_pos h, hx]

/-- HEX_PARSE of a string that spells no payload (R105). -/
theorem hexParse_malformed {hex : Text} (h : parseHex hex = none) (s : State) :
    hexParse hex s = .fatal (raise (.configError .hexPayload) s) := by
  rw [hexParse, h]

/-- MODE_SEND_HEX begins with HEX_PARSE, so a hex string that spells no payload ends it there (R113 step 1). -/
theorem modeSendHexTasks_malformed (margin : Nat) {hex : Text} (c : Cfg) (h : parseHex hex = none) (s : State) :
    runTasks (modeSendHexTasks margin hex c) s = configFailure .hexPayload s := by
  have hfirst : runTask (.hexParse hex) s = .fatal (raise (.configError .hexPayload) s) :=
    hexParse_malformed h s
  simp only [modeSendHexTasks, List.cons_append, runTasks, hfirst]
  rfl

/-- Settles O45: for each mode its tests in their order, each failure being what `configFailure` answers. -/
theorem modeConfigErrors : Obligations.ModeConfigErrors := by
  intro f s fails hfails
  have hfail (o : ConfigOption) : configFailure o s.startMode = .next (fails o) := by rw [hfails]; rfl
  simp only [← hfail]
  refine ⟨execModeSample_unnamed, execModeSendHex_unnamed, execModeReplayFile_unnamed,
    fun hm => ⟨?_, ?_⟩, fun hm => ⟨execModeSendHex_without hm, fun hx hp => ?_, fun hx hp hc => ?_,
      fun hex hx hp hlo hhi hbad => ?_⟩,
    fun hm => ⟨execModeReplayFile_without hm, fun hx hp => ?_, fun hx hp hc => ?_⟩⟩
  · rintro (hnone | ⟨p, hp, hge⟩)
    · exact execModeSample_pinless hm hnone
    · exact (execModeSample_runs hm hp).trans (runMode_pin _ ⟨p, hp, hge⟩)
  · rintro ⟨p, hp, hlt⟩ hc
    refine (execModeSample_runs hm hp).trans (runMode_capacity _ (fun q hq => ?_) hc)
    cases hp.symm.trans hq
    exact hlt
  · obtain ⟨hex, hx⟩ := Option.ne_none_iff_exists'.1 hx
    exact (execModeSendHex_runs hm hx).trans (runMode_pin _ hp)
  · obtain ⟨hex, hx⟩ := Option.ne_none_iff_exists'.1 hx
    exact (execModeSendHex_runs hm hx).trans (runMode_capacity _ hp hc)
  · calc exec (.modeSendHex f) s
        _ = runMode (modeSendHexTasks s.par.wrapMargin hex s.cfg) s.startMode := execModeSendHex_runs hm hx
        _ = runTasks (modeSendHexTasks s.par.wrapMargin hex s.cfg) s.startMode :=
          runMode_of_ranges (s := s.startMode) hp hlo hhi
        _ = configFailure .hexPayload s.startMode := modeSendHexTasks_malformed _ _ hbad _
  · obtain ⟨path, hx⟩ := Option.ne_none_iff_exists'.1 hx
    exact (execModeReplayFile_runs hm hx).trans (runMode_pin _ hp)
  · obtain ⟨path, hx⟩ := Option.ne_none_iff_exists'.1 hx
    exact (execModeReplayFile_runs hm hx).trans (runMode_capacity _ hp hc)

end Sys2Proof.Proofs
end

section
/-! Which operations change a file and which write a pin (spec/10_state.md R13, R27, R32): each operation is
followed through its steps, of which only `putFile` writes the file store and only WRITE_PIN writes `WLOG`. -/

namespace Sys2Proof.Proofs
open Sys2Proof.Machine Sys2Proof.Machine.Laws

/-! ### What an operation keeps -/

/-- Wherever the operation leaves a state, `f` reads of it what it read of `s`. -/
structure Keeps {α β : Type} (f : State → β) (s : State) (x : Act α) : Prop where
  kept : leaves (fun t => f t = f s) x

section
variable {α β : Type} {f : State → β} {s t : State} {x : Act α}

/-- The operation may begin in any state of which `f` reads the same. -/
theorem keeps_of_eq (h : Keeps f t x) (hf : f t = f s) : Keeps f s x :=
  ⟨hf ▸ h.kept⟩

theorem keeps_andThen {γ : Type} {k : α → State → Act γ} (hx : Keeps f s x)
    (hk : ∀ a t, Keeps f t (k a t)) : Keeps f s (x.andThen k) :=
  ⟨leaves_andThen hx.kept fun a t _ ht => (keeps_of_eq (hk a t) ht).kept⟩

/-- What is kept of two readings together is kept of each. -/
theorem keeps_comp {γ : Type} (g : β → γ) (h : Keeps f s x) : Keeps (fun u => g (f u)) s x := by
  cases x with
  | done a u => exact ⟨congrArg g h.kept⟩
  | fatal u => exact ⟨congrArg g h.kept⟩
  | wait k u => exact ⟨congrArg g h.kept⟩
  | fault e => exact ⟨trivial⟩
  | refused r => exact ⟨trivial⟩

/-- A reading that does not look at the sequencer is kept by an operation that HOST starts. -/
theorem keeps_outcome {x : Act Unit} (hseq : ∀ u q, f { u with seq := q } = f u) (h : Keeps f s x)
    (hn : x.outcome = .next t) : f t = f s := by
  cases x with
  | done a u => cases hn; exact (hseq u _).trans h.kept
  | fatal u => cases hn; exact h.kept
  | wait k u => cases hn; exact (hseq u _).trans h.kept
  | fault e => cases hn
  | refused r => cases hn

end

/-- The files and the pin writes of a state. -/
def filesAndLog (s : State) : List (Text × Text) × List PinWrite := (s.mem.files, s.wlog)

theorem keeps_files {α : Type} {s : State} {x : Act α} (h : Keeps filesAndLog s x) :
    Keeps (fun u => u.mem.files) s x :=
  keeps_comp Prod.fst h

theorem keeps_wlog {α : Type} {s : State} {x : Act α} (h : Keeps filesAndLog s x) : Keeps State.wlog s x :=
  keeps_comp Prod.snd h

/-! ### Operations that change no file and write no pin -/

theorem configurePin_keeps (pin : Nat) (dir : Direction) (pull : Pull) (s : State) :
    Keeps filesAndLog s (configurePin pin dir pull s) := by
  rcases configurePin_cases pin dir pull s with ⟨_, h⟩ | ⟨_, _, h⟩ | ⟨_, _, h⟩ <;>
    exact h ▸ ⟨rfl⟩

theorem readPin_keeps (pin : Nat) (s : State) : Keeps filesAndLog s (readPin pin s) := by
  rcases readPin_cases pin s with ⟨_, _, h⟩ | ⟨_, h⟩ <;> rw [h]
  · exact ⟨rfl⟩
  · exact ⟨trivial⟩

theorem storeRaw_keeps (x : Sample) (s : State) : Keeps filesAndLog s (storeRaw x s) := by
  rcases storeRaw_cases x s with ⟨_, h⟩ | ⟨_, h⟩ <;> rw [h]
  · exact ⟨rfl⟩
  · exact ⟨trivial⟩

theorem storeObs_keeps (c : U32) (s : State) : Keeps filesAndLog s (storeObs c s) := by
  rcases storeObs_cases c s with ⟨_, h⟩ | ⟨_, h⟩ <;> rw [h]
  · exact ⟨rfl⟩
  · exact ⟨trivial⟩

theorem pollClock_keeps (due : U32 → Bool) (fuel : Nat) (s : State) :
    filesAndLog (pollClock due fuel s).2 = filesAndLog s := by
  obtain ⟨hq, hmem, _⟩ := pollClock_leaves due fuel s
  rw [filesAndLog, hmem, hq.wlog]
  rfl

theorem avoidClockWrap_keeps (m : Nat) (s : State) : Keeps filesAndLog s (avoidClockWrap m s) := by
  unfold avoidClockWrap
  split
  · exact ⟨rfl⟩
  · have h := pollClock_keeps (farFromWrap m) s.clockPolls s
    split <;> next hp => rw [hp] at h; exact ⟨h⟩

theorem readLines_keeps (path : Text) (ls : List Text) (k : Nat) (s : State) :
    Keeps filesAndLog s (readLines path k ls s) := by
  induction ls generalizing k s with
  | nil => exact ⟨rfl⟩
  | cons l rest ih =>
    rw [readLines]
    split
    · exact ⟨rfl⟩
    · split
      · exact keeps_of_eq (ih (k + 1) _) rfl
      · exact ⟨rfl⟩

theorem traceRead_keeps (path : Text) (s : State) : Keeps filesAndLog s (traceRead path s) := by
  unfold traceRead
  split
  · exact ⟨rfl⟩
  · simp only [drawReadable_eq]
    split
    · next h =>
      obtain ⟨_, rfl⟩ := Prod.mk.inj h
      exact ⟨rfl⟩
    · next h =>
      obtain ⟨_, rfl⟩ := Prod.mk.inj h
      exact keeps_of_eq (readLines_keeps path _ 2 _) rfl

theorem capture_keeps (pin count : Nat) (s : State) : Keeps filesAndLog s (capture pin count s) := by
  induction count generalizing s with
  | zero => exact ⟨rfl⟩
  | succ n ih =>
    refine keeps_andThen (keeps_of_eq (readPin_keeps pin _) rfl) fun l s1 => ?_
    exact keeps_andThen (storeRaw_keeps _ s1) fun _ s2 => ih s2

theorem trimAndRebase_keeps (s : State) : Keeps filesAndLog s (trimAndRebase s) := by
  unfold trimAndRebase
  split
  · split
    · exact ⟨rfl⟩
    · simp only
      split <;> exact ⟨rfl⟩
  · exact ⟨trivial⟩

theorem sampleCapture_keeps (pin : Nat) (s : State) : Keeps filesAndLog s (sampleCapture pin s) :=
  keeps_andThen (keeps_of_eq (capture_keeps pin _ _) rfl) fun _ _ =>
    keeps_of_eq (trimAndRebase_keeps _) rfl

theorem pollPin_keeps (pin fuel : Nat) (s : State) : Keeps filesAndLog s (pollPin pin fuel s) := by
  induction fuel generalizing s with
  | zero => exact ⟨rfl⟩
  | succ n ih =>
    refine keeps_andThen (keeps_of_eq (readPin_keeps pin _) rfl) fun l s1 => ?_
    split
    · exact ih s1
    · exact ⟨rfl⟩

theorem samplePoll_keeps (pin : Nat) (s : State) : Keeps filesAndLog s (samplePoll pin s) := by
  refine keeps_andThen (pollPin_keeps pin _ s) fun r s1 => ?_
  cases r with
  | none => exact ⟨rfl⟩
  | some x => exact keeps_andThen (storeRaw_keeps x s1) fun _ s2 => sampleCapture_keeps pin s2

theorem sample_keeps (pin capacity : Nat) (trigger verbose : Bool) (s : State) :
    Keeps filesAndLog s (sample pin capacity trigger verbose s) := by
  unfold sample
  split
  · exact ⟨rfl⟩
  · refine keeps_andThen (keeps_of_eq (configurePin_keeps pin _ _ _) rfl) fun _ s1 => ?_
    refine keeps_andThen (readPin_keeps pin s1) fun l s2 => ?_
    simp only
    split
    · exact keeps_of_eq (samplePoll_keeps pin _) rfl
    · exact keeps_of_eq (sampleCapture_keeps pin _) rfl

theorem hexParse_keeps (hex : Text) (s : State) : Keeps filesAndLog s (hexParse hex s) := by
  unfold hexParse
  split
  · exact ⟨rfl⟩
  · split <;> exact ⟨rfl⟩

theorem burst_keeps (m sp : U32) (s : State) : Keeps filesAndLog s (burst m sp s) := by
  unfold burst
  simp only
  split <;> exact ⟨rfl⟩

theorem bursts_keeps (ms : List (U32 × U32)) (s : State) : Keeps filesAndLog s (bursts ms s) := by
  induction ms generalizing s with
  | nil => exact ⟨rfl⟩
  | cons p rest ih => exact keeps_andThen (burst_keeps p.1 p.2 s) fun _ s1 => ih s1

theorem encodePayload_keeps (s : State) : Keeps filesAndLog s (encodePayload s) := by
  unfold encodePayload
  exact keeps_of_eq (bursts_keeps _ _) rfl

/-! ### The decoder -/

/-- The memories and the pin writes of a state: a half-frame changes neither (R101). -/
def memAndLog (s : State) : Memory × List PinWrite := (s.mem, s.wlog)

theorem checksum_keeps (p : List Byte) (d : Nat) (s : State) :
    memAndLog (checksum p d s) = memAndLog s := by
  unfold checksum
  split
  · rfl
  · simp only
    split <;> rfl

theorem compareHalves_keeps (d : Nat) (p q : List Byte) (s : State) :
    memAndLog (compareHalves d p q s) = memAndLog s := by
  unfold compareHalves
  split
  · split <;> rfl
  · rfl

theorem halfFrame_keeps (b d : Nat) (s : State) : Keeps memAndLog s (halfFrame b d s) := by
  refine keeps_andThen ?_ fun p s1 => ⟨checksum_keeps p d s1⟩
  unfold extractBits
  simp only
  split <;> exact ⟨rfl⟩

theorem decodeAt_keeps (fuel b d : Nat) (s : State) : Keeps memAndLog s (decodeAt fuel b d s) := by
  induction fuel generalizing b d s with
  | zero => exact keeps_andThen (halfFrame_keeps b d s) fun _ _ => ⟨rfl⟩
  | succ n ih =>
    refine keeps_andThen (halfFrame_keeps b d s) fun p s1 => ?_
    split
    · refine keeps_andThen (ih _ _ s1) fun q s2 => ?_
      exact ⟨(compareHalves_keeps d p q.1 (s2.setDepth d)).trans rfl⟩
    · exact ⟨rfl⟩

theorem compact_keeps (s : State) : filesAndLog (compact s) = filesAndLog s := rfl

theorem flatten_keeps (s : State) : filesAndLog (flatten s) = filesAndLog s := rfl

theorem decodeTrace_keeps (s : State) : Keeps filesAndLog s (decodeTrace s) := by
  have hfront : filesAndLog (compact (flatten (compact s))) = filesAndLog s := by
    rw [compact_keeps, flatten_keeps, compact_keeps]
  unfold decodeTrace
  refine keeps_of_eq (keeps_andThen ?_ fun _ _ => ⟨rfl⟩) hfront
  exact keeps_comp (fun u => (u.1.files, u.2)) (decodeAt_keeps _ 0 0 _)

/-! ### TRANSMIT writes pins, TRACE_WRITE a file -/

theorem traceWrite_keeps_wlog (path : Text) (flank : Bool) (s : State) :
    Keeps State.wlog s (traceWrite path flank s) := by
  unfold traceWrite
  simp only [drawWritable_eq]
  split <;> next h => obtain ⟨_, rfl⟩ := Prod.mk.inj h; exact ⟨rfl⟩

theorem writePin_keeps_files (pin : Nat) (level : Level) (s : State) :
    Keeps (fun u => u.mem.files) s (writePin pin level s) := by
  rcases writePin_cases pin level s with ⟨_, _, h⟩ | ⟨_, h⟩ <;> rw [h]
  · exact ⟨rfl⟩
  · exact ⟨trivial⟩

theorem emitEdge_keeps_files (pin : Nat) (stats : Bool) (level : Level) (s : State) :
    Keeps (fun u => u.mem.files) s (emitEdge pin stats level s) := by
  unfold emitEdge
  split
  · exact keeps_andThen (keeps_of_eq (keeps_files (storeObs_keeps _ _)) rfl)
      fun _ s1 => writePin_keeps_files pin level s1
  · exact writePin_keeps_files pin level s

theorem emit_keeps_files (pin : Nat) (stats : Bool) (xs : List Sample) (i : Nat) (s : State) :
    Keeps (fun u => u.mem.files) s (emit pin stats i xs s) := by
  induction xs generalizing i s with
  | nil => exact ⟨rfl⟩
  | cons x xs ih =>
    rw [emit]
    have h := congrArg Prod.fst
      (pollClock_keeps (isDue x.t) s.clockPolls (s.setWork { s.wr with i := i }))
    split
    · next s1 hp =>
      rw [hp] at h
      exact ⟨h⟩
    · next s1 hp =>
      rw [hp] at h
      refine keeps_of_eq (keeps_andThen (emitEdge_keeps_files pin stats x.v s1) ?_) h
      exact fun _ s2 => ih (i + 1) s2

theorem statistics_keeps_files (s : State) : Keeps (fun u => u.mem.files) s (statistics s) := by
  unfold statistics
  split
  · next x xs o os _ _ =>
    split
    · obtain ⟨_, _, _, hmem, _⟩ := statsLoop_leaves ((x :: xs).zip (o :: os)) 0
        (s.setWork { s.wr with statMax := lateness o x.t, statSum := 0 })
      exact ⟨congrArg Memory.files hmem⟩
    · exact ⟨trivial⟩
  · exact ⟨trivial⟩
  · exact ⟨rfl⟩

theorem transmitFrom_keeps_files (pin : Nat) (stats : Bool) (i : Nat) (s : State) :
    Keeps (fun u => u.mem.files) s (transmitFrom pin stats i s) := by
  refine keeps_andThen (emit_keeps_files pin stats _ i s) fun _ s1 => ?_
  split
  · exact keeps_of_eq (statistics_keeps_files _) rfl
  · exact ⟨rfl⟩

theorem transmit_keeps_files (pin : Nat) (stats : Bool) (s : State) :
    Keeps (fun u => u.mem.files) s (transmit pin stats s) := by
  unfold transmit
  simp only
  split
  · exact ⟨rfl⟩
  · refine keeps_andThen (keeps_of_eq (keeps_files (configurePin_keeps pin _ _ _)) ?_) fun _ s5 => ?_
    · split <;> rfl
    · refine keeps_of_eq (transmitFrom_keeps_files pin stats 0 _) ?_
      split <;> rfl

/-! ### MODE_SAMPLE -/

/-- A stack entry that drives no pin. -/
def drivesNoPin : Task → Bool
  | .transmit _ _ => false
  | .transmitWait _ _ => false
  | _ => true

theorem runTask_keeps_wlog {k : Task} (h : drivesNoPin k = true) (s : State) :
    Keeps State.wlog s (runTask k s) := by
  cases k with
  | avoidClockWrap m => exact keeps_wlog (avoidClockWrap_keeps m s)
  | sample pin c tr v => exact keeps_wlog (sample_keeps pin c tr v s)
  | samplePoll pin => exact keeps_wlog (samplePoll_keeps pin s)
  | transmit pin st => cases h
  | transmitWait pin st => cases h
  | traceWrite path flank => exact traceWrite_keeps_wlog path flank s
  | traceRead path => exact keeps_wlog (traceRead_keeps path s)
  | hexParse hex => exact keeps_wlog (hexParse_keeps hex s)
  | encode => exact keeps_wlog (encodePayload_keeps s)
  | decode => exact keeps_wlog (decodeTrace_keeps s)
  | reportDecoded m => exact ⟨rfl⟩
  | complete m => exact ⟨rfl⟩

theorem runTasks_wlog {ts : List Task} (h : ts.all drivesNoPin = true) {s t : State}
    (hn : runTasks ts s = .next t) : t.wlog = s.wlog := by
  induction ts generalizing s with
  | nil => cases hn; rfl
  | cons k rest ih =>
    obtain ⟨hk, hrest⟩ := Bool.and_eq_true_iff.1 h
    have hkeep := runTask_keeps_wlog hk s
    rw [runTasks] at hn
    cases hx : runTask k s <;> rw [hx] at hn hkeep
    case done a u => exact (ih hrest hn).trans hkeep.kept
    case fatal u => cases hn; exact hkeep.kept
    case wait j u => cases hn; exact hkeep.kept
    case fault => cases hn
    case refused => cases hn

theorem modeSampleTasks_driveNoPin (margin pin : Nat) (c : Cfg) :
    (modeSampleTasks margin pin c).all drivesNoPin = true := by
  rw [modeSampleTasks, List.all_append, List.all_append, List.all_append, storeTasks_all c fun _ _ => rfl,
    decodeTasks_all c _ rfl rfl]
  rfl

theorem configFailure_wlog {what : ConfigOption} {s t : State} (hn : configFailure what s = .next t) :
    t.wlog = s.wlog := by
  cases hn
  rfl

theorem execModeSample_wlog {s t : State} (hn : execModeSample s = .next t) : t.wlog = s.wlog := by
  show t.wlog = s.startMode.wlog
  unfold execModeSample at hn
  split at hn
  · split at hn
    · exact configFailure_wlog hn
    · next pin _ =>
      rcases runMode_cases (modeSampleTasks s.par.wrapMargin pin s.cfg) s.startMode with
        ⟨_, h⟩ | ⟨_, _, h⟩ | ⟨_, _, _, h⟩ <;> rw [h] at hn
      · exact configFailure_wlog (what := .pin) hn
      · exact configFailure_wlog (what := .capacity) hn
      · exact runTasks_wlog (modeSampleTasks_driveNoPin _ _ _) hn
  · exact configFailure_wlog hn

/-! ### The operations HOST starts -/

/-- A state with the same files and pin writes, as `WhoWritesFilesAndPins` speaks of it: under whatever
exceptions. -/
theorem both_kept_of_eq {A B C D E F : Prop} {s t : State} (h : filesAndLog t = filesAndLog s) :
    (A → B → t.mem.files = s.mem.files) ∧ (C → D → E → F → t.wlog = s.wlog) :=
  ⟨fun _ _ => congrArg Prod.fst h, fun _ _ _ _ => congrArg Prod.snd h⟩

/-- An operation that changes no file and writes no pin. -/
theorem both_kept {A B C D E F : Prop} {s t : State} {x : Act Unit} (h : Keeps filesAndLog s x)
    (hn : x.outcome = .next t) :
    (A → B → t.mem.files = s.mem.files) ∧ (C → D → E → F → t.wlog = s.wlog) :=
  both_kept_of_eq (keeps_outcome (fun _ _ => rfl) h hn)

/-- An operation that only ends in the state `u`. -/
theorem both_kept_next {A B C D E F : Prop} {s t u : State} (hf : filesAndLog u = filesAndLog s)
    (hn : .next u.finish = (.next t : Host.Outcome State Fault Refusal)) :
    (A → B → t.mem.files = s.mem.files) ∧ (C → D → E → F → t.wlog = s.wlog) :=
  both_kept (x := .done () u) ⟨hf⟩ hn

/-- The level that READ_PIN returns to HOST is neither a file nor a pin write. -/
theorem readPin_returns_keeps (l : Level) (u : State) :
    Keeps filesAndLog u (.done () { u with ret := some (.level l) }) := ⟨rfl⟩

theorem execExtractBits_keeps {s t : State} (hn : execExtractBits s = .next t) :
    filesAndLog t = filesAndLog s := by
  unfold execExtractBits at hn
  simp only at hn
  refine keeps_outcome (fun _ _ => rfl) ?_ hn
  split <;> exact ⟨rfl⟩

/-- Settles O55: command by command, from what its operation keeps; the modes but MODE_SAMPLE are named in
both halves. -/
theorem whoWritesFilesAndPins : Obligations.WhoWritesFilesAndPins := by
  intro i s t hn
  cases i with
  | configurePin f => exact both_kept (configurePin_keeps _ _ _ s) hn
  | readPin f => exact both_kept (keeps_andThen (readPin_keeps s.opnd.pin s) fun l u => readPin_returns_keeps l u) hn
  | writePin f =>
    exact ⟨fun _ _ => keeps_outcome (fun _ _ => rfl) (writePin_keeps_files _ _ s) hn,
      fun h => absurd rfl h⟩
  | nowMicros f =>
    exact both_kept_next (s := s) (u := { s.readClock with ret := some (.micros s.readClock.clk) }) rfl hn
  | raisePriority f => exact both_kept_next (s := s) (u := s.setPrio .realtime) rfl hn
  | restorePriority f => exact both_kept_next (s := s) (u := s.setPrio .normal) rfl hn
  | avoidClockWrap f => exact both_kept (avoidClockWrap_keeps _ s) hn
  | compact f => exact both_kept_next (s := s) (u := Machine.compact s) (compact_keeps s) hn
  | traceWrite f =>
    exact ⟨fun h => absurd rfl h,
      fun _ _ _ _ => keeps_outcome (fun _ _ => rfl) (traceWrite_keeps_wlog _ _ s) hn⟩
  | traceRead f => exact both_kept (traceRead_keeps _ s) hn
  | sample f => exact both_kept (sample_keeps _ _ _ _ s) hn
  | transmit f =>
    exact ⟨fun _ _ => keeps_outcome (fun _ _ => rfl) (transmit_keeps_files _ _ s) hn,
      fun _ h => absurd rfl h⟩
  | flatten f => exact both_kept_next (s := s) (u := Machine.flatten s) (flatten_keeps s) hn
  | extractBits f => exact both_kept_of_eq (execExtractBits_keeps hn)
  | checksum f =>
    exact both_kept_next (s := s) (congrArg (fun u => (u.1.files, u.2)) (checksum_keeps _ 0 s)) hn
  | decode f => exact both_kept (decodeTrace_keeps s) hn
  | hexParse f => exact both_kept (hexParse_keeps _ s) hn
  | burst f =>
    replace hn : execBurst s = .next t := hn
    rw [execBurst] at hn
    split at hn
    · exact both_kept (burst_keeps _ _ s) hn
    · cases hn
  | encode f => exact both_kept (encodePayload_keeps s) (x := encodePayload s) hn
  | modeSample f => exact ⟨fun _ h => (by cases h), fun _ _ _ _ => execModeSample_wlog hn⟩
  | modeSendHex f => exact ⟨fun _ h => (by cases h), fun _ _ h => absurd rfl h⟩
  | modeReplayFile f => exact ⟨fun _ h => (by cases h), fun _ _ _ h => absurd rfl h⟩

end Sys2Proof.Proofs
end

section
/-! The shape of the encoded trace (spec/45_encoder.md R107, R109; spec/10_state.md R24): how many samples its symbols
have, that each begins where the one before it has ended, and that its levels alternate. -/

namespace Sys2Proof.Proofs
open Sys2Proof.Machine Sys2Proof.Machine.Laws

/-! ### How many samples -/

/-- The samples of the bits of a payload: 16 cycles to each mark of 428. -/
theorem bitSymbols_samples (bs : List Bool) :
    ((bs.map fun b => ((428, if b then 1268 else 430) : U32 × U32)).map fun p => 2 * (p.1.toNat / 26)).sum =
      32 * bs.length := by
  induction bs with
  | nil => rfl
  | cons b bs ih =>
    have hmark : (428 : U32).toNat = 428 := rfl
    rw [List.map_cons, List.map_cons, List.sum_cons, ih, List.length_cons, hmark]
    omega

/-- A half-frame has 128 cycles in its header, 16 in each bit and 16 in the stop mark. -/
theorem halfFrame_samples (ps : List Byte) (t : U32) :
    (symbolTrace t (halfFrameSymbols ps)).length = 288 + 256 * ps.length := by
  rw [symbolTrace_length, halfFrameSymbols, List.map_append, List.map_append, List.sum_append, List.sum_append,
    bitSymbols_samples, wireBits_length]
  have hhead : ([((3344, 1688) : U32 × U32)].map fun p => 2 * (p.1.toNat / 26)).sum = 256 := rfl
  have hstop : ([((428, 11354) : U32 × U32)].map fun p => 2 * (p.1.toNat / 26)).sum = 32 := rfl
  omega

theorem encodedTrace_length (ps : List Byte) : (encodedTrace ps).length = 577 + 512 * ps.length := by
  rw [encodedTrace, symbolTrace_append, List.length_cons, List.length_append, halfFrame_samples,
    halfFrame_samples]
  omega

/-! ### How much time -/

/-- The microseconds that a sequence of symbols takes: the whole cycles of each mark and its space. -/
def span (ms : List (U32 × U32)) : Nat := (ms.map fun p => 26 * (p.1.toNat / 26) + p.2.toNat).sum

theorem span_cons (p : U32 × U32) (ms : List (U32 × U32)) :
    span (p :: ms) = 26 * (p.1.toNat / 26) + p.2.toNat + span ms := by
  rw [span, List.map_cons, List.sum_cons]
  rfl

theorem span_append (ms ns : List (U32 × U32)) : span (ms ++ ns) = span ms + span ns := by
  rw [span, List.map_append, List.sum_append]
  rfl

/-- A bit takes 416 µs of mark and at most 1268 of space. -/
theorem span_bitSymbols (bs : List Bool) :
    span (bs.map fun b => (428, if b then 1268 else 430)) ≤ 1684 * bs.length := by
  induction bs with
  | nil => exact Nat.le_refl _
  | cons b bs ih =>
    have hspace : (if b = true then 1268 else 430 : U32).toNat ≤ 1268 := by cases b <;> decide
    rw [List.map_cons, span_cons, List.length_cons]
    show 26 * (428 / 26) + (if b = true then 1268 else 430 : U32).toNat + _ ≤ _
    omega

theorem span_halfFrame (ps : List Byte) : span (halfFrameSymbols ps) ≤ 16786 + 13472 * ps.length := by
  have hbits := span_bitSymbols (wireBits ps)
  rw [wireBits_length] at hbits
  rw [halfFrameSymbols, span_append, span_append]
  have hhead : span [(3344, 1688)] = 5016 := by decide
  have hstop : span [(428, 11354)] = 11770 := by decide
  omega

/-! ### The times increase -/

/-- `n` cycles from `u` on, after a sample before `u` and before whatever may follow a time before their end. -/
theorem cycles_rise (n : Nat) (u : U32) (R : List Sample) (y : Sample) (hy : y.t.toNat < u.toNat)
    (hwrap : u.toNat + 26 * n < 4294967296)
    (hR : ∀ z : Sample, z.t.toNat < u.toNat + 26 * n → timesRiseStrictly (z :: R)) :
    timesRiseStrictly (y :: (cycles u n ++ R)) := by
  induction n generalizing u y with
  | zero => exact hR y hy
  | succ n ih =>
    have hfall : (u + 15#32).toNat = u.toNat + 15 := by bv_omega
    have hnext : (u + 26#32).toNat = u.toNat + 26 := by bv_omega
    refine List.isChain_cons_cons.2 ⟨hy, List.isChain_cons_cons.2 ⟨?_, ?_⟩⟩
    · show u.toNat < (u + 15#32).toNat
      omega
    · refine ih (u + 26#32) ⟨u + 15#32, false⟩ ?_ (by omega) fun z hz => hR z (by omega)
      show (u + 15#32).toNat < (u + 26#32).toNat
      omega

/-- A symbol ends where its mark's whole cycles and its space end. -/
theorem cursorAfter_toNat {t m sp : U32} (h : t.toNat + (26 * (m.toNat / 26) + sp.toNat) < 4294967296) :
    (cursorAfter t m sp).toNat = t.toNat + (26 * (m.toNat / 26) + sp.toNat) := by
  rw [cursorAfter, BitVec.toNat_add, BitVec.toNat_add, BitVec.toNat_ofNat]
  omega

/-- The samples of symbols that begin at `t` and end before the clock's period, after an earlier sample. -/
theorem symbolTrace_rises (ms : List (U32 × U32)) (t : U32) (y : Sample) (hy : y.t.toNat < t.toNat)
    (hwrap : t.toNat + span ms < 4294967296) : timesRiseStrictly (y :: symbolTrace t ms) := by
  induction ms generalizing t y with
  | nil => exact List.isChain_singleton _
  | cons p ms ih =>
    obtain ⟨m, sp⟩ := p
    rw [span_cons] at hwrap
    have hnext := cursorAfter_toNat (t := t) (m := m) (sp := sp) (by simp only at hwrap; omega)
    simp only at hwrap
    rw [symbolTrace, markCycles_eq]
    exact cycles_rise _ t _ y hy (by omega) fun z hz => ih _ z (by omega) (by omega)

theorem encodedTrace_rises {ps : List Byte} (h : ps.length ≤ 1951) : timesRiseStrictly (encodedTrace ps) := by
  have hspan := span_halfFrame ps
  refine symbolTrace_rises _ 700 ⟨0, false⟩ (by decide) ?_
  rw [span_append]
  have hstart : (700 : U32).toNat = 700 := rfl
  omega

/-- The first symbol's mark begins at 700, whatever the payload. -/
theorem encodedTrace_take (ps : List Byte) : (encodedTrace ps).take 2 = [⟨0, false⟩, ⟨700, true⟩] := by
  rw [encodedTrace, halfFrameSymbols]
  simp only [List.cons_append, List.nil_append]
  rw [symbolTrace, markCycles_eq]
  rfl

/-- Settles O44: length and times symbol by symbol; that levels alternate is `symbolTrace_isCompact`. -/
theorem encodedTraceShape : Obligations.EncodedTraceShape := fun ps h =>
  ⟨encodedTrace_length ps, encodedTrace_take ps, symbolTrace_isCompact _ _ _ rfl, encodedTrace_rises h⟩

end Sys2Proof.Proofs
end

section
/-! The trace of a capture (spec/42_sampler.md R82 to R87, spec/10_state.md R24): SAMPLE leaves the captured pairs,
trimmed and re-based, and its times are the microseconds elapsed since the first of them, which do not decrease. -/

namespace Sys2Proof.Proofs
open Sys2Proof.Machine Sys2Proof.Machine.Laws

/-! ### What a capture stores -/

theorem capturedFrom_add (s : State) (c l m n : Nat) :
    s.capturedFrom c l (m + n) = s.capturedFrom c l m ++ s.capturedFrom (c + m) (l + m) n := by
  simp only [State.capturedFrom, List.range_add, List.map_append, List.map_map]
  refine congrArg _ (List.map_congr_left fun k _ => ?_)
  simp only [Function.comp_apply, Nat.add_assoc]

/-- The coming readings seen from a state that has read the pin `j` times more, and the clock not since. -/
theorem capturedFrom_sameClock {s t : State} {j : Nat} (hc : t.clk = s.clk) (he : t.env.clock = s.env.clock)
    (hl : t.env.level = s.env.level.skip j) (c l n : Nat) :
    t.capturedFrom c l n = s.capturedFrom c (j + l) n := by
  simp only [State.capturedFrom, clockReading_of_clock hc he, levelReading_after j hl, Nat.add_assoc]

theorem capturedFrom_setPrio (s : State) (p : Prio) (c l n : Nat) :
    (s.setPrio p).capturedFrom c l n = s.capturedFrom c l n := by
  rw [capturedFrom_sameClock (s := s) (t := s.setPrio p) (j := 0) rfl rfl (tape_skip_zero _).symm, Nat.zero_add]

theorem timeAt_capturedFrom (s : State) (c l : Nat) {n k : Nat} (h : k < n) :
    timeAt (s.capturedFrom c l n) k = s.clockReading (c + k) := by
  simp [timeAt, State.capturedFrom, List.getElem?_map, List.getElem?_range h]

/-- Any number of passes of the capture loop, none included (R84). -/
theorem capture_stores {pin : Nat} {s : State} (n : Nat) (hready : Ready s pin .input)
    (hcap : s.mem.raw.length + n ≤ Config.bufCap) :
    ∃ t, capture pin n s = .done () t ∧ t.mem.raw = s.mem.raw ++ s.capturedFrom 0 0 n := by
  cases n with
  | zero => exact ⟨s, rfl, (List.append_nil _).symm⟩
  | succ n => exact ⟨_, capture_eq pin n s hready.1 hready.2 hcap, rfl⟩

/-- Steps 5a to 7 of a capture that is not empty and whose clock has not wrapped. -/
theorem trimAndRebase_trims {s : State} {xs : List Sample} (hraw : s.mem.raw = xs) (hne : xs ≠ [])
    (hcap : xs.length ≤ Config.bufCap)
    (hle : (timeAt xs 0).toNat ≤ (timeAt xs (xs.length - 1)).toNat) :
    ∃ t, trimAndRebase s = .done () t ∧ t.mem.tr = trimmed xs := by
  subst hraw
  have hfirst : timeAt s.mem.raw 0 = (s.mem.raw.head hne).t := by
    simp [timeAt, ← List.head?_eq_getElem?, List.head?_eq_some_head hne]
  have hlast : timeAt s.mem.raw (s.mem.raw.length - 1) = (s.mem.raw.getLast hne).t := by
    simp [timeAt, ← List.getLast?_eq_getElem?, List.getLast?_eq_some_getLast hne]
  rw [hfirst, hlast] at hle
  exact ⟨_, trimAndRebase_eq (List.head?_eq_some_head hne) (List.getLast?_eq_some_getLast hne) hle hcap, rfl⟩

/-- Steps 3 to 7 of SAMPLE: what `RAW` held before and what the capture adds, trimmed and re-based. -/
theorem sampleCapture_trims {pin : Nat} {s : State} {xs : List Sample} (hready : Ready s pin .input)
    (hxs : s.mem.raw ++ s.capturedFrom 0 0 (s.wr.n - s.wr.k) = xs) (hne : xs ≠ [])
    (hcap : xs.length ≤ Config.bufCap)
    (hle : (timeAt xs 0).toNat ≤ (timeAt xs (xs.length - 1)).toNat) :
    ∃ t, sampleCapture pin s = .done () t ∧ t.mem.tr = trimmed xs := by
  have hroom : (s.setPrio .realtime).mem.raw.length + (s.wr.n - s.wr.k) ≤ Config.bufCap := by
    rw [← hxs, List.length_append, capturedFrom_length] at hcap
    exact hcap
  have hready' : Ready (s.setPrio .realtime) pin .input := ready_of_eq hready rfl rfl rfl
  obtain ⟨s1, hcapture, hraw⟩ := capture_stores (s.wr.n - s.wr.k) hready' hroom
  have hraw' : (s1.setPrio .normal).mem.raw = xs := by
    rw [← hxs, setPrio_mem, hraw, setPrio_mem, capturedFrom_setPrio]
  rw [sampleCapture, hcapture, andThen_of_done]
  exact trimAndRebase_trims hraw' hne hcap hle

/-- A capture of `n` pairs that begins at the coming read `c` of the clock and `l` of the pin, its clock not
wrapped: what `RAW` holds already are its first pairs. -/
theorem sampleCapture_captured {pin c l n : Nat} {s u : State} (hready : Ready u pin .input)
    (hxs : u.mem.raw ++ u.capturedFrom 0 0 (u.wr.n - u.wr.k) = s.capturedFrom c l n) (h1 : 1 ≤ n)
    (hcap : n ≤ Config.bufCap)
    (hle : (s.clockReading c).toNat ≤ (s.clockReading (c + (n - 1))).toNat) :
    ∃ t, sampleCapture pin u = .done () t ∧ t.mem.tr = trimmed (s.capturedFrom c l n) := by
  have hlen : (s.capturedFrom c l n).length = n := capturedFrom_length s c l n
  refine sampleCapture_trims hready hxs (fun hnil => ?_) (by rw [hlen]; exact hcap) ?_
  · rw [hnil] at hlen
    exact absurd hlen.symm (Nat.ne_of_gt h1)
  · rw [hlen, timeAt_capturedFrom s c l h1, timeAt_capturedFrom s c l (Nat.sub_lt h1 Nat.one_pos)]
    exact hle

/-- The trigger poll that ends at its read number `j`, and the capture that begins there (R83). -/
theorem samplePoll_captured {pin j : Nat} {s : State} (hpoll : s.polling (.samplePoll pin))
    (hj : j ≤ s.env.level.script.length) (hsame : ∀ i < j, s.levelReading i = s.wr.l0)
    (hne : s.levelReading j ≠ s.wr.l0)
    (hle : (s.clockReading j).toNat ≤ (s.clockReading (j + (s.wr.n - 1))).toNat) :
    ∃ t, samplePoll pin s = .done () t ∧ t.mem.tr = trimmed (s.capturedFrom j j s.wr.n) := by
  obtain ⟨hv, hd, hcap, hone, hraw⟩ := hpoll
  have hsome := pollPin_some pin s.pinPolls j s hv hd (Nat.lt_succ_of_le hj) hsame hne
  rw [samplePoll, hsome, andThen_of_done]
  rcases storeRaw_cases { t := s.clockReading j, v := s.levelReading j } (polled s j) with
    ⟨_, hstore⟩ | ⟨hfull, _⟩
  · simp only
    rw [hstore, andThen_of_done]
    refine sampleCapture_captured ⟨hv, hd⟩ ?_ hone hcap hle
    obtain ⟨n, hn⟩ : ∃ n, s.wr.n = n + 1 := ⟨s.wr.n - 1, by omega⟩
    have hk : s.wr.n - (s.mem.raw.length + 1) = n := by rw [hraw, hn]; rfl
    have hrest : ∀ (m : Memory) (w : Work), State.capturedFrom { polled s j with mem := m, wr := w } 0 0 n =
        s.capturedFrom (j + 1) (j + 1) n := fun m w => capturedFrom_after (s := s) (i := j) rfl rfl rfl 0 0 n
    show (s.mem.raw ++ _) ++ State.capturedFrom _ 0 0 (s.wr.n - (s.mem.raw.length + 1)) = _
    rw [hk, hrest, hraw, hn, capturedFrom_succ]
    rfl
  · have hempty : (polled s j).mem.raw.length = 0 := by
      show s.mem.raw.length = 0
      rw [hraw]; rfl
    rw [hempty] at hfull
    exact absurd hfull (by decide)

/-! ### SAMPLE up to its first pair -/

/-- `u` is `s` after steps 0 and 1 of SAMPLE and the read of `L0`: the pin an input, `RAW` empty, the clock not
read, the pin read once. -/
structure Begun (s u : State) (pin n : Nat) : Prop where
  ready : Ready u pin .input
  raw : u.mem.raw = []
  n : u.wr.n = n
  k : u.wr.k = 0
  l0 : u.wr.l0 = s.levelReading 0
  clk : u.clk = s.clk
  clock : u.env.clock = s.env.clock
  level : u.env.level = s.env.level.skip 1

/-- CONFIGURE_PIN of a valid pin that the platform grants (R70): the pin is ready, and neither the working
registers nor the clock nor the coming levels have changed. -/
theorem configurePin_ready {pin : Nat} (dir : Direction) (pull : Pull) {s : State} (hv : pin < s.par.pinCount)
    (hok : s.nextPinOk = true) :
    ∃ t, configurePin pin dir pull s = .done () t ∧ Ready t pin dir.pinDir ∧ t.wr = s.wr ∧ t.clk = s.clk
      ∧ t.env.clock = s.env.clock ∧ t.env.level = s.env.level := by
  rcases configurePin_cases pin dir pull s with ⟨hge, _⟩ | ⟨_, hno, _⟩ | ⟨_, _, hconf⟩
  · exact absurd hge (Nat.not_le.2 hv)
  · rw [hok] at hno; cases hno
  · exact ⟨_, hconf, ⟨hv, by rw [setPin_pinAt, if_pos rfl]⟩, rfl, rfl, rfl, rfl⟩

/-- SAMPLE of a capacity in range and a pin that can be configured (R82). -/
theorem sample_begins {pin n : Nat} {s : State} (trigger verbose : Bool) (h1 : 1 ≤ n) (hcap : n ≤ Config.bufCap)
    (hv : pin < s.par.pinCount) (hok : s.nextPinOk = true) :
    ∃ u, Begun s u pin n ∧
      sample pin n trigger verbose s = if trigger then samplePoll pin u else sampleCapture pin u := by
  have hin : ¬ (n < 1 ∨ Config.bufCap < n) := by omega
  obtain ⟨s1, hconf, hready, hwr, hclk, hclock, hlevel⟩ :=
    configurePin_ready .input .off (s := s.setWork { s.wr with n := n }) hv hok
  rcases readPin_cases pin s1 with ⟨_, _, hread⟩ | ⟨hn, _⟩
  · refine ⟨{ s1 with
      mem := { s1.mem with raw := [] }
      wr := { s1.wr with l0 := s1.levelReading 0, k := 0 }
      env := { s1.env with level := s1.env.level.skip 1 } }, ?_, ?_⟩
    · exact
        { ready := ready_of_eq hready rfl rfl rfl
          raw := rfl
          n := congrArg Work.n hwr
          k := rfl
          l0 := by simp only [State.levelReading, hlevel]; rfl
          clk := hclk
          clock := hclock
          level := congrArg (Tape.skip 1) hlevel }
    · rw [sample, if_neg hin, hconf, andThen_of_done, hread, andThen_of_done]
  · exact absurd hready hn

/-! ### The times of a captured trace -/

/-- The trace of a capture shorter than the clock's period begins at 0 and its times do not decrease (R87). -/
theorem trimmed_captured_rises (s : State) (c l n : Nat) (h1 : 1 ≤ n) (h : elapsed s c (n - 1) < 4294967296) :
    timeAt (trimmed (s.capturedFrom c l n)) 0 = 0 ∧ trimmed (s.capturedFrom c l n) ≠ []
      ∧ timesRise (trimmed (s.capturedFrom c l n)) := by
  have hbase : timeAt (s.capturedFrom c l n) 0 = s.clockReading c := timeAt_capturedFrom s c l h1
  have hrises : ((s.capturedFrom c l n).map
      fun x => ({ t := x.t - timeAt (s.capturedFrom c l n) 0, v := x.v } : Sample)).Pairwise
        fun a b => a.t.toNat ≤ b.t.toNat := by
    rw [hbase, State.capturedFrom, List.map_map, List.pairwise_map]
    refine List.Pairwise.imp_of_mem ?_ List.pairwise_lt_range
    intro i j _ hj hij
    have hj' : elapsed s c j ≤ elapsed s c (n - 1) := elapsed_mono s c (by have := List.mem_range.1 hj; omega)
    have hi' : elapsed s c i ≤ elapsed s c j := elapsed_mono s c (Nat.le_of_lt hij)
    show (s.clockReading (c + i) - s.clockReading c).toNat ≤ (s.clockReading (c + j) - s.clockReading c).toNat
    rw [clockReading_sub s c i (by omega), clockReading_sub s c j (by omega)]
    exact hi'
  obtain ⟨n, rfl⟩ : ∃ m, n = m + 1 := ⟨n - 1, by omega⟩
  refine ⟨?_, ?_, ?_⟩
  · rw [trimmed, capturedFrom_succ, List.take_succ_cons, List.map_cons, timeAt_zero, timeAt_zero]
    exact BitVec.sub_self _
  · rw [trimmed, capturedFrom_succ, List.take_succ_cons, List.map_cons]
    exact List.cons_ne_nil _ _
  · rw [trimmed, List.map_take]
    exact (hrises.take).isChain

/-- An operation that ends done leaves its memories to HOST. -/
theorem outcome_of_done {x : Act Unit} {u t : State} (hx : x = .done () u) (hn : x.outcome = .next t) :
    t.mem = u.mem := by
  subst hx
  cases hn
  rfl

/-- Settles O28: each capture is the pairs from one clock read on, trimmed and re-based. -/
theorem sampleTimesRise : Obligations.SampleTimesRise := by
  refine ⟨fun f s t j h1 hcap hv hok hplain htrig hsum hle hn => ?_,
    fun s t pin k hinv hcmd hseq hk hsame hne hsum hle hn => ?_⟩
  · have hj : 1 ≤ j := by
      cases hf : f.trigger with
      | false => exact (hplain hf).ge
      | true => exact (htrig hf).1
    have helapsed : elapsed s (j - 1) (s.opnd.capacity - 1) < 4294967296 := by
      rw [elapsed, Nat.sub_add_cancel hj]
      exact hsum
    obtain ⟨u, hu, heq⟩ := sample_begins f.trigger f.verbose h1 hcap hv hok
    have hclock : ∀ i, u.clockReading i = s.clockReading i := clockReading_of_clock hu.clk hu.clock
    have hlevel : ∀ i, u.levelReading i = s.levelReading (1 + i) := levelReading_after 1 hu.level
    obtain ⟨v, hdone, htr⟩ : ∃ v, sample s.opnd.pin s.opnd.capacity f.trigger f.verbose s = .done () v
        ∧ v.mem.tr = trimmed (s.capturedFrom (j - 1) j s.opnd.capacity) := by
      rw [heq]
      cases hf : f.trigger with
      | false =>
        cases hplain hf
        refine sampleCapture_captured hu.ready ?_ h1 hcap hle
        rw [hu.raw, hu.n, hu.k, capturedFrom_sameClock hu.clk hu.clock hu.level]
        rfl
      | true =>
        obtain ⟨_, hscript, hbefore, hchange⟩ := htrig hf
        have hpoll := samplePoll_captured (pin := s.opnd.pin) (j := j - 1) (s := u)
          ⟨hu.ready.1, hu.ready.2, by rw [hu.n]; exact hcap, by rw [hu.n]; exact h1, hu.raw⟩
          (by rw [hu.level]; simp only [Tape.skip, List.length_drop]; omega)
          (fun i hi => by rw [hlevel, hu.l0]; exact hbefore (1 + i) (by omega) (by omega))
          (by rw [hlevel, hu.l0, Nat.add_sub_cancel' hj]; exact hchange)
          (by rw [hu.n, hclock, hclock]; exact hle)
        rw [hu.n, capturedFrom_sameClock hu.clk hu.clock hu.level, Nat.add_sub_cancel' hj] at hpoll
        exact hpoll
    rw [outcome_of_done hdone hn, htr]
    exact trimmed_captured_rises s (j - 1) j s.opnd.capacity h1 helapsed
  · have hpoll : s.polling (.samplePoll pin) := by
      rcases hinv.sequenced with hidle | ⟨task, rest, htask, hp, _⟩
      · rw [hidle] at hseq; cases hseq
      · have htodo := congrArg Sequencer.todo (htask.symm.trans hseq)
        rw [← List.head_eq_of_cons_eq htodo]
        exact hp
    obtain ⟨v, hdone, htr⟩ := samplePoll_captured hpoll hk hsame hne hle
    obtain ⟨_, _, _, hone, _⟩ := hpoll
    have hstep : step s = .next v.finish := by
      rw [step_of_busy hcmd (by rw [hseq]), hseq]
      simp only [runTasks, runTask, hdone]
    cases hstep.symm.trans hn
    show timeAt v.mem.tr 0 = 0 ∧ v.mem.tr ≠ [] ∧ timesRise v.mem.tr
    rw [htr]
    exact trimmed_captured_rises s k k s.wr.n hone hsum

end Sys2Proof.Proofs
end

section
/-! The half-frames that DECODE reads (spec/44_decoder.md R101, R103; spec/10_state.md R30; spec/60_exceptions.md
R122): of a sequence whose half-frames fit, what `decode_at` returns, what it reports and which flags it sets,
by induction on the nesting. -/

namespace Sys2Proof.Proofs
open Sys2Proof.Machine Sys2Proof.Machine.Laws

/-! ### Reports and their flags (R30, R122) -/

/-- The flags after these entries of `REPORT`: each anomaly sets its own. -/
def raisedBy (st : Status) : List Report → Status
  | [] => st
  | .anomaly a :: rs => raisedBy (st.raised a) rs
  | _ :: rs => raisedBy st rs

theorem raisedBy_append (st : Status) (rs rs' : List Report) :
    raisedBy st (rs ++ rs') = raisedBy (raisedBy st rs) rs' := by
  induction rs generalizing st with
  | nil => rfl
  | cons r rs ih => cases r <;> exact ih _

/-- A flag that the anomalies of one kind set, and no other anomaly, is set after these entries if and only if it
was or one of them is of that kind. -/
theorem raisedBy_flag {flag : Status → Bool} {kind : Anomaly → Prop}
    (hflag : ∀ a st, flag (st.raised a) = true ↔ flag st = true ∨ kind a) (st : Status) (rs : List Report) :
    flag (raisedBy st rs) = true ↔ flag st = true ∨ ∃ a, kind a ∧ Report.anomaly a ∈ rs := by
  induction rs generalizing st with
  | nil => simp [raisedBy]
  | cons r rs ih =>
    cases r with
    | anomaly a =>
      rw [raisedBy, ih, hflag]
      simp only [List.mem_cons, Report.anomaly.injEq, and_or_left, exists_or, or_assoc, exists_eq_right]
    | _ => exact (ih st).trans (by simp)

/-- From `s` to `t` these entries were reported, their flags set, and nothing else but working registers
written. -/
structure Adds (s t : State) (rs : List Report) : Prop extends Reports s t where
  report : t.report = s.report ++ rs
  st : t.st = raisedBy s.st rs

theorem adds_trans {s t u : State} {rs rs' : List Report} (h : Adds s t rs) (h' : Adds t u rs') :
    Adds s u (rs ++ rs') where
  toReports := reports_trans h.toReports h'.toReports
  report := by rw [h'.report, h.report, List.append_assoc]
  st := by rw [h'.st, h.st, raisedBy_append]

theorem adds_refl (s : State) : Adds s s [] :=
  ⟨reports_setWork s.wr s, (List.append_nil _).symm, rfl⟩

theorem adds_anomaly (a : Anomaly) (s : State) : Adds s (s.reportAnomaly a) [.anomaly a] :=
  ⟨reports_anomaly a s, rfl, rfl⟩

theorem adds_setWork (w : Work) (s : State) : Adds s (s.setWork w) [] :=
  ⟨reports_setWork w s, (List.append_nil _).symm, rfl⟩

/-! ### The checksum and the comparison -/

theorem raisedBy_checksumReports (st : Status) (d : Nat) (ps : List Byte) :
    raisedBy st (checksumReports d ps) = { st with
      checksumMismatch := st.checksumMismatch || !(checksumReports d ps).isEmpty } := by
  unfold checksumReports
  split
  · simp [raisedBy, Status.raised]
  · simp only
    split <;> simp [raisedBy, Status.raised]

/-- CHECKSUM reports what R100 says, and sets the flag if it reports (R122). -/
theorem checksum_adds (ps : List Byte) (d : Nat) (s : State) :
    Adds s (checksum ps d s) (checksumReports d ps) := by
  unfold checksum checksumReports
  cases ps.getLast? with
  | none => exact adds_anomaly _ s
  | some last =>
    have hsum : byteSum 0 ps.dropLast = BitVec.ofNat 8 ((ps.dropLast.map BitVec.toNat).sum) := by
      rw [byteSum_eq]; simp
    simp only [hsum]
    by_cases h : BitVec.ofNat 8 ((ps.dropLast.map BitVec.toNat).sum) = last
    · rw [if_pos h, if_pos h]
      exact adds_setWork _ s
    · rw [if_neg h, if_neg h]
      exact adds_trans (adds_setWork _ s) (adds_anomaly _ _)

theorem checksum_lastIndex (ps : List Byte) (d : Nat) (s : State) :
    (checksum ps d s).wr.lastIndex = s.wr.lastIndex := by
  unfold checksum
  split
  · rfl
  · simp only
    split <;> rfl

/-- The first difference is at the first index at which the bytes differ, the last byte left out (R103). -/
theorem firstDifference_eq (k : Nat) (p q : List Byte) (h : q.length = p.length) :
    firstDifference k p q = ((List.range (p.length - 1)).find? fun j => p[j]? != q[j]?).map
      fun j => (k + j, p.getD j 0, q.getD j 0) := by
  induction p generalizing k q with
  | nil => rfl
  | cons a p ih =>
    cases p with
    | nil => rfl
    | cons a2 ps =>
      cases q with
      | nil => cases h
      | cons b qs =>
        have hlen : qs.length = (a2 :: ps).length := Nat.succ.inj h
        rw [firstDifference, show (a :: a2 :: ps).length - 1 = ((a2 :: ps).length - 1) + 1 from rfl,
          List.range_succ_eq_map, List.find?_cons]
        by_cases hab : a = b
        · subst hab
          rw [if_pos rfl, ih (k + 1) qs hlen, List.find?_map]
          simp only [List.getElem?_cons_zero, bne_self_eq_false, Option.map_map]
          refine congrArg₂ Option.map (funext fun j => ?_) rfl
          simp only [Function.comp_apply, Nat.succ_eq_add_one, List.getD_cons_succ]
          rw [Nat.add_assoc, Nat.add_comm 1 j]
        · have hdiff : (some a != some b) = true := by simpa using hab
          rw [if_neg hab]
          simp [hdiff]

theorem raisedBy_compareReports (st : Status) (d : Nat) (p q : List Byte) :
    raisedBy st (compareReports d p q) = { st with
      countMismatch := st.countMismatch || decide (q.length ≠ p.length)
      contentMismatch := st.contentMismatch
        || (decide (q.length = p.length) && !(compareReports d p q).isEmpty) } := by
  unfold compareReports
  by_cases hlen : q.length = p.length
  · rw [if_pos hlen]
    split <;> simp [raisedBy, Status.raised, hlen]
  · rw [if_neg hlen]
    simp [raisedBy, Status.raised, hlen]

/-- The comparison of two half-frames reports what R103 says, and sets the flag of its kind. -/
theorem compareHalves_adds (d : Nat) (p q : List Byte) (s : State) :
    Adds s (compareHalves d p q s) (compareReports d p q) := by
  unfold compareHalves compareReports
  by_cases hlen : q.length = p.length
  · rw [if_pos hlen, if_pos hlen, firstDifference_eq 0 p q hlen]
    cases (List.range (p.length - 1)).find? fun j => p[j]? != q[j]? with
    | none => exact adds_refl s
    | some j =>
      simp only [Option.map_some, Nat.zero_add]
      exact adds_anomaly _ s
  · rw [if_neg hlen, if_neg hlen]
    exact adds_anomaly _ s

/-! ### One half-frame (R99 to R101) -/

/-- The bit extraction of a sequence whose first half-frame fits: its whole bytes, and where its frame ends. -/
theorem extract_fits {cap : Nat} {xs : List Sample} (h : (frameLows xs).length / 8 ≤ cap) :
    (extract cap xs).full = false ∧ readsBytes xs (extract cap xs).bytes
      ∧ (extract cap xs).lastIndex = frameEnd xs := by
  have hlows : frameLows xs = (lowsOf (xs.drop 4)).takeWhile fun dt => dt.toNat ≤ 2000 := by
    rw [frameLows, measuredLows_eq]
  obtain ⟨hfit, _⟩ :=
    scanBits_spec cap (xs.drop 4) .start bitScan_start_tidy (Nat.zero_le cap) (frameLows xs) hlows
  obtain ⟨htidy, hbits, hcount, hlast⟩ := hfit (by simp only [BitScan.start, List.length_nil]; omega)
  rw [← extract] at htidy hbits hcount hlast
  have hfew := htidy.few
  have hbits' : wireBits (extract cap xs).bytes ++ _ = (frameLows xs).map bitOfLow := hbits
  refine ⟨htidy.going, ⟨?_, ?_⟩, ?_⟩
  · simp only [BitScan.start, List.length_nil] at hcount
    omega
  · intro k b p hp hb
    have hk : k < (extract cap xs).bytes.length := (List.getElem?_eq_some_iff.1 hp).1
    have hwire := wireBits_getElem _ k b p hp hb
    rw [← List.getElem?_append_left (by rw [wireBits_length]; omega), hbits', List.getElem?_map] at hwire
    exact hwire
  · rw [hlast, frameEnd, measuredLows_eq]
    rfl

/-- Steps 3 to 6 of R101 on a sequence whose first half-frame fits. -/
theorem halfFrame_fits {b d : Nat} {s : State} {xs : List Sample} (hxs : s.mem.tr.drop b = xs)
    (hfit : (frameLows xs).length / 8 ≤ s.par.payCap) :
    ∃ ps t, halfFrame b d s = .done ps t ∧ readsBytes xs ps ∧ Adds s t (checksumReports d ps)
      ∧ t.wr.lastIndex = frameEnd xs := by
  obtain ⟨hgoing, hbytes, hend⟩ := extract_fits hfit
  have hextract : extractBits b (s.setDepth d) =
      .done (extract s.par.payCap xs).bytes
        ((s.setDepth d).setWork ((s.setDepth d).wr.afterScan (extract s.par.payCap xs))) := by
    subst hxs
    exact if_neg fun hfull => Bool.false_ne_true (hgoing.symm.trans hfull)
  have hrun : halfFrame b d s = .done (extract s.par.payCap xs).bytes
      (checksum (extract s.par.payCap xs).bytes d
        ((s.setDepth d).setWork ((s.setDepth d).wr.afterScan (extract s.par.payCap xs)))) := by
    rw [halfFrame, hextract, andThen_of_done]
  refine ⟨_, _, hrun, hbytes, ?_, (checksum_lastIndex _ d _).trans hend⟩
  exact adds_trans (adds_trans (adds_setWork _ s) (adds_setWork _ _)) (checksum_adds _ d _)

/-! ### The nesting (R103) -/

/-- `decode_at` of a sequence that fits, with fuel for its length: what `HalfFrames` says. -/
theorem decodeAt_fits (fuel : Nat) {b d : Nat} {s : State} {xs : List Sample} (hxs : s.mem.tr.drop b = xs)
    (hfuel : xs.length ≤ fuel) (hfit : FramesFit s.par.payCap xs) :
    ∃ r reports t, decodeAt fuel b d s = .done r t ∧ HalfFrames d xs r.1 (r.2.getD []) reports
      ∧ Adds s t reports := by
  induction fuel generalizing b d s xs with
  | zero =>
    obtain ⟨hfirst, _⟩ := hfit
    obtain ⟨ps, s1, hhalf, hbytes, hadds, _⟩ := halfFrame_fits (d := d) hxs hfirst
    have hnil : xs = [] := List.length_eq_zero_iff.1 (Nat.le_zero.1 hfuel)
    refine ⟨(ps, none), checksumReports d ps, s1, ?_, .one (fun hw => hw.1 hnil) hbytes, hadds⟩
    rw [decodeAt, hhalf, andThen_of_done]
  | succ n ih =>
    obtain ⟨hfirst, htail⟩ := hfit
    obtain ⟨ps, s1, hhalf, hbytes, hadds, hlast⟩ := halfFrame_fits (d := d) hxs hfirst
    have htr : s1.mem.tr = s.mem.tr := by rw [hadds.mem]
    have hwindow : inWindow (s1.mem.tr.length - b) s1.wr.lastIndex = true ↔ secondWindow xs := by
      rw [hlast, htr, ← List.length_drop, hxs, inWindow_iff]
    rw [decodeAt, hhalf, andThen_of_done]
    by_cases hw : secondWindow xs
    · have hdrop : s1.mem.tr.drop (b + s1.wr.lastIndex) = xs.drop (frameEnd xs) := by
        rw [hlast, htr, ← List.drop_drop, hxs]
      have hshort := secondWindow_drop_lt hw
      have hcap : FramesFit s1.par.payCap (xs.drop (frameEnd xs)) := by
        rw [hadds.grows.par]
        exact htail hw
      obtain ⟨r, nested, t, hrun, hframes, hnested⟩ := ih (d := d + 1) hdrop (by omega) hcap
      rw [if_pos (hwindow.2 hw), hrun, andThen_of_done]
      refine ⟨(ps, some r.1), _, _, rfl, .two hw hbytes hframes, ?_⟩
      refine adds_trans (adds_trans hadds hnested) ?_
      exact adds_trans (adds_setWork { t.wr with depth := d } t) (compareHalves_adds d ps r.1 _)
    · rw [if_neg fun hin => hw (hwindow.1 hin)]
      exact ⟨(ps, none), checksumReports d ps, s1, rfl, .one hw hbytes, hadds⟩

/-! ### DECODE -/

theorem compact_mem (s : State) : (compact s).mem = { s.mem with tr := compactTrace s.mem.tr } := rfl

theorem flatten_mem (s : State) : (flatten s).mem = { s.mem with tr := (flattenTrace s.mem.tr).1 } := rfl

/-- Steps 0 to 2 of R101 leave the sequence DECODE reads in `TR`, and change no other memory. -/
theorem preprocessed_mem (s : State) :
    (compact (flatten (compact s))).mem = { s.mem with tr := decodeInput s.mem.tr } := by
  rw [compact_mem, flatten_mem, compact_mem, decodeInput_eq]

theorem preprocessed_quiet (s : State) : Quiet s (compact (flatten (compact s))) :=
  quiet_trans (quiet_compact s) (quiet_trans (quiet_flatten _) (quiet_compact _))

/-- Wherever DECODE ends, `TR` holds the sequence it has read (R102). -/
theorem execDecode_tr {s t : State} (hn : execDecode s = .next t) : t.mem.tr = decodeInput s.mem.tr := by
  refine keeps_outcome (f := fun u => u.mem.tr) (s := compact (flatten (compact s))) (fun _ _ => rfl) ?_ hn |>.trans
    (by rw [preprocessed_mem])
  unfold decodeTrace
  exact keeps_andThen (keeps_comp (fun u => u.1.tr) (decodeAt_keeps _ 0 0 _)) fun _ _ => ⟨rfl⟩

/-- What DECODE leaves of a trace whose half-frames fit: the payloads and reports of `HalfFrames`, their flags, and
no error. -/
structure Decoded (s t : State) (reports : List Report) : Prop where
  frames : HalfFrames 0 (decodeInput s.mem.tr) t.mem.pay t.mem.pay2 reports
  mem : t.mem = { s.mem with tr := decodeInput s.mem.tr, pay := t.mem.pay, pay2 := t.mem.pay2 }
  report : t.report = s.report ++ reports
  st : t.st = raisedBy s.st reports
  err : t.err = s.err
  exit : t.exit = s.exit
  seq : t.seq = .idle

/-- DECODE completes where the half-frames fit (R101). -/
theorem execDecode_fits {s : State} (hfit : FramesFit s.par.payCap (decodeInput s.mem.tr)) :
    ∃ t reports, execDecode s = .next t ∧ Decoded s t reports := by
  have hmem := preprocessed_mem s
  have hquiet := preprocessed_quiet s
  rw [execDecode, decodeTrace]
  generalize compact (flatten (compact s)) = u at hmem hquiet ⊢
  have htr : u.mem.tr.drop 0 = decodeInput s.mem.tr := by rw [hmem]; rfl
  have hlen : (decodeInput s.mem.tr).length ≤ u.mem.tr.length := by rw [← htr]; exact Nat.le_refl _
  rw [← hquiet.par] at hfit
  obtain ⟨r, reports, t, hrun, hframes, hadds⟩ := decodeAt_fits u.mem.tr.length (d := 0) htr hlen hfit
  refine ⟨_, reports, by rw [hrun, andThen_of_done]; rfl, ?_⟩
  exact
    { frames := hframes
      mem := by
        show ({ t.mem with pay := r.1, pay2 := r.2.getD [] } : Memory) = _
        rw [hadds.mem, hmem]
        rfl
      report := hadds.report.trans (by rw [hquiet.report])
      st := hadds.st.trans (by rw [hquiet.st])
      err := hadds.control.err.trans hquiet.err
      exit := hadds.exit.trans hquiet.exit
      seq := rfl }

/-- An anomaly of the transmitter, which no half-frame reports (R123). -/
def isTiming (a : Anomaly) : Prop := ∃ i scheduled difference, a = .timingAnomaly i scheduled difference

theorem checksumReports_noTiming (d : Nat) (ps : List Byte) {a : Anomaly} (ha : isTiming a) :
    Report.anomaly a ∉ checksumReports d ps := by
  obtain ⟨i, c, e, rfl⟩ := ha
  unfold checksumReports
  split
  · simp
  · simp only
    split <;> simp

theorem compareReports_noTiming (d : Nat) (p q : List Byte) {a : Anomaly} (ha : isTiming a) :
    Report.anomaly a ∉ compareReports d p q := by
  obtain ⟨i, c, e, rfl⟩ := ha
  unfold compareReports
  split
  · split <;> simp
  · simp

theorem halfFrames_noTiming {d : Nat} {xs : List Sample} {ps qs : List Byte} {rs : List Report}
    (h : HalfFrames d xs ps qs rs) {a : Anomaly} (ha : isTiming a) : Report.anomaly a ∉ rs := by
  induction h with
  | one _ _ => exact checksumReports_noTiming _ _ ha
  | two _ _ _ ih =>
    simp only [List.mem_append, not_or]
    exact ⟨⟨checksumReports_noTiming _ _ ha, ih⟩, compareReports_noTiming _ _ _ ha⟩

/-- Each flag after these entries (R30, R122). -/
theorem raisedBy_checksumMismatch (st : Status) (rs : List Report) :
    (raisedBy st rs).checksumMismatch = true ↔ st.checksumMismatch = true
      ∨ ∃ d values, Report.anomaly (.checksumMismatch d values) ∈ rs := by
  rw [raisedBy_flag (flag := Status.checksumMismatch) (kind := fun a => ∃ d values, a = .checksumMismatch d values)
    (fun a st => by cases a <;> simp [Status.raised])]
  exact or_congr_right ⟨fun ⟨_, ⟨d, v, rfl⟩, hmem⟩ => ⟨d, v, hmem⟩,
    fun ⟨d, v, hmem⟩ => ⟨_, ⟨d, v, rfl⟩, hmem⟩⟩

theorem raisedBy_countMismatch (st : Status) (rs : List Report) :
    (raisedBy st rs).countMismatch = true ↔ st.countMismatch = true
      ∨ ∃ d m n, Report.anomaly (.countMismatch d m n) ∈ rs := by
  rw [raisedBy_flag (flag := Status.countMismatch) (kind := fun a => ∃ d m n, a = .countMismatch d m n)
    (fun a st => by cases a <;> simp [Status.raised])]
  exact or_congr_right ⟨fun ⟨_, ⟨d, m, n, rfl⟩, hmem⟩ => ⟨d, m, n, hmem⟩,
    fun ⟨d, m, n, hmem⟩ => ⟨_, ⟨d, m, n, rfl⟩, hmem⟩⟩

theorem raisedBy_contentMismatch (st : Status) (rs : List Report) :
    (raisedBy st rs).contentMismatch = true ↔ st.contentMismatch = true
      ∨ ∃ d j a b, Report.anomaly (.contentMismatch d j a b) ∈ rs := by
  rw [raisedBy_flag (flag := Status.contentMismatch) (kind := fun a => ∃ d j x y, a = .contentMismatch d j x y)
    (fun a st => by cases a <;> simp [Status.raised])]
  exact or_congr_right ⟨fun ⟨_, ⟨d, j, x, y, rfl⟩, hmem⟩ => ⟨d, j, x, y, hmem⟩,
    fun ⟨d, j, x, y, hmem⟩ => ⟨_, ⟨d, j, x, y, rfl⟩, hmem⟩⟩

theorem raisedBy_timingAnomaly (st : Status) {rs : List Report}
    (h : ∀ a, isTiming a → Report.anomaly a ∉ rs) : (raisedBy st rs).timingAnomaly = st.timingAnomaly := by
  refine Bool.eq_iff_iff.2 ((raisedBy_flag (flag := Status.timingAnomaly) (kind := isTiming)
    (fun a st => by cases a <;> simp [Status.raised, isTiming]) st rs).trans ?_)
  exact or_iff_left fun ⟨a, ha, hmem⟩ => h a ha hmem

/-! ### The second half-frame check -/

/-- A DECODE whose half-frames fit, by the trace it leaves: what it has decoded. -/
theorem decoded_of_fits {f : CmdFlags} {s t : State} (hn : exec (.decode f) s = .next t)
    (hfit : FramesFit s.par.payCap t.mem.tr) :
    ∃ reports, Decoded s t reports ∧ HalfFrames 0 t.mem.tr t.mem.pay t.mem.pay2 reports := by
  have htr : t.mem.tr = decodeInput s.mem.tr := execDecode_tr hn
  rw [htr] at hfit ⊢
  obtain ⟨u, reports, hrun, hdecoded⟩ := execDecode_fits hfit
  cases hrun.symm.trans hn
  exact ⟨reports, hdecoded, hdecoded.frames⟩

/-- Outside the window there is one half-frame. -/
theorem halfFrames_outside {d : Nat} {xs : List Sample} {ps qs : List Byte} {rs : List Report}
    (h : HalfFrames d xs ps qs rs) (hw : ¬ secondWindow xs) :
    readsBytes xs ps ∧ qs = [] ∧ rs = checksumReports d ps := by
  cases h with
  | one _ hbytes => exact ⟨hbytes, rfl, rfl⟩
  | two hin _ _ => exact absurd hin hw

/-- Inside it, where the tail has no second frame of its own, there are two (R101, R103). -/
theorem halfFrames_inside {d : Nat} {xs : List Sample} {ps qs : List Byte} {rs : List Report}
    (h : HalfFrames d xs ps qs rs) (hw : secondWindow xs) (htail : ¬ secondWindow (xs.drop (frameEnd xs))) :
    readsBytes xs ps ∧ readsBytes (xs.drop (frameEnd xs)) qs
      ∧ rs = checksumReports d ps ++ checksumReports (d + 1) qs ++ compareReports d ps qs := by
  cases h with
  | one hout _ => exact absurd hw hout
  | two _ hbytes hsecond =>
    obtain ⟨hbytes2, _, hnested⟩ := halfFrames_outside hsecond htail
    exact ⟨hbytes, hbytes2, by rw [hnested]⟩

/-- The half-frames of an empty sequence: an empty payload, reported (R100; log entry 14). -/
theorem halfFrames_nil {ps qs : List Byte} {rs : List Report} (h : HalfFrames 0 [] ps qs rs) :
    ps = [] ∧ qs = [] ∧ rs = [.anomaly (.checksumMismatch 0 none)] := by
  obtain ⟨⟨hlen, _⟩, hqs, hrs⟩ := halfFrames_outside h fun hw => hw.1 rfl
  have hps : ps = [] := List.length_eq_zero_iff.1 hlen
  subst hps
  exact ⟨rfl, hqs, hrs⟩

theorem framesFit_nil (cap : Nat) : FramesFit cap [] := framesFit_of_length [] (Nat.zero_le _)

/-- Settles O38: the half-frames of the trace left, by `decoded_of_fits`; one of them outside the window, two inside
it, any number nested; the flags by the entries reported. -/
theorem secondHalfFrameCheck : Obligations.SecondHalfFrameCheck := by
  refine ⟨fun f s t hn hfirst => ⟨fun hw => ?_, ?_⟩, fun f s t hn hfit => ?_, fun f s hnil => ?_⟩
  · obtain ⟨reports, hdecoded, hframes⟩ := decoded_of_fits hn (.intro hfirst fun hin => absurd hin hw)
    obtain ⟨hbytes, hpay2, hreports⟩ := halfFrames_outside hframes hw
    subst hreports
    exact ⟨hbytes, hpay2, hdecoded.report, hdecoded.st.trans (raisedBy_checksumReports _ _ _)⟩
  · rintro hw tail rfl hsecond htail
    have hfit : FramesFit s.par.payCap t.mem.tr :=
      .intro hfirst fun _ => .intro hsecond fun hin => absurd hin htail
    obtain ⟨reports, hdecoded, hframes⟩ := decoded_of_fits hn hfit
    obtain ⟨hbytes, hbytes2, hreports⟩ := halfFrames_inside hframes hw htail
    subst hreports
    refine ⟨hbytes, hbytes2, ?_, hdecoded.st.trans ?_⟩
    · rw [hdecoded.report, List.append_assoc, List.append_assoc, List.append_assoc]
    · have hempty : ∀ rs rs' : List Report, (rs ++ rs').isEmpty = (rs.isEmpty && rs'.isEmpty) :=
        fun rs _ => by cases rs <;> rfl
      rw [raisedBy_append, raisedBy_append, raisedBy_checksumReports, raisedBy_checksumReports,
        raisedBy_compareReports, hempty, Bool.not_and, Bool.or_assoc]
  · obtain ⟨reports, hdecoded, hframes⟩ := decoded_of_fits hn hfit
    refine ⟨reports, hframes, hdecoded.report, ?_⟩
    rw [hdecoded.st]
    exact ⟨raisedBy_checksumMismatch _ _, raisedBy_countMismatch _ _, raisedBy_contentMismatch _ _,
      raisedBy_timingAnomaly _ fun a ha => halfFrames_noTiming hframes ha⟩
  · have hinput : decodeInput s.mem.tr = [] := by rw [hnil]; rfl
    obtain ⟨t, reports, hrun, hdecoded⟩ := execDecode_fits (s := s) (hinput ▸ framesFit_nil _)
    have hframes := hdecoded.frames
    rw [hinput] at hframes
    obtain ⟨hpay, hpay2, hreports⟩ := halfFrames_nil hframes
    refine ⟨t, hrun, hdecoded.err, hdecoded.exit, hdecoded.seq, ?_, hreports ▸ hdecoded.report,
      (hreports ▸ hdecoded.st).trans rfl⟩
    rw [hdecoded.mem, hinput, hpay, hpay2, ← hnil]

end Sys2Proof.Proofs
end

section
/-! How a step can stop (spec/10_state.md R38, R39, spec/60_exceptions.md R129, R137): by the contracts of the
operations nothing faults, and what is refused is refused by the use of one command. -/

namespace Sys2Proof.Proofs
open Sys2Proof.Machine Sys2Proof.Machine.Laws

/-! ### Outcomes without a fault -/

/-- The outcome is a next state, or a refusal of which `R` holds; it is no fault. -/
inductive Answers (R : Refusal → Prop) : Host.Outcome State Fault Refusal → Prop where
  | next {t : State} : Answers R (.next t)
  | refused {r : Refusal} (stated : R r) : Answers R (.refused r)

theorem answers_mono {R R' : Refusal → Prop} {o : Host.Outcome State Fault Refusal} (hR : ∀ r, R r → R' r)
    (h : Answers R o) : Answers R' o := by
  cases h with
  | next => exact .next
  | refused hr => exact .refused (hR _ hr)

section
variable {R : Refusal → Prop}

/-- An operation whose contract's premise holds answers a next state. -/
theorem answers_outcome {P : Prop} {s : State} {x : Act Unit} {D : Unit → State → Prop}
    (h : Contract P s x D) (hP : P) : Answers R x.outcome := by
  cases h with
  | done => exact .next
  | fatal => exact .next
  | wait => exact .next
  | fault never => exact absurd hP never
  | refused never => exact absurd hP never

/-! ### The sequencer's stack (R29) -/

/-- One stack entry that begins, or that a poll left, and then the entries below it. -/
theorem runTasks_cons_answers {k : Task} {rest : List Task} {s : State} (hs : Calm s)
    (hk : k.fresh = true ∨ s.polling k) (htail : ∀ t, Calm t → Answers R (runTasks rest t)) :
    Answers R (runTasks (k :: rest) s) := by
  have h := runTask_contract k s
  rw [runTasks]
  cases hx : runTask k s <;> rw [hx] at h <;> cases h
  case done hg hc he hp => exact htail _ (calm_after hs hc he (hp ⟨hs.sound, hk⟩).1)
  case fatal => exact .next
  case wait => exact .next
  case fault never => exact absurd ⟨hs.sound, hk⟩ never
  case refused never => exact absurd ⟨hs.sound, hk⟩ never

theorem runTasks_answers {ts : List Task} (hfresh : ts.all Task.fresh = true) {s : State} (hs : Calm s) :
    Answers R (runTasks ts s) := by
  induction ts generalizing s with
  | nil => exact .next
  | cons k rest ih =>
    obtain ⟨hk, hrest⟩ := Bool.and_eq_true_iff.1 hfresh
    exact runTasks_cons_answers hs (.inl hk) fun t ht => ih hrest ht

/-- A block that polls goes on to a next state. -/
theorem resume_answers {s : State} (h : s.Inv) (hb : s.seq.busy = true) : Answers R (resume s) := by
  rcases h.sequenced with hidle | ⟨k, rest, hseq, hpoll, hfresh⟩
  · rw [hidle] at hb; cases hb
  · rw [resume, hseq]
    exact runTasks_cons_answers (calm_of_inv h (noError_of_busy h hb)) (.inr hpoll)
      fun t => runTasks_answers hfresh

/-! ### The modes (R110 to R114) -/

/-- A mode that passes step 0 fails a check of ranges, which is an error of its own, or runs its chain. -/
theorem runMode_answers {tasks : List Task} (hfresh : tasks.all Task.fresh = true) {s : State} (hs : Calm s) :
    Answers R (runMode tasks s.startMode) := by
  rcases runMode_cases tasks s.startMode with ⟨_, h⟩ | ⟨_, _, h⟩ | ⟨_, _, _, h⟩ <;> rw [h]
  · exact .next
  · exact .next
  · exact runTasks_answers hfresh (calm_startMode hs)

theorem execModeSample_answers {s : State} (hs : Calm s) : Answers R (execModeSample s) := by
  unfold execModeSample
  split
  · split
    · exact .next
    · exact runMode_answers (modeSampleTasks_fresh _ _ _) hs
  · exact .next

theorem execModeSendHex_answers {s : State} (hs : Calm s) : Answers R (execModeSendHex s) := by
  unfold execModeSendHex
  split
  · split
    · exact .next
    · exact runMode_answers (modeSendHexTasks_fresh _ _ _) hs
  · exact .next

theorem execModeReplayFile_answers {s : State} (hs : Calm s) : Answers R (execModeReplayFile s) := by
  unfold execModeReplayFile
  split
  · split
    · exact .next
    · exact runMode_answers (modeReplayTasks_fresh _ _ _) hs
  · exact .next

end

/-! ### The commands HOST starts -/

/-- The uses of an operation that it refuses by itself (R39, R71, R72). -/
inductive RefusedUse (s : State) : Op → Refusal → Prop where
  | readPin (h : ¬ (s.opnd.pin < s.par.pinCount ∧ (s.pinAt s.opnd.pin).dir = .input)) :
      RefusedUse s .readPin (.readOfNonInput s.opnd.pin)
  | writePin (h : ¬ (s.opnd.pin < s.par.pinCount ∧ (s.pinAt s.opnd.pin).dir = .output)) :
      RefusedUse s .writePin (.writeToNonOutput s.opnd.pin)
  | burst (h : s.wr.tcurWritten = false) : RefusedUse s .burst .unwrittenCursor

theorem execReadPin_answers (s : State) : Answers (RefusedUse s .readPin) (execReadPin s) := by
  rw [execReadPin]
  rcases readPin_cases s.opnd.pin s with ⟨_, _, h⟩ | ⟨hn, h⟩ <;> rw [h]
  · exact .next
  · exact .refused (.readPin hn)

theorem execWritePin_answers (s : State) : Answers (RefusedUse s .writePin) (execWritePin s) := by
  rw [execWritePin]
  rcases writePin_cases s.opnd.pin s.opnd.level s with ⟨_, _, h⟩ | ⟨hn, h⟩ <;> rw [h]
  · exact .next
  · exact .refused (.writePin hn)

theorem execBurst_answers {s : State} (hs : Sound s) : Answers (RefusedUse s .burst) (execBurst s) := by
  rw [execBurst]
  split
  · exact answers_outcome (burst_contract _ _ s) hs
  · next hn => exact .refused (.burst (Bool.eq_false_iff.2 hn))

theorem execExtractBits_answers {R : Refusal → Prop} (s : State) : Answers R (execExtractBits s) := by
  unfold execExtractBits
  simp only
  split
  · exact .next
  · exact .next

theorem execEncode_answers {R : Refusal → Prop} {s : State} (hs : Sound s) : Answers R (execEncode s) := by
  rw [execEncode]
  exact answers_outcome (encodePayload_contract s) hs

/-- Every command, from a calm block. -/
theorem exec_answers (i : Instr) {s : State} (hs : Calm s) : Answers (RefusedUse s i.op) (exec i s) := by
  cases i with
  | configurePin f => exact answers_outcome (configurePin_contract _ _ _ s) hs.sound
  | readPin f => exact execReadPin_answers s
  | writePin f => exact execWritePin_answers s
  | nowMicros f => exact .next
  | raisePriority f => exact .next
  | restorePriority f => exact .next
  | avoidClockWrap f => exact answers_outcome (avoidClockWrap_contract _ s) hs.sound
  | compact f => exact .next
  | traceWrite f => exact answers_outcome (traceWrite_contract _ _ s) hs.sound
  | traceRead f => exact answers_outcome (traceRead_contract _ s) hs.sound
  | sample f => exact answers_outcome (sample_contract _ _ _ _ s) hs.sound
  | transmit f => exact answers_outcome (transmit_contract _ _ s) hs.sound
  | flatten f => exact .next
  | extractBits f => exact execExtractBits_answers s
  | checksum f => exact .next
  | decode f => exact answers_outcome (decodeTrace_contract s) hs.sound
  | hexParse f => exact answers_outcome (hexParse_contract _ s) hs.sound
  | burst f => exact execBurst_answers hs.sound
  | encode f => exact execEncode_answers hs.sound
  | modeSample f => exact execModeSample_answers hs
  | modeSendHex f => exact execModeSendHex_answers hs
  | modeReplayFile f => exact execModeReplayFile_answers hs

/-! ### The step -/

/-- How a decoded command may be refused on an idle block without an error: a second mode (U6), or a refused use. -/
inductive RefusedCommand (s : State) (i : Instr) : Refusal → Prop where
  | secondMode (hm : i.op.isMode = true) (hs : s.modeStarted = true) : RefusedCommand s i .secondMode
  | use {r : Refusal} (h : RefusedUse s i.op r) : RefusedCommand s i r

theorem runInstr_answers (i : Instr) {s : State} (hs : Calm s) :
    Answers (RefusedCommand s i) (runInstr i s) := by
  by_cases hsecond : i.op.isMode = true ∧ s.modeStarted = true
  · obtain ⟨hm, hstarted⟩ := hsecond
    rw [runInstr_secondMode hm hstarted]
    exact .refused (.secondMode hm hstarted)
  · rw [runInstr_runs fun hm => Bool.eq_false_iff.2 fun hstarted => hsecond ⟨hm, hstarted⟩]
    exact answers_mono (fun _ => .use) (exec_answers i hs)

/-- How a command word may be refused, each way under its condition (R129, R137). -/
inductive RefusedWord (s : State) (w : CmdWord) : Refusal → Prop where
  | busy (hb : s.seq.busy = true) : RefusedWord s w .startedWhileBusy
  | afterError (hb : s.seq.busy = false) (he : s.err.kind ≠ .none) : RefusedWord s w .invocationOver
  | command {i : Instr} {r : Refusal} (hb : s.seq.busy = false) (he : s.err.kind = .none)
      (hw : decode w = .ok i) (h : RefusedCommand s.takeCommand i r) : RefusedWord s w r

theorem runCommand_answers (w : CmdWord) {s : State} (h : s.Inv) :
    Answers (RefusedWord s w) (runCommand w s) := by
  cases hb : s.seq.busy with
  | true =>
    rw [runCommand_busy w hb]
    exact .refused (.busy hb)
  | false =>
    by_cases he : s.err.kind = .none
    · cases hw : decode w with
      | ok i =>
        rw [runCommand_decoded hw hb he]
        exact answers_mono (fun _ => .command hb he hw)
          (runInstr_answers i (calm_takeCommand (calm_of_inv h he)))
      | reservedOp op => simp only [runCommand, hb, he, hw]; exact .next
      | reservedBits => simp only [runCommand, hb, he, hw]; exact .next
    · rw [runCommand_after_error w hb he]
      exact .refused (.afterError hb he)

/-- A step from a state with the invariant: only a command word is ever refused. -/
theorem step_answers {s : State} (h : s.Inv) :
    Answers (fun r => ∃ w, s.cmd = some w ∧ RefusedWord s w r) (step s) := by
  cases hcmd : s.cmd with
  | some w =>
    rw [step_of_command hcmd]
    exact answers_mono (fun r hr => ⟨w, rfl, hr⟩) (runCommand_answers w h)
  | none =>
    cases hb : s.seq.busy with
    | false => rw [step_of_idle hcmd hb]; exact .next
    | true => rw [step_of_busy hcmd hb]; exact resume_answers h hb

/-- Settles O58: a step answers, by `step_answers`, and each way a word is refused is one of those stated. -/
theorem stopsOnlyAsStated : Obligations.StopsOnlyAsStated := by
  intro s hinv
  have answers := step_answers hinv
  refine ⟨fun x hx => ?_, fun r hr => ?_⟩
  · rw [hx] at answers
    cases answers
  · rw [hr] at answers
    obtain ⟨w, hcmd, hrefused⟩ : ∃ w, s.cmd = some w ∧ RefusedWord s w r := by
      cases answers with
      | refused stated => exact stated
    refine ⟨w, hcmd, ?_⟩
    cases hrefused with
    | busy hb => exact .inl ⟨rfl, hb⟩
    | afterError hb he => exact .inr (.inl ⟨rfl, hb, he⟩)
    | @command i _ hb he hw h =>
      refine .inr (.inr ⟨hb, he, i, hw, ?_⟩)
      cases h with
      | secondMode hm hs => exact .inl ⟨rfl, hm, hs⟩
      | use huse =>
        generalize hop : i.op = op at huse
        cases huse with
        | readPin hpin => exact .inr (.inl ⟨rfl, rfl, hpin⟩)
        | writePin hpin => exact .inr (.inr (.inl ⟨rfl, rfl, hpin⟩))
        | burst hcursor => exact .inr (.inr (.inr ⟨rfl, rfl, hcursor⟩))

end Sys2Proof.Proofs
end

section
/-! BURST as HOST starts it (spec/45_encoder.md R106, spec/20_memory.md R39). -/

namespace Sys2Proof.Proofs
open Sys2Proof.Machine Sys2Proof.Machine.Laws

/-- With its cursor written BURST runs on the operand registers. -/
theorem execBurst_of_written {s : State} (h : s.wr.tcurWritten = true) :
    execBurst s = (burst s.opnd.mark s.opnd.space s).outcome := if_pos h

/-- Settles O42: the burst that fits and the one that fills `TR` by `burst_fits` and `burst_full`. -/
theorem burstOutcome : Obligations.BurstOutcome := by
  refine fun f s => ⟨fun hcursor hfits => ?_, fun hcursor hle hover => ?_, fun hcursor => ?_⟩
  · show execBurst s = _
    rw [execBurst_of_written hcursor, burst_fits hfits]
    rfl
  · obtain ⟨c, hfull⟩ := burst_full (sp := s.opnd.space) hle hover
    exact ⟨_, (execBurst_of_written hcursor).trans (congrArg Act.outcome hfull), rfl⟩
  · exact if_neg (by rw [hcursor]; exact Bool.false_ne_true)

end Sys2Proof.Proofs
end

section
/-! TRANSMIT is never early (spec/20_memory.md R46, spec/43_transmitter.md R94): the loop of step 5 followed through
the numbers of the clock reads it makes, an edge being written at a read not before the one that ended its wait; then
what those numbers mean where the clock does not wrap (R142). -/

namespace Sys2Proof.Proofs
open Sys2Proof.Machine Sys2Proof.Machine.Laws

/-! ### Clock reads and pin writes -/

/-- The last value of `CLK` read once `n` of the coming reads have been made. -/
def lastReading (s : State) : Nat → Option U32
  | 0 => s.lastClk
  | n + 1 => some (s.clockReading n)

/-- From `s` to `t` the next `n` clock reads were made and `ws` written to the pins, the trace and the error registers
left alone. -/
structure Sends (s t : State) (n : Nat) (ws : List PinWrite) : Prop where
  used : t.env.clock.used = s.env.clock.used + n
  last : t.lastClk = lastReading s n
  reading : ∀ k, t.clockReading k = s.clockReading (n + k)
  wlog : t.wlog = s.wlog ++ ws
  tr : t.mem.tr = s.mem.tr
  err : t.err = s.err

section
variable {s t u : State} {m n : Nat} {ws ws' : List PinWrite}

theorem lastReading_after (h : Sends s t m ws) (n : Nat) : lastReading t n = lastReading s (m + n) := by
  cases n with
  | zero => exact h.last
  | succ n => exact congrArg some (h.reading n)

theorem sends_trans (h : Sends s t m ws) (h' : Sends t u n ws') : Sends s u (m + n) (ws ++ ws') where
  used := by rw [h'.used, h.used, Nat.add_assoc]
  last := h'.last.trans (lastReading_after h n)
  reading := fun k => by rw [h'.reading, h.reading, Nat.add_assoc]
  wlog := by rw [h'.wlog, h.wlog, List.append_assoc]
  tr := h'.tr.trans h.tr
  err := h'.err.trans h.err

/-- Writes made without a further read. -/
theorem sends_unread (hc : t.clk = s.clk) (hl : t.lastClk = s.lastClk) (he : t.env.clock = s.env.clock)
    (hw : t.wlog = s.wlog ++ ws) (htr : t.mem.tr = s.mem.tr) (herr : t.err = s.err) : Sends s t 0 ws where
  used := congrArg Tape.used he
  last := hl
  reading := fun k => by rw [Nat.zero_add]; exact clockReading_of_clock hc he k
  wlog := hw
  tr := htr
  err := herr

theorem sends_nothing (hc : t.clk = s.clk) (hl : t.lastClk = s.lastClk) (he : t.env.clock = s.env.clock)
    (hw : t.wlog = s.wlog) (htr : t.mem.tr = s.mem.tr) (herr : t.err = s.err) : Sends s t 0 [] :=
  sends_unread hc hl he (by rw [hw, List.append_nil]) htr herr

theorem sends_then_nothing (h : Sends s t n ws) (h' : Sends t u 0 []) : Sends s u n ws :=
  List.append_nil ws ▸ sends_trans h h'

theorem sends_after_nothing (h : Sends s t 0 []) (h' : Sends t u n ws) : Sends s u n ws :=
  Nat.zero_add n ▸ sends_trans h h'

theorem sends_reads (h : Sends s t n ws) : t.env.clock.used - s.env.clock.used = n := by
  rw [h.used, Nat.add_sub_cancel_left]

end

theorem readNow_sends (s : State) (n : Nat) : Sends s (State.readNow^[n] s) n [] := by
  cases n with
  | zero => exact sends_nothing rfl rfl rfl rfl rfl rfl
  | succ n =>
    rw [iterate_readNow]
    exact ⟨rfl, rfl, clockReading_after n rfl rfl, (List.append_nil _).symm, rfl, rfl⟩

theorem readClock_sends (s : State) : Sends s s.readClock 1 [] := by
  rw [readClock_eq]
  exact ⟨rfl, rfl, clockReading_after 0 rfl rfl, (List.append_nil _).symm, rfl, rfl⟩

theorem setWork_sends (w : Work) (s : State) : Sends s (s.setWork w) 0 [] :=
  sends_nothing rfl rfl rfl rfl rfl rfl

/-- A busy-wait is over at a value that is due, the last one read (R94). -/
theorem pollClock_sends (due : U32 → Bool) (fuel : Nat) (s : State) :
    (∃ t d, pollClock due fuel s = (true, t) ∧ due (s.clockReading d) = true ∧ Sends s t (d + 1) [])
      ∨ ∃ t n, pollClock due fuel s = (false, t) ∧ Sends s t n [] := by
  rcases pollClock_cases due fuel s with ⟨d, _, _, hdue, h⟩ | ⟨_, h⟩
  · exact .inl ⟨_, d, h, hdue, readNow_sends s (d + 1)⟩
  · exact .inr ⟨_, fuel, h, readNow_sends s fuel⟩

/-! ### Operations that raise no error -/

/-- The operation ends done in a state of which `D` holds, or at a poll in one of which `W` holds, or leaves no state;
it raises no error. -/
inductive NoRaise (D W : State → Prop) : Act Unit → Prop where
  | done {t : State} (gives : D t) : NoRaise D W (.done () t)
  | wait {k : Task} {t : State} (gives : W t) : NoRaise D W (.wait k t)
  | fault {f : Fault} : NoRaise D W (.fault f)
  | refused {r : Refusal} : NoRaise D W (.refused r)

section
variable {D E W V : State → Prop} {x : Act Unit}

theorem noRaise_mono (hD : ∀ t, D t → E t) (hW : ∀ t, W t → V t) (h : NoRaise D W x) : NoRaise E V x := by
  cases h with
  | done h => exact .done (hD _ h)
  | wait h => exact .wait (hW _ h)
  | fault => exact .fault
  | refused => exact .refused

theorem noRaise_andThen {k : Unit → State → Act Unit} (hx : NoRaise D W x)
    (hk : ∀ t, D t → NoRaise E W (k () t)) : NoRaise E W (x.andThen k) := by
  cases hx with
  | done h => exact hk _ h
  | wait h => exact .wait h
  | fault => exact .fault
  | refused => exact .refused

/-- What HOST finds after such an operation: an idle block, or one that polls. -/
theorem noRaise_outcome {t : State} (h : NoRaise D W x) (hn : x.outcome = .next t) :
    (∃ u, D u ∧ t = u.finish) ∨ ∃ k u, W u ∧ t = u.suspend k [] := by
  cases h with
  | done h => cases hn; exact .inl ⟨_, h, rfl⟩
  | wait h => cases hn; exact .inr ⟨_, _, h, rfl⟩
  | fault => cases hn
  | refused => cases hn

/-! ### One edge -/

theorem storeObs_sends (c : U32) (s : State) : NoRaise (fun t => Sends s t 0 []) W (storeObs c s) := by
  rcases storeObs_cases c s with ⟨_, h⟩ | ⟨_, h⟩ <;> rw [h]
  · exact .done (sends_nothing rfl rfl rfl rfl rfl rfl)
  · exact .fault

/-- One entry of `WLOG` (R72). -/
theorem writePin_sends (pin : Nat) (level : Level) (s : State) :
    NoRaise (fun t => Sends s t 0 [{ pin := pin, level := level, clock := s.lastClk }]) W
      (writePin pin level s) := by
  rcases writePin_cases pin level s with ⟨_, _, h⟩ | ⟨_, h⟩ <;> rw [h]
  · exact .done (sends_unread rfl rfl rfl rfl rfl rfl)
  · exact .refused

/-- An edge whose wait has ended goes out at once, or with statistics after one more clock read (R94). -/
theorem emitEdge_sends (pin : Nat) (stats : Bool) (level : Level) (s : State) :
    NoRaise (fun t => ∃ n, Sends s t n [{ pin := pin, level := level, clock := lastReading s n }]) W
      (emitEdge pin stats level s) := by
  unfold emitEdge
  split
  · refine noRaise_andThen (storeObs_sends _ _) fun u hu => ?_
    have hread : Sends s u 1 [] := sends_then_nothing (readClock_sends s) hu
    exact noRaise_mono (fun t ht => ⟨1, hread.last ▸ sends_trans hread ht⟩) (fun _ => id)
      (writePin_sends pin level u)
  · exact noRaise_mono (fun t ht => ⟨0, ht⟩) (fun _ => id) (writePin_sends pin level s)

/-! ### The loop of step 5 -/

/-- The first edges of a schedule written at clock reads in turn, by a loop that makes the reads from number `j` up to
but not including number `n`: each at or after a read, of those since the edge before, that was due. -/
inductive WrittenDue (s : State) (n : Nat) : Nat → List Sample → List Nat → Prop where
  | stop {j : Nat} {xs : List Sample} (hj : j ≤ n) : WrittenDue s n j xs []
  | edge {j d k : Nat} {x : Sample} {xs : List Sample} {ks : List Nat} (hjd : j ≤ d) (hdk : d ≤ k)
      (due : x.t.toNat ≤ (s.clockReading d).toNat) (rest : WrittenDue s n (k + 1) xs ks) :
      WrittenDue s n j (x :: xs) (k :: ks)

/-- The same, seen from a state `c` clock reads before. -/
theorem writtenDue_after {s t : State} {c n j : Nat} {xs : List Sample} {ks : List Nat}
    (hr : ∀ k, t.clockReading k = s.clockReading (c + k)) (h : WrittenDue t n j xs ks) :
    WrittenDue s (c + n) (c + j) xs (ks.map (c + ·)) := by
  induction h with
  | stop hj => exact .stop (Nat.add_le_add_left hj c)
  | edge hjd hdk due _ ih =>
    exact .edge (Nat.add_le_add_left hjd c) (Nat.add_le_add_left hdk c) (hr _ ▸ due) ih

/-- From `s` to `t` the first edges of `xs` went out, at the reads `ks`. -/
def EdgesOut (s t : State) (pin : Nat) (xs : List Sample) (ks : List Nat) : Prop :=
  ∃ n, Sends s t n (writesAt s pin xs ks) ∧ WrittenDue s n 0 xs ks

theorem edgesOut_nil {s t : State} {n : Nat} (pin : Nat) (xs : List Sample) (h : Sends s t n []) :
    EdgesOut s t pin xs [] := by
  refine ⟨n, ?_, .stop (Nat.zero_le n)⟩
  rw [writesAt, List.zip_nil_right]
  exact h

/-- One edge, and then the others. -/
theorem edgesOut_cons {s u t : State} {pin d k : Nat} {x : Sample} {xs : List Sample} {ks : List Nat}
    (hdk : d ≤ k) (due : x.t.toNat ≤ (s.clockReading d).toNat)
    (hu : Sends s u (k + 1) [{ pin := pin, level := x.v, clock := some (s.clockReading k) }])
    (h : EdgesOut u t pin xs ks) : EdgesOut s t pin (x :: xs) (k :: ks.map (k + 1 + ·)) := by
  obtain ⟨n, hsends, hwritten⟩ := h
  refine ⟨k + 1 + n, ?_, .edge (Nat.zero_le d) hdk due (writtenDue_after hu.reading hwritten)⟩
  rw [writesAt_cons, ← writesAt_after hu.reading]
  exact sends_trans hu hsends

/-- Edges that are out stay out while nothing more is read or written. -/
theorem edgesOut_then_nothing {s t u : State} {pin : Nat} {xs : List Sample} {ks : List Nat}
    (h : EdgesOut s t pin xs ks) (hu : Sends t u 0 []) : EdgesOut s u pin xs ks := by
  obtain ⟨n, hsends, hwritten⟩ := h
  exact ⟨n, sends_then_nothing hsends hu, hwritten⟩

/-- Some of the edges are out, from the first one on. -/
def SomeOut (s : State) (pin : Nat) (xs : List Sample) (t : State) : Prop := ∃ ks, EdgesOut s t pin xs ks

/-- Every edge is out. -/
def AllOut (s : State) (pin : Nat) (xs : List Sample) (t : State) : Prop :=
  ∃ ks, EdgesOut s t pin xs ks ∧ ks.length = xs.length

theorem emit_out (pin : Nat) (stats : Bool) (xs : List Sample) (i : Nat) (s : State) :
    NoRaise (AllOut s pin xs) (SomeOut s pin xs) (emit pin stats i xs s) := by
  induction xs generalizing i s with
  | nil => exact .done ⟨[], edgesOut_nil pin [] (sends_nothing rfl rfl rfl rfl rfl rfl), rfl⟩
  | cons x xs ih =>
    have hstart := setWork_sends { s.wr with i := i } s
    rw [emit]
    rcases pollClock_sends (isDue x.t) s.clockPolls (s.setWork { s.wr with i := i }) with
      ⟨s1, d, hpoll, hdue, hread⟩ | ⟨s1, n, hpoll, hread⟩ <;> rw [hpoll]
    · have hread := sends_after_nothing hstart hread
      rw [hstart.reading, Nat.zero_add] at hdue
      have due : x.t.toNat ≤ (s.clockReading d).toNat := of_decide_eq_true hdue
      refine noRaise_andThen (emitEdge_sends pin stats x.v s1) fun s2 hedge => ?_
      obtain ⟨n, hedge⟩ := hedge
      have hout := sends_trans hread hedge
      rw [lastReading_after hread, Nat.add_right_comm] at hout
      have hmore {t : State} {ks : List Nat} (h : EdgesOut s2 t pin xs ks) :=
        edgesOut_cons (Nat.le_add_right d n) due hout h
      refine noRaise_mono ?_ ?_ (ih (i + 1) s2)
      · rintro t ⟨ks, hks, hall⟩
        exact ⟨_, hmore hks, by rw [List.length_cons, List.length_map, hall, List.length_cons]⟩
      · rintro t ⟨ks, hks⟩
        exact ⟨_, hmore hks⟩
    · exact .wait ⟨[], edgesOut_nil pin _ (sends_after_nothing hstart hread)⟩

/-! ### Steps 6 and 7 -/

theorem statsLoop_sends (ps : List (Sample × U32)) (i : Nat) (s : State) : Sends s (statsLoop i ps s) 0 [] := by
  induction ps generalizing i s with
  | nil => exact sends_nothing rfl rfl rfl rfl rfl rfl
  | cons p ps ih =>
    obtain ⟨x, o⟩ := p
    rw [statsLoop]
    refine sends_after_nothing (sends_nothing ?_ ?_ ?_ ?_ ?_ ?_) (ih (i + 1) _) <;> split <;> rfl

theorem appendReport_sends (r : Report) (s : State) : Sends s (s.appendReport r) 0 [] :=
  sends_nothing rfl rfl rfl rfl rfl rfl

theorem statistics_sends (s : State) : NoRaise (fun t => Sends s t 0 []) W (statistics s) := by
  unfold statistics
  split
  · split
    · exact .done (sends_then_nothing (sends_after_nothing (setWork_sends _ s) (statsLoop_sends _ 0 _))
        (appendReport_sends _ _))
    · exact .refused
  · exact .refused
  · exact .done (sends_nothing rfl rfl rfl rfl rfl rfl)

theorem transmitFrom_out (pin : Nat) (stats : Bool) (i : Nat) (s : State) :
    NoRaise (AllOut s pin (s.mem.tr.drop i)) (SomeOut s pin (s.mem.tr.drop i)) (transmitFrom pin stats i s) := by
  refine noRaise_andThen (emit_out pin stats _ i s) fun t hall => ?_
  obtain ⟨ks, hout, hall⟩ := hall
  have hprio : Sends t (t.setPrio .normal) 0 [] := sends_nothing rfl rfl rfl rfl rfl rfl
  have hlast {u : State} (hu : Sends (t.setPrio .normal) u 0 []) : AllOut s pin (s.mem.tr.drop i) u :=
    ⟨ks, edgesOut_then_nothing hout (sends_after_nothing hprio hu), hall⟩
  split
  · exact noRaise_mono (fun _ => hlast) (fun _ => id) (statistics_sends _)
  · exact .done ⟨ks, edgesOut_then_nothing hout hprio, hall⟩

end

/-! ### Where the clock does not wrap (R142) -/

theorem clockRises_le {s : State} {n j k : Nat} (h : s.clockRises n) (hjk : j ≤ k) (hk : k < n) :
    (s.clockReading j).toNat ≤ (s.clockReading k).toNat := by
  induction hjk with
  | refl => exact Nat.le_refl _
  | step _ ih => exact (ih (Nat.lt_of_succ_lt hk)).trans (h _ hk)

/-- The reads at which edges are written lie among those the loop makes. -/
theorem writtenDue_within {s : State} {n j : Nat} {xs : List Sample} {ks : List Nat}
    (h : WrittenDue s n j xs ks) : j ≤ n ∧ ∀ k ∈ ks, j ≤ k ∧ k < n := by
  induction h with
  | stop hj => exact ⟨hj, fun _ hk => absurd hk List.not_mem_nil⟩
  | edge hjd hdk _ _ ih =>
    obtain ⟨hkn, hks⟩ := ih
    refine ⟨by omega, fun m hm => ?_⟩
    rcases List.mem_cons.1 hm with rfl | hm
    · exact ⟨by omega, by omega⟩
    · obtain ⟨hkm, hmn⟩ := hks m hm
      exact ⟨by omega, hmn⟩

theorem clock_of_mem_writesAt {s : State} {pin : Nat} {xs : List Sample} {ks : List Nat} {w : PinWrite}
    (h : w ∈ writesAt s pin xs ks) : ∃ k ∈ ks, w.clock = some (s.clockReading k) := by
  obtain ⟨⟨x, k⟩, hp, rfl⟩ := List.mem_map.1 h
  exact ⟨k, (List.of_mem_zip hp).2, rfl⟩

theorem writesAt_length (s : State) (pin : Nat) (xs : List Sample) (ks : List Nat) :
    (writesAt s pin xs ks).length = min xs.length ks.length := by
  rw [writesAt, List.length_map, List.length_zip]

theorem followsSchedule_nil (pin : Nat) (xs : List Sample) : FollowsSchedule pin xs [] :=
  ⟨Nat.zero_le _, fun _ _ hw => (nomatch hw), .nil⟩

/-- Edges written when due follow the schedule: a read is not below the one that was due before it, nor below the one
at which the edge before was written. -/
theorem writtenDue_follows {s : State} {n j : Nat} {xs : List Sample} {ks : List Nat} (hrise : s.clockRises n)
    (pin : Nat) (h : WrittenDue s n j xs ks) : FollowsSchedule pin xs (writesAt s pin xs ks) := by
  induction h with
  | @stop j xs hj =>
    rw [writesAt, List.zip_nil_right]
    exact followsSchedule_nil pin xs
  | @edge j d k x xs ks hjd hdk due rest ih =>
    obtain ⟨hkn, hks⟩ := writtenDue_within rest
    refine ⟨by rw [writesAt_length]; exact Nat.min_le_left _ _, fun i w hw => ?_, ?_⟩
    · rw [writesAt_cons] at hw
      cases i with
      | zero =>
        cases hw
        exact ⟨rfl, rfl, _, rfl, due.trans (clockRises_le hrise hdk hkn)⟩
      | succ i => exact ih.onTime i w hw
    · rw [writesAt_cons]
      refine List.isChain_cons.2 ⟨fun w hw c e hc he => ?_, ih.inOrder⟩
      obtain ⟨m, hm, hclock⟩ := clock_of_mem_writesAt (List.mem_of_mem_head? hw)
      obtain ⟨hkm, hmn⟩ := hks m hm
      cases hc
      cases hclock.symm.trans he
      exact clockRises_le hrise (by omega) hmn

/-- What a transmission from edge `i` on, begun in `s`, leaves in `t`: every edge of the schedule so far on time, and
once the block is idle all of them. -/
def FollowsFrom (pin i : Nat) (s t : State) : Prop :=
  ∃ ws, t.wlog = s.wlog ++ ws ∧ t.mem.tr = s.mem.tr ∧ t.err = s.err
    ∧ FollowsSchedule pin (s.mem.tr.drop i) ws
    ∧ (t.seq.busy = false → ws.length = (s.mem.tr.drop i).length)

theorem transmitFrom_follows {pin i : Nat} {stats : Bool} {s t : State}
    (hn : (transmitFrom pin stats i s).outcome = .next t)
    (hrise : s.clockRises (t.env.clock.used - s.env.clock.used)) : FollowsFrom pin i s t := by
  rcases noRaise_outcome (transmitFrom_out pin stats i s) hn with
    ⟨u, ⟨ks, ⟨n, hsends, hwritten⟩, hall⟩, rfl⟩ | ⟨k, u, ⟨ks, n, hsends, hwritten⟩, rfl⟩
  · have hrise : s.clockRises n := sends_reads hsends ▸ hrise
    refine ⟨_, hsends.wlog, hsends.tr, hsends.err, writtenDue_follows hrise pin hwritten, fun _ => ?_⟩
    rw [writesAt_length, hall, Nat.min_self]
  · have hrise : s.clockRises n := sends_reads hsends ▸ hrise
    exact ⟨_, hsends.wlog, hsends.tr, hsends.err, writtenDue_follows hrise pin hwritten, fun hb => nomatch hb⟩

/-! ### TRANSMIT -/

/-- Before step 5 the clock has been read once (R91), and no pin written. -/
structure ReadOnce (s t : State) : Prop where
  clk : t.clk = s.clockReading 0
  clock : t.env.clock = s.env.clock.skip 1
  wlog : t.wlog = s.wlog
  err : t.err = s.err

theorem readOnce_of_eq {s t u : State} (h : ReadOnce s t) (hc : u.clk = t.clk) (he : u.env.clock = t.env.clock)
    (hw : u.wlog = t.wlog) (herr : u.err = t.err) : ReadOnce s u :=
  ⟨hc.trans h.clk, he.trans h.clock, hw.trans h.wlog, herr.trans h.err⟩

theorem readClock_readOnce (s : State) : ReadOnce s s.readClock := by
  rw [readClock_eq]
  exact ⟨rfl, rfl, rfl, rfl⟩

/-- TRANSMIT is rejected, for the wrap or the pin, before it writes any (R89, R92), or comes to step 5. -/
theorem transmit_cases (pin : Nat) (stats : Bool) (s : State) :
    (∃ e u, transmit pin stats s = .fatal (raise e u) ∧ u.wlog = s.wlog)
      ∨ ∃ u, transmit pin stats s = transmitFrom pin stats 0 u ∧ ReadOnce s u := by
  have hread := readClock_readOnce s
  unfold transmit
  simp only [drawDelay_eq]
  split
  · exact .inl ⟨_, _, rfl, hread.wlog⟩
  · generalize hs4 : (if s.mem.tr = [] then _ else _ : State) = s4
    have h4 : ReadOnce s s4 := by
      rw [← hs4]
      split <;> exact readOnce_of_eq hread rfl rfl rfl rfl
    rcases configurePin_cases pin .output .off s4 with ⟨_, h⟩ | ⟨_, _, h⟩ | ⟨_, _, h⟩ <;> rw [h]
    · exact .inl ⟨_, _, rfl, h4.wlog⟩
    · exact .inl ⟨_, _, rfl, h4.wlog⟩
    · refine .inr ⟨_, rfl, ?_⟩
      split <;> exact readOnce_of_eq h4 rfl rfl rfl rfl

/-- A clock that does not wrap from the first read on does not wrap from the second on. -/
theorem clockRises_of_readOnce {s u t : State} (h : ReadOnce s u)
    (hrise : s.clockRises (t.env.clock.used - s.env.clock.used)) :
    u.clockRises (t.env.clock.used - u.env.clock.used) := by
  have hu : u.env.clock.used = s.env.clock.used + 1 := congrArg Tape.used h.clock
  intro k hk
  rw [clockReading_after 0 h.clk h.clock, clockReading_after 0 h.clk h.clock]
  exact hrise _ (by omega)

/-- A stack of one entry ends as the operation by itself. -/
theorem runTasks_singleton (k : Task) (s : State) : runTasks [k] s = (runTask k s).outcome := by
  rw [runTasks]
  cases runTask k s <;> rfl

/-- Settles O31: a transmission that HOST starts is rejected with nothing written, or comes to step 5 one clock read
later; one that goes on after a wait is at step 5. From there `transmitFrom_follows`. -/
theorem transmitNeverEarly : Obligations.TransmitNeverEarly := by
  refine ⟨fun f s t hn hrise => ?_, fun pin stats s t hcmd hseq hn hrise => ?_⟩
  · have hrun : (transmit s.opnd.pin f.stats s).outcome = .next t := hn
    rcases transmit_cases s.opnd.pin f.stats s with ⟨e, u, h, hlog⟩ | ⟨u, h, hu⟩ <;> rw [h] at hrun
    · cases hrun
      refine ⟨[], hlog.trans (List.append_nil _).symm, followsSchedule_nil _ _, fun _ _ => rfl, fun _ hnone => ?_⟩
      obtain ⟨hkind, hsome⟩ := registers_kind e
      exact absurd (hkind.symm.trans hnone) hsome
    · obtain ⟨ws, hlog, htr, herr, hfollows, hall⟩ :=
        transmitFrom_follows hrun (clockRises_of_readOnce hu hrise)
      rw [List.drop_zero, ← htr] at hfollows hall
      refine ⟨ws, by rw [hlog, hu.wlog], hfollows, fun hs ht => ?_, fun _ _ => hall⟩
      rw [herr, hu.err] at ht
      exact absurd hs ht
  · have hrun : (transmitFrom pin stats s.wr.i s).outcome = .next t := by
      rw [step_of_busy hcmd (by rw [hseq]), hseq, runTasks_singleton] at hn
      exact hn
    obtain ⟨ws, hlog, htr, _, hfollows, hall⟩ := transmitFrom_follows hrun hrise
    exact ⟨ws, hlog, htr, hfollows, by rw [← List.length_drop]; exact hall⟩

end Sys2Proof.Proofs
end

section
/-! The command word (spec/30_encoding.md R61, R62, R64): all that the decoder can answer, that it and the encoder
invert one another, and what a reserved word and an unused flag do. -/

namespace Sys2Proof.Proofs
open Sys2Proof.Machine Sys2Proof.Machine.Laws

/-! ### The operation codes (R62) -/

/-- Reading the table of R62 by code and by operation is the same. -/
theorem opOfCode_eq_some_iff {n : Nat} {op : Op} : opOfCode n = some op ↔ op.code = n := by
  constructor
  · intro h
    unfold opOfCode at h
    split at h <;> cases h <;> rfl
  · rintro rfl
    cases op <;> rfl

theorem op_code_range (op : Op) : 1 ≤ op.code ∧ op.code ≤ 22 := by
  cases op <;> decide

/-- The codes without an operation are those R64 calls reserved. -/
theorem opOfCode_eq_none_iff {n : Nat} : opOfCode n = none ↔ n = 0 ∨ 23 ≤ n := by
  constructor
  · intro h
    by_contra hassigned
    have hlow : 1 ≤ n := by omega
    have hhigh : n ≤ 22 := by omega
    interval_cases n <;> cases h
  · intro hreserved
    cases h : opOfCode n with
    | none => rfl
    | some op =>
      have hcode := opOfCode_eq_some_iff.1 h
      have hrange := op_code_range op
      omega

/-! ### The decoder, verdict by verdict -/

theorem reservedClear_iff (w : CmdWord) : CmdWord.reservedClear w = true ↔ w.toNat / 4096 = 0 :=
  beq_iff_eq

/-- Everything the decoder can answer: the reserved bits first, then the operation code (R64). -/
theorem decode_cases (w : CmdWord) :
    (w.toNat / 4096 ≠ 0 ∧ decode w = .reservedBits)
      ∨ (w.toNat / 4096 = 0 ∧ (w.toNat % 32 = 0 ∨ 23 ≤ w.toNat % 32)
        ∧ decode w = .reservedOp (w.toNat % 32))
      ∨ (w.toNat / 4096 = 0 ∧ ∃ op : Op, op.code = w.toNat % 32
        ∧ decode w = .ok (op.withFlags (flagsOf w))) := by
  by_cases hclear : w.toNat / 4096 = 0
  · have hbits := (reservedClear_iff w).2 hclear
    cases hop : opOfCode (CmdWord.opField w) with
    | none =>
      refine .inr (.inl ⟨hclear, opOfCode_eq_none_iff.1 hop, ?_⟩)
      rw [decode, if_pos hbits, hop]
      rfl
    | some op =>
      refine .inr (.inr ⟨hclear, op, opOfCode_eq_some_iff.1 hop, ?_⟩)
      rw [decode, if_pos hbits, hop]
  · exact .inl ⟨hclear, if_neg fun h => hclear ((reservedClear_iff w).1 h)⟩

/-- Settles O3: each verdict of `decode_cases` excludes the other two. -/
theorem decoderVerdicts : Obligations.DecoderVerdicts := by
  intro w
  rcases decode_cases w with ⟨hbits, h⟩ | ⟨hclear, hop, h⟩ | ⟨hclear, op, hcode, h⟩ <;> rw [h]
  · simp [hbits]
  · refine ⟨by simp [hclear], fun n => ?_, ?_⟩
    · rw [Sys2Proof.Decoded.reservedOp.injEq]
      omega
    · simp only [reduceCtorEq, exists_false, false_iff]
      omega
  · have hrange := op_code_range op
    refine ⟨by simp [hclear], fun n => ?_, ?_⟩
    · simp only [reduceCtorEq, false_iff]
      omega
    · exact ⟨fun _ => by omega, fun _ => ⟨_, rfl⟩⟩

/-! ### Encoding -/

@[simp] theorem op_withFlags (op : Op) (f : CmdFlags) : (op.withFlags f).op = op := by
  cases op <;> rfl

@[simp] theorem flags_withFlags (op : Op) (f : CmdFlags) : (op.withFlags f).flags = f := by
  cases op <;> rfl

/-- A command is its operation and its flag field. -/
@[simp] theorem withFlags_op_flags (i : Instr) : i.op.withFlags i.flags = i := by
  cases i <;> rfl

/-- The word of any command has its code in `op`, its flags in bits 11:5, and nothing above them. -/
theorem encodedWord (i : Instr) : Sys2Proof.Laws.EncodedWord.Statement i := by
  have h := Sys2Proof.Laws.EncodedWord.statement_withFlags i.op i.flags
  rwa [withFlags_op_flags] at h

/-- The decoder reads back from a command's word the operation and the flags it is made of. -/
theorem decode_encode (i : Instr) : decode (encode i) = .ok i := by
  obtain ⟨hwellFormed, hop, hflags⟩ := encodedWord i
  obtain ⟨hclear, -⟩ := Bool.and_eq_true_iff.1 hwellFormed
  rw [decode, if_pos hclear, hop, opOfCode_eq_some_iff.2 rfl, hflags]
  exact congrArg Sys2Proof.Decoded.ok (withFlags_op_flags i)

/-- Settles O1. -/
theorem decodeInvertsEncode : Obligations.DecodeInvertsEncode := fun i =>
  ⟨decode_encode i, (encodedWord i).1⟩

theorem cmdBit_toNat (w : CmdWord) (k : Nat) : (cmdBit w k).toNat = w.toNat / 2 ^ k % 2 := by
  rcases Nat.mod_two_eq_zero_or_one (w.toNat / 2 ^ k) with h | h <;> simp [cmdBit, h]

/-- The flag field of a word is worth its bits 11:5. -/
theorem bits_flagsOf (w : CmdWord) : (flagsOf w).bits = 32 * (w.toNat / 32 % 128) := by
  simp only [CmdFlags.bits, flagsOf, cmdBit_toNat]
  omega

/-- A word that decodes is the word of its command: with bits 15:12 clear nothing of it is lost. -/
theorem encode_of_decode {w : CmdWord} {i : Instr} (h : decode w = .ok i) : encode i = w := by
  rcases decode_cases w with ⟨-, hw⟩ | ⟨-, -, hw⟩ | ⟨hclear, op, hcode, hw⟩ <;> rw [hw] at h <;> cases h
  apply BitVec.eq_of_toNat_eq
  rw [encode, BitVec.toNat_ofNat, op_withFlags, flags_withFlags, hcode, bits_flagsOf]
  omega

/-- Settles O2. -/
theorem encodeInvertsDecode : Obligations.EncodeInvertsDecode := fun _ _ => encode_of_decode

/-- Settles O4: each word is decoded. -/
theorem sampleWordsDecode : Obligations.SampleWordsDecode := by
  unfold Obligations.SampleWordsDecode
  decide

/-! ### Reserved words and unused flags (R64) -/

/-- A reserved word is rejected, for its bits 15:12 or for its `op`. -/
theorem decode_of_reserved {w : CmdWord}
    (h : w.toNat / 4096 ≠ 0 ∨ w.toNat % 32 = 0 ∨ 23 ≤ w.toNat % 32) :
    decode w = .reservedBits ∨ ∃ n, decode w = .reservedOp n := by
  rcases decode_cases w with ⟨-, hw⟩ | ⟨-, -, hw⟩ | ⟨hclear, op, hcode, -⟩
  · exact .inl hw
  · exact .inr ⟨_, hw⟩
  · have hrange := op_code_range op
    omega

/-- A rejected word, on an idle block without an error, is taken and is a configuration error (R64, R117). -/
theorem runCommand_rejected {w : CmdWord} {s : State} (hb : s.seq.busy = false) (he : s.err.kind = .none)
    (hw : decode w = .reservedBits ∨ ∃ n, decode w = .reservedOp n) :
    runCommand w s = .next (raise (.configError .command) s.takeCommand) := by
  rw [runCommand, hb, if_neg Bool.false_ne_true, if_pos he]
  rcases hw with hw | ⟨n, hw⟩ <;> rw [hw]

/-- The meaning of a command other than TRACE_WRITE, SAMPLE and TRANSMIT does not read its flags. -/
theorem exec_withFlags_congr (f g : CmdFlags) (s : State) {op : Op} (hwrite : op ≠ .traceWrite)
    (hsample : op ≠ .sample) (htransmit : op ≠ .transmit) :
    exec (op.withFlags f) s = exec (op.withFlags g) s := by
  cases op
  case traceWrite => exact absurd rfl hwrite
  case sample => exact absurd rfl hsample
  case transmit => exact absurd rfl htransmit
  all_goals rfl

theorem execTraceWrite_congr {f g : CmdFlags} (h : f.flank = g.flank) (s : State) :
    execTraceWrite f s = execTraceWrite g s := by
  rw [execTraceWrite, h, execTraceWrite]

/-- SAMPLE takes `verbose` from its word too, and does nothing with it (R17). -/
theorem execSample_congr {f g : CmdFlags} (h : f.trigger = g.trigger) (s : State) :
    execSample f s = execSample g s := by
  rw [execSample, h]
  rfl

theorem execTransmit_congr {f g : CmdFlags} (h : f.stats = g.stats) (s : State) :
    execTransmit f s = execTransmit g s := by
  rw [execTransmit, h, execTransmit]

/-- A word of no mode leaves `CFG.*` alone: a command's, or one that is rejected. -/
theorem withCommand_of_not_mode {w : CmdWord} (h : ∀ i : Instr, i.op.isMode = true → w ≠ encode i) (c : Cfg) :
    c.withCommand w = c := by
  cases hw : decode w with
  | ok i =>
    have hmode : i.op.isMode ≠ true := fun hm => h i hm (encode_of_decode hw).symm
    cases i
    case modeSample => exact absurd rfl hmode
    case modeSendHex => exact absurd rfl hmode
    case modeReplayFile => exact absurd rfl hmode
    all_goals rw [Cfg.withCommand, hw]
  | reservedOp n => rw [Cfg.withCommand, hw]
  | reservedBits => rw [Cfg.withCommand, hw]

/-- Settles O5: a reserved word by `runCommand_rejected`; the flags an operation reads; the words of the three
modes, which decode to their commands, and every other. -/
theorem reservedWordsAndUnusedFlags : Obligations.ReservedWordsAndUnusedFlags := by
  refine ⟨fun s w hcmd hb he hreserved => ?_, fun f g s => ⟨fun op => exec_withFlags_congr f g s, ?_, ?_, ?_⟩,
    fun f c w => ⟨?_, ?_, ?_, fun h => withCommand_of_not_mode h c⟩⟩
  · rw [step_of_command hcmd, runCommand_rejected hb he (decode_of_reserved hreserved)]
    rfl
  · exact fun h => execTraceWrite_congr h s
  · exact fun h => execSample_congr h s
  · exact fun h => execTransmit_congr h s
  · rw [Cfg.withCommand, decode_encode]
    rfl
  · rw [Cfg.withCommand, decode_encode]
    rfl
  · rw [Cfg.withCommand, decode_encode]
    rfl

end Sys2Proof.Proofs
end

section
/-! Hex strings (spec/30_encoding.md R56, spec/45_encoder.md R105): which strings spell a payload, that the hex text
of a payload does, and HEX_PARSE as HOST starts it. -/

namespace Sys2Proof.Proofs
open Sys2Proof.Machine Sys2Proof.Machine.Laws

/-! ### One digit -/

/-- The characters that are hex digits, upper or lower case (R105). -/
def IsHexDigit (b : Byte) : Prop :=
  (48 ≤ b.toNat ∧ b.toNat ≤ 57) ∨ (65 ≤ b.toNat ∧ b.toNat ≤ 70) ∨ (97 ≤ b.toNat ∧ b.toNat ≤ 102)

/-- What a hex digit is worth. -/
def hexWorth (b : Byte) : Nat :=
  if b.toNat ≤ 57 then b.toNat - 48 else if b.toNat ≤ 70 then b.toNat - 55 else b.toNat - 87

theorem hexValue_of_digit {b : Byte} (h : IsHexDigit b) : hexValue b = some (hexWorth b) := by
  unfold hexValue hexWorth
  rcases h with h | h | h
  · rw [if_pos h, if_pos h.2]
  · rw [if_neg (by omega), if_pos h, if_neg (by omega), if_pos h.2]
  · rw [if_neg (by omega), if_neg (by omega), if_pos h, if_neg (by omega), if_neg (by omega)]

theorem isHexDigit_of_hexValue {b : Byte} {x : Nat} (h : hexValue b = some x) : IsHexDigit b := by
  unfold hexValue at h
  split at h
  · next hb => exact .inl hb
  · split at h
    · next hb => exact .inr (.inl hb)
    · split at h
      · next hb => exact .inr (.inr hb)
      · cases h

theorem hexDigit_toNat {n : Nat} (h : n < 16) : (hexDigit n).toNat = if n < 10 then 48 + n else 55 + n := by
  unfold hexDigit
  split <;> (rw [BitVec.toNat_ofNat]; omega)

/-- A digit written is uppercase, and worth what was written. -/
theorem hexDigit_upper {n : Nat} (h : n < 16) :
    (48 ≤ (hexDigit n).toNat ∧ (hexDigit n).toNat ≤ 57)
      ∨ (65 ≤ (hexDigit n).toNat ∧ (hexDigit n).toNat ≤ 70) := by
  rw [hexDigit_toNat h]
  split <;> omega

theorem hexValue_hexDigit {n : Nat} (h : n < 16) : hexValue (hexDigit n) = some n := by
  have hdigit : IsHexDigit (hexDigit n) := (hexDigit_upper h).imp_right .inl
  rw [hexValue_of_digit hdigit, hexWorth, hexDigit_toNat h]
  by_cases hn : n < 10
  · rw [if_pos hn, if_pos (by omega), Nat.add_sub_cancel_left]
  · rw [if_neg hn, if_neg (by omega), if_pos (by omega), Nat.add_sub_cancel_left]

/-! ### A hex string -/

/-- A string that spells a payload has an even number of characters, all of them hex digits. -/
theorem digits_of_parseHex {hex : Text} {ps : List Byte} (h : parseHex hex = some ps) :
    hex.length % 2 = 0 ∧ ∀ b ∈ hex, IsHexDigit b := by
  match hex with
  | [] => exact ⟨rfl, fun b hb => absurd hb List.not_mem_nil⟩
  | [_] => cases h
  | a :: b :: rest =>
    rw [parseHex] at h
    split at h
    · next ha hb hrest =>
      obtain ⟨heven, hdigits⟩ := digits_of_parseHex hrest
      refine ⟨by simp only [List.length_cons]; omega, ?_⟩
      exact List.forall_mem_cons.2 ⟨isHexDigit_of_hexValue ha,
        List.forall_mem_cons.2 ⟨isHexDigit_of_hexValue hb, hdigits⟩⟩
    · cases h

/-- An even number of hex digits spells the payload of its pairs, the first digit of a pair the high nibble. -/
theorem parseHex_of_digits (n : Nat) {hex : Text} (hlen : hex.length = 2 * n) (h : ∀ b ∈ hex, IsHexDigit b) :
    parseHex hex = some ((List.range n).map fun j =>
      BitVec.ofNat 8 (16 * hexWorth (hex.getD (2 * j) 0) + hexWorth (hex.getD (2 * j + 1) 0))) := by
  induction n generalizing hex with
  | zero => rw [List.length_eq_zero_iff.1 hlen]; rfl
  | succ n ih =>
    match hex, hlen, h with
    | a :: b :: rest, hlen, h =>
      obtain ⟨ha, hb, hrest⟩ := List.forall_mem_cons.1 h |>.imp_right List.forall_mem_cons.1
      have hlen' : rest.length = 2 * n := by simp only [List.length_cons] at hlen; omega
      rw [parseHex, hexValue_of_digit ha, hexValue_of_digit hb, ih hlen' hrest, List.range_succ_eq_map,
        List.map_cons, List.map_map]
      rfl

/-- The hex text of a payload spells it (R56). -/
theorem parseHex_hexText (ps : List Byte) : parseHex (hexText ps) = some ps := by
  induction ps with
  | nil => rfl
  | cons p ps ih =>
    have hp := p.isLt
    rw [hexText, parseHex, hexValue_hexDigit (by omega), hexValue_hexDigit (by omega), ih]
    simp only [Nat.div_add_mod, BitVec.ofNat_toNat, BitVec.setWidth_eq]

theorem hexText_length (ps : List Byte) : (hexText ps).length = 2 * ps.length := by
  induction ps with
  | nil => rfl
  | cons p ps ih => simp only [hexText, List.length_cons, ih]; omega

theorem hexText_upper (ps : List Byte) :
    ∀ b ∈ hexText ps, (48 ≤ b.toNat ∧ b.toNat ≤ 57) ∨ (65 ≤ b.toNat ∧ b.toNat ≤ 70) := by
  induction ps with
  | nil => exact fun b hb => absurd hb List.not_mem_nil
  | cons p ps ih =>
    have hp := p.isLt
    exact List.forall_mem_cons.2 ⟨hexDigit_upper (by omega),
      List.forall_mem_cons.2 ⟨hexDigit_upper (by omega), ih⟩⟩

/-! ### HEX_PARSE (R105, R121) -/

theorem hexParse_full {hex : Text} {ps : List Byte} (h : parseHex hex = some ps) {s : State}
    (hlen : s.par.payCap < ps.length) : hexParse hex s = .fatal (raise (.capacityExceeded .pay) s) := by
  rw [hexParse, h]
  exact if_pos hlen

theorem hexParse_fits {hex : Text} {ps : List Byte} (h : parseHex hex = some ps) {s : State}
    (hlen : ps.length ≤ s.par.payCap) : hexParse hex s = .done () (s.setPay ps) := by
  rw [hexParse, h]
  exact if_neg (Nat.not_lt.2 hlen)

/-- Settles O40: a string that spells no payload has an odd length or a character that is no digit; any other is
the payload `parseHex_of_digits` gives, and the capacity decides. -/
theorem hexParseOutcome : Obligations.HexParseOutcome := by
  intro f s isDigit val hdigit hval
  obtain rfl : isDigit = IsHexDigit := funext fun b => propext (hdigit b)
  obtain rfl : val = hexWorth := funext hval
  refine ⟨fun hbad => ?_, fun n hlen hall => ?_⟩
  · have hnone : parseHex s.opnd.hex = none := by
      cases hparse : parseHex s.opnd.hex with
      | none => rfl
      | some ps =>
        obtain ⟨heven, hdigits⟩ := digits_of_parseHex hparse
        rcases hbad with hodd | ⟨b, hb, hnot⟩
        · omega
        · exact absurd (hdigits b hb) hnot
    exact congrArg Act.outcome (hexParse_malformed hnone s)
  · have hparse := parseHex_of_digits n hlen hall
    refine ⟨fun hfull => ?_, fun hfits => ?_⟩
    · exact congrArg Act.outcome (hexParse_full hparse (by simpa using hfull))
    · exact congrArg Act.outcome (hexParse_fits hparse (by simpa using hfits))

/-- Settles O41. -/
theorem hexTextParsesBack : Obligations.HexTextParsesBack := by
  intro f s ps hhex
  refine ⟨hexText_length ps, hexText_upper ps, fun hfits => ?_⟩
  have hparse : parseHex s.opnd.hex = some ps := hhex ▸ parseHex_hexText ps
  exact congrArg Act.outcome (hexParse_fits hparse hfits)

end Sys2Proof.Proofs
end

section
/-! The text of a trace file, line by line (spec/30_encoding.md R53, R54, spec/41_trace_store.md R79, R81): the
numeral of a time, and which lines the reader accepts. -/

namespace Sys2Proof.Proofs
open Sys2Proof.Machine Sys2Proof.Machine.Laws

/-! ### Digits and their value -/

/-- A text of decimal digits only. -/
def AllDigits (ds : Text) : Prop := ∀ b ∈ ds, 48 ≤ b.toNat ∧ b.toNat ≤ 57

/-- The value of a text of digits. -/
def numeralValue (ds : Text) : Nat := ds.foldl (fun n b => 10 * n + (b.toNat - 48)) 0

theorem allDigits_append {as bs : Text} : AllDigits (as ++ bs) ↔ AllDigits as ∧ AllDigits bs :=
  List.forall_mem_append

theorem allDigits_singleton {b : Byte} : AllDigits [b] ↔ 48 ≤ b.toNat ∧ b.toNat ≤ 57 :=
  List.forall_mem_singleton

theorem numeralValue_concat (ds : Text) (b : Byte) :
    numeralValue (ds ++ [b]) = 10 * numeralValue ds + (b.toNat - 48) := by
  simp [numeralValue]

theorem digitByte_toNat {d : Nat} (h : d < 10) : (BitVec.ofNat 8 (48 + d)).toNat = 48 + d := by
  rw [BitVec.toNat_ofNat]
  omega

/-! ### The numeral of a time (R79) -/

theorem decimalFrom_append (fuel n : Nat) (acc : Text) :
    decimalFrom fuel n acc = decimalFrom fuel n [] ++ acc := by
  induction fuel generalizing n acc with
  | zero => rfl
  | succ fuel ih =>
    rw [decimalFrom, decimalFrom]
    split
    · rfl
    · rw [ih, ih _ [_], List.append_assoc]
      rfl

theorem decimalFrom_small (fuel : Nat) {n : Nat} (h : n < 10) :
    decimalFrom (fuel + 1) n [] = [BitVec.ofNat 8 (48 + n)] :=
  if_pos h

/-- A numeral of more than one digit: that of the tens, and the last digit. -/
theorem decimalFrom_large (fuel : Nat) {n : Nat} (h : ¬ n < 10) :
    decimalFrom (fuel + 1) n [] = decimalFrom fuel (n / 10) [] ++ [BitVec.ofNat 8 (48 + n % 10)] := by
  rw [decimalFrom, if_neg h, decimalFrom_append]

theorem decimalFrom_digits (fuel n : Nat) : AllDigits (decimalFrom fuel n []) := by
  induction fuel generalizing n with
  | zero => exact fun b hb => absurd hb List.not_mem_nil
  | succ fuel ih =>
    by_cases h : n < 10
    · rw [decimalFrom_small fuel h, allDigits_singleton, digitByte_toNat h]
      omega
    · rw [decimalFrom_large fuel h, allDigits_append, allDigits_singleton,
        digitByte_toNat (Nat.mod_lt n (by omega))]
      exact ⟨ih _, by omega⟩

theorem decimalFrom_value {fuel n : Nat} (h : n < 10 ^ fuel) : numeralValue (decimalFrom fuel n []) = n := by
  induction fuel generalizing n with
  | zero => rw [Nat.pow_zero] at h; rw [Nat.lt_one_iff.1 h]; rfl
  | succ fuel ih =>
    by_cases hn : n < 10
    · rw [decimalFrom_small fuel hn]
      simp only [numeralValue, List.foldl_cons, List.foldl_nil, digitByte_toNat hn]
      omega
    · rw [decimalFrom_large fuel hn, numeralValue_concat, digitByte_toNat (Nat.mod_lt n (by omega)),
        ih (by rw [Nat.pow_succ] at h; omega)]
      omega

theorem decimalFrom_length (fuel n : Nat) : (decimalFrom fuel n []).length ≤ fuel := by
  induction fuel generalizing n with
  | zero => exact Nat.le_refl _
  | succ fuel ih =>
    by_cases h : n < 10
    · rw [decimalFrom_small fuel h, List.length_singleton]
      omega
    · have htens := ih (n / 10)
      rw [decimalFrom_large fuel h, List.length_append, List.length_singleton]
      omega

theorem decimalFrom_ne_nil (fuel n : Nat) : decimalFrom (fuel + 1) n [] ≠ [] := by
  by_cases h : n < 10
  · rw [decimalFrom_small fuel h]
    exact List.cons_ne_nil _ _
  · rw [decimalFrom_large fuel h]
    exact List.append_ne_nil_of_right_ne_nil _ (List.cons_ne_nil _ _)

/-- Only the numeral of 0 begins with the digit 0: the tens of a longer one are not 0. -/
theorem decimalFrom_head {fuel n : Nat} (h : n < 10 ^ (fuel + 1))
    (hzero : (decimalFrom (fuel + 1) n []).head? = some 48) : n = 0 := by
  induction fuel generalizing n with
  | zero =>
    have hn : n < 10 := by omega
    rw [decimalFrom_small 0 hn, List.head?_cons, Option.some.injEq] at hzero
    have hbyte := congrArg BitVec.toNat hzero
    rw [digitByte_toNat hn] at hbyte
    exact Nat.add_left_cancel hbyte
  | succ fuel ih =>
    by_cases hn : n < 10
    · rw [decimalFrom_small _ hn] at hzero
      exact ih (by rw [Nat.pow_succ]; omega) ((congrArg _ (decimalFrom_small fuel hn)).trans hzero)
    · rw [decimalFrom_large _ hn, List.head?_append_of_ne_nil _ (decimalFrom_ne_nil fuel _)] at hzero
      have htens := ih (n := n / 10) (by rw [Nat.pow_succ] at h; omega) hzero
      omega

theorem toNat_lt_ten_digits (x : U32) : x.toNat < 10 ^ (9 + 1) := by
  have := x.isLt
  omega

theorem decimal_digits (x : U32) : AllDigits (decimal x) := decimalFrom_digits 10 x.toNat

theorem decimal_value (x : U32) : numeralValue (decimal x) = x.toNat :=
  decimalFrom_value (toNat_lt_ten_digits x)

theorem decimal_ne_nil (x : U32) : decimal x ≠ [] := decimalFrom_ne_nil 9 x.toNat

/-- Settles O18. -/
theorem decimalNumerals : Obligations.DecimalNumerals := by
  refine fun x => ⟨decimal_digits x, decimal_value x, fun hzero => ?_,
    List.length_pos_iff.2 (decimal_ne_nil x), decimalFrom_length 10 x.toNat⟩
  have hx : x = 0 := BitVec.eq_of_toNat_eq (decimalFrom_head (toNat_lt_ten_digits x) hzero)
  exact ⟨hx, hx ▸ rfl⟩

/-! ### The fields of a line (R54, R81) -/

theorem digitValue_eq_some_iff {b : Byte} {d : Nat} :
    digitValue b = some d ↔ (48 ≤ b.toNat ∧ b.toNat ≤ 57) ∧ b.toNat - 48 = d := by
  unfold digitValue
  split
  · next h => rw [Option.some.injEq]; exact ⟨fun hd => ⟨h, hd⟩, And.right⟩
  · next h => exact ⟨nofun, fun hd => absurd hd.1 h⟩

theorem numberFrom_eq_some_iff {acc n : Nat} {ds : Text} :
    numberFrom acc ds = some n ↔
      AllDigits ds ∧ ds.foldl (fun m b => 10 * m + (b.toNat - 48)) acc = n := by
  induction ds generalizing acc with
  | nil => simp [numberFrom, AllDigits]
  | cons b ds ih =>
    rw [AllDigits, List.forall_mem_cons, List.foldl_cons, numberFrom]
    cases hb : digitValue b with
    | none =>
      refine ⟨nofun, fun h => ?_⟩
      rw [digitValue_eq_some_iff.2 ⟨h.1.1, rfl⟩] at hb
      cases hb
    | some d =>
      obtain ⟨hdigit, rfl⟩ := digitValue_eq_some_iff.1 hb
      rw [and_assoc, and_iff_right hdigit]
      exact ih

/-- The first field: digits, at least one, of a value below 2³². -/
theorem parseTime_eq_some_iff {ds : Text} {t : U32} :
    parseTime ds = some t ↔ ds ≠ [] ∧ AllDigits ds ∧ numeralValue ds = t.toNat := by
  rw [parseTime]
  by_cases hnil : ds = []
  · rw [if_pos hnil]
    exact ⟨nofun, fun h => absurd hnil h.1⟩
  · rw [if_neg hnil, and_iff_right hnil, numeralValue, ← numberFrom_eq_some_iff]
    cases numberFrom 0 ds with
    | none => exact ⟨nofun, nofun⟩
    | some n =>
      show (if n < 4294967296 then some (BitVec.ofNat 32 n) else none) = some t ↔ some n = some t.toNat
      rw [Option.some.injEq]
      constructor
      · intro h
        split at h
        · next hn =>
          rw [← Option.some.inj h, BitVec.toNat_ofNat]
          omega
        · cases h
      · rintro rfl
        rw [if_pos t.isLt, BitVec.ofNat_toNat, BitVec.setWidth_eq]

/-- The second field: the digit of a level. -/
theorem parseLevel_eq_some_iff {ds : Text} {v : Level} : parseLevel ds = some v ↔ ds = [levelByte v] := by
  unfold parseLevel
  split
  · next h => subst h; cases v <;> decide
  · next h0 =>
    split
    · next h => subst h; cases v <;> decide
    · next h1 =>
      cases v with
      | false => exact ⟨nofun, fun h => absurd h h0⟩
      | true => exact ⟨nofun, fun h => absurd h h1⟩

/-- The cut at the first TAB. -/
theorem splitTab_eq_some_iff {l f1 f2 : Text} :
    splitTab l = some (f1, f2) ↔ l = f1 ++ byteTab :: f2 ∧ byteTab ∉ f1 := by
  induction l generalizing f1 with
  | nil => simp [splitTab]
  | cons b bs ih =>
    rw [splitTab]
    by_cases hb : b = byteTab
    · rw [if_pos hb]
      cases f1 with
      | nil => simp [hb, eq_comm]
      | cons a as =>
        refine ⟨nofun, fun ⟨hcut, hnot⟩ => ?_⟩
        have ha : byteTab = a := hb.symm.trans (List.cons.inj hcut).1
        exact absurd (ha ▸ List.mem_cons_self) hnot
    · rw [if_neg hb]
      cases f1 with
      | nil => split <;> simp [hb]
      | cons a as => split <;> grind

/-! ### Trailing whitespace -/

theorem isBlank_iff (b : Byte) : isBlank b = true ↔ b = 0x20 ∨ b = 0x09 ∨ b = 0x0D := by
  simp only [isBlank, Bool.or_eq_true, decide_eq_true_eq, or_assoc]
  rfl

/-- Stripping a line takes whitespace off its end, and nothing else. -/
theorem stripLine_append_blanks (l : Text) :
    ∃ blanks : Text, (∀ b ∈ blanks, isBlank b = true) ∧ l = stripLine l ++ blanks := by
  induction l with
  | nil => exact ⟨[], fun b hb => absurd hb List.not_mem_nil, rfl⟩
  | cons b bs ih =>
    obtain ⟨blanks, hblanks, hbs⟩ := ih
    rw [stripLine]
    split
    · next hnil =>
      rw [hnil, List.nil_append] at hbs
      split
      · next hb => exact ⟨b :: blanks, List.forall_mem_cons.2 ⟨hb, hblanks⟩, by rw [← hbs]; rfl⟩
      · exact ⟨blanks, hblanks, by rw [← hbs]; rfl⟩
    · exact ⟨blanks, hblanks, by rw [List.cons_append, ← hbs]⟩

theorem stripLine_blanks {blanks : Text} (h : ∀ b ∈ blanks, isBlank b = true) : stripLine blanks = [] := by
  induction blanks with
  | nil => rfl
  | cons b bs ih =>
    obtain ⟨hb, hbs⟩ := List.forall_mem_cons.1 h
    simp only [stripLine, ih hbs, if_pos hb]

/-- A line that ends in no whitespace is what stripping leaves of it and any whitespace after it. -/
theorem stripLine_of_ends {l blanks : Text} {b : Byte} (hb : isBlank b = false)
    (h : ∀ c ∈ blanks, isBlank c = true) : stripLine (l ++ b :: blanks) = l ++ [b] := by
  induction l with
  | nil => simp [stripLine, stripLine_blanks h, hb]
  | cons a as ih => simp [stripLine, ih]

theorem levelByte_not_blank (v : Level) : isBlank (levelByte v) = false := by
  cases v <;> decide

theorem tab_not_digit {ds : Text} (h : AllDigits ds) : byteTab ∉ ds := fun hmem => by
  have hlow := (h _ hmem).1
  exact absurd hlow (by decide)

/-! ### A line -/

/-- A line is accepted by its two fields. -/
theorem parseLine_eq_some_iff {line : Text} {x : Sample} :
    parseLine line = some x ↔ ∃ ds : Text, stripLine line = ds ++ [byteTab, levelByte x.v]
      ∧ ds ≠ [] ∧ AllDigits ds ∧ numeralValue ds = x.t.toNat := by
  constructor
  · intro h
    unfold parseLine at h
    split at h
    · cases h
    · next f1 f2 hsplit =>
      split at h
      · next t v htime hlevel =>
        cases h
        obtain ⟨hcut, -⟩ := splitTab_eq_some_iff.1 hsplit
        rw [parseLevel_eq_some_iff.1 hlevel] at hcut
        exact ⟨f1, hcut, parseTime_eq_some_iff.1 htime⟩
      · cases h
  · rintro ⟨ds, hstrip, hfield⟩
    have hsplit : splitTab (stripLine line) = some (ds, [levelByte x.v]) :=
      splitTab_eq_some_iff.2 ⟨hstrip, tab_not_digit hfield.2.1⟩
    simp only [parseLine, hsplit, parseTime_eq_some_iff.2 hfield, parseLevel_eq_some_iff.2 rfl]

/-- Settles O20: stripping a line leaves its two fields exactly where the line is them and whitespace. -/
theorem traceLinesAccepted : Obligations.TraceLinesAccepted := by
  intro line x
  rw [parseLine_eq_some_iff]
  constructor
  · rintro ⟨ds, hstrip, hne, hdigits, hvalue⟩
    obtain ⟨blanks, hblanks, hline⟩ := stripLine_append_blanks line
    rw [hstrip] at hline
    exact ⟨ds, blanks, hne, hdigits, hvalue, fun b hb => (isBlank_iff b).1 (hblanks b hb), hline⟩
  · rintro ⟨ds, blanks, hne, hdigits, hvalue, hblanks, hline⟩
    have hends : line = (ds ++ [byteTab]) ++ levelByte x.v :: blanks := by
      rw [hline, List.append_assoc, List.append_assoc]
      rfl
    refine ⟨ds, ?_, hne, hdigits, hvalue⟩
    rw [hends, stripLine_of_ends (levelByte_not_blank x.v) fun b hb => (isBlank_iff b).2 (hblanks b hb),
      List.append_assoc]
    rfl

end Sys2Proof.Proofs
end

section
/-! TRACE_WRITE (spec/41_trace_store.md R79, spec/30_encoding.md R53, R55): the lines of a trace edge by edge, and the
file it writes as HOST starts it. -/

namespace Sys2Proof.Proofs
open Sys2Proof.Machine Sys2Proof.Machine.Laws

/-! ### The lines of a trace -/

/-- The lines of the sample with index `i`: none, if it is no edge; before an edge that is not the first sample,
with `flank`, the old level at the new time. -/
def edgeLines (flank : Bool) (xs : List Sample) (i : Nat) : Text :=
  if isEdge xs i then
    (if flank = true ∧ i ≠ 0 then traceLine (timeAt xs i) (levelAt xs (i - 1)) else [])
      ++ traceLine (timeAt xs i) (levelAt xs i)
  else []

theorem edgeLines_zero (flank : Bool) (x : Sample) (xs : List Sample) :
    edgeLines flank (x :: xs) 0 = traceLine x.t x.v := by
  simp [edgeLines, isEdge]

/-- The lines of a second sample are those of a sample that follows the level of the first. -/
theorem edgeLines_one (flank : Bool) (p x : Sample) (xs : List Sample) :
    edgeLines flank (p :: x :: xs) 1 =
      if x.v = p.v then []
      else (if flank then traceLine x.t p.v else []) ++ traceLine x.t x.v := by
  by_cases h : x.v = p.v <;> simp [edgeLines, isEdge, h]

/-- Which lines a sample has depends on it and the one before it. -/
theorem edgeLines_cons (flank : Bool) (p x : Sample) (xs : List Sample) (i : Nat) :
    edgeLines flank (p :: x :: xs) (i + 2) = edgeLines flank (x :: xs) (i + 1) := by
  simp [edgeLines, isEdge]

theorem traceLinesFrom_eq (flank : Bool) (p : Sample) (xs : List Sample) :
    traceLinesFrom flank p.v xs = (List.range xs.length).flatMap fun i => edgeLines flank (p :: xs) (i + 1) := by
  induction xs generalizing p with
  | nil => rfl
  | cons x xs ih =>
    rw [traceLinesFrom, ih, List.length_cons, List.range_succ_eq_map, List.flatMap_cons, List.flatMap_map,
      edgeLines_one]
    exact congrArg _ (List.flatMap_congr fun i _ => (edgeLines_cons flank p x xs i).symm)

/-- The lines of a trace are those of its samples in order (R79). -/
theorem traceLines_eq (flank : Bool) (xs : List Sample) :
    traceLines flank xs = (List.range xs.length).flatMap (edgeLines flank xs) := by
  cases xs with
  | nil => rfl
  | cons x xs =>
    rw [traceLines, traceLinesFrom_eq, List.length_cons, List.range_succ_eq_map, List.flatMap_cons,
      List.flatMap_map, edgeLines_zero]

/-! ### The operation -/

/-- The index `I` at which TRACE_WRITE ends. -/
def lastVisited (s : State) : Nat := if s.mem.tr = [] then s.wr.i else s.mem.tr.length - 1

/-- What is left of every TRACE_WRITE: `I`, and one answer of the platform taken. -/
def afterVisit (s : State) : State :=
  { s with
    wr := { s.wr with i := lastVisited s }
    env := { s.env with writable := s.env.writable.skip 1 } }

theorem traceWrite_writable (path : Text) (flank : Bool) {s : State} (h : s.nextWritable = true) :
    traceWrite path flank s = .done () ((afterVisit s).putFile path (traceText flank s.mem.tr)) := by
  have hnext : (s.setWork { s.wr with i := lastVisited s }).nextWritable = true := h
  simp only [traceWrite, drawWritable_eq]
  rw [← lastVisited, hnext]
  rfl

theorem traceWrite_unwritable (path : Text) (flank : Bool) {s : State} (h : s.nextWritable = false) :
    traceWrite path flank s = .fatal (raise (.ioError path none) (afterVisit s)) := by
  have hnext : (s.setWork { s.wr with i := lastVisited s }).nextWritable = false := h
  simp only [traceWrite, drawWritable_eq]
  rw [← lastVisited, hnext]
  rfl

/-- Settles O17: the file's lines by `traceLines_eq`, the other files by `fileLookup_store`. -/
theorem traceWriteOutcome : Obligations.TraceWriteOutcome := by
  intro f s line hline
  obtain rfl : line = traceLine := funext fun t => funext fun v => hline t v
  refine ⟨fun hw => ?_, fun hw => ?_⟩
  · refine ⟨_, congrArg Act.outcome (traceWrite_writable s.opnd.path f.flank hw), rfl, ?_, fun q hq => ?_⟩
    · refine (fileLookup_store _ _ _ _).trans ((if_pos rfl).trans (congrArg some ?_))
      rw [traceText, traceLines_eq]
      rfl
    · exact (fileLookup_store _ _ _ _).trans (if_neg hq)
  · exact ⟨_, congrArg Act.outcome (traceWrite_unwritable s.opnd.path f.flank hw), rfl⟩

end Sys2Proof.Proofs
end

section
/-! EXTRACT_BITS as HOST starts it (spec/44_decoder.md R99, spec/30_encoding.md R60): what the bit extraction leaves
where the payload fits and where it does not. -/

namespace Sys2Proof.Proofs
open Sys2Proof.Machine Sys2Proof.Machine.Laws

/-- The lows of a frame are what a scan from index 4 on reads as bits. -/
theorem frameLows_eq (xs : List Sample) :
    frameLows xs = (lowsOf (xs.drop 4)).takeWhile fun dt => dt.toNat ≤ 2000 := by
  rw [frameLows, measuredLows_eq]

/-- Bytes whose wire bits begin the bits of a frame are whole bytes of it. -/
theorem spellsBits_of_prefix {ps : List Byte} {lows : List U32} (h : wireBits ps <+: lows.map bitOfLow) :
    spellsBits ps lows := by
  obtain ⟨rest, hrest⟩ := h
  intro k b p hp hb
  have hk : k < ps.length := (List.getElem?_eq_some_iff.1 hp).1
  have hwire := wireBits_getElem ps k b p hp hb
  rw [← List.getElem?_append_left (by rw [wireBits_length]; omega), hrest, List.getElem?_map] at hwire
  exact hwire

/-- The bits of an unfinished last byte are counted, and dropped (R99). -/
theorem extract_nbits {cap : Nat} {xs : List Sample} (h : (frameLows xs).length / 8 ≤ cap) :
    (extract cap xs).nbits = (frameLows xs).length % 8 := by
  obtain ⟨hfit, -⟩ :=
    scanBits_spec cap (xs.drop 4) .start bitScan_start_tidy (Nat.zero_le cap) _ (frameLows_eq xs)
  obtain ⟨htidy, -, hcount, -⟩ := hfit (by simp only [BitScan.start, List.length_nil]; omega)
  rw [← extract] at htidy hcount
  have hfew := htidy.few
  simp only [BitScan.start, List.length_nil] at hcount
  omega

/-- Where the payload does not fit, the bytes that do are those of the frame's first bits (R121). -/
theorem extract_overflows {cap : Nat} {xs : List Sample} (h : cap < (frameLows xs).length / 8) :
    (extract cap xs).full = true ∧ (extract cap xs).bytes.length = cap
      ∧ spellsBits (extract cap xs).bytes (frameLows xs) := by
  obtain ⟨-, hover⟩ :=
    scanBits_spec cap (xs.drop 4) .start bitScan_start_tidy (Nat.zero_le cap) _ (frameLows_eq xs)
  obtain ⟨hfull, hlen, hbits⟩ := hover (by simp only [BitScan.start, List.length_nil]; omega)
  exact ⟨hfull, hlen, spellsBits_of_prefix hbits⟩

/-- EXTRACT_BITS after its scan: the registers and the bytes it leaves. -/
def afterExtract (s : State) : State :=
  (s.setWork (s.wr.afterScan (extract s.par.payCap s.mem.tr))).setPay (extract s.par.payCap s.mem.tr).bytes

theorem execExtractBits_done {s : State} (h : (extract s.par.payCap s.mem.tr).full = false) :
    execExtractBits s = .next (afterExtract s).finish := by
  simp only [execExtractBits, h]
  rfl

theorem execExtractBits_full {s : State} (h : (extract s.par.payCap s.mem.tr).full = true) :
    execExtractBits s = .next (raise (.capacityExceeded .pay) (afterExtract s)) := by
  simp only [execExtractBits, h]
  rfl

/-- Settles O35: `extract_fits` and `extract_nbits`, or `extract_overflows`. -/
theorem extractBitsOutcome : Obligations.ExtractBitsOutcome := by
  refine fun f s => ⟨fun hfits => ?_, fun hover => ?_⟩
  · obtain ⟨hgoing, ⟨hlen, hbits⟩, hend⟩ := extract_fits hfits
    refine ⟨_, execExtractBits_done hgoing, ?_, hlen, hbits⟩
    rw [← hend, ← extract_nbits hfits]
    rfl
  · obtain ⟨hfull, hlen, hbits⟩ := extract_overflows hover
    exact ⟨_, execExtractBits_full hfull, rfl, hlen, hbits⟩

end Sys2Proof.Proofs
end

section
/-! ENCODE as HOST starts it (spec/45_encoder.md R107, R108, spec/30_encoding.md R59): where the cursor ends, and the
trace of the frame where it fits and where it does not. -/

namespace Sys2Proof.Proofs
open Sys2Proof.Machine Sys2Proof.Machine.Laws

/-! ### Where the cursor ends -/

/-- A sequence of symbols moves the cursor by the time it takes. -/
theorem cursorEnd_eq (t : U32) (ms : List (U32 × U32)) : cursorEnd t ms = t + BitVec.ofNat 32 (span ms) := by
  induction ms generalizing t with
  | nil => exact (BitVec.add_zero t).symm
  | cons p ms ih =>
    have hstep : cursorEnd t (p :: ms) = cursorEnd (cursorAfter t p.1 p.2) ms := rfl
    rw [hstep, ih, span_cons, cursorAfter, BitVec.ofNat_add, BitVec.ofNat_add, BitVec.ofNat_toNat,
      BitVec.setWidth_eq]
    simp only [BitVec.add_assoc]

/-- A bit takes 416 µs of mark, and 430 or 1268 of space (R59). -/
theorem span_bitSymbols_eq (bs : List Bool) :
    span (bs.map fun b => (428, if b then 1268 else 430)) =
      416 * bs.length + 430 * bs.count false + 1268 * bs.count true := by
  induction bs with
  | nil => rfl
  | cons b bs ih =>
    rw [List.map_cons, span_cons, ih, List.length_cons, List.count_cons, List.count_cons]
    cases b <;> simp <;> omega

theorem span_halfFrame_eq (ps : List Byte) :
    span (halfFrameSymbols ps) = 3328 + 1688 + 8 * ps.length * 416 + 430 * (wireBits ps).count false
      + 1268 * (wireBits ps).count true + 416 + 11354 := by
  have hhead : span [(3344, 1688)] = 3328 + 1688 := by decide
  have hstop : span [(428, 11354)] = 416 + 11354 := by decide
  rw [halfFrameSymbols, span_append, span_append, span_bitSymbols_eq, wireBits_length, hhead, hstop]
  omega

/-! ### ENCODE -/

/-- ENCODE before its first burst: the point (0, 0), the cursor at the first rising edge. -/
def encodeStart (s : State) : State := (s.setTr [⟨0, false⟩]).setCursor 700

theorem encodePayload_eq (s : State) :
    encodePayload s = bursts (halfFrameSymbols s.mem.pay ++ halfFrameSymbols s.mem.pay) (encodeStart s) := by
  rw [encodePayload, frameBursts_eq]
  rfl

/-- The trace with the frame's symbols appended is the encoded trace. -/
theorem encodeStart_symbols (s : State) :
    (encodeStart s).mem.tr ++ symbolTrace (encodeStart s).wr.tcur
      (halfFrameSymbols s.mem.pay ++ halfFrameSymbols s.mem.pay) = encodedTrace s.mem.pay := rfl

theorem encodeStart_symbols_length (s : State) :
    (encodeStart s).mem.tr.length + (symbolTrace (encodeStart s).wr.tcur
      (halfFrameSymbols s.mem.pay ++ halfFrameSymbols s.mem.pay)).length = 577 + 512 * s.mem.pay.length := by
  rw [← List.length_append, encodeStart_symbols, encodedTrace_length]

/-- A frame that fits (R107). -/
theorem encodePayload_fits {s : State} (h : 577 + 512 * s.mem.pay.length ≤ Config.trCap) :
    ∃ b, encodePayload s = .done () { s with
      mem := { s.mem with tr := encodedTrace s.mem.pay }
      wr := { s.wr with
        bstart := b
        tcur := cursorEnd 700 (halfFrameSymbols s.mem.pay ++ halfFrameSymbols s.mem.pay)
        tcurWritten := true } } := by
  rw [← encodeStart_symbols_length] at h
  obtain ⟨b, hb⟩ := bursts_fit _ _ (encodeStart s) h
  exact ⟨b, (encodePayload_eq s).trans hb⟩

/-- A frame that does not fit leaves `TR` full (R121). -/
theorem encodePayload_full {s : State} (h : Config.trCap < 577 + 512 * s.mem.pay.length) :
    ∃ w, encodePayload s = .fatal (raise (.capacityExceeded .tr) { s with
      mem := { s.mem with tr := (encodedTrace s.mem.pay).take Config.trCap }, wr := w }) := by
  rw [← encodeStart_symbols_length] at h
  have hstart : (encodeStart s).mem.tr.length ≤ Config.trCap := by show 1 ≤ 1000000; omega
  obtain ⟨w, hw⟩ := bursts_full _ (encodeStart s) hstart h
  exact ⟨w, (encodePayload_eq s).trans hw⟩

theorem exec_encode (f : CmdFlags) (s : State) : exec (.encode f) s = (encodePayload s).outcome := rfl

/-- Settles O43: the frame fits or it does not; the cursor by `cursorEnd_eq`, the same time for each half-frame. -/
theorem encodeOutcome : Obligations.EncodeOutcome := by
  refine fun f s => ⟨fun hfits => ?_, fun hover => ?_⟩
  · obtain ⟨b, hdone⟩ := encodePayload_fits hfits
    rw [exec_encode, hdone]
    refine ⟨_, rfl, ?_⟩
    rw [cursorEnd_eq, span_append, ← Nat.two_mul, span_halfFrame_eq, BitVec.ofNat_add]
    rfl
  · obtain ⟨w, hfatal⟩ := encodePayload_full hover
    rw [exec_encode, hfatal]
    exact ⟨_, rfl, rfl⟩

end Sys2Proof.Proofs
end

section
/-! The pin and priority operations of the facade as HOST starts them (spec/40_facade.md R69 to R72, R74, R75): what
each writes, and where it is refused. -/

namespace Sys2Proof.Proofs
open Sys2Proof.Machine Sys2Proof.Machine.Laws

/-! ### The commands -/

theorem exec_configurePin (f : CmdFlags) (s : State) :
    exec (.configurePin f) s = (configurePin s.opnd.pin s.opnd.dir s.opnd.pull s).outcome := rfl

theorem exec_readPin (f : CmdFlags) (s : State) :
    exec (.readPin f) s = ((readPin s.opnd.pin s).andThen fun l u =>
      .done () { u with ret := some (.level l) }).outcome := rfl

theorem exec_writePin (f : CmdFlags) (s : State) :
    exec (.writePin f) s = (writePin s.opnd.pin s.opnd.level s).outcome := rfl

/-! ### Pins -/

/-- A state whose pins differ from those of `s` by one write has the written registers at that pin and those of `s`
at every other. -/
theorem pinAt_of_pinStore {s t : State} {p : Nat} {r : Pin} (hpins : t.pins = pinStore p r s.pins)
    (hepoch : t.epoch = s.epoch) : t.pinAt p = r ∧ ∀ q, q ≠ p → t.pinAt q = s.pinAt q := by
  have hset : ∀ q, t.pinAt q = (s.setPin p r).pinAt q := fun q => by
    rw [State.pinAt, State.pinAt, hpins, hepoch, setPin_pins, setPin_epoch]
  exact ⟨by rw [hset, setPin_pinAt, if_pos rfl], fun q hq => by rw [hset, setPin_pinAt, if_neg hq]⟩

/-- Settles O8, by the three ends of CONFIGURE_PIN. -/
theorem configurePinOutcome : Obligations.ConfigurePinOutcome := by
  intro f s
  rcases configurePin_cases s.opnd.pin s.opnd.dir s.opnd.pull s with
      ⟨hge, h⟩ | ⟨hv, hno, h⟩ | ⟨hv, hok, h⟩ <;> rw [exec_configurePin, h]
  · exact ⟨fun _ => rfl, fun hv => absurd hge (Nat.not_le.2 hv), fun hv => absurd hge (Nat.not_le.2 hv)⟩
  · rw [drawPinOk_eq]
    exact ⟨fun hge => absurd hge (Nat.not_le.2 hv), fun _ _ => rfl,
      fun _ hok => Bool.noConfusion (hok.symm.trans hno)⟩
  · rw [drawPinOk_eq]
    exact ⟨fun hge => absurd hge (Nat.not_le.2 hv),
      fun _ hno => Bool.noConfusion (hok.symm.trans hno),
      fun _ _ => ⟨_, rfl, rfl, pinAt_of_pinStore rfl rfl⟩⟩

/-- Settles O9, by the two ends of READ_PIN. -/
theorem readPinOutcome : Obligations.ReadPinOutcome := by
  intro f s
  rcases readPin_cases s.opnd.pin s with ⟨hv, hdir, h⟩ | ⟨hn, h⟩ <;> rw [exec_readPin, h]
  · exact ⟨fun _ _ => rfl, fun hn => absurd ⟨hv, hdir⟩ hn⟩
  · exact ⟨fun hv hdir => absurd ⟨hv, hdir⟩ hn, fun _ => rfl⟩

/-- Settles O10, by the two ends of WRITE_PIN. -/
theorem writePinOutcome : Obligations.WritePinOutcome := by
  intro f s
  rcases writePin_cases s.opnd.pin s.opnd.level s with ⟨hv, hdir, h⟩ | ⟨hn, h⟩ <;> rw [exec_writePin, h]
  · exact ⟨fun _ _ => ⟨_, rfl, rfl, pinAt_of_pinStore rfl rfl⟩, fun hn => absurd ⟨hv, hdir⟩ hn⟩
  · exact ⟨fun hv hdir => absurd ⟨hv, hdir⟩ hn, fun _ => rfl⟩

/-! ### The priority -/

/-- Settles O13: each operation is one write of `PRIO`. -/
theorem priorityOperations : Obligations.PriorityOperations :=
  fun _ _ => ⟨rfl, rfl⟩

end Sys2Proof.Proofs
end

section
/-! AVOID_CLOCK_WRAP (spec/40_facade.md R76, R152): the guard ends at the first read far enough from the wrap, when
HOST starts it and when it goes on after a wait; on a fair clock whose reads are not too far apart there is one. -/

namespace Sys2Proof.Proofs
open Sys2Proof.Machine Sys2Proof.Machine.Laws

/-! ### The guard -/

theorem farFromWrap_iff (m : Nat) (c : U32) :
    farFromWrap m c = true ↔ m * 1000000 ≤ 4294967296 - c.toNat :=
  decide_eq_true_iff

theorem farFromWrap_eq_false_iff (m : Nat) (c : U32) :
    farFromWrap m c = false ↔ 4294967296 - c.toNat < m * 1000000 :=
  decide_eq_false_iff_not.trans Nat.not_le

theorem avoidClockWrap_impossible {m : Nat} (h : 4294967296 < m * 1000000) (s : State) :
    avoidClockWrap m s = .fatal (raise (.configError .margin) s) :=
  if_pos h

/-- Of a possible margin the wait decides: the guard is done where a read was far enough, else it blocks. -/
theorem avoidClockWrap_of_poll {m : Nat} {s t : State} {b : Bool} (hm : m * 1000000 ≤ 4294967296)
    (hpoll : pollClock (farFromWrap m) s.clockPolls s = (b, t)) :
    avoidClockWrap m s = if b then .done () t else .wait (.avoidClockWrap m) t := by
  have hpossible : ¬ Config.clkWrap < m * Config.microsPerSecond := Nat.not_lt.2 hm
  rw [avoidClockWrap, if_neg hpossible, hpoll]
  cases b <;> rfl

theorem avoidClockWrap_returns {m k : Nat} {s : State} (hm : m * 1000000 ≤ 4294967296)
    (hk : k ≤ s.env.clock.script.length)
    (hnear : ∀ j < k, 4294967296 - (s.clockReading j).toNat < m * 1000000)
    (hfar : m * 1000000 ≤ 4294967296 - (s.clockReading k).toNat) :
    avoidClockWrap m s = .done () (State.readNow^[k + 1] s) :=
  avoidClockWrap_of_poll hm (pollClock_due (Nat.lt_succ_of_le hk)
    (fun j hj => (farFromWrap_eq_false_iff m _).2 (hnear j hj)) ((farFromWrap_iff m _).2 hfar))

theorem avoidClockWrap_blocks {m : Nat} {s : State} (hm : m * 1000000 ≤ 4294967296)
    (hnear : ∀ j ≤ s.env.clock.script.length, 4294967296 - (s.clockReading j).toNat < m * 1000000) :
    avoidClockWrap m s = .wait (.avoidClockWrap m) (State.readNow^[s.env.clock.script.length + 1] s) :=
  avoidClockWrap_of_poll hm (pollClock_notDue fun j hj =>
    (farFromWrap_eq_false_iff m _).2 (hnear j (Nat.le_of_lt_succ hj)))

theorem exec_avoidClockWrap (f : CmdFlags) (s : State) :
    exec (.avoidClockWrap f) s = (avoidClockWrap s.opnd.margin s).outcome := rfl

/-- Settles O14: the margin is impossible, or the guard returns, or it blocks. -/
theorem avoidClockWrapOutcome : Obligations.AvoidClockWrapOutcome := by
  refine fun f s => ⟨fun hm => ?_, fun hm k hk hnear hfar => ?_, fun hm hnear => ?_⟩ <;>
    rw [exec_avoidClockWrap]
  · rw [avoidClockWrap_impossible hm]
    rfl
  · rw [avoidClockWrap_returns hm hk hnear hfar, iterate_readNow]
    rfl
  · rw [avoidClockWrap_blocks hm hnear, iterate_readNow]
    rfl

/-! ### A fair clock (R152) -/

/-- A clock that advances by at most `g` does not wrap past the values up to `g`: from one read to the next above
`g` it rises by what it advances. -/
theorem clockAfter_succ_toNat {c : U32} {advance : Nat → Nat} {g k : Nat} (hgap : ∀ i, advance i ≤ g)
    (habove : g < (clockAfter c advance (k + 1)).toNat) :
    (clockAfter c advance (k + 1)).toNat = (clockAfter c advance k).toNat + advance (k + 1) := by
  have hstep := hgap (k + 1)
  rw [clockAfter, BitVec.toNat_add, BitVec.toNat_ofNat] at habove ⊢
  omega

/-- A fair clock that advances by at most `g` comes to a value up to `g`: if it stayed above it would never wrap, and
from its highest value (where fairness takes it) it can only wrap. -/
theorem exists_clockAfter_le {c : U32} {advance : Nat → Nat} {g : Nat} (hfair : FairClock c advance)
    (hgap : ∀ i, advance i ≤ g) : ∃ k, (clockAfter c advance k).toNat ≤ g := by
  by_contra hnone
  have hrise : ∀ k, (clockAfter c advance (k + 1)).toNat = (clockAfter c advance k).toNat + advance (k + 1) :=
    fun k => clockAfter_succ_toNat hgap (Nat.lt_of_not_le fun hle => hnone ⟨_, hle⟩)
  have hmono : Monotone fun k => (clockAfter c advance k).toNat :=
    monotone_nat_of_le_succ fun k => by rw [hrise]; exact Nat.le_add_right _ _
  obtain ⟨j, -, htop⟩ := hfair.reaches 0xFFFFFFFF 0
  obtain ⟨k, hjk, hmoves⟩ := hfair.goesOn (j + 1)
  obtain ⟨k, rfl⟩ : ∃ i, k = i + 1 := ⟨k - 1, by omega⟩
  have hhigh : 4294967295 ≤ (clockAfter c advance k).toNat := htop.trans (hmono (Nat.le_of_succ_le_succ hjk))
  have hlt := (clockAfter c advance (k + 1)).isLt
  rw [hrise] at hlt
  omega

/-- Far enough from the wrap is a value up to the margin's distance from it. -/
theorem far_iff_le {m : Nat} (hm : m * 1000000 ≤ 4294967296) (c : U32) :
    m * 1000000 ≤ 4294967296 - c.toNat ↔ c.toNat ≤ 4294967296 - m * 1000000 := by
  have hlt := c.isLt
  omega

/-- On such a clock there is a first read far enough from the wrap. -/
theorem exists_first_far {c : U32} {advance : Nat → Nat} {m : Nat} (hm : m * 1000000 ≤ 4294967296)
    (hfair : FairClock c advance) (hgap : ∀ i, advance i ≤ 4294967296 - m * 1000000) :
    ∃ k, (∀ j < k, 4294967296 - (clockAfter c advance j).toNat < m * 1000000)
      ∧ m * 1000000 ≤ 4294967296 - (clockAfter c advance k).toNat := by
  have hex : ∃ k, m * 1000000 ≤ 4294967296 - (clockAfter c advance k).toNat := by
    obtain ⟨k, hk⟩ := exists_clockAfter_le hfair hgap
    exact ⟨k, (far_iff_le hm _).2 hk⟩
  exact ⟨Nat.find hex, fun j hj => Nat.lt_of_not_le (Nat.find_min hex hj), Nat.find_spec hex⟩

/-! ### The guard that blocked -/

/-- A guard that blocked, when it is the whole stack, goes on as the guard from the present clock. -/
theorem step_of_guarding {s : State} {m : Nat} (hcmd : s.cmd = none)
    (hseq : s.seq = { busy := true, op := some .avoidClockWrap, phase := 1, todo := [.avoidClockWrap m] }) :
    step s = (avoidClockWrap m s).outcome := by
  rw [step_of_busy hcmd (by rw [hseq]), hseq, runTasks_singleton]
  rfl

/-- A clock scripted for `n` reads has used up its script after them. -/
theorem onClock_skip_all (n : Nat) (advance : Nat → Nat) (s : State) :
    (s.onClock n advance).env.clock.skip n = { script := [], used := s.env.clock.used + n } := by
  simp [Tape.skip]

/-- Settles O15: the resumed guard by `avoidClockWrap_returns`; on a fair clock by the same at the first read that
`exists_first_far` gives. -/
theorem blockedGuardReturns : Obligations.BlockedGuardReturns := by
  refine ⟨fun s m k hcmd hseq hm hk hnear hfar => ?_, fun s m advance hcmd hseq hm hfair hgap => ?_⟩
  · rw [step_of_guarding hcmd hseq, avoidClockWrap_returns hm hk hnear hfar, iterate_readNow]
    rfl
  · obtain ⟨k, hnear, hfar⟩ := exists_first_far hm hfair hgap
    have hread : ∀ j ≤ k, (s.onClock (k + 1) advance).clockReading j = clockAfter s.clk advance j :=
      fun j hj => clockReading_onClock (k + 1) advance s j (Nat.lt_succ_of_le hj)
    have hscript : k ≤ (s.onClock (k + 1) advance).env.clock.script.length := by simp
    have hreturns : avoidClockWrap m (s.onClock (k + 1) advance) =
        .done () (State.readNow^[k + 1] (s.onClock (k + 1) advance)) :=
      avoidClockWrap_returns hm hscript (fun j hj => by rw [hread j hj.le]; exact hnear j hj)
        (by rw [hread k le_rfl]; exact hfar)
    refine ⟨k, ?_⟩
    rw [step_of_guarding (s := s.onClock (k + 1) advance) hcmd hseq, hreturns, iterate_readNow, hread k le_rfl,
      onClock_skip_all]
    rfl

end Sys2Proof.Proofs
end

section
/-! The lines of a file (spec/41_trace_store.md R81): its pieces between line feeds, and what they are of a file that
TRACE_WRITE has written (R53, R79). -/

namespace Sys2Proof.Proofs
open Sys2Proof.Machine Sys2Proof.Machine.Laws

/-! ### The cut at line feeds (R81) -/

/-- A text without a line feed is one piece. -/
theorem cutLines_of_not_mem {l : Text} (h : byteLf ∉ l) : cutLines l = [l] := by
  induction l with
  | nil => rfl
  | cons b bs ih =>
    obtain ⟨hb, hbs⟩ := not_or.1 (mt List.mem_cons.2 h)
    simp only [cutLines, if_neg (Ne.symm hb), ih hbs]

/-- The first line feed ends the first piece. -/
theorem cutLines_append_lf {l : Text} (h : byteLf ∉ l) (rest : Text) :
    cutLines (l ++ byteLf :: rest) = l :: cutLines rest := by
  induction l with
  | nil => exact if_pos rfl
  | cons b bs ih =>
    obtain ⟨hb, hbs⟩ := not_or.1 (mt List.mem_cons.2 h)
    simp only [List.cons_append, cutLines, if_neg (Ne.symm hb), ih hbs]

theorem cutLines_pieces {ls : List Text} {last : Text} (hls : ∀ l ∈ ls, byteLf ∉ l) (hlast : byteLf ∉ last) :
    cutLines (ls.flatMap (fun l => l ++ [byteLf]) ++ last) = ls ++ [last] := by
  induction ls with
  | nil => exact cutLines_of_not_mem hlast
  | cons l ls ih =>
    obtain ⟨hl, hrest⟩ := List.forall_mem_cons.1 hls
    rw [List.flatMap_cons, List.append_assoc, List.append_assoc, List.singleton_append, cutLines_append_lf hl,
      ih hrest, List.cons_append]

theorem dropLastEmpty_concat (ls : List Text) (last : Text) :
    dropLastEmpty (ls ++ [last]) = if last = [] then ls else ls ++ [last] := by
  induction ls with
  | nil => rfl
  | cons l ls ih =>
    have hstep : dropLastEmpty (l :: ls ++ [last]) = l :: dropLastEmpty (ls ++ [last]) := by
      cases ls <;> rfl
    rw [hstep, ih]
    split <;> rfl

/-- Settles O19: the pieces by `cutLines_pieces`, and whether the last one is a line by `dropLastEmpty_concat`. -/
theorem fileLinesCut : Obligations.FileLinesCut := fun ls last hls hlast =>
  (congrArg dropLastEmpty (cutLines_pieces hls hlast)).trans (dropLastEmpty_concat ls last)

/-! ### The lines TRACE_WRITE writes (R53, R79) -/

/-- The line of a sample, without its `LF` (R53). -/
def sampleLine (x : Sample) : Text := decimal x.t ++ [byteTab, levelByte x.v]

theorem traceLine_eq_sampleLine (x : Sample) : traceLine x.t x.v = sampleLine x ++ [byteLf] := by
  rw [traceLine, sampleLine, List.append_assoc]
  rfl

theorem lf_not_mem_sampleLine (x : Sample) : byteLf ∉ sampleLine x := by
  have hdigits : byteLf ∉ decimal x.t := fun hmem =>
    absurd (decimal_digits x.t _ hmem).1 (by decide)
  have hend : byteLf ∉ [byteTab, levelByte x.v] := by
    cases x.v <;> decide
  exact fun hmem => (List.mem_append.1 hmem).elim hdigits hend

/-- The reader reads a sample's line as that sample. -/
theorem parseLine_sampleLine (x : Sample) : parseLine (sampleLine x) = some x :=
  (traceLinesAccepted _ x).2 ⟨decimal x.t, [], decimal_ne_nil x.t, decimal_digits x.t, decimal_value x.t,
    fun _ hb => absurd hb List.not_mem_nil, (List.append_nil _).symm⟩

/-- Without `flank` the writer writes the lines of the samples that a compaction keeps. -/
theorem traceLinesFrom_eq_compactFrom (last : Level) (xs : List Sample) :
    traceLinesFrom false last xs =
      ((compactFrom last xs).map sampleLine).flatMap fun l => l ++ [byteLf] := by
  induction xs generalizing last with
  | nil => rfl
  | cons x xs ih =>
    rw [traceLinesFrom, compactFrom]
    by_cases hx : x.v = last
    · rw [if_pos hx, if_pos hx, ih, hx]
      rfl
    · rw [if_neg hx, if_neg hx, ih, traceLine_eq_sampleLine]
      rfl

theorem traceLines_eq_compactTrace (xs : List Sample) :
    traceLines false xs = ((compactTrace xs).map sampleLine).flatMap fun l => l ++ [byteLf] := by
  cases xs with
  | nil => rfl
  | cons x xs =>
    rw [traceLines, traceLinesFrom_eq_compactFrom, traceLine_eq_sampleLine]
    rfl

/-- The lines of a written file: the header, and one for each sample that a compaction keeps. -/
theorem fileLines_traceText (xs : List Sample) :
    fileLines (traceText false xs) = traceHeader :: (compactTrace xs).map sampleLine := by
  have hlines : ∀ l ∈ traceHeader :: (compactTrace xs).map sampleLine, byteLf ∉ l :=
    List.forall_mem_cons.2 ⟨by decide, List.forall_mem_map.2 fun x _ => lf_not_mem_sampleLine x⟩
  rw [traceText, traceLines_eq_compactTrace, ← List.append_nil (_ ++ _)]
  exact fileLinesCut _ [] hlines List.not_mem_nil

end Sys2Proof.Proofs
end

section
/-! TRACE_READ (spec/41_trace_store.md R81, spec/60_exceptions.md R118, R121, R126) as HOST starts it, and what it reads
from a file that TRACE_WRITE has written. -/

namespace Sys2Proof.Proofs
open Sys2Proof.Machine Sys2Proof.Machine.Laws

/-! ### Line by line -/

/-- Accepted lines that fit are appended to `TR`, and the reader goes on after them. -/
theorem readLines_accepted (path : Text) {good : List Text} {xs : List Sample}
    (hparse : good.map parseLine = xs.map some) (k : Nat) (rest : List Text) (s : State)
    (hfits : s.mem.tr.length + xs.length ≤ Config.trCap) :
    readLines path k (good ++ rest) s =
      readLines path (k + xs.length) rest (s.setTr (s.mem.tr ++ xs)) := by
  induction good generalizing xs k s with
  | nil =>
    obtain rfl : xs = [] := List.map_eq_nil_iff.1 hparse.symm
    rw [List.append_nil]
    rfl
  | cons line good ih =>
    cases xs with
    | nil => cases hparse
    | cons x xs =>
      obtain ⟨hline, hgood⟩ := List.cons.inj hparse
      rw [List.length_cons] at hfits
      have hroom : s.mem.tr.length < Config.trCap := by omega
      have hrest : (s.setTr (s.mem.tr ++ [x])).mem.tr.length + xs.length ≤ Config.trCap := by
        rw [setTr_mem, List.length_append, List.length_singleton]
        omega
      simp only [List.cons_append, readLines, hline, if_pos hroom]
      rw [ih hgood _ _ hrest, setTr_mem, List.append_assoc, List.length_cons, Nat.add_right_comm, Nat.add_assoc]
      rfl

/-- The first malformed line ends the reading, whatever room there is (R126). -/
theorem readLines_malformed (path : Text) (k : Nat) {line : Text} (rest : List Text) (s : State)
    (h : parseLine line = none) :
    readLines path k (line :: rest) s = .fatal (raise (.ioError path (some k)) s) := by
  rw [readLines, h]

/-- A well-formed line that finds `TR` full ends the reading (R121). -/
theorem readLines_full (path : Text) (k : Nat) {line : Text} (rest : List Text) {s : State}
    (h : parseLine line ≠ none) (hfull : s.mem.tr.length = Config.trCap) :
    readLines path k (line :: rest) s = .fatal (raise (.capacityExceeded .tr) s) := by
  obtain ⟨x, hx⟩ := Option.ne_none_iff_exists'.1 h
  have hroom : ¬ s.mem.tr.length < Config.trCap := by omega
  simp only [readLines, hx, if_neg hroom]

/-! ### The operation -/

/-- What is left of every TRACE_READ of a file that exists: one answer of the platform taken. -/
def afterReadable (s : State) : State :=
  { s with env := { s.env with readable := s.env.readable.skip 1 } }

theorem traceRead_missing {path : Text} {s : State} (h : fileLookup path s.mem.files = none) :
    traceRead path s = .fatal (raise (.ioError path none) s) := by
  rw [traceRead, h]

theorem traceRead_unreadable {path : Text} {s : State} (h : fileLookup path s.mem.files ≠ none)
    (hr : s.nextReadable = false) :
    traceRead path s = .fatal (raise (.ioError path none) (afterReadable s)) := by
  obtain ⟨contents, hc⟩ := Option.ne_none_iff_exists'.1 h
  simp only [traceRead, hc, drawReadable_eq, hr, afterReadable]

theorem traceRead_readable {path contents : Text} {s : State}
    (h : fileLookup path s.mem.files = some contents) (hr : s.nextReadable = true) :
    traceRead path s = readLines path 2 (fileLines contents).tail ((afterReadable s).setTr []) := by
  simp only [traceRead, h, drawReadable_eq, hr, afterReadable]

/-- A readable file up to the end of its first accepted lines, as many as `TR` holds: they replace the trace. -/
theorem traceRead_accepted {path contents : Text} {s : State} {xs : List Sample} {good rest : List Text}
    (h : fileLookup path s.mem.files = some contents) (hr : s.nextReadable = true)
    (hlines : (fileLines contents).tail = good ++ rest) (hparse : good.map parseLine = xs.map some)
    (hfits : xs.length ≤ Config.trCap) :
    traceRead path s = readLines path (xs.length + 2) rest ((afterReadable s).setTr xs) := by
  have hroom : ((afterReadable s).setTr []).mem.tr.length + xs.length ≤ Config.trCap := by
    rwa [setTr_mem, List.length_nil, Nat.zero_add]
  rw [traceRead_readable h hr, hlines, readLines_accepted path hparse 2 rest _ hroom, Nat.add_comm 2]
  rfl

theorem exec_traceRead (f : CmdFlags) (s : State) :
    exec (.traceRead f) s = (traceRead s.opnd.path s).outcome := rfl

/-- Settles O21: every line after the first is accepted, and none is left. -/
theorem traceReadOutcome : Obligations.TraceReadOutcome := by
  intro f s contents xs hfile hr hparse hfits
  rw [exec_traceRead, traceRead_accepted hfile hr (List.append_nil _).symm hparse hfits]
  rfl

/-- Settles O22: the tests in the order of R126; the line after the accepted ones is malformed or finds no room. -/
theorem traceReadRejects : Obligations.TraceReadRejects := by
  refine fun f s => ⟨fun hmissing => ?_, fun hfile hr => ?_,
    fun contents line xs good rest hfile hr hlines hparse => ⟨fun hfits hbad => ?_, fun hfull hgood => ?_⟩⟩
  · rw [exec_traceRead, traceRead_missing hmissing]
    rfl
  · rw [exec_traceRead, traceRead_unreadable hfile hr]
    rfl
  · rw [exec_traceRead, traceRead_accepted hfile hr hlines hparse hfits, readLines_malformed _ _ _ _ hbad]
    rfl
  · rw [exec_traceRead, traceRead_accepted hfile hr hlines hparse hfull.le, readLines_full _ _ _ hgood hfull]
    rfl

/-! ### The round trip -/

/-- A file TRACE_WRITE wrote without `flank` is read as the compaction of the trace it was written from. -/
theorem traceRead_of_traceText (g : CmdFlags) {s : State} {xs : List Sample}
    (hfile : fileLookup s.opnd.path s.mem.files = some (traceText false xs)) (hr : s.nextReadable = true)
    (hfits : xs.length ≤ Config.trCap) :
    ∃ u, exec (.traceRead g) s = .next u ∧ u.mem.tr = compactTrace xs := by
  have hparse : (fileLines (traceText false xs)).tail.map parseLine = (compactTrace xs).map some := by
    rw [fileLines_traceText, List.tail_cons, List.map_map]
    exact List.map_congr_left fun x _ => parseLine_sampleLine x
  exact ⟨_, traceReadOutcome g s _ _ hfile hr hparse ((compactTrace_length xs).trans hfits), rfl⟩

/-- Settles O23: what is read back is the compaction of what was written, and a compact trace is its own. -/
theorem traceFileRoundTrip : Obligations.TraceFileRoundTrip := by
  intro f g s ys hflank hcompact hfits hw hr
  have hwrite : exec (.traceWrite f) s =
      .next ((afterVisit s).putFile s.opnd.path (traceText false s.mem.tr)).finish := by
    rw [← hflank]
    exact congrArg Act.outcome (traceWrite_writable s.opnd.path f.flank hw)
  obtain ⟨u, hread, htr⟩ := traceRead_of_traceText g
    (s := ((afterVisit s).putFile s.opnd.path (traceText false s.mem.tr)).finish.setTr ys)
    ((fileLookup_store _ _ _ _).trans (if_pos rfl)) hr hfits
  exact ⟨_, u, hwrite, hread, htr.trans (compactTrace_of_isCompact _ hcompact)⟩

end Sys2Proof.Proofs
end

section
/-! COMPACT as HOST starts it (spec/41_trace_store.md R78): which samples of a trace it keeps, index by index. -/

namespace Sys2Proof.Proofs
open Sys2Proof.Machine Sys2Proof.Machine.Laws

/-- The sample with index `i`, if it is an edge. -/
def edgeAt (xs : List Sample) (i : Nat) : Option Sample := if isEdge xs i then xs[i]? else none

theorem edgeAt_zero (x : Sample) (xs : List Sample) : edgeAt (x :: xs) 0 = some x := rfl

theorem edgeAt_one (p x : Sample) (xs : List Sample) :
    edgeAt (p :: x :: xs) 1 = if x.v = p.v then none else some x := by
  by_cases h : x.v = p.v <;> simp [edgeAt, isEdge, levelAt, h]

/-- Whether a sample is an edge depends on it and the one before it. -/
theorem edgeAt_cons (p x : Sample) (xs : List Sample) (i : Nat) :
    edgeAt (p :: x :: xs) (i + 2) = edgeAt (x :: xs) (i + 1) := by
  simp [edgeAt, isEdge, levelAt]

theorem compactFrom_eq (p : Sample) (xs : List Sample) :
    compactFrom p.v xs = (List.range xs.length).filterMap fun i => edgeAt (p :: xs) (i + 1) := by
  induction xs generalizing p with
  | nil => rfl
  | cons x xs ih =>
    have htail : compactFrom x.v xs =
        (List.range xs.length).filterMap fun i => edgeAt (p :: x :: xs) (i + 2) := by
      rw [ih]
      exact List.filterMap_congr fun i _ => (edgeAt_cons p x xs i).symm
    rw [List.length_cons, List.range_succ_eq_map, List.filterMap_cons, List.filterMap_map, edgeAt_one, compactFrom]
    by_cases hx : x.v = p.v
    · rw [if_pos hx, if_pos hx, ← hx]
      exact htail
    · rw [if_neg hx, if_neg hx]
      exact congrArg (x :: ·) htail

/-- A compaction keeps the edges of a trace, in order (R78). -/
theorem compactTrace_eq (xs : List Sample) :
    compactTrace xs = (List.range xs.length).filterMap (edgeAt xs) := by
  cases xs with
  | nil => rfl
  | cons x xs =>
    rw [compactTrace, compactFrom_eq, List.length_cons, List.range_succ_eq_map, List.filterMap_cons,
      List.filterMap_map, edgeAt_zero]
    rfl

theorem exec_compact (f : CmdFlags) (s : State) : exec (.compact f) s = .next (compact s).finish := rfl

/-- A second COMPACT finds nothing to drop. -/
theorem compact_compact_mem (s : State) : (compact (compact s).finish).mem = (compact s).mem := by
  have hagain : compactTrace (compactTrace s.mem.tr) = compactTrace s.mem.tr :=
    compactTrace_of_isCompact _ (compactTrace_isCompact s.mem.tr)
  rw [compact_mem, compact_mem]
  exact congrArg (fun xs => { s.mem with tr := xs }) hagain

/-- Settles O16: the kept samples by `compactTrace_eq`, idempotence by `compact_compact_mem`. -/
theorem compactKeepsEdges : Obligations.CompactKeepsEdges := fun f s =>
  ⟨(compact s).finish, exec_compact f s, rfl, compactTrace_eq s.mem.tr, compactTrace_isCompact s.mem.tr,
    fun g => ⟨_, exec_compact g _, compact_compact_mem s⟩⟩

end Sys2Proof.Proofs
end

section
/-! SAMPLE (spec/42_sampler.md R82 to R87, R151; spec/60_exceptions.md R119): the whole state after a capture,
whether it begins with the first pair, at a poll of the trigger, or at a poll after a wait; what the trim keeps of
it, and what SAMPLE rejects. -/

namespace Sys2Proof.Proofs
open Sys2Proof.Machine Sys2Proof.Machine.Laws

/-! ### The capture -/

/-- The state after a capture that began at the coming read number `k` of the clock and of the pin and took `m`
more pairs (R84), `RAW` having been empty. -/
def captured (s : State) (k m : Nat) : State :=
  { polled s (k + m) with
    mem := { s.mem with raw := s.capturedFrom k k (m + 1) }
    wr := { s.wr with k := m + 1 } }

/-- The passes of a loop seen from a state `t` that has made `j + 1` of them since `s`. -/
theorem polled_after {s t : State} {j : Nat} (hc : t.clk = s.clockReading j)
    (he : t.env.clock = s.env.clock.skip (j + 1)) (hl : t.env.level = s.env.level.skip (j + 1)) (n : Nat) :
    polled t n = { t with
      clk := s.clockReading (j + 1 + n)
      lastClk := some (s.clockReading (j + 1 + n))
      env := { t.env with
        clock := s.env.clock.skip (j + 1 + n + 1), level := s.env.level.skip (j + 1 + n + 1) } } := by
  rw [polled, clockReading_after j hc he, he, hl, tape_skip_skip, tape_skip_skip]
  rfl

theorem captured_setPrio (s : State) (p : Prio) (k m : Nat) :
    captured (s.setPrio p) k m = (captured s k m).setPrio p := by
  have hclock : (s.setPrio p).clockReading (k + m) = s.clockReading (k + m) :=
    clockReading_of_clock (s := s) (t := s.setPrio p) rfl rfl _
  rw [captured, polled, capturedFrom_setPrio, hclock]
  rfl

/-- The capture loop goes on with a capture begun. -/
theorem capture_captured {pin k m : Nat} {s : State} (n : Nat) (hready : Ready s pin .input)
    (hcap : m + 1 + n ≤ Config.bufCap) :
    capture pin n (captured s k m) = .done () (captured s k (m + n)) := by
  cases n with
  | zero => rfl
  | succ n =>
    have hlen : (captured s k m).mem.raw.length = m + 1 := capturedFrom_length s k k (m + 1)
    have hall : (captured s k m).mem.raw ++ (captured s k m).capturedFrom 0 0 (n + 1) =
        s.capturedFrom k k (m + 1 + (n + 1)) := by
      rw [capturedFrom_after (s := s) (i := k + m) (j := k + m + 1) rfl rfl rfl, capturedFrom_add s k k (m + 1)]
      rfl
    have hend : captured s k (m + (n + 1)) = { polled s (k + m + 1 + n) with
        mem := { s.mem with raw := s.capturedFrom k k (m + 1 + (n + 1)) }
        wr := { s.wr with k := m + 1 + (n + 1) } } := by
      rw [captured, show k + (m + (n + 1)) = k + m + 1 + n by omega,
        show m + (n + 1) + 1 = m + 1 + (n + 1) by omega]
    rw [capture_eq pin n (captured s k m) hready.1 hready.2 (by rw [hlen]; exact hcap), hall, hlen, hend,
      polled_after (s := s) (j := k + m) rfl rfl rfl]
    rfl

/-- A capture from the first pair (R84). -/
theorem capture_first {pin m : Nat} {s : State} (hready : Ready s pin .input) (hraw : s.mem.raw = [])
    (hcap : m + 1 ≤ Config.bufCap) : capture pin (m + 1) s = .done () (captured s 0 m) := by
  rw [capture_eq pin m s hready.1 hready.2 (by rw [hraw, List.length_nil, Nat.zero_add]; exact hcap), hraw,
    captured, List.nil_append, List.length_nil]
  simp only [Nat.zero_add]

/-! ### Steps 3 to 7 -/

/-- Steps 3 to 7 of a capture that begins with the first pair. -/
theorem sampleCapture_first {pin m : Nat} {s : State} (hready : Ready s pin .input) (hraw : s.mem.raw = [])
    (hk : s.wr.k = 0) (hn : s.wr.n = m + 1) (hcap : m + 1 ≤ Config.bufCap) :
    sampleCapture pin s = trimAndRebase ((captured s 0 m).setPrio .normal) := by
  have hready' : Ready (s.setPrio .realtime) pin .input := ready_of_eq hready rfl rfl rfl
  rw [sampleCapture, hk, hn, Nat.sub_zero, capture_first hready' hraw hcap, andThen_of_done, captured_setPrio]
  rfl

/-- Steps 3 to 7 of a capture whose first pair the trigger poll has stored. -/
theorem sampleCapture_captured_first {pin k m : Nat} {s : State} (hready : Ready s pin .input)
    (hn : s.wr.n = m + 1) (hcap : m + 1 ≤ Config.bufCap) :
    sampleCapture pin (captured s k 0) = trimAndRebase ((captured s k m).setPrio .normal) := by
  have hready' : Ready (s.setPrio .realtime) pin .input := ready_of_eq hready rfl rfl rfl
  have hleft : (captured s k 0).wr.n - (captured s k 0).wr.k = m := by
    show s.wr.n - (0 + 1) = m
    rw [hn]
    rfl
  rw [sampleCapture, hleft, ← captured_setPrio,
    capture_captured m hready' (by rw [Nat.zero_add, Nat.add_comm]; exact hcap), andThen_of_done, captured_setPrio,
    Nat.zero_add]
  rfl

/-- The trigger poll that sees another level at its read number `k` begins the capture there (R83). -/
theorem samplePoll_change {pin k m : Nat} {s : State} (hpoll : s.polling (.samplePoll pin)) (hn : s.wr.n = m + 1)
    (hk : k ≤ s.env.level.script.length) (hsame : ∀ i < k, s.levelReading i = s.wr.l0)
    (hne : s.levelReading k ≠ s.wr.l0) :
    samplePoll pin s = trimAndRebase ((captured s k m).setPrio .normal) := by
  obtain ⟨hv, hd, hcap, _, hraw⟩ := hpoll
  have hstore : storeRaw { t := s.clockReading k, v := s.levelReading k } (polled s k) =
      .done () (captured s k 0) := by
    have hempty : (polled s k).mem.raw = [] := hraw
    rw [storeRaw, hempty, if_pos (by decide)]
    rfl
  rw [samplePoll, pollPin_some pin s.pinPolls k s hv hd (Nat.lt_succ_of_le hk) hsame hne, andThen_of_done]
  simp only
  rw [hstore, andThen_of_done]
  exact sampleCapture_captured_first ⟨hv, hd⟩ hn (hn ▸ hcap)

/-- The trigger poll that sees no other level waits, having stored nothing (R151). -/
theorem samplePoll_same {pin : Nat} {s : State} (hpoll : s.polling (.samplePoll pin))
    (hsame : ∀ i ≤ s.env.level.script.length, s.levelReading i = s.wr.l0) :
    samplePoll pin s = .wait (.samplePoll pin) (polled s s.env.level.script.length) := by
  obtain ⟨hv, hd, _⟩ := hpoll
  rw [samplePoll, State.pinPolls, pollPin_none pin s.env.level.script.length s hv hd hsame, andThen_of_done]

/-! ### The trim (R85, R86, R87) -/

theorem capturedFrom_head? (s : State) (c l m : Nat) :
    (s.capturedFrom c l (m + 1)).head? = some { t := s.clockReading c, v := s.levelReading l } := by
  rw [capturedFrom_succ, List.head?_cons]

theorem capturedFrom_getElem? (s : State) (c l : Nat) {i n : Nat} (h : i < n) :
    (s.capturedFrom c l n)[i]? = some { t := s.clockReading (c + i), v := s.levelReading (l + i) } := by
  simp [State.capturedFrom, List.getElem?_map, List.getElem?_range h]

theorem capturedFrom_getLast? (s : State) (c l m : Nat) :
    (s.capturedFrom c l (m + 1)).getLast? =
      some { t := s.clockReading (c + m), v := s.levelReading (l + m) } := by
  rw [List.getLast?_eq_getElem?, capturedFrom_length, Nat.add_sub_cancel,
    capturedFrom_getElem? s c l (Nat.lt_succ_self m)]

/-- What the trim and the re-base leave of a capture whose clock has not wrapped. -/
theorem trimAndRebase_captured {k m : Nat} {s : State} (hcap : m + 1 ≤ Config.bufCap)
    (hle : (s.clockReading k).toNat ≤ (s.clockReading (k + m)).toNat) :
    trimAndRebase ((captured s k m).setPrio .normal) = .done () { captured s k m with
      prio := .normal
      mem := { s.mem with
        raw := s.capturedFrom k k (m + 1), tr := trimmed (s.capturedFrom k k (m + 1)) }
      wr := { s.wr with
        k := m + 1, t0 := s.clockReading k
        l := trimIndex (s.levelReading (k + m)) (s.capturedFrom k k (m + 1)) } } :=
  trimAndRebase_eq (s := (captured s k m).setPrio .normal) (capturedFrom_head? s k k m)
    (capturedFrom_getLast? s k k m) hle ((capturedFrom_length s k k (m + 1)).trans_le hcap)

/-- A capture whose clock has wrapped is rejected (R85). -/
theorem trimAndRebase_wrapped {k m : Nat} {s : State}
    (hlt : (s.clockReading (k + m)).toNat < (s.clockReading k).toNat) :
    trimAndRebase ((captured s k m).setPrio .normal) =
      .fatal (raise .wrapReject ((captured s k m).setPrio .normal)) := by
  have hfirst : ((captured s k m).setPrio .normal).mem.raw.head? = _ := capturedFrom_head? s k k m
  have hlast : ((captured s k m).setPrio .normal).mem.raw.getLast? = _ := capturedFrom_getLast? s k k m
  rw [trimAndRebase, hfirst, hlast]
  exact if_pos hlt

/-- The trim index of a capture: before its last pair, after it only the last level, at it another one. -/
theorem trimIndex_capturedFrom (s : State) (c l m : Nat) :
    trimIndex (s.levelReading (l + m)) (s.capturedFrom c l (m + 1)) ≤ m
      ∧ (∀ i, trimIndex (s.levelReading (l + m)) (s.capturedFrom c l (m + 1)) ≤ i → i ≤ m →
        s.levelReading (l + i) = s.levelReading (l + m))
      ∧ (∀ i, trimIndex (s.levelReading (l + m)) (s.capturedFrom c l (m + 1)) = i + 1 →
        s.levelReading (l + i) ≠ s.levelReading (l + m)) := by
  obtain ⟨hlen, hafter, hat⟩ := trimIndex_spec (s.levelReading (l + m)) (s.capturedFrom c l (m + 1))
  rw [capturedFrom_length] at hlen
  generalize trimIndex (s.levelReading (l + m)) (s.capturedFrom c l (m + 1)) = t at hlen hafter hat ⊢
  have hother : ∀ i, t = i + 1 → s.levelReading (l + i) ≠ s.levelReading (l + m) := by
    rintro i rfl
    exact hat _ (Nat.succ_pos i) (capturedFrom_getElem? s c l hlen)
  refine ⟨Nat.le_of_lt_succ (hlen.lt_of_ne fun he => hother m he rfl), fun i hi him => ?_, hother⟩
  exact hafter i _ hi (capturedFrom_getElem? s c l (Nat.lt_succ_of_le him))

/-- A trimmed capture, pair by pair. -/
theorem trimmed_capturedFrom (s : State) (c l m : Nat) :
    trimmed (s.capturedFrom c l (m + 1)) =
      (List.range (trimIndex (s.levelReading (l + m)) (s.capturedFrom c l (m + 1)) + 1)).map fun i =>
        { t := s.clockReading (c + i) - s.clockReading c, v := s.levelReading (l + i) } := by
  have hlast : levelAt (s.capturedFrom c l (m + 1)) m = s.levelReading (l + m) := by
    rw [levelAt, capturedFrom_getElem? s c l (Nat.lt_succ_self m)]
  have hfirst : timeAt (s.capturedFrom c l (m + 1)) 0 = s.clockReading c :=
    timeAt_capturedFrom s c l (Nat.succ_pos m)
  obtain ⟨hle, -, -⟩ := trimIndex_capturedFrom s c l m
  rw [trimmed, capturedFrom_length, Nat.add_sub_cancel, hlast, hfirst]
  generalize trimIndex (s.levelReading (l + m)) (s.capturedFrom c l (m + 1)) = t at hle ⊢
  rw [State.capturedFrom, ← List.map_take, List.take_range, Nat.min_eq_left (Nat.succ_le_succ hle), List.map_map]
  rfl

/-- The first retained sample is the first pair, at time 0 (R87). -/
theorem trimmed_capturedFrom_head? (s : State) (c l m : Nat) :
    (trimmed (s.capturedFrom c l (m + 1))).head? = some { t := 0, v := s.levelReading l } := by
  rw [trimmed_capturedFrom, List.range_succ_eq_map, List.map_cons, List.head?_cons, Nat.add_zero, Nat.add_zero,
    BitVec.sub_self]
  rfl

/-! ### Steps 0 and 1, and the read of `L0` -/

/-- The state in which the capture or the trigger poll of SAMPLE begins. -/
def begun (s : State) (pin n : Nat) : State :=
  { s with
    pins := pinStore pin { s.pinAt pin with dir := .input, pull := .off } s.pins
    mem := { s.mem with raw := [] }
    wr := { s.wr with n := n, k := 0, l0 := s.levelReading 0 }
    env := { s.env with level := s.env.level.skip 1, pinOk := s.env.pinOk.skip 1 } }

theorem begun_pinAt (s : State) (pin n : Nat) :
    (begun s pin n).pinAt pin = { s.pinAt pin with dir := .input, pull := .off }
      ∧ ∀ q, q ≠ pin → (begun s pin n).pinAt q = s.pinAt q :=
  pinAt_of_pinStore rfl rfl

theorem begun_ready {s : State} {pin : Nat} (n : Nat) (hv : pin < s.par.pinCount) :
    Ready (begun s pin n) pin .input :=
  ⟨hv, by rw [(begun_pinAt s pin n).1]⟩

theorem begun_polling {s : State} {pin n : Nat} (hv : pin < s.par.pinCount) (h1 : 1 ≤ n)
    (hcap : n ≤ Config.bufCap) : (begun s pin n).polling (.samplePoll pin) :=
  ⟨hv, (begun_ready n hv).2, hcap, h1, rfl⟩

theorem begun_clockReading (s : State) (pin n i : Nat) : (begun s pin n).clockReading i = s.clockReading i :=
  clockReading_of_clock (s := s) (t := begun s pin n) rfl rfl i

theorem begun_levelReading (s : State) (pin n i : Nat) :
    (begun s pin n).levelReading i = s.levelReading (i + 1) := by
  rw [levelReading_after (s := s) (t := begun s pin n) 1 rfl, Nat.add_comm]

theorem begun_capturedFrom (s : State) (pin n k m : Nat) :
    (begun s pin n).capturedFrom k k m = s.capturedFrom k (k + 1) m := by
  rw [capturedFrom_sameClock (s := s) (t := begun s pin n) (j := 1) rfl rfl rfl, Nat.add_comm]

/-- A capture after the first read of the pin, in terms of the readings that SAMPLE began with. -/
theorem captured_begun (s : State) (pin n k m : Nat) :
    captured (begun s pin n) k m = { begun s pin n with
      clk := s.clockReading (k + m)
      lastClk := some (s.clockReading (k + m))
      mem := { s.mem with raw := s.capturedFrom k (k + 1) (m + 1) }
      wr := { s.wr with n := n, k := m + 1, l0 := s.levelReading 0 }
      env := { s.env with
        clock := s.env.clock.skip (k + (m + 1))
        level := s.env.level.skip (k + 1 + (m + 1))
        pinOk := s.env.pinOk.skip 1 } } := by
  have hlevel : (begun s pin n).env.level.skip (k + m + 1) = s.env.level.skip (k + 1 + (m + 1)) := by
    show (s.env.level.skip 1).skip (k + m + 1) = _
    rw [tape_skip_skip, show 1 + (k + m + 1) = k + 1 + (m + 1) by omega]
  rw [captured, polled, begun_clockReading, begun_capturedFrom, hlevel]
  rfl

/-- SAMPLE of a capacity in range and a pin that the platform configures (R82). -/
theorem sample_begun {pin n : Nat} {s : State} (trigger verbose : Bool) (h1 : 1 ≤ n) (hcap : n ≤ Config.bufCap)
    (hv : pin < s.par.pinCount) (hok : s.nextPinOk = true) :
    sample pin n trigger verbose s =
      if trigger then samplePoll pin (begun s pin n) else sampleCapture pin (begun s pin n) := by
  have hin : ¬ (n < 1 ∨ Config.bufCap < n) := by omega
  obtain ⟨u, hu⟩ : ∃ u, u = (s.setWork { s.wr with n := n }).drawPinOk.2.setPin pin
      { s.pinAt pin with dir := .input, pull := .off } := ⟨_, rfl⟩
  have hconf : configurePin pin .input .off (s.setWork { s.wr with n := n }) = .done () u := by
    rcases configurePin_cases pin .input .off (s.setWork { s.wr with n := n }) with
      ⟨hge, -⟩ | ⟨-, hno, -⟩ | ⟨-, -, h⟩
    · exact absurd hge (Nat.not_le.2 hv)
    · exact Bool.noConfusion (hok.symm.trans hno)
    · rw [h, hu]; rfl
  have hready : Ready u pin .input := ⟨by rw [hu]; exact hv, by rw [hu, setPin_pinAt, if_pos rfl]⟩
  rcases readPin_cases pin u with ⟨-, -, hread⟩ | ⟨hn, -⟩
  · rw [sample, if_neg hin, hconf, andThen_of_done, hread, andThen_of_done, hu, drawPinOk_eq]
    rfl
  · exact absurd hready hn

/-! ### Where the capture begins -/

/-- The capture of SAMPLE begins at read number `k` of the clock: without the trigger with the first pair, with it
at the first poll whose level differs from that of the first read of the pin (R83). -/
inductive CaptureBegins (s : State) : Bool → Nat → Prop
  | untriggered : CaptureBegins s false 0
  | triggered {k : Nat} (inScript : k + 1 ≤ s.env.level.script.length - 1 + 1)
      (same : ∀ i, 1 ≤ i → i < k + 1 → s.levelReading i = s.levelReading 0)
      (change : s.levelReading (k + 1) ≠ s.levelReading 0) : CaptureBegins s true k

theorem exec_sample (f : CmdFlags) (s : State) :
    exec (.sample f) s = (sample s.opnd.pin s.opnd.capacity f.trigger f.verbose s).outcome := rfl

/-- SAMPLE, started by HOST, up to the end of its capture. -/
theorem exec_sample_captured {f : CmdFlags} {s : State} {k m : Nat} (hn : s.opnd.capacity = m + 1)
    (hcap : s.opnd.capacity ≤ Config.bufCap) (hv : s.opnd.pin < s.par.pinCount) (hok : s.nextPinOk = true)
    (hbegins : CaptureBegins s f.trigger k) :
    exec (.sample f) s =
      (trimAndRebase ((captured (begun s s.opnd.pin (m + 1)) k m).setPrio .normal)).outcome := by
  rw [hn] at hcap
  have h1 : 1 ≤ m + 1 := Nat.succ_pos m
  rw [exec_sample, hn, sample_begun f.trigger f.verbose h1 hcap hv hok]
  generalize f.trigger = trigger at hbegins
  cases hbegins with
  | untriggered => exact congrArg Act.outcome (sampleCapture_first (begun_ready _ hv) rfl rfl rfl hcap)
  | triggered hpolled hsame hchange =>
    refine congrArg Act.outcome (samplePoll_change (begun_polling hv h1 hcap) rfl ?_ (fun i hi => ?_) ?_)
    · show k ≤ (s.env.level.script.drop 1).length
      rw [List.length_drop]
      omega
    · rw [begun_levelReading]
      exact hsame (i + 1) (Nat.succ_pos i) (Nat.succ_lt_succ hi)
    · rw [begun_levelReading]
      exact hchange

/-- SAMPLE of a capture whose clock has not wrapped: the exact next state. -/
theorem exec_sample_kept {f : CmdFlags} {s : State} {k m : Nat} (hn : s.opnd.capacity = m + 1)
    (hcap : s.opnd.capacity ≤ Config.bufCap) (hv : s.opnd.pin < s.par.pinCount) (hok : s.nextPinOk = true)
    (hbegins : CaptureBegins s f.trigger k)
    (hle : (s.clockReading k).toNat ≤ (s.clockReading (k + m)).toNat) :
    exec (.sample f) s = .next { begun s s.opnd.pin (m + 1) with
      clk := s.clockReading (k + m)
      lastClk := some (s.clockReading (k + m))
      prio := .normal
      mem := { s.mem with
        raw := s.capturedFrom k (k + 1) (m + 1), tr := trimmed (s.capturedFrom k (k + 1) (m + 1)) }
      wr := { s.wr with
        n := m + 1, k := m + 1, l0 := s.levelReading 0, t0 := s.clockReading k
        l := trimIndex (s.levelReading (k + 1 + m)) (s.capturedFrom k (k + 1) (m + 1)) }
      env := { s.env with
        clock := s.env.clock.skip (k + (m + 1))
        level := s.env.level.skip (k + 1 + (m + 1))
        pinOk := s.env.pinOk.skip 1 }
      seq := .idle } := by
  have hle' : ((begun s s.opnd.pin (m + 1)).clockReading k).toNat
      ≤ ((begun s s.opnd.pin (m + 1)).clockReading (k + m)).toNat := by
    rw [begun_clockReading, begun_clockReading]
    exact hle
  rw [exec_sample_captured hn hcap hv hok hbegins, trimAndRebase_captured (hn ▸ hcap) hle', captured_begun,
    begun_capturedFrom, begun_clockReading, begun_levelReading, Nat.add_right_comm k m 1]
  rfl

/-- SAMPLE of a capture whose clock has wrapped: the exact next state. -/
theorem exec_sample_wrapped {f : CmdFlags} {s : State} {k m : Nat} (hn : s.opnd.capacity = m + 1)
    (hcap : s.opnd.capacity ≤ Config.bufCap) (hv : s.opnd.pin < s.par.pinCount) (hok : s.nextPinOk = true)
    (hbegins : CaptureBegins s f.trigger k)
    (hlt : (s.clockReading (k + m)).toNat < (s.clockReading k).toNat) :
    exec (.sample f) s =
      .next (raise .wrapReject ((captured (begun s s.opnd.pin (m + 1)) k m).setPrio .normal)) := by
  have hlt' : ((begun s s.opnd.pin (m + 1)).clockReading (k + m)).toNat
      < ((begun s s.opnd.pin (m + 1)).clockReading k).toNat := by
    rw [begun_clockReading, begun_clockReading]
    exact hlt
  rw [exec_sample_captured hn hcap hv hok hbegins, trimAndRebase_wrapped hlt']
  rfl

/-- Settles O24: `L` is the trim index, which `trimIndex_capturedFrom` describes. -/
theorem sampleCaptures : Obligations.SampleCaptures := by
  intro f s hf h1 hcap hv hok hle
  obtain ⟨m, hn⟩ : ∃ m, s.opnd.capacity = m + 1 := ⟨_, (Nat.sub_add_cancel h1).symm⟩
  have hbegins : CaptureBegins s f.trigger 0 := hf ▸ .untriggered
  rw [hn, Nat.add_sub_cancel] at hle
  have hexec := exec_sample_kept hn hcap hv hok hbegins (by rw [Nat.zero_add]; exact hle)
  obtain ⟨hbefore, hafter, hat⟩ := trimIndex_capturedFrom s 0 1 m
  obtain ⟨hpin, hother⟩ := begun_pinAt s s.opnd.pin (m + 1)
  have htrimmed := trimmed_capturedFrom s 0 1 m
  simp only [Nat.zero_add, Nat.add_comm 1] at hexec hbefore hafter hat htrimmed
  rw [hn, Nat.add_sub_cancel]
  refine ⟨_, _, hexec, rfl, hpin, hother, Nat.lt_succ_of_le hbefore, fun j hj hjm => ?_, fun hpos => ?_, htrimmed⟩
  · obtain ⟨i, rfl⟩ := Nat.exists_eq_add_of_lt (Nat.zero_lt_of_lt hj)
    rw [Nat.zero_add] at hj hjm ⊢
    exact hafter i (Nat.le_of_lt_succ hj) (Nat.le_of_succ_le_succ hjm)
  · obtain ⟨i, hi⟩ := Nat.exists_eq_add_of_lt hpos
    rw [Nat.zero_add] at hi
    rw [hi]
    exact hat i hi

/-- Settles O25. -/
theorem sampleTriggered : Obligations.SampleTriggered := by
  intro f s j hf h1 hcap hv hok hj hpolled hsame hchange hle
  obtain ⟨m, hn⟩ : ∃ m, s.opnd.capacity = m + 1 := ⟨_, (Nat.sub_add_cancel h1).symm⟩
  obtain ⟨k, rfl⟩ : ∃ k, j = k + 1 := ⟨_, (Nat.sub_add_cancel hj).symm⟩
  have hbegins : CaptureBegins s f.trigger k := hf ▸ .triggered hpolled hsame hchange
  rw [hn] at hle
  obtain ⟨hpin, hother⟩ := begun_pinAt s s.opnd.pin (m + 1)
  rw [hn]
  exact ⟨_, exec_sample_kept hn hcap hv hok hbegins hle, rfl, hpin, hother,
    trimmed_capturedFrom_head? s k (k + 1) m⟩

/-! ### What SAMPLE rejects (R82, R85) -/

theorem sample_capacity {n : Nat} (hn : n < 1 ∨ Config.bufCap < n) (pin : Nat) (trigger verbose : Bool)
    (s : State) : sample pin n trigger verbose s = .fatal (raise (.configError .capacity) s) :=
  if_pos hn

/-- SAMPLE ends where its CONFIGURE_PIN fails. -/
theorem sample_pinFails {pin n : Nat} {s t : State} (trigger verbose : Bool) (h1 : 1 ≤ n)
    (hcap : n ≤ Config.bufCap) (h : configurePin pin .input .off (s.setWork { s.wr with n := n }) = .fatal t) :
    sample pin n trigger verbose s = .fatal t := by
  have hin : ¬ (n < 1 ∨ Config.bufCap < n) := by omega
  rw [sample, if_neg hin, h, andThen_of_fatal]

/-- Settles O27: the capacity, then the two failures of CONFIGURE_PIN, then the wrap. -/
theorem sampleRejections : Obligations.SampleRejections := by
  refine fun f s => ⟨fun hout => ?_, fun h1 hcap => ⟨fun hge => ?_, fun hv hno => ?_,
    fun j hv hok hplain htrig hlt => ?_⟩⟩
  · rw [exec_sample, sample_capacity hout]
    rfl
  · rcases configurePin_cases s.opnd.pin .input .off (s.setWork { s.wr with n := s.opnd.capacity }) with
      ⟨-, h⟩ | ⟨hv, -, -⟩ | ⟨hv, -, -⟩
    · rw [exec_sample, sample_pinFails _ _ h1 hcap h]
      rfl
    · exact absurd hge (Nat.not_le.2 hv)
    · exact absurd hge (Nat.not_le.2 hv)
  · rcases configurePin_cases s.opnd.pin .input .off (s.setWork { s.wr with n := s.opnd.capacity }) with
      ⟨hge, -⟩ | ⟨-, -, h⟩ | ⟨-, hok, -⟩
    · exact absurd hge (Nat.not_le.2 hv)
    · rw [exec_sample, sample_pinFails _ _ h1 hcap h, drawPinOk_eq]
      rfl
    · exact Bool.noConfusion (hno.symm.trans hok)
  · obtain ⟨m, hn⟩ : ∃ m, s.opnd.capacity = m + 1 := ⟨_, (Nat.sub_add_cancel h1).symm⟩
    obtain ⟨k, rfl, hbegins⟩ : ∃ k, j = k + 1 ∧ CaptureBegins s f.trigger k := by
      cases hf : f.trigger with
      | false => exact ⟨0, hplain hf, .untriggered⟩
      | true =>
        obtain ⟨hj, hpolled, hsame, hchange⟩ := htrig hf
        obtain ⟨k, rfl⟩ : ∃ k, j = k + 1 := ⟨_, (Nat.sub_add_cancel hj).symm⟩
        exact ⟨k, rfl, .triggered hpolled hsame hchange⟩
    rw [hn] at hlt
    refine ⟨_, exec_sample_wrapped hn hcap hv hok hbegins hlt, ?_⟩
    rw [captured_begun, hn]
    exact ⟨rfl, rfl, rfl, rfl, rfl, rfl, rfl, rfl⟩

/-! ### The wait for the trigger (R83, R151) -/

/-- A sampler that waits for the trigger, when it is the whole stack, goes on with its poll. -/
theorem step_of_samplePolling {s : State} {pin : Nat} (hcmd : s.cmd = none)
    (hseq : s.seq = { busy := true, op := some .sample, phase := 2, todo := [.samplePoll pin] }) :
    step s = (samplePoll pin s).outcome := by
  rw [step_of_busy hcmd (by rw [hseq]), hseq, runTasks_singleton]
  rfl

/-- Resumed, with no other level at any of its polls, it waits on: only the clock and the pin have been read. -/
theorem step_waits_on {s : State} {pin : Nat} (hcmd : s.cmd = none)
    (hseq : s.seq = { busy := true, op := some .sample, phase := 2, todo := [.samplePoll pin] })
    (hpoll : s.polling (.samplePoll pin))
    (hsame : ∀ i ≤ s.env.level.script.length, s.levelReading i = s.wr.l0) :
    step s = .next (polled s s.env.level.script.length) := by
  have hsuspended : (polled s s.env.level.script.length).suspend (.samplePoll pin) [] =
      polled s s.env.level.script.length :=
    congrArg (fun seq => { polled s s.env.level.script.length with seq := seq }) hseq.symm
  rw [step_of_samplePolling hcmd hseq, samplePoll_same hpoll hsame]
  exact congrArg Host.Outcome.next hsuspended

/-- SAMPLE, started by HOST, with the trigger and no other level at any of its polls: it waits. -/
theorem exec_sample_waits {f : CmdFlags} {s : State} (hf : f.trigger = true) (h1 : 1 ≤ s.opnd.capacity)
    (hcap : s.opnd.capacity ≤ Config.bufCap) (hv : s.opnd.pin < s.par.pinCount) (hok : s.nextPinOk = true)
    (hsame : ∀ i, i ≤ s.env.level.script.length - 1 + 1 → s.levelReading i = s.levelReading 0) :
    exec (.sample f) s = .next ((polled (begun s s.opnd.pin s.opnd.capacity)
      (begun s s.opnd.pin s.opnd.capacity).env.level.script.length).suspend (.samplePoll s.opnd.pin) []) := by
  rw [exec_sample, sample_begun _ _ h1 hcap hv hok, hf, if_pos rfl, samplePoll_same (begun_polling hv h1 hcap)]
  · rfl
  · intro i hi
    rw [begun_levelReading]
    have hi' : i ≤ (s.env.level.script.drop 1).length := hi
    rw [List.length_drop] at hi'
    exact hsame (i + 1) (Nat.succ_le_succ hi')

/-- `r` waits for the trigger of the SAMPLE that HOST started in `s`: what `s` held is there still but for the pin,
`RAW` and SAMPLE's own registers; of the clock and of the coming answers nothing is said. -/
structure AwaitsTrigger (s r : State) : Prop where
  cmd : r.cmd = none
  seq : r.seq = { busy := true, op := some .sample, phase := 2, todo := [.samplePoll s.opnd.pin] }
  polling : r.polling (.samplePoll s.opnd.pin)
  n : r.wr.n = s.opnd.capacity
  l0 : r.wr.l0 = s.levelReading 0
  pins : r.pins = (begun s s.opnd.pin s.opnd.capacity).pins
  mem : r.mem = { s.mem with raw := [] }
  wlog : r.wlog = s.wlog
  st : r.st = s.st
  err : r.err = s.err
  exit : r.exit = s.exit
  report : r.report = s.report

/-- Settles O26: the wait by `exec_sample_waits`; resumed, the poll sees a change (and the clock has wrapped or has
not), or it sees none. -/
theorem sampleWaitsForTrigger : Obligations.SampleWaitsForTrigger := by
  intro f s hf h1 hcap hv hok hsame
  obtain ⟨m, hn⟩ : ∃ m, s.opnd.capacity = m + 1 := ⟨_, (Nat.sub_add_cancel h1).symm⟩
  obtain ⟨-, hother⟩ := begun_pinAt s s.opnd.pin s.opnd.capacity
  refine ⟨_, exec_sample_waits hf h1 hcap hv hok hsame, rfl, hother, fun answers r hr => ?_⟩
  have henv : answers = r.env := by rw [hr]
  replace hr : AwaitsTrigger s r := by
    subst hr
    exact ⟨rfl, rfl, begun_polling hv h1 hcap, rfl, rfl, rfl, rfl, rfl, rfl, rfl, rfl, rfl⟩
  rw [hn, Nat.add_sub_cancel, ← hr.l0, henv]
  refine ⟨fun k hk hbefore hchange => ?_, step_waits_on hr.cmd hr.seq hr.polling⟩
  · rw [step_of_samplePolling hr.cmd hr.seq, samplePoll_change hr.polling (hr.n.trans hn) hk hbefore hchange]
    rcases Nat.lt_or_ge (r.clockReading (k + m)).toNat (r.clockReading k).toNat with hlt | hle
    · rw [trimAndRebase_wrapped hlt]
      exact ⟨_, rfl, rfl, rfl, hr.wlog, hr.st, hr.pins, fun hle => absurd hlt (Nat.not_lt.2 hle),
        fun _ => ⟨rfl, rfl, congrArg (· ++ _) hr.report,
          congrArg (fun mem => { mem with raw := r.capturedFrom k k (m + 1) }) hr.mem⟩⟩
    · rw [trimAndRebase_captured (hn ▸ hcap) hle, hr.mem]
      exact ⟨_, rfl, rfl, rfl, hr.wlog, hr.st, hr.pins, fun _ => ⟨hr.err, hr.exit, hr.report, rfl⟩,
        fun hlt => absurd hlt (Nat.not_lt.2 hle)⟩

end Sys2Proof.Proofs
end

section
/-! TRANSMIT (spec/43_transmitter.md R89 to R95, spec/60_exceptions.md R123) as HOST starts it: the schedule and its
bias, what is rejected before the first write, and the whole state after the last one. -/

namespace Sys2Proof.Proofs
open Sys2Proof.Machine Sys2Proof.Machine.Laws

/-! ### The schedule (R91, R92, R93) -/

theorem exec_transmit (f : CmdFlags) (s : State) :
    exec (.transmit f) s = (transmit s.opnd.pin f.stats s).outcome := rfl

theorem crossesWrap_eq_false_iff (c0 delay : U32) (xs : List Sample) :
    crossesWrap c0 delay xs = false ↔ fitsWindow c0 delay xs := by
  unfold crossesWrap fitsWindow
  cases xs.getLast? with
  | none => simp
  | some x =>
    refine decide_eq_false_iff_not.trans (Nat.not_le.trans ?_)
    simp only [Option.mem_some_iff, forall_eq', Config.clkWrap]

/-- The schedule the next TRANSMIT makes. -/
def schedule (s : State) : List Sample := scheduleFrom (s.clockReading 0) s.nextDelay s.mem.tr

/-- The state after step 2: the clock and `START_DELAY` read, the schedule in the trace memory. -/
def scheduled (s : State) : State :=
  { s with
    clk := s.clockReading 0
    lastClk := some (s.clockReading 0)
    mem := { s.mem with tr := schedule s }
    wr := { s.wr with
      c0 := s.clockReading 0, startEpoch := s.clockReading 0 + s.nextDelay
      i := if s.mem.tr = [] then s.wr.i else s.mem.tr.length - 1 }
    env := { s.env with clock := s.env.clock.skip 1, delay := s.env.delay.skip 1 } }

/-- The state in which step 5 begins: the pin an output, the priority raised, and with statistics `OBS` empty. -/
def emitting (s : State) (pin : Nat) (stats : Bool) : State :=
  { scheduled s with
    pins := pinStore pin { s.pinAt pin with dir := .output, pull := .off } s.pins
    prio := .realtime
    mem := { s.mem with tr := schedule s, obs := if stats then [] else s.mem.obs }
    env := { s.env with
      clock := s.env.clock.skip 1, pinOk := s.env.pinOk.skip 1, delay := s.env.delay.skip 1 } }

/-- Step 1a: rejected before the trace, a pin or the priority changes. -/
theorem transmit_crosses (pin : Nat) (stats : Bool) {s : State}
    (h : ¬ fitsWindow (s.clockReading 0) s.nextDelay s.mem.tr) :
    transmit pin stats s = .fatal (raise .wrapReject { s with
      clk := s.clockReading 0
      lastClk := some (s.clockReading 0)
      env := { s.env with clock := s.env.clock.skip 1, delay := s.env.delay.skip 1 }
      wr := { s.wr with c0 := s.clockReading 0, startEpoch := s.clockReading 0 + s.nextDelay } }) := by
  have hcross : crossesWrap (s.clockReading 0) s.nextDelay s.mem.tr = true := by
    rw [← crossesWrap_eq_false_iff, Bool.not_eq_false] at h
    exact h
  rw [transmit, drawDelay_eq, readClock_eq]
  exact if_pos hcross

/-- A transmission that fits comes to CONFIGURE_PIN with its schedule made. -/
theorem transmit_fits (pin : Nat) (stats : Bool) {s : State}
    (h : fitsWindow (s.clockReading 0) s.nextDelay s.mem.tr) :
    transmit pin stats s = (configurePin pin .output .off (scheduled s)).andThen fun _ u =>
      transmitFrom pin stats 0
        ((if stats then { u with mem := { u.mem with obs := [] } } else u).setPrio .realtime) := by
  rw [← crossesWrap_eq_false_iff] at h
  have hcross : ¬ crossesWrap (s.clockReading 0) s.nextDelay s.mem.tr = true := by
    rw [h]
    exact Bool.false_ne_true
  rw [transmit, drawDelay_eq, readClock_eq]
  refine (if_neg hcross).trans ?_
  rw [scheduled]
  split <;> rfl

/-- Steps 3 and 4 of a transmission whose pin the platform configures. -/
theorem transmit_emits {pin : Nat} (stats : Bool) {s : State}
    (h : fitsWindow (s.clockReading 0) s.nextDelay s.mem.tr) (hv : pin < s.par.pinCount)
    (hok : s.nextPinOk = true) : transmit pin stats s = transmitFrom pin stats 0 (emitting s pin stats) := by
  rcases configurePin_cases pin .output .off (scheduled s) with ⟨hge, -⟩ | ⟨-, hno, -⟩ | ⟨-, -, hconf⟩
  · exact absurd hge (Nat.not_le.2 hv)
  · exact Bool.noConfusion (hok.symm.trans hno)
  · rw [transmit_fits pin stats h, hconf, andThen_of_done, drawPinOk_eq]
    cases stats <;> rfl

/-- Step 3 of a transmission whose pin is invalid or is refused by the platform. -/
theorem transmit_pinFails {pin : Nat} (stats : Bool) {s : State}
    (h : fitsWindow (s.clockReading 0) s.nextDelay s.mem.tr)
    (hfails : s.par.pinCount ≤ pin ∨ s.nextPinOk = false) :
    ∃ env, transmit pin stats s =
      .fatal (raise (.pinConfigError pin) { scheduled s with env := env }) := by
  rcases configurePin_cases pin .output .off (scheduled s) with ⟨-, hconf⟩ | ⟨-, -, hconf⟩ | ⟨hv, hok, -⟩
  · exact ⟨_, by rw [transmit_fits pin stats h, hconf]; rfl⟩
  · exact ⟨_, by rw [transmit_fits pin stats h, hconf, drawPinOk_eq]; rfl⟩
  · rcases hfails with hge | hno
    · exact absurd hge (Nat.not_le.2 hv)
    · exact Bool.noConfusion (hno.symm.trans hok)

/-- Settles O33, by the two ends of TRANSMIT before step 5. -/
theorem transmitRejections : Obligations.TransmitRejections := by
  refine fun f s => ⟨fun hcross => ?_, fun hfits hfails => ?_⟩
  · rw [exec_transmit, transmit_crosses s.opnd.pin f.stats hcross]
    rfl
  · obtain ⟨env, h⟩ := transmit_pinFails f.stats hfits hfails
    exact ⟨_, congrArg Act.outcome h, rfl⟩

/-! ### The bias (R93) -/

/-- No time of a trace whose times do not decrease is above its last. -/
theorem timesRise_le_last {xs : List Sample} (h : timesRise xs) {x : Sample} (hx : x ∈ xs) :
    ∃ l ∈ xs.getLast?, x.t.toNat ≤ l.t.toNat ∧ timeAt xs (xs.length - 1) = l.t := by
  have hne : xs ≠ [] := List.ne_nil_of_mem hx
  have hrise : (xs.map (·.t.toNat)).Pairwise (· ≤ ·) := ((List.isChain_map _).2 h).pairwise
  have hle : x.t.toNat ≤ (xs.getLast hne).t.toNat := by
    have := hrise.rel_getLast (List.mem_map_of_mem hx)
    rwa [List.getLast_map] at this
  refine ⟨xs.getLast hne, List.getLast?_eq_some_getLast hne, hle, ?_⟩
  rw [timeAt, ← List.getLast?_eq_getElem?, List.getLast?_eq_some_getLast hne]

/-- Every scheduled time lies between the clock reading and it plus the delay and the last time of the trace. -/
theorem schedule_bounds {s : State} (hrise : timesRise s.mem.tr)
    (hfits : fitsWindow (s.clockReading 0) s.nextDelay s.mem.tr) {x : Sample} (hx : x ∈ schedule s) :
    (s.clockReading 0).toNat ≤ x.t.toNat
      ∧ x.t.toNat ≤ (s.clockReading 0).toNat + s.nextDelay.toNat
        + (timeAt s.mem.tr (s.mem.tr.length - 1)).toNat := by
  obtain ⟨y, hy, rfl⟩ := List.mem_map.1 hx
  obtain ⟨l, hl, hle, hlast⟩ := timesRise_le_last hrise hy
  have hwindow := hfits l hl
  rw [hlast]
  have hsum : (y.t + (s.clockReading 0 + s.nextDelay)).toNat
      = y.t.toNat + ((s.clockReading 0).toNat + s.nextDelay.toNat) := by
    rw [BitVec.toNat_add, BitVec.toNat_add]
    omega
  show _ ≤ BitVec.toNat (y.t + _) ∧ BitVec.toNat (y.t + _) ≤ _
  omega

/-- Steps 5 to 7 leave the trace memory alone, whether they end or wait. -/
theorem transmitFrom_keeps_tr {pin i : Nat} {stats : Bool} {s t : State}
    (h : (transmitFrom pin stats i s).outcome = .next t) : t.mem.tr = s.mem.tr := by
  rcases noRaise_outcome (transmitFrom_out pin stats i s) h with
    ⟨u, ⟨_, ⟨_, hsends, _⟩, _⟩, rfl⟩ | ⟨k, u, ⟨_, _, hsends, _⟩, rfl⟩ <;> exact hsends.tr

/-- A transmission that is not rejected for the wrap leaves its schedule in the trace memory. -/
theorem exec_transmit_schedules {f : CmdFlags} {s t : State}
    (hfits : fitsWindow (s.clockReading 0) s.nextDelay s.mem.tr) (h : exec (.transmit f) s = .next t) :
    t.mem.tr = schedule s := by
  rw [exec_transmit] at h
  by_cases hready : s.opnd.pin < s.par.pinCount ∧ s.nextPinOk = true
  · obtain ⟨hv, hok⟩ := hready
    rw [transmit_emits f.stats hfits hv hok] at h
    exact transmitFrom_keeps_tr h
  · rw [Decidable.not_and_iff_or_not, Nat.not_lt, Bool.not_eq_true] at hready
    obtain ⟨env, hfails⟩ := transmit_pinFails f.stats hfits hready
    rw [hfails] at h
    cases h
    rfl

/-- Settles O32: ended, waiting or refused its pin, the transmission has left the schedule. -/
theorem scheduleBias : Obligations.ScheduleBias := by
  intro f s t hrise hfits h
  rw [exec_transmit_schedules hfits h]
  exact ⟨List.length_map _, fun x hx => schedule_bounds hrise hfits hx⟩

/-! ### The emission (R94) -/

theorem emitting_clockReading (s : State) (pin : Nat) (stats : Bool) (k : Nat) :
    (emitting s pin stats).clockReading k = s.clockReading (1 + k) :=
  clockReading_after (s := s) (t := emitting s pin stats) 0 rfl rfl k

theorem emitting_pinAt (s : State) (pin : Nat) (stats : Bool) :
    (emitting s pin stats).pinAt pin = { s.pinAt pin with dir := .output, pull := .off }
      ∧ ∀ q, q ≠ pin → (emitting s pin stats).pinAt q = s.pinAt q :=
  pinAt_of_pinStore rfl rfl

/-- The waits after the first clock read, seen from step 5. -/
theorem emitting_waitsEnd {s : State} {extra : Nat} {xs : List Sample} {ds : List Nat} (pin : Nat)
    (stats : Bool) (h : s.waitsEnd extra 1 xs ds) :
    ∃ es, ds = es.map (1 + ·) ∧ (emitting s pin stats).waitsEnd extra 0 xs es :=
  waitsEnd_after (t := emitting s pin stats) rfl (emitting_clockReading s pin stats) xs 0 ds h

/-- The number of the last read, counted with the one before step 5. -/
theorem getLastD_one_add {es : List Nat} (h : es ≠ []) : (es.map (1 + ·)).getLastD 0 = 1 + es.getLastD 0 := by
  obtain ⟨es, e, rfl⟩ := List.eq_nil_or_concat es |>.resolve_left h
  simp

theorem transmitFrom_unmeasured {pin : Nat} {s t : State} (h : emit pin false 0 s.mem.tr s = .done () t) :
    transmitFrom pin false 0 s = .done () (t.setPrio .normal) := by
  rw [transmitFrom, List.drop_zero, h]
  rfl

theorem transmitFrom_measured {pin : Nat} {s t : State} (h : emit pin true 0 s.mem.tr s = .done () t) :
    transmitFrom pin true 0 s = statistics (t.setPrio .normal) := by
  rw [transmitFrom, List.drop_zero, h]
  rfl

/-- Step 5 without statistics, from the state before TRANSMIT: its last clock read is the one that ends the last
wait, or for an empty trace the one before step 5. -/
theorem emit_emitting {s : State} {pin : Nat} {ds : List Nat} (hv : pin < s.par.pinCount)
    (h : s.waitsEnd 0 1 (schedule s) ds) :
    ∃ t, emit pin false 0 (schedule s) (emitting s pin false) = .done () t
      ∧ t = { emitting s pin false with
          clk := s.clockReading (ds.getLastD 0)
          lastClk := some (s.clockReading (ds.getLastD 0))
          pins := t.pins
          wr := { (scheduled s).wr with i := t.wr.i, now := t.wr.now }
          wlog := s.wlog ++ writesAt s pin (schedule s) ds
          env := { s.env with
            clock := s.env.clock.skip (ds.getLastD 0 + 1)
            pinOk := s.env.pinOk.skip 1, delay := s.env.delay.skip 1 } }
      ∧ t.pinAt pin =
          { dir := .output, pull := .off
            out := ((schedule s).getLast?.map (·.v)).getD (s.pinAt pin).out }
      ∧ ∀ q, q ≠ pin → t.pinAt q = s.pinAt q := by
  have hread := emitting_clockReading s pin false
  obtain ⟨hpin, hother⟩ := emitting_pinAt s pin false
  obtain ⟨es, rfl, hes⟩ := emitting_waitsEnd pin false h
  obtain ⟨t, ht, hteq, hnil, hcons, htpin, htother⟩ :=
    emit_writes pin (schedule s) 0 (emitting s pin false) es hv (by rw [hpin]) hes
  obtain ⟨hclk, hlast, hclock⟩ : t.clk = s.clockReading ((es.map (1 + ·)).getLastD 0)
      ∧ t.lastClk = some (s.clockReading ((es.map (1 + ·)).getLastD 0))
      ∧ t.env.clock = s.env.clock.skip ((es.map (1 + ·)).getLastD 0 + 1) := by
    have hlength := waitsEnd_length (schedule s) 0 es hes
    by_cases hempty : schedule s = []
    · rw [hempty] at hlength
      rw [List.eq_nil_of_length_eq_zero hlength, hnil hempty]
      exact ⟨rfl, rfl, rfl⟩
    · have hne : es ≠ [] := fun he => hempty (List.eq_nil_of_length_eq_zero (by rw [← hlength, he]; rfl))
      obtain ⟨hclk, hlast, hclock⟩ := hcons hempty
      rw [getLastD_one_add hne, hclk, hlast, hclock, hread]
      exact ⟨rfl, rfl, (tape_skip_skip _ _ _).trans (by rw [Nat.add_assoc])⟩
  rw [hclk, hlast, hclock, writesAt_after hread] at hteq
  exact ⟨t, ht, hteq, by rw [htpin, hpin], fun q hq => by rw [htother q hq, hother q hq]⟩

theorem schedule_getLast?_level (s : State) :
    (schedule s).getLast?.map (·.v) = s.mem.tr.getLast?.map (·.v) := by
  rw [schedule, scheduleFrom, List.getLast?_map, Option.map_map]
  rfl

/-- Settles O29: step 5 as `emit_emitting` has it, then the priority given back. -/
theorem transmitWrites : Obligations.TransmitWrites := by
  intro f s ds hstats hv hok hfits hwaits
  obtain ⟨t, ht, hteq, hpin, hother⟩ := emit_emitting hv hwaits
  have hexec : exec (.transmit f) s = .next (t.setPrio .normal).finish := by
    rw [exec_transmit, hstats, transmit_emits false hfits hv hok, transmitFrom_unmeasured ht]
    rfl
  refine ⟨_, hexec, ?_, hpin.trans (by rw [schedule_getLast?_level]), hother⟩
  exact congrArg (fun u : State => (u.setPrio .normal).finish) hteq

/-! ### The statistics (R95, R123) -/

/-- Each edge with the difference between its observed and its scheduled time. -/
def differences (xs : List Sample) (os : List U32) : List (Sample × Int) :=
  (xs.zip os).map fun p => (p.1, lateness p.2 p.1.t)

/-- The anomalies of edges from index `i` on, in index order. -/
def lateReports (limit : Option Int) (i : Nat) (qs : List (Sample × Int)) : List Report :=
  ((qs.zipIdx i).filter fun p => isAnomalous limit p.1.2).map fun p =>
    .anomaly (.timingAnomaly p.2 p.1.1.t p.1.2)

theorem lateReports_cons (limit : Option Int) (i : Nat) (q : Sample × Int) (qs : List (Sample × Int)) :
    lateReports limit i (q :: qs) =
      (if isAnomalous limit q.2 then [.anomaly (.timingAnomaly i q.1.t q.2)] else [])
        ++ lateReports limit (i + 1) qs := by
  rw [lateReports, List.zipIdx_cons, List.filter_cons]
  split <;> rfl

/-- The loop of step 7: the sum and the greatest of the differences, and the anomalies. -/
theorem statsLoop_eq (xs : List Sample) (os : List U32) (i : Nat) (s : State) :
    statsLoop i (xs.zip os) s = { s with
      wr := { s.wr with
        i := (statsLoop i (xs.zip os) s).wr.i
        statSum := s.wr.statSum + ((differences xs os).map (·.2)).sum
        statMax := ((differences xs os).map (·.2)).foldl max s.wr.statMax }
      st := { s.st with timingAnomaly :=
        s.st.timingAnomaly || !(lateReports s.par.lateLimit i (differences xs os)).isEmpty }
      report := s.report ++ lateReports s.par.lateLimit i (differences xs os) } := by
  unfold differences
  generalize xs.zip os = ps
  induction ps generalizing i s with
  | nil => simp [statsLoop, lateReports]
  | cons p ps ih =>
    obtain ⟨x, o⟩ := p
    have hmax : (if s.wr.statMax < lateness o x.t then lateness o x.t else s.wr.statMax)
        = max s.wr.statMax (lateness o x.t) := (max_def_lt _ _).symm
    rw [statsLoop, hmax, List.map_cons, lateReports_cons]
    by_cases hlate : isAnomalous s.par.lateLimit (lateness o x.t) = true
    · simp only [if_pos hlate]
      rw [ih]
      simp [State.setWork, State.reportAnomaly, Status.raised, Int.add_assoc]
    · simp only [if_neg hlate]
      rw [ih]
      simp [State.setWork, Int.add_assoc]

theorem max?_eq_foldl_head (d : Int) (ds : List Int) : (d :: ds).max? = some ((d :: ds).foldl max d) := by
  rw [List.max?_cons', List.foldl_cons, max_self]

/-- The `Stats` entry appended, of the maximum and the sum in the state's own registers and a count. -/
def enterStats (n : Nat) (s : State) : State := s.appendReport (.stats s.wr.statMax s.wr.statSum n)

theorem statistics_nil {s : State} (h : s.mem.tr = []) : statistics s = .done () s := by
  rw [statistics, h]

/-- Step 7 of a transmission that wrote an edge, every edge having an observed value. -/
theorem statistics_reports {s : State} (hne : s.mem.tr ≠ []) (hlen : s.mem.obs.length = s.mem.tr.length) :
    ∃ t, statistics s = .done () t
      ∧ t = { s with
          wr := { s.wr with i := t.wr.i, statMax := t.wr.statMax, statSum := t.wr.statSum }
          st := { s.st with timingAnomaly := s.st.timingAnomaly
            || !(lateReports s.par.lateLimit 0 (differences s.mem.tr s.mem.obs)).isEmpty }
          report := s.report ++ lateReports s.par.lateLimit 0 (differences s.mem.tr s.mem.obs)
            ++ [.stats t.wr.statMax t.wr.statSum s.mem.tr.length] }
      ∧ t.wr.statSum = ((differences s.mem.tr s.mem.obs).map (·.2)).sum
      ∧ ((differences s.mem.tr s.mem.obs).map (·.2)).max? = some t.wr.statMax := by
  obtain ⟨x, xs, htr⟩ := List.exists_cons_of_ne_nil hne
  obtain ⟨o, os, hobs⟩ : ∃ o os, s.mem.obs = o :: os :=
    List.exists_cons_of_length_pos (by rw [hlen, htr]; exact Nat.succ_pos _)
  have hle : xs.length ≤ os.length := by
    rw [htr, hobs] at hlen
    exact Nat.le_of_succ_le_succ hlen.ge
  have hstat : statistics s = .done () (enterStats (xs.length + 1) (statsLoop 0 ((x :: xs).zip (o :: os))
      (s.setWork { s.wr with statMax := lateness o x.t, statSum := 0 }))) := by
    rw [statistics, htr, hobs]
    exact if_pos hle
  have hloop := statsLoop_eq (x :: xs) (o :: os) 0
    (s.setWork { s.wr with statMax := lateness o x.t, statSum := 0 })
  rw [hloop] at hstat
  rw [htr, hobs]
  exact ⟨_, hstat, rfl, Int.zero_add _, max?_eq_foldl_head _ _⟩

/-! ### TRANSMIT with statistics -/

theorem isAnomalous_eq (limit : Option Int) (d : Int) :
    isAnomalous limit d = (decide (d < 0) || limit.any fun m => decide (m < d)) := by
  cases limit <;> rfl

/-- The edges paired with their differences, where every edge has one. -/
theorem zip_differences {xs : List Sample} {os : List U32} (h : xs.length ≤ os.length) :
    xs.zip ((differences xs os).map (·.2)) = differences xs os := by
  have hedges : (differences xs os).map (·.1) = xs := by
    rw [differences, List.map_map]
    exact List.map_fst_zip h
  calc xs.zip ((differences xs os).map (·.2))
      = ((differences xs os).map (·.1)).zip ((differences xs os).map (·.2)) := by rw [hedges]
    _ = differences xs os := by rw [List.zip_map']; exact List.map_id _

/-- The observed value of each edge: the read after the one that ends its wait. -/
def observedAt (s : State) (ds : List Nat) : List U32 := ds.map fun d => s.clockReading (d + 1)

theorem differences_observedAt (s : State) (xs : List Sample) (ds : List Nat) :
    (differences xs (observedAt s ds)).map (·.2) =
      (xs.zip ds).map fun p => (s.clockReading (p.2 + 1) - p.1.t).toInt := by
  rw [differences, observedAt, List.zip_map_right, List.map_map, List.map_map]
  rfl

theorem writesAt_succ (s : State) (pin : Nat) (xs : List Sample) (ds : List Nat) :
    writesAt s pin xs (ds.map (· + 1)) = (xs.zip ds).map fun p =>
      { pin := pin, level := p.1.v, clock := some (s.clockReading (p.2 + 1)) } := by
  rw [writesAt, List.zip_map_right, List.map_map]
  rfl

/-- Step 5 with statistics, from the state before TRANSMIT. -/
theorem emit_emitting_observes {s : State} {pin : Nat} {ds : List Nat} (hv : pin < s.par.pinCount)
    (hcap : s.mem.tr.length ≤ Config.trCap) (h : s.waitsEnd 1 1 (schedule s) ds) :
    ∃ t, emit pin true 0 (schedule s) (emitting s pin true) = .done () t
      ∧ t = { emitting s pin true with
          clk := t.clk, lastClk := t.lastClk, pins := t.pins, env := t.env
          mem := { s.mem with tr := schedule s, obs := observedAt s ds }
          wr := { (scheduled s).wr with i := t.wr.i, now := t.wr.now }
          wlog := s.wlog ++ writesAt s pin (schedule s) (ds.map (· + 1)) }
      ∧ ∀ q, q ≠ pin → t.pinAt q = s.pinAt q := by
  have hread := emitting_clockReading s pin true
  obtain ⟨hpin, hother⟩ := emitting_pinAt s pin true
  obtain ⟨es, rfl, hes⟩ := emitting_waitsEnd pin true h
  have hroom : (emitting s pin true).mem.obs.length + (schedule s).length ≤ Config.trCap := by
    rw [schedule, scheduleFrom, List.length_map]
    exact (Nat.zero_add _).trans_le hcap
  obtain ⟨t, ht, hteq, htother⟩ :=
    emit_observes pin (schedule s) 0 (emitting s pin true) es hv (by rw [hpin]) hroom hes
  have hobs : (es.map fun e => (emitting s pin true).clockReading (e + 1)) =
      observedAt s (es.map (1 + ·)) := by
    rw [observedAt, List.map_map]
    exact List.map_congr_left fun e _ => hread (e + 1)
  have hshift : (es.map (· + 1)).map (1 + ·) = (es.map (1 + ·)).map (· + 1) := by
    rw [List.map_map, List.map_map]
    rfl
  rw [hobs, writesAt_after hread, hshift] at hteq
  refine ⟨t, ht, ?_, fun q hq => by rw [htother q hq, hother q hq]⟩
  rw [hteq]
  rfl

/-- Settles O30: step 5 as `emit_emitting_observes` has it, then the statistics of the edges, if there are any. -/
theorem transmitStatistics : Obligations.TransmitStatistics := by
  intro f s ds xs diffs late hstats hv hok hcap hfits (hxs : xs = schedule s) hwaits hdiffs hlate
  subst hxs
  obtain ⟨t, ht, hteq, hother⟩ := emit_emitting_observes hv hcap hwaits
  have hexec : exec (.transmit f) s = (statistics (t.setPrio .normal)).outcome := by
    rw [exec_transmit, hstats, transmit_emits true hfits hv hok, transmitFrom_measured ht]
  have hpar : (t.setPrio .normal).par = s.par := by rw [hteq]; rfl
  have hreport : t.report = s.report := by rw [hteq]; rfl
  have htr : (t.setPrio .normal).mem.tr = schedule s := congrArg (fun u : State => u.mem.tr) hteq
  have hobs : (t.setPrio .normal).mem.obs = observedAt s ds := congrArg (fun u : State => u.mem.obs) hteq
  have hlen : (observedAt s ds).length = (schedule s).length := by
    rw [observedAt, List.length_map, waitsEnd_length _ _ _ hwaits]
  have hdiffs : diffs = (differences (schedule s) (observedAt s ds)).map (·.2) :=
    hdiffs.trans (differences_observedAt s (schedule s) ds).symm
  have hlate : late = lateReports s.par.lateLimit 0 (differences (schedule s) (observedAt s ds)) := by
    rw [hlate, hdiffs, zip_differences hlen.ge, lateReports]
    simp only [isAnomalous_eq]
  rw [← writesAt_succ]
  by_cases hempty : schedule s = []
  · have hnone : late = [] := by rw [hlate, hempty]; rfl
    rw [statistics_nil (htr.trans hempty)] at hexec
    refine ⟨_, hexec, ?_, fun _ => hreport, fun hne => absurd hempty hne, hother⟩
    rw [hnone, List.isEmpty_nil, Bool.not_true, Bool.or_false, hteq]
    rfl
  · obtain ⟨u, hu, hueq, hsum, hmax⟩ := statistics_reports (s := t.setPrio .normal)
      (by rw [htr]; exact hempty) (by rw [htr, hobs]; exact hlen)
    obtain ⟨hmem, hle⟩ := List.max?_eq_some_iff.1 hmax
    rw [htr, hobs, ← hdiffs] at hsum hmem hle
    rw [htr, hobs, hpar, ← hlate] at hueq
    rw [hu] at hexec
    refine ⟨u.finish, hexec, ?_, fun h => absurd h hempty, fun _ => ⟨?_, hsum, hmem, hle⟩, fun q hq => ?_⟩
    · rw [hueq, hteq]
      rfl
    · rw [← hreport]
      show u.report = _
      rw [hueq]
      rfl
    · rw [← hother q hq, hueq]
      rfl

end Sys2Proof.Proofs
end

section
/-! The payload round trip (spec/44_decoder.md R104): of the envelope of an encoded trace, the lows of each
half-frame are the bits of the payload, and the second half-frame begins where the first one ends. -/

namespace Sys2Proof.Proofs
open Sys2Proof.Machine Sys2Proof.Machine.Laws

/-! ### The payload a half-frame spells (R40, R99) -/

/-- A sequence spells one payload only. -/
theorem readsBytes_unique {xs : List Sample} {ps qs : List Byte} (hp : readsBytes xs ps) (hq : readsBytes xs qs) :
    ps = qs := by
  obtain ⟨hplen, hpbits⟩ := hp
  obtain ⟨hqlen, hqbits⟩ := hq
  refine List.ext_getElem (hplen.trans hqlen.symm) fun k hk hk' => BitVec.eq_of_getLsbD_eq fun b hb => ?_
  exact Option.some.inj ((hpbits k b _ (List.getElem?_eq_getElem hk) hb).symm.trans
    (hqbits k b _ (List.getElem?_eq_getElem hk') hb))

/-- The symbols of the bits of a payload (R59). -/
def bitSymbols (ps : List Byte) : List (U32 × U32) := (wireBits ps).map fun b => (428, if b then 1268 else 430)

theorem halfFrameSymbols_eq (ps : List Byte) :
    halfFrameSymbols ps = (3344, 1688) :: (bitSymbols ps ++ [(428, 11354)]) := rfl

theorem bitSymbols_length (ps : List Byte) : (bitSymbols ps).length = 8 * ps.length := by
  rw [bitSymbols, List.length_map, wireBits_length]

theorem halfFrameSymbols_length (ps : List Byte) : (halfFrameSymbols ps).length = 8 * ps.length + 2 := by
  rw [halfFrameSymbols_eq, List.length_cons, List.length_append, bitSymbols_length]
  rfl

/-- The low after a mark as the decoder measures it: the low part of its last cycle, and its space (R102). -/
def lowAfter (p : U32 × U32) : U32 := 11#32 + p.2

/-- Each low after the mark of a bit is short enough to be one, and of the class of its bit (R60). -/
theorem lowAfter_bitSymbols (ps : List Byte) :
    (∀ dt ∈ (bitSymbols ps).map lowAfter, dt.toNat ≤ 2000)
      ∧ ((bitSymbols ps).map lowAfter).map bitOfLow = wireBits ps := by
  have hbit : ∀ b : Bool, (lowAfter (428, if b then 1268 else 430)).toNat ≤ 2000
      ∧ bitOfLow (lowAfter (428, if b then 1268 else 430)) = b := by decide
  rw [bitSymbols, List.map_map, List.map_map]
  refine ⟨fun dt hdt => ?_, ?_⟩
  · obtain ⟨b, -, rfl⟩ := List.mem_map.1 hdt
    exact (hbit b).1
  · exact (List.map_congr_left fun b _ => (hbit b).2).trans (List.map_id _)

/-- A frame whose lows are those after the bits of a payload spells that payload. -/
theorem readsBytes_of_bitSymbols {xs : List Sample} {ps : List Byte}
    (h : frameLows xs = (bitSymbols ps).map lowAfter) : readsBytes xs ps := by
  refine ⟨?_, ?_⟩
  · rw [h, List.length_map, bitSymbols_length, Nat.mul_div_cancel_left _ (by decide)]
  · rw [h]
    exact spellsBits_of_prefix ((lowAfter_bitSymbols ps).2 ▸ List.prefix_refl _)

/-! ### The envelope of an encoded trace (R102) -/

/-- What DECODE reads of an encoded trace: the point (0, 0), then one rise and one fall per mark. -/
def encodedEnvelope (ps : List Byte) : List Sample :=
  ⟨0, false⟩ :: envelope 700 (halfFrameSymbols ps ++ halfFrameSymbols ps)

theorem decodeInput_encodedTrace (ps : List Byte) : decodeInput (encodedTrace ps) = encodedEnvelope ps := by
  rw [decodeInput_eq, preprocessed_encodedTrace]
  rfl

theorem encodedEnvelope_length (ps : List Byte) : (encodedEnvelope ps).length = 32 * ps.length + 9 := by
  rw [encodedEnvelope, List.length_cons, envelope_length, List.length_append, halfFrameSymbols_length]
  omega

/-- The lows measured from the fall of a mark on: one after each mark but the last. -/
theorem lowsOf_encodedEnvelope (ps : List Byte) (k : Nat) {ms : List (U32 × U32)}
    (hdrop : (halfFrameSymbols ps ++ halfFrameSymbols ps).drop k = ms) (hne : ms ≠ []) :
    lowsOf ((encodedEnvelope ps).drop (2 * k + 2)) = ms.dropLast.map lowAfter := by
  cases ms with
  | nil => exact absurd rfl hne
  | cons p rest =>
    have hsolid : Solid (p :: rest) := fun q hq =>
      solid_append (halfFrame_solid ps) (halfFrame_solid ps) q (List.mem_of_mem_drop (hdrop ▸ hq))
    obtain ⟨u, hu⟩ := envelope_drop _ 700 k p rest hdrop
    rw [encodedEnvelope, List.drop_succ_cons, hu, lowsOf_envelope p rest u hsolid]
    rfl

/-- The first half-frame of the envelope: the bits of the payload, ended by the gap (R60). -/
theorem encodedEnvelope_first (ps : List Byte) :
    frameLows (encodedEnvelope ps) = (bitSymbols ps).map lowAfter
      ∧ frameEnd (encodedEnvelope ps) = 16 * ps.length + 4 := by
  have hlows : lowsOf ((encodedEnvelope ps).drop 4) =
      (bitSymbols ps).map lowAfter ++ lowAfter (428, 11354) :: (halfFrameSymbols ps).dropLast.map lowAfter := by
    have hne : halfFrameSymbols ps ≠ [] := List.cons_ne_nil _ _
    rw [lowsOf_encodedEnvelope ps 1 (ms := bitSymbols ps ++ (428, 11354) :: halfFrameSymbols ps)
        (by rw [halfFrameSymbols_eq]; simp) (by simp),
      List.dropLast_append_of_ne_nil (List.cons_ne_nil _ _), List.dropLast_cons_of_ne_nil hne, List.map_append,
      List.map_cons]
  have hframe : frameLows (encodedEnvelope ps) = (bitSymbols ps).map lowAfter := by
    rw [frameLows_eq, hlows, List.takeWhile_append_of_pos fun dt hdt =>
      decide_eq_true ((lowAfter_bitSymbols ps).1 dt hdt)]
    exact List.append_nil _
  refine ⟨hframe, ?_⟩
  rw [frameEnd, measuredLows_eq, hlows, hframe, if_pos (by simp), List.length_map, bitSymbols_length]
  omega

/-- The second half-frame: the bits again, ended by the end of the trace. -/
theorem encodedEnvelope_second (ps : List Byte) :
    frameLows ((encodedEnvelope ps).drop (16 * ps.length + 4)) = (bitSymbols ps).map lowAfter
      ∧ frameEnd ((encodedEnvelope ps).drop (16 * ps.length + 4)) = 0 := by
  have hsymbols : (halfFrameSymbols ps ++ halfFrameSymbols ps).drop (8 * ps.length + 3) =
      bitSymbols ps ++ [(428, 11354)] := by
    rw [show 8 * ps.length + 3 = (halfFrameSymbols ps).length + 1 by rw [halfFrameSymbols_length],
      List.drop_append, List.drop_of_length_le (Nat.le_succ _), Nat.add_sub_cancel_left]
    rfl
  have hlows : lowsOf (((encodedEnvelope ps).drop (16 * ps.length + 4)).drop 4) =
      (bitSymbols ps).map lowAfter := by
    rw [List.drop_drop, show 16 * ps.length + 4 + 4 = 2 * (8 * ps.length + 3) + 2 by omega,
      lowsOf_encodedEnvelope ps _ hsymbols (by simp), List.dropLast_concat]
  have hframe : frameLows ((encodedEnvelope ps).drop (16 * ps.length + 4)) = (bitSymbols ps).map lowAfter := by
    rw [frameLows_eq, hlows, List.takeWhile_eq_self_iff]
    exact fun dt hdt => decide_eq_true ((lowAfter_bitSymbols ps).1 dt hdt)
  exact ⟨hframe, by rw [frameEnd, measuredLows_eq, hlows, hframe, if_neg (Nat.lt_irrefl _)]⟩

/-- The gap lies in the middle of the envelope, and no second one in that of its tail (R103 (a)). -/
theorem encodedEnvelope_windows (ps : List Byte) :
    secondWindow (encodedEnvelope ps)
      ∧ ¬ secondWindow ((encodedEnvelope ps).drop (frameEnd (encodedEnvelope ps))) := by
  obtain ⟨-, hend⟩ := encodedEnvelope_first ps
  obtain ⟨-, hend2⟩ := encodedEnvelope_second ps
  have hlen := encodedEnvelope_length ps
  refine ⟨⟨List.cons_ne_nil _ _, by omega, by omega⟩, ?_⟩
  rintro ⟨-, hlo, -⟩
  rw [hend, hend2, List.length_drop] at hlo
  omega

/-! ### The round trip -/

theorem checksumReports_of_valid {d : Nat} {ps : List Byte} {last : Byte}
    (h : last = BitVec.ofNat 8 ((ps.map BitVec.toNat).sum)) : checksumReports d (ps ++ [last]) = [] := by
  simp [checksumReports, h]

theorem compareReports_self (d : Nat) (ps : List Byte) : compareReports d ps ps = [] := by
  have hsame : ((List.range (ps.length - 1)).find? fun k => ps[k]? != ps[k]?) = none :=
    List.find?_eq_none.2 fun k _ => by simp
  rw [compareReports, if_pos rfl, hsame]

theorem encodedEnvelope_fits {cap : Nat} {ps : List Byte} (h : ps.length ≤ cap) :
    FramesFit cap (encodedEnvelope ps) := by
  obtain ⟨hfirst, hend⟩ := encodedEnvelope_first ps
  obtain ⟨hlen, -⟩ := readsBytes_of_bitSymbols hfirst
  obtain ⟨hlen2, -⟩ := readsBytes_of_bitSymbols (encodedEnvelope_second ps).1
  refine .intro (hlen ▸ h) fun _ => .intro ?_ fun hw => absurd hw (encodedEnvelope_windows ps).2
  rw [hend, ← hlen2]
  exact h

/-- DECODE of an encoded trace (R104): the payload in both half-frames, and the reports of two half-frames that
agree. -/
theorem execDecode_encodedTrace {s : State} {ps : List Byte} (htr : s.mem.tr = encodedTrace ps)
    (hcap : ps.length ≤ s.par.payCap) :
    ∃ t, execDecode s = .next t ∧ t.mem.pay = ps ∧ t.mem.pay2 = ps
      ∧ ∃ reports, reports = checksumReports 0 ps ++ checksumReports 1 ps
        ∧ t.report = s.report ++ reports ∧ t.st = raisedBy s.st reports := by
  have hinput : decodeInput s.mem.tr = encodedEnvelope ps := by rw [htr, decodeInput_encodedTrace]
  obtain ⟨hinside, htail⟩ := encodedEnvelope_windows ps
  obtain ⟨hfirst, hend⟩ := encodedEnvelope_first ps
  obtain ⟨hsecond, -⟩ := encodedEnvelope_second ps
  obtain ⟨t, reports, hrun, hdecoded⟩ := execDecode_fits (s := s) (hinput ▸ encodedEnvelope_fits hcap)
  obtain ⟨hpay, hpay2, hreports⟩ := halfFrames_inside (hinput ▸ hdecoded.frames) hinside htail
  have hps := readsBytes_unique hpay (readsBytes_of_bitSymbols hfirst)
  have hps2 := readsBytes_unique hpay2 (readsBytes_of_bitSymbols (hend ▸ hsecond))
  rw [hps, hps2, compareReports_self, List.append_nil] at hreports
  exact ⟨t, hrun, hps, hps2, reports, hreports, hdecoded.report, hdecoded.st⟩

/-- Settles O39: ENCODE fits (`encodePayload_fits`), DECODE of its trace yields the payload in both half-frames
(`execDecode_encodedTrace`), and a valid checksum reports nothing. -/
theorem payloadRoundTrip : Obligations.PayloadRoundTrip := by
  intro f g s ps last hpay hlast hcap hlen
  obtain ⟨b, hencode⟩ := encodePayload_fits (s := s) (by show _ ≤ 1000000; omega)
  obtain ⟨t, hrun, htr, hpar, hreport, hst⟩ : ∃ t, exec (.encode f) s = .next t
      ∧ t.mem.tr = encodedTrace s.mem.pay ∧ t.par = s.par ∧ t.report = s.report ∧ t.st = s.st :=
    ⟨_, (exec_encode f s).trans (congrArg Act.outcome hencode), rfl, rfl, rfl, rfl⟩
  obtain ⟨u, hdecode, hpay1, hpay2, reports, hreports, hureport, hust⟩ :=
    execDecode_encodedTrace htr (hpar ▸ hcap)
  rw [hpay, checksumReports_of_valid hlast, checksumReports_of_valid hlast] at hreports
  subst hreports
  exact ⟨t, u, hrun, hdecode, hpay1, hpay2, (hureport.trans (List.append_nil _)).trans hreport, hust.trans hst⟩

end Sys2Proof.Proofs
end

section
/-! FLATTEN and CHECKSUM as HOST starts them (spec/44_decoder.md R98, R100). -/

namespace Sys2Proof.Proofs
open Sys2Proof.Machine Sys2Proof.Machine.Laws

/-! ### FLATTEN -/

theorem exec_flatten (f : CmdFlags) (s : State) : exec (.flatten f) s = .next (flatten s).finish := rfl

/-- FLATTEN writes the trace, `I` and `DT` (R98). -/
theorem flatten_frame (s : State) : flatten s = { s with
    mem := { s.mem with tr := (flatten s).mem.tr }
    wr := { s.wr with i := (flatten s).wr.i, dt := (flatten s).wr.dt } } := rfl

/-- Settles O34: the frame by `flatten_frame`, the trace by `flattenTrace_eq_lowsFilled`. -/
theorem flattenFillsShortLows : Obligations.FlattenFillsShortLows := fun f s =>
  ⟨(flatten s).finish, exec_flatten f s, congrArg State.finish (flatten_frame s),
    flattenTrace_eq_lowsFilled s.mem.tr⟩

/-! ### CHECKSUM -/

theorem exec_checksum (f : CmdFlags) (s : State) :
    exec (.checksum f) s = .next (checksum s.mem.pay 0 s).finish := rfl

theorem checksum_nil (d : Nat) (s : State) :
    checksum [] d s = s.reportAnomaly (.checksumMismatch d none) := rfl

/-- CHECKSUM of a payload that is not empty compares the sum of all bytes but the last with the last (R100). -/
theorem checksum_concat (ps : List Byte) (last : Byte) (d : Nat) (s : State) :
    checksum (ps ++ [last]) d s =
      if BitVec.ofNat 8 ((ps.map BitVec.toNat).sum) = last then
        s.setWork { s.wr with sum := BitVec.ofNat 8 ((ps.map BitVec.toNat).sum) }
      else (s.setWork { s.wr with sum := BitVec.ofNat 8 ((ps.map BitVec.toNat).sum) }).reportAnomaly
        (.checksumMismatch d (some (BitVec.ofNat 8 ((ps.map BitVec.toNat).sum), last))) := by
  have hsum : byteSum 0 ps = BitVec.ofNat 8 ((ps.map BitVec.toNat).sum) := by
    rw [byteSum_eq]
    exact BitVec.zero_add _
  rw [checksum, List.getLast?_concat, List.dropLast_concat, hsum]

/-- Settles O36: the empty payload by `checksum_nil`, any other, its sum right or wrong, by `checksum_concat`. -/
theorem checksumOutcome : Obligations.ChecksumOutcome := by
  refine ⟨fun d s => checksum_nil d s, ?_, fun f s => exec_checksum f s⟩
  rintro ps last sum d s rfl
  rw [checksum_concat]
  exact ⟨fun hright => if_pos hright, fun hwrong => if_neg hwrong⟩

end Sys2Proof.Proofs
end

section
/-! DECODE as HOST starts it (spec/44_decoder.md R101, R102; spec/60_exceptions.md R121): what it leaves alone, and
where the bytes of a half-frame do not fit, how deep it lies and what has been reported before. -/

namespace Sys2Proof.Proofs
open Sys2Proof.Machine Sys2Proof.Machine.Laws

/-! ### What DECODE leaves alone (R101) -/

/-- A state without what DECODE writes: the memories, seven working registers, the flags, `REPORT`, and the
registers that an error or the end of the operation writes. -/
def outsideDecode (s : State) : State := { s with
  mem := .reset
  wr := { s.wr with i := 0, dt := 0, cur := 0, nbits := 0, lastIndex := 0, sum := 0, depth := 0 }
  seq := .idle
  st := .reset
  err := .clear
  exit := none
  report := [] }

/-- The state `s` with what DECODE writes as it stands in `t`. -/
def decodeWrites (s t : State) : State := { s with
  mem := t.mem
  wr := { s.wr with
    i := t.wr.i, dt := t.wr.dt, cur := t.wr.cur, nbits := t.wr.nbits
    lastIndex := t.wr.lastIndex, sum := t.wr.sum, depth := t.wr.depth }
  seq := t.seq
  st := t.st
  err := t.err
  exit := t.exit
  report := t.report }

theorem eq_decodeWrites {s t : State} (h : outsideDecode t = outsideDecode s) : t = decodeWrites s t :=
  calc t = decodeWrites (outsideDecode t) t := rfl
    _ = decodeWrites (outsideDecode s) t := by rw [h]
    _ = decodeWrites s t := rfl

theorem checksum_outside (ps : List Byte) (d : Nat) (s : State) :
    outsideDecode (checksum ps d s) = outsideDecode s := by
  unfold checksum
  split
  · rfl
  · simp only
    split <;> rfl

theorem compareHalves_outside (d : Nat) (ps qs : List Byte) (s : State) :
    outsideDecode (compareHalves d ps qs s) = outsideDecode s := by
  unfold compareHalves
  split
  · split <;> rfl
  · rfl

theorem halfFrame_outside (b d : Nat) (s : State) : Keeps outsideDecode s (halfFrame b d s) := by
  refine keeps_andThen ?_ fun p s1 => ⟨checksum_outside p d s1⟩
  unfold extractBits
  simp only
  split <;> exact ⟨rfl⟩

theorem decodeAt_outside (fuel b d : Nat) (s : State) : Keeps outsideDecode s (decodeAt fuel b d s) := by
  induction fuel generalizing b d s with
  | zero => exact keeps_andThen (halfFrame_outside b d s) fun _ _ => ⟨rfl⟩
  | succ n ih =>
    refine keeps_andThen (halfFrame_outside b d s) fun p s1 => ?_
    split
    · refine keeps_andThen (ih _ _ s1) fun q s2 => ?_
      exact ⟨compareHalves_outside d p q.1 (s2.setDepth d)⟩
    · exact ⟨rfl⟩

theorem compact_outside (s : State) : outsideDecode (compact s) = outsideDecode s := rfl

theorem flatten_outside (s : State) : outsideDecode (flatten s) = outsideDecode s := rfl

/-- The state in which DECODE reads its first half-frame, after steps 0 to 2 of R101. -/
def decodeStart (s : State) : State := compact (flatten (compact s))

theorem decodeStart_mem (s : State) : (decodeStart s).mem = { s.mem with tr := decodeInput s.mem.tr } :=
  preprocessed_mem s

theorem decodeStart_quiet (s : State) : Quiet s (decodeStart s) := preprocessed_quiet s

/-- `decode_at` at the top, as DECODE calls it. -/
def decodeTop (s : State) : Act (List Byte × Option (List Byte)) :=
  decodeAt (decodeStart s).mem.tr.length 0 0 (decodeStart s)

theorem execDecode_eq (s : State) : execDecode s =
    ((decodeTop s).andThen fun r t => .done () ((t.setPay r.1).setPay2 (r.2.getD []))).outcome := rfl

theorem decodeTop_outside (s : State) : Keeps outsideDecode s (decodeTop s) := by
  have hstart : outsideDecode (decodeStart s) = outsideDecode s := by
    rw [decodeStart, compact_outside, flatten_outside, compact_outside]
  exact keeps_of_eq (decodeAt_outside _ 0 0 (decodeStart s)) hstart

theorem execDecode_writes {s t : State} (hn : execDecode s = .next t) : t = decodeWrites s t := by
  rw [execDecode_eq] at hn
  refine eq_decodeWrites (keeps_outcome (fun _ _ => rfl) ?_ hn)
  exact keeps_andThen (decodeTop_outside s) fun _ _ => ⟨rfl⟩

/-- The first payload of half-frames is that of the first one. -/
theorem halfFrames_reads {d : Nat} {xs : List Sample} {ps qs : List Byte} {rs : List Report}
    (h : HalfFrames d xs ps qs rs) : readsBytes xs ps := by
  cases h with
  | one _ hbytes => exact hbytes
  | two _ hbytes _ => exact hbytes

/-- DECODE of a trace whose half-frames fit (R101, R102). -/
theorem execDecode_completes {s : State} (hfit : FramesFit s.par.payCap (decodeInput s.mem.tr)) :
    ∃ t, execDecode s = .next t
      ∧ t = { s with
          mem := { s.mem with tr := t.mem.tr, pay := t.mem.pay, pay2 := t.mem.pay2 }
          wr := { s.wr with
            i := t.wr.i, dt := t.wr.dt, cur := t.wr.cur, nbits := t.wr.nbits
            lastIndex := t.wr.lastIndex, sum := t.wr.sum, depth := t.wr.depth }
          st := t.st
          report := t.report
          seq := .idle }
      ∧ t.mem.tr = decodeInput s.mem.tr ∧ readsBytes (decodeInput s.mem.tr) t.mem.pay := by
  obtain ⟨t, reports, hrun, hdecoded⟩ := execDecode_fits hfit
  have htr : t.mem.tr = decodeInput s.mem.tr := execDecode_tr hrun
  have hmem : t.mem = { s.mem with tr := t.mem.tr, pay := t.mem.pay, pay2 := t.mem.pay2 } := by
    rw [htr]
    exact hdecoded.mem
  refine ⟨t, hrun, ?_, htr, halfFrames_reads hdecoded.frames⟩
  rw [← hmem, ← hdecoded.seq, ← hdecoded.err, ← hdecoded.exit]
  exact execDecode_writes hrun

/-! ### A half-frame that does not fit (R121) -/

/-- The operation ends in `CapacityExceeded(PAY)`; from `s` on these entries were reported before, and nothing else
but working registers and flags written. -/
structure Overflows {α : Type} (s u : State) (x : Act α) (reports : List Report) : Prop
    extends Adds s u reports where
  ends : x = .fatal (raise (.capacityExceeded .pay) u)

theorem halfFrame_overflows {b d : Nat} {s : State} {xs : List Sample} (hxs : s.mem.tr.drop b = xs)
    (hover : s.par.payCap < (frameLows xs).length / 8) : ∃ u, Overflows s u (halfFrame b d s) [] := by
  subst hxs
  obtain ⟨hfull, -, -⟩ := extract_overflows hover
  refine ⟨(s.setDepth d).setWork ((s.setDepth d).wr.afterScan (extract s.par.payCap (s.mem.tr.drop b))),
    adds_trans (adds_setWork _ s) (adds_setWork _ (s.setDepth d)), ?_⟩
  exact congrArg (Act.andThen · _) (if_pos hfull)

/-- Where the first half-frame does not fit, nothing has been reported. -/
theorem decodeAt_overflows_first (fuel : Nat) {b d : Nat} {s : State} {xs : List Sample}
    (hxs : s.mem.tr.drop b = xs) (hover : s.par.payCap < (frameLows xs).length / 8) :
    ∃ u, Overflows s u (decodeAt fuel b d s) [] := by
  obtain ⟨u, hadds, hends⟩ := halfFrame_overflows (d := d) hxs hover
  refine ⟨u, hadds, ?_⟩
  cases fuel <;> rw [decodeAt, hends, andThen_of_fatal]

/-- Where the first half-frame fits and a second one follows: what is reported before an error in the second is the
checksum of the first, then the reports of the second (R101, R103). -/
theorem decodeAt_overflows_tail (n : Nat) {b d : Nat} {s : State} {xs : List Sample} (hxs : s.mem.tr.drop b = xs)
    (hfirst : (frameLows xs).length / 8 ≤ s.par.payCap) (hw : secondWindow xs) :
    ∃ ps s1 b1, readsBytes xs ps ∧ s1.mem.tr.drop b1 = xs.drop (frameEnd xs) ∧ s1.par = s.par
      ∧ ∀ u nested, Overflows s1 u (decodeAt n b1 (d + 1) s1) nested →
        Overflows s u (decodeAt (n + 1) b d s) (checksumReports d ps ++ nested) := by
  obtain ⟨ps, s1, hhalf, hbytes, hadds, hlast⟩ := halfFrame_fits (d := d) hxs hfirst
  have htr : s1.mem.tr = s.mem.tr := by rw [hadds.mem]
  have hwindow : inWindow (s1.mem.tr.length - b) s1.wr.lastIndex = true := by
    rw [hlast, htr, ← List.length_drop, hxs, inWindow_iff]
    exact hw
  have hdrop : s1.mem.tr.drop (b + s1.wr.lastIndex) = xs.drop (frameEnd xs) := by
    rw [hlast, htr, ← List.drop_drop, hxs]
  refine ⟨ps, s1, _, hbytes, hdrop, hadds.grows.par,
    fun u nested hnested => ⟨adds_trans hadds hnested.toAdds, ?_⟩⟩
  rw [decodeAt, hhalf, andThen_of_done, if_pos hwindow, hnested.ends, andThen_of_fatal]

/-- `decode_at` of a sequence of which some half-frame does not fit, by the nesting (R103). -/
theorem decodeAt_overflows (fuel : Nat) {b d : Nat} {s : State} {xs : List Sample} (hxs : s.mem.tr.drop b = xs)
    (hfuel : xs.length ≤ fuel) (hover : ¬ FramesFit s.par.payCap xs) :
    ∃ u reports, Overflows s u (decodeAt fuel b d s) reports := by
  induction fuel generalizing b d s xs with
  | zero =>
    have hnil : xs = [] := List.length_eq_zero_iff.1 (Nat.le_zero.1 hfuel)
    exact absurd (hnil ▸ framesFit_nil _) hover
  | succ n ih =>
    by_cases hfirst : (frameLows xs).length / 8 ≤ s.par.payCap
    · obtain ⟨hw, htail⟩ := Classical.not_imp.1 fun htail => hover (.intro hfirst htail)
      have hshort := secondWindow_drop_lt hw
      obtain ⟨ps, s1, b1, -, hdrop, hpar, hoverflows⟩ := decodeAt_overflows_tail n (d := d) hxs hfirst hw
      obtain ⟨u, nested, hnested⟩ := ih (d := d + 1) hdrop (by omega) (hpar ▸ htail)
      exact ⟨u, _, hoverflows u nested hnested⟩
    · obtain ⟨u, hoverflows⟩ := decodeAt_overflows_first (n + 1) (d := d) hxs (Nat.lt_of_not_le hfirst)
      exact ⟨u, [], hoverflows⟩

/-- DECODE that ends in `CapacityExceeded(PAY)`: the trace replaced, the payloads as they were, the entries
reported and their flags set. -/
theorem execDecode_overflows {s u : State} {reports : List Report}
    (h : Overflows (decodeStart s) u (decodeTop s) reports) :
    ∃ t, execDecode s = .next t ∧ t = raise (.capacityExceeded .pay) { s with
      mem := { s.mem with tr := decodeInput s.mem.tr }
      wr := t.wr
      st := raisedBy s.st reports
      report := s.report ++ reports } := by
  have hrun : execDecode s = .next (raise (.capacityExceeded .pay) u) := by
    rw [execDecode_eq, h.ends]
    rfl
  have hquiet := decodeStart_quiet s
  have hmem : u.mem = { s.mem with tr := decodeInput s.mem.tr } := h.mem.trans (decodeStart_mem s)
  have hst : u.st = raisedBy s.st reports := hquiet.st ▸ h.st
  have hreport : u.report = s.report ++ reports := hquiet.report ▸ h.report
  have hwrites := execDecode_writes hrun
  refine ⟨_, hrun, hwrites.trans ?_⟩
  rw [← hmem, ← hst, ← hreport, ← congrArg State.wr hwrites.symm]
  rfl

theorem decodeStart_drop_zero (s : State) : (decodeStart s).mem.tr.drop 0 = decodeInput s.mem.tr := by
  rw [decodeStart_mem, List.drop_zero]

theorem decodeStart_par (s : State) : (decodeStart s).par = s.par := (decodeStart_quiet s).par

/-- Some half-frame does not fit. -/
theorem decodeTop_overflows {s : State} (h : ¬ FramesFit s.par.payCap (decodeInput s.mem.tr)) :
    ∃ u reports, Overflows (decodeStart s) u (decodeTop s) reports :=
  decodeAt_overflows _ (decodeStart_drop_zero s) (by rw [← decodeStart_drop_zero s]; exact Nat.le_refl _)
    (by rw [decodeStart_par]; exact h)

/-- The first half-frame does not fit. -/
theorem decodeTop_overflows_first {s : State}
    (h : s.par.payCap < (frameLows (decodeInput s.mem.tr)).length / 8) :
    ∃ u, Overflows (decodeStart s) u (decodeTop s) [] :=
  decodeAt_overflows_first _ (decodeStart_drop_zero s) (by rw [decodeStart_par]; exact h)

/-- The first half-frame fits, the second does not. -/
theorem decodeTop_overflows_second {s : State} {xs : List Sample} (hxs : decodeInput s.mem.tr = xs)
    (hfirst : (frameLows xs).length / 8 ≤ s.par.payCap) (hw : secondWindow xs)
    (h : s.par.payCap < (frameLows (xs.drop (frameEnd xs))).length / 8) :
    ∃ u ps, readsBytes xs ps ∧ Overflows (decodeStart s) u (decodeTop s) (checksumReports 0 ps) := by
  have hdrop0 : (decodeStart s).mem.tr.drop 0 = xs := (decodeStart_drop_zero s).trans hxs
  have hne : (decodeStart s).mem.tr ≠ [] := by
    rw [← List.drop_zero (l := (decodeStart s).mem.tr), hdrop0]
    exact hw.1
  obtain ⟨n, hn⟩ := Nat.exists_eq_succ_of_ne_zero (List.length_pos_iff.2 hne).ne'
  obtain ⟨ps, s1, b1, hbytes, hdrop, hpar, hoverflows⟩ :=
    decodeAt_overflows_tail n (d := 0) hdrop0 (by rw [decodeStart_par]; exact hfirst) hw
  obtain ⟨u, hsecond⟩ := decodeAt_overflows_first n (d := 1) hdrop (by rw [hpar, decodeStart_par]; exact h)
  refine ⟨u, ps, hbytes, ?_⟩
  rw [decodeTop, hn, ← List.append_nil (checksumReports 0 ps)]
  exact hoverflows u [] hsecond

/-! ### The operation -/

/-- COMPACT, FLATTEN and COMPACT as HOST starts them leave the sequence DECODE reads. -/
theorem compactFlattenCompact (g : CmdFlags) (s : State) :
    ∃ u v w, exec (.compact g) s = .next u ∧ exec (.flatten g) u = .next v ∧ exec (.compact g) v = .next w
      ∧ w.mem.tr = decodeInput s.mem.tr ∧ w.par = s.par := by
  refine ⟨_, _, _, exec_compact g s, exec_flatten g _, exec_compact g _, ?_, ?_⟩
  · rw [finish_mem, compact_mem, finish_mem, flatten_mem, finish_mem, compact_mem, decodeInput_eq]
  · rw [finish_par, (quiet_compact _).par, finish_par, (quiet_flatten _).par, finish_par, (quiet_compact s).par]

/-- EXTRACT_BITS as HOST starts it reads the bytes of the first half-frame, where they fit. -/
theorem execExtractBits_reads (g : CmdFlags) {s : State}
    (h : (frameLows s.mem.tr).length / 8 ≤ s.par.payCap) :
    ∃ x, exec (.extractBits g) s = .next x ∧ readsBytes s.mem.tr x.mem.pay := by
  obtain ⟨x, hrun, -, hbytes⟩ := (extractBitsOutcome g s).1 h
  exact ⟨x, hrun, hbytes⟩

/-- Settles O37: the half-frames fit (`execDecode_completes`), or some, the first or the second does not
(`execDecode_overflows`); EXTRACT_BITS reads the same bytes, as a sequence spells one payload only. -/
theorem decodeCompletes : Obligations.DecodeCompletes := by
  intro f g s
  obtain ⟨u, v, w, hu, hv, hw, htr, hpar⟩ := compactFlattenCompact g s
  refine ⟨u, v, w, hu, hv, hw, htr, ?_⟩
  have hextract := execExtractBits_reads g (s := w)
  rw [hpar] at hextract
  rw [htr] at hextract ⊢
  refine ⟨fun hfit => ?_, fun hover => ?_, fun hover => ?_, fun hfirst hwindow hover => ?_⟩
  · obtain ⟨t, hrun, hframe, httr, hbytes⟩ := execDecode_completes hfit
    obtain ⟨hfirst, -⟩ := hfit
    obtain ⟨x, hx, hxbytes⟩ := hextract hfirst
    exact ⟨t, x, hrun, hframe, hx, httr, readsBytes_unique hbytes hxbytes⟩
  · obtain ⟨u, reports, hends⟩ := decodeTop_overflows hover
    obtain ⟨t, hrun, ht⟩ := execDecode_overflows hends
    exact ⟨t, reports, hrun, ht.trans (by rw [congrArg State.st ht]; rfl)⟩
  · obtain ⟨u, hends⟩ := decodeTop_overflows_first hover
    obtain ⟨t, hrun, ht⟩ := execDecode_overflows hends
    exact ⟨t, hrun, ht.trans (by rw [List.append_nil]; rfl)⟩
  · obtain ⟨u, ps, hbytes, hends⟩ := decodeTop_overflows_second rfl hfirst hwindow hover
    obtain ⟨t, hrun, ht⟩ := execDecode_overflows hends
    obtain ⟨x, hx, hxbytes⟩ := hextract hfirst
    obtain rfl := readsBytes_unique hbytes hxbytes
    exact ⟨t, x, hrun, hx, ht.trans (by rw [raisedBy_checksumReports])⟩

end Sys2Proof.Proofs
end

section
/-! How a step ends in a fatal error (spec/60_exceptions.md R115, R127): by the contract of each operation, one that
leaves `ERR.*` other than it was has taken an error whole, whatever called it. -/

namespace Sys2Proof.Proofs
open Sys2Proof.Machine Sys2Proof.Machine.Laws

/-! ### What an outcome does with an error -/

/-- A step from `s` that answers a next state has left the error registers alone or has taken an error whole. -/
inductive TakesWhole (s : State) : Host.Outcome State Fault Refusal → Prop where
  | same {t : State} (err : t.err = s.err) : TakesWhole s (.next t)
  | taken {t : State} (taken : Taken t) : TakesWhole s (.next t)
  | fault {f : Fault} : TakesWhole s (.fault f)
  | refused {r : Refusal} : TakesWhole s (.refused r)

theorem takesWhole_after {s t : State} {o : Host.Outcome State Fault Refusal} (he : t.err = s.err)
    (h : TakesWhole t o) : TakesWhole s o := by
  cases h with
  | same h => exact .same (h.trans he)
  | taken h => exact .taken h
  | fault => exact .fault
  | refused => exact .refused

/-- An operation that HOST started, by its contract. -/
theorem takesWhole_outcome {P : Prop} {s : State} {x : Act Unit} {D : Unit → State → Prop}
    (h : Contract P s x D) : TakesWhole s x.outcome := by
  cases h with
  | done _ hcontrol => exact .same hcontrol.err
  | fatal _ htaken => exact .taken htaken
  | wait _ hcontrol => exact .same hcontrol.err
  | fault => exact .fault
  | refused => exact .refused

/-- An operation that only raises. -/
theorem takesWhole_raise (e : FatalError) (s t : State) : TakesWhole s (.next (raise e t)) :=
  .taken (taken_raise e t)

/-- The stack: the entry that raises ends it, every entry before that one leaves the error registers alone. -/
theorem runTasks_takesWhole (ts : List Task) (s : State) : TakesWhole s (runTasks ts s) := by
  induction ts generalizing s with
  | nil => exact .same rfl
  | cons k rest ih =>
    have h := runTask_contract k s
    rw [runTasks]
    cases hx : runTask k s <;> rw [hx] at h <;> cases h
    case done hcontrol _ _ => exact takesWhole_after hcontrol.err (ih _)
    case fatal htaken _ _ _ => exact .taken htaken
    case wait hcontrol _ _ => exact .same hcontrol.err
    case fault => exact .fault
    case refused => exact .refused

/-! ### The modes -/

theorem runMode_takesWhole (tasks : List Task) (s : State) : TakesWhole s (runMode tasks s.startMode) := by
  rcases runMode_cases tasks s.startMode with ⟨_, h⟩ | ⟨_, _, h⟩ | ⟨_, _, _, h⟩ <;> rw [h]
  · exact takesWhole_raise _ _ _
  · exact takesWhole_raise _ _ _
  · exact takesWhole_after (t := s.startMode) rfl (runTasks_takesWhole tasks _)

theorem execModeSample_takesWhole (s : State) : TakesWhole s (execModeSample s) := by
  unfold execModeSample
  split
  · split
    · exact takesWhole_raise _ _ _
    · exact runMode_takesWhole _ s
  · exact takesWhole_raise _ _ _

theorem execModeSendHex_takesWhole (s : State) : TakesWhole s (execModeSendHex s) := by
  unfold execModeSendHex
  split
  · split
    · exact takesWhole_raise _ _ _
    · exact runMode_takesWhole _ s
  · exact takesWhole_raise _ _ _

theorem execModeReplayFile_takesWhole (s : State) : TakesWhole s (execModeReplayFile s) := by
  unfold execModeReplayFile
  split
  · split
    · exact takesWhole_raise _ _ _
    · exact runMode_takesWhole _ s
  · exact takesWhole_raise _ _ _

/-! ### The commands -/

theorem execReadPin_takesWhole (s : State) : TakesWhole s (execReadPin s) := by
  rw [execReadPin]
  rcases readPin_cases s.opnd.pin s with ⟨_, _, h⟩ | ⟨_, h⟩ <;> rw [h]
  · exact .same rfl
  · exact .refused

theorem execExtractBits_takesWhole (s : State) : TakesWhole s (execExtractBits s) := by
  unfold execExtractBits
  simp only
  split
  · exact takesWhole_raise _ _ _
  · exact .same rfl

theorem execBurst_takesWhole (s : State) : TakesWhole s (execBurst s) := by
  rw [execBurst]
  split
  · exact takesWhole_outcome (burst_contract _ _ s)
  · exact .refused

/-- Every command, from any state. -/
theorem exec_takesWhole (i : Instr) (s : State) : TakesWhole s (exec i s) := by
  cases i with
  | configurePin f => exact takesWhole_outcome (configurePin_contract _ _ _ s)
  | readPin f => exact execReadPin_takesWhole s
  | writePin f => exact takesWhole_outcome (writePin_contract _ _ s)
  | nowMicros f => exact .same rfl
  | raisePriority f => exact .same rfl
  | restorePriority f => exact .same rfl
  | avoidClockWrap f => exact takesWhole_outcome (avoidClockWrap_contract _ s)
  | compact f => exact .same rfl
  | traceWrite f => exact takesWhole_outcome (traceWrite_contract _ _ s)
  | traceRead f => exact takesWhole_outcome (traceRead_contract _ s)
  | sample f => exact takesWhole_outcome (sample_contract _ _ _ _ s)
  | transmit f => exact takesWhole_outcome (transmit_contract _ _ s)
  | flatten f => exact .same rfl
  | extractBits f => exact execExtractBits_takesWhole s
  | checksum f => exact .same (checksum_reports _ 0 s).control.err
  | decode f => exact takesWhole_outcome (decodeTrace_contract s)
  | hexParse f => exact takesWhole_outcome (hexParse_contract _ s)
  | burst f => exact execBurst_takesWhole s
  | encode f => exact takesWhole_outcome (x := encodePayload s) (encodePayload_contract s)
  | modeSample f => exact execModeSample_takesWhole s
  | modeSendHex f => exact execModeSendHex_takesWhole s
  | modeReplayFile f => exact execModeReplayFile_takesWhole s

/-! ### The step -/

theorem runCommand_takesWhole (w : CmdWord) (s : State) : TakesWhole s (runCommand w s) := by
  unfold runCommand
  split
  · exact .refused
  · split
    · split
      · next i _ =>
        rw [runInstr]
        split
        · exact .refused
        · exact takesWhole_after (t := s.takeCommand) rfl (exec_takesWhole i _)
      · exact takesWhole_raise _ _ _
      · exact takesWhole_raise _ _ _
    · exact .refused

theorem step_takesWhole (s : State) : TakesWhole s (step s) := by
  unfold step
  split
  · exact runCommand_takesWhole _ s
  · split
    · exact runTasks_takesWhole _ s
    · exact .same rfl

/-- The codes of R124. -/
theorem kind_code_bounds (e : FatalError) : 1 ≤ e.kind.code ∧ e.kind.code ≤ 5 := by
  cases e <;> simp [FatalError.kind, ErrKind.code]

/-- Settles O52, from the contracts of the operations, through `step_takesWhole`. -/
theorem errorsAreTakenWhole : Obligations.ErrorsAreTakenWhole := by
  intro s t hn hne
  have hwhole := step_takesWhole s
  rw [hn] at hwhole
  cases hwhole with
  | same herr => exact absurd herr hne
  | taken htaken =>
    obtain ⟨e, herr, hexit, hseq, hreport⟩ := htaken
    obtain ⟨hlow, hhigh⟩ := kind_code_bounds e
    exact ⟨e, herr, hexit, hlow, hhigh, hseq, hreport⟩

end Sys2Proof.Proofs
end

section
/-! What TRANSMIT reads (spec/43_transmitter.md R89 to R95): two states that differ only in what it does not read, or
writes before it reads it, are left by it in states that again differ only there. -/

namespace Sys2Proof.Proofs
open Sys2Proof.Machine Sys2Proof.Machine.Laws

/-! ### What TRANSMIT reads -/

/-- A state without what TRANSMIT does not read: the configuration, the operands, the sequencer, the error registers,
the other memories and answers, and the working registers, of which step 7 reads two. -/
def transmitView (s : State) : State := { s with
  cfg := .reset
  opnd := .reset
  cmd := none
  mem := { s.mem with raw := [], pay := [], pay2 := [], files := [] }
  wr := { Work.reset with statMax := s.wr.statMax, statSum := s.wr.statSum }
  seq := .idle
  err := .clear
  exit := none
  env := { s.env with level := .reset, writable := .reset, readable := .reset }
  ret := none
  modeStarted := false }

/-- Two ends of an operation that agree: the same end, with the same value, in states of which TRANSMIT reads the
same. -/
inductive SameEnd {α : Type} : Act α → Act α → Prop where
  | done {a : α} {s t : State} (view : transmitView s = transmitView t) : SameEnd (.done a s) (.done a t)
  | fatal {s t : State} (view : transmitView s = transmitView t) : SameEnd (.fatal s) (.fatal t)
  | wait {k : Task} {s t : State} (view : transmitView s = transmitView t) : SameEnd (.wait k s) (.wait k t)
  | fault {f : Fault} : SameEnd (.fault f) (.fault f)
  | refused {r : Refusal} : SameEnd (.refused r) (.refused r)

theorem sameEnd_andThen {α β : Type} {x y : Act α} {k l : α → State → Act β} (h : SameEnd x y)
    (hk : ∀ a s t, transmitView s = transmitView t → SameEnd (k a s) (l a t)) :
    SameEnd (x.andThen k) (y.andThen l) := by
  cases h with
  | done hv => exact hk _ _ _ hv
  | fatal hv => exact .fatal hv
  | wait hv => exact .wait hv
  | fault => exact .fault
  | refused => exact .refused

/-- Where one of two operations that agree is done, so is the other. -/
theorem sameEnd_done {x y : Act Unit} {s : State} (h : SameEnd x y) (hx : x = .done () s) :
    ∃ t, y = .done () t ∧ transmitView s = transmitView t := by
  subst hx
  cases h with
  | done hv => exact ⟨_, rfl, hv⟩

section
variable {s t : State}

/-- A reading that is the same through the view is the same of two states that look the same. -/
theorem read_of_view {β : Type} {f : State → β} (h : transmitView s = transmitView t)
    (hf : ∀ u, f (transmitView u) = f u) : f s = f t := by
  rw [← hf s, h, hf t]

/-- An update that only depends on what the view shows. -/
theorem view_update {f : State → State} (h : transmitView s = transmitView t)
    (hf : ∀ u, transmitView (f (transmitView u)) = transmitView (f u)) :
    transmitView (f s) = transmitView (f t) :=
  read_of_view (f := fun u => transmitView (f u)) h hf

/-! ### One edge -/

theorem readClock_view (h : transmitView s = transmitView t) :
    transmitView s.readClock = transmitView t.readClock :=
  view_update h fun _ => rfl

theorem storeObs_view (c : U32) (h : transmitView s = transmitView t) :
    SameEnd (storeObs c s) (storeObs c t) := by
  have hobs : s.mem.obs = t.mem.obs := read_of_view (f := fun u => u.mem.obs) h fun _ => rfl
  unfold storeObs
  rw [hobs]
  split
  · exact .done (view_update (f := fun u => { u with mem := { u.mem with obs := t.mem.obs ++ [c] } }) h fun _ => rfl)
  · exact .fault

theorem writePin_view (pin : Nat) (level : Level) (h : transmitView s = transmitView t) :
    SameEnd (writePin pin level s) (writePin pin level t) := by
  have hready : (pin < s.par.pinCount ∧ (s.pinAt pin).dir = .output)
      = (pin < t.par.pinCount ∧ (t.pinAt pin).dir = .output) :=
    read_of_view (f := fun u => pin < u.par.pinCount ∧ (u.pinAt pin).dir = .output) h fun _ => rfl
  rcases writePin_cases pin level s with ⟨hv, hd, hx⟩ | ⟨hn, hx⟩ <;>
    rcases writePin_cases pin level t with ⟨hv', hd', hy⟩ | ⟨hn', hy⟩ <;> rw [hx, hy]
  · exact .done (view_update (f := fun u => { u.setPin pin { u.pinAt pin with out := level } with
      wlog := u.wlog ++ [{ pin := pin, level := level, clock := u.lastClk }] }) h fun _ => rfl)
  · exact absurd (hready ▸ ⟨hv, hd⟩) hn'
  · exact absurd (hready ▸ ⟨hv', hd'⟩) hn
  · exact .refused

theorem emitEdge_view (pin : Nat) (stats : Bool) (level : Level) (h : transmitView s = transmitView t) :
    SameEnd (emitEdge pin stats level s) (emitEdge pin stats level t) := by
  unfold emitEdge
  split
  · have hclk : s.readClock.clk = t.readClock.clk := read_of_view (f := fun u => u.readClock.clk) h fun _ => rfl
    rw [hclk]
    exact sameEnd_andThen (storeObs_view _ (readClock_view h)) fun _ _ _ hu => writePin_view pin level hu
  · exact writePin_view pin level h

/-! ### The loop of step 5 -/

theorem pollClock_view (due : U32 → Bool) (fuel : Nat) (h : transmitView s = transmitView t) :
    (pollClock due fuel s).1 = (pollClock due fuel t).1
      ∧ transmitView (pollClock due fuel s).2 = transmitView (pollClock due fuel t).2 := by
  induction fuel generalizing s t with
  | zero => exact ⟨rfl, h⟩
  | succ n ih =>
    have hnow : s.readNow.wr.now = t.readNow.wr.now := read_of_view (f := fun u => u.readNow.wr.now) h fun _ => rfl
    have hread : transmitView s.readNow = transmitView t.readNow := view_update h fun _ => rfl
    rw [pollClock, pollClock, hnow]
    split
    · exact ⟨rfl, hread⟩
    · exact ih hread

theorem emit_view (pin : Nat) (stats : Bool) (xs : List Sample) (i : Nat) (h : transmitView s = transmitView t) :
    SameEnd (emit pin stats i xs s) (emit pin stats i xs t) := by
  induction xs generalizing i s t with
  | nil => exact .done h
  | cons x xs ih =>
    have hstart : transmitView (s.setWork { s.wr with i := i }) = transmitView (t.setWork { t.wr with i := i }) :=
      view_update (f := fun u => u.setWork { u.wr with i := i }) h fun _ => rfl
    have hpolls : s.clockPolls = t.clockPolls := read_of_view h fun _ => rfl
    obtain ⟨hdue, hpolled⟩ := pollClock_view (isDue x.t) t.clockPolls hstart
    rw [emit, emit, hpolls]
    generalize pollClock (isDue x.t) t.clockPolls (s.setWork { s.wr with i := i }) = p at hdue hpolled
    generalize pollClock (isDue x.t) t.clockPolls (t.setWork { t.wr with i := i }) = q at hdue hpolled
    obtain ⟨b, s1⟩ := p
    obtain ⟨b', t1⟩ := q
    obtain rfl : b = b' := hdue
    cases b with
    | false => exact .wait hpolled
    | true => exact sameEnd_andThen (emitEdge_view pin stats x.v hpolled) fun _ _ _ hu => ih (i + 1) hu

/-! ### Step 7 -/

theorem statsLoop_view (ps : List (Sample × U32)) (i : Nat) (h : transmitView s = transmitView t) :
    transmitView (statsLoop i ps s) = transmitView (statsLoop i ps t) := by
  induction ps generalizing i s t with
  | nil => exact h
  | cons p ps ih =>
    obtain ⟨x, o⟩ := p
    have hlimit : s.par.lateLimit = t.par.lateLimit := read_of_view (f := fun u => u.par.lateLimit) h fun _ => rfl
    rw [statsLoop, statsLoop, hlimit]
    refine ih (i + 1) ?_
    split
    · exact view_update (f := fun u => (u.setWork { u.wr with
        i := i
        statSum := u.wr.statSum + lateness o x.t
        statMax := if u.wr.statMax < lateness o x.t then lateness o x.t else u.wr.statMax }).reportAnomaly
          (.timingAnomaly i x.t (lateness o x.t))) h fun _ => rfl
    · exact view_update (f := fun u => u.setWork { u.wr with
        i := i
        statSum := u.wr.statSum + lateness o x.t
        statMax := if u.wr.statMax < lateness o x.t then lateness o x.t else u.wr.statMax }) h fun _ => rfl

theorem statistics_view (h : transmitView s = transmitView t) : SameEnd (statistics s) (statistics t) := by
  have htr : s.mem.tr = t.mem.tr := read_of_view (f := fun u => u.mem.tr) h fun _ => rfl
  have hobs : s.mem.obs = t.mem.obs := read_of_view (f := fun u => u.mem.obs) h fun _ => rfl
  unfold statistics
  rw [htr, hobs]
  split
  · next x xs o os _ _ =>
    split
    · have hstart : transmitView (s.setWork { s.wr with statMax := lateness o x.t, statSum := 0 })
          = transmitView (t.setWork { t.wr with statMax := lateness o x.t, statSum := 0 }) :=
        view_update (f := fun u => u.setWork { u.wr with statMax := lateness o x.t, statSum := 0 }) h fun _ => rfl
      exact .done (view_update (f := enterStats (xs.length + 1)) (statsLoop_view _ 0 hstart) fun _ => rfl)
    · exact .refused
  · exact .refused
  · exact .done h

/-! ### TRANSMIT -/

theorem transmitFrom_view (pin : Nat) (stats : Bool) (i : Nat) (h : transmitView s = transmitView t) :
    SameEnd (transmitFrom pin stats i s) (transmitFrom pin stats i t) := by
  have htr : s.mem.tr = t.mem.tr := read_of_view (f := fun u => u.mem.tr) h fun _ => rfl
  unfold transmitFrom
  rw [htr]
  refine sameEnd_andThen (emit_view pin stats _ i h) fun _ s1 t1 hu => ?_
  have hprio : transmitView (s1.setPrio .normal) = transmitView (t1.setPrio .normal) := view_update hu fun _ => rfl
  split
  · exact statistics_view hprio
  · exact .done hprio

/-- A transmission that comes to step 5 ends as it does from any other state that looks the same. -/
theorem transmit_view {pin : Nat} {stats : Bool} (h : transmitView s = transmitView t)
    (hfits : fitsWindow (s.clockReading 0) s.nextDelay s.mem.tr) (hv : pin < s.par.pinCount)
    (hok : s.nextPinOk = true) : SameEnd (transmit pin stats s) (transmit pin stats t) := by
  have htr : s.mem.tr = t.mem.tr := read_of_view (f := fun u => u.mem.tr) h fun _ => rfl
  have hclk : s.clockReading 0 = t.clockReading 0 := read_of_view (f := fun u => u.clockReading 0) h fun _ => rfl
  have hdelay : s.nextDelay = t.nextDelay := read_of_view h fun _ => rfl
  have hok' : s.nextPinOk = t.nextPinOk := read_of_view h fun _ => rfl
  have hcount : s.par.pinCount = t.par.pinCount := read_of_view (f := fun u => u.par.pinCount) h fun _ => rfl
  rw [transmit_emits stats hfits hv hok,
    transmit_emits stats (by rw [← hclk, ← hdelay, ← htr]; exact hfits) (hcount ▸ hv) (hok'.symm.trans hok)]
  exact transmitFrom_view pin stats 0 (view_update (f := fun u => emitting u pin stats) h fun _ => rfl)

end

end Sys2Proof.Proofs
end

section
/-! The parts of the modes (spec/46_dispatch.md R112 to R114), each run to its end from any state in which it does not
fail: the chain of stack entries, the stored trace, the wrap guard and TRANSMIT, the capture, DECODE and its report, and
the re-encoded file. -/

namespace Sys2Proof.Proofs
open Sys2Proof.Machine Sys2Proof.Machine.Laws

/-! ### Chains of stack entries (R29) -/

/-- Run from the top of the stack these entries end done, one after the other, in `t`, whatever stands below them. -/
def Completes (ts : List Task) (s t : State) : Prop := ∀ rest, runTasks (ts ++ rest) s = runTasks rest t

theorem completes_nil (s : State) : Completes [] s s := fun _ => rfl

theorem completes_cons {k : Task} {ts : List Task} {s t u : State} (hk : runTask k s = .done () t)
    (h : Completes ts t u) : Completes (k :: ts) s u := fun rest => by
  rw [List.cons_append, runTasks, hk]
  exact h rest

theorem completes_append {ts us : List Task} {s t u : State} (h : Completes ts s t) (h' : Completes us t u) :
    Completes (ts ++ us) s u := fun rest => by
  rw [List.append_assoc, h, h']

theorem completes_one {k : Task} {s t : State} (hk : runTask k s = .done () t) : Completes [k] s t :=
  completes_cons hk (completes_nil t)

/-- The end of a mode: `EXIT = 0`, nothing running (R112 step 5, R113 step 5, R114 step 4). -/
def concluded (s : State) : State := { s with exit := some 0, seq := .idle }

/-- A mode with its ranges in order whose operations end done. -/
theorem runMode_completes {ts : List Task} {mode : Op} {s t : State}
    (hp : ∀ p, s.cfg.pin = some p → p < s.par.pinCount) (h1 : 1 ≤ s.cfg.capacity)
    (h2 : s.cfg.capacity ≤ Config.bufCap) (h : Completes ts s t) :
    runMode (ts ++ [.complete mode]) s = .next (concluded t) :=
  (runMode_of_ranges hp h1 h2).trans (h [.complete mode])

/-! ### The stored trace (R112 step 3, R113 step 3) -/

/-- The file store with the trace written to the configured path, if there is one. -/
def filesWith (c : Cfg) (xs : List Sample) (files : List (Text × Text)) : List (Text × Text) :=
  match c.outputTracePath with
  | none => files
  | some path => fileStore path (traceText c.includeFlank xs) files

theorem filesWith_none {c : Cfg} (h : c.outputTracePath = none) (xs : List Sample) (files : List (Text × Text)) :
    filesWith c xs files = files := by
  rw [filesWith, h]

theorem filesWith_some {c : Cfg} {path : Text} (h : c.outputTracePath = some path) (xs : List Sample)
    (files : List (Text × Text)) :
    filesWith c xs files = fileStore path (traceText c.includeFlank xs) files := by
  rw [filesWith, h]

theorem storeTasks_completes {ts : List Task} {c : Cfg} {r s : State} (h : Completes ts r s)
    (hw : c.outputTracePath ≠ none → s.nextWritable = true) :
    ∃ i w, Completes (ts ++ storeTasks c) r { s with
      mem := { s.mem with files := filesWith c s.mem.tr s.mem.files }
      wr := { s.wr with i := i }
      env := { s.env with writable := w } } := by
  cases hpath : c.outputTracePath with
  | none =>
    refine ⟨s.wr.i, s.env.writable, completes_append h ?_⟩
    rw [storeTasks, filesWith_none hpath, hpath]
    exact completes_nil s
  | some path =>
    refine ⟨lastVisited s, s.env.writable.skip 1, completes_append h ?_⟩
    rw [storeTasks, filesWith_some hpath, hpath]
    exact completes_one (traceWrite_writable path c.includeFlank (hw (by rw [hpath]; exact Option.some_ne_none _)))

/-! ### The wrap guard (R76) -/

/-- The state after a guard that returned at the coming clock read number `k`. -/
def guarded (s : State) (k : Nat) : State :=
  { s with
    clk := s.clockReading k
    lastClk := some (s.clockReading k)
    env := { s.env with clock := s.env.clock.skip (k + 1) }
    wr := { s.wr with now := s.clockReading k } }

theorem guarded_clockReading (s : State) (k j : Nat) :
    (guarded s k).clockReading j = s.clockReading (k + 1 + j) :=
  clockReading_after k rfl rfl j

/-- The coming clock read number `k` is the first that is far enough from the wrap for the margin `m`. -/
structure FirstFar (s : State) (m k : Nat) : Prop where
  inScript : k ≤ s.env.clock.script.length
  near : ∀ i < k, 4294967296 - (s.clockReading i).toNat < m * 1000000
  far : m * 1000000 ≤ 4294967296 - (s.clockReading k).toNat

theorem firstFar_of_clock {s t : State} {m k : Nat} (h : FirstFar s m k) (hc : t.clk = s.clk)
    (he : t.env.clock = s.env.clock) : FirstFar t m k := by
  have hread := clockReading_of_clock hc he
  exact ⟨he ▸ h.inScript, fun i hi => by rw [hread]; exact h.near i hi, by rw [hread]; exact h.far⟩

theorem guard_completes {s : State} {m k : Nat} (h : FirstFar s m k) :
    runTask (.avoidClockWrap m) s = .done () (guarded s k) := by
  have hm : m * 1000000 ≤ 4294967296 := h.far.trans (Nat.sub_le _ _)
  rw [runTask, avoidClockWrap_returns hm h.inScript h.near h.far, iterate_readNow]
  rfl

/-! ### TRANSMIT (R89 to R95) -/

/-- A state without what TRANSMIT writes. -/
def outsideTransmit (s : State) : State := { s with
  clk := 0
  lastClk := none
  pins := []
  prio := .normal
  mem := { s.mem with tr := [], obs := [] }
  wr := .reset
  st := .reset
  wlog := []
  report := []
  env := { s.env with clock := .reset, pinOk := .reset, delay := .reset } }

/-- A transmission from `s` that ended in `t`: the schedule left in `TR`, edge `i` written `extra` clock reads after
the read number `ds[i]` that ended its wait. -/
structure Transmitted (s t : State) (pin : Nat) (stats : Bool) (extra : Nat) (ds : List Nat) : Prop where
  outside : outsideTransmit t = outsideTransmit s
  prio : t.prio = .normal
  tr : t.mem.tr = schedule s
  wlog : t.wlog = s.wlog ++ writesAt s pin (schedule s) (ds.map (· + extra))
  unmeasured : stats = false → t.mem.obs = s.mem.obs ∧ t.report = s.report ∧ t.st = s.st

theorem transmit_completes_unmeasured {pin : Nat} {s : State} {ds : List Nat}
    (hfits : fitsWindow (s.clockReading 0) s.nextDelay s.mem.tr) (hv : pin < s.par.pinCount)
    (hok : s.nextPinOk = true) (hwaits : s.waitsEnd 0 1 (schedule s) ds) :
    ∃ t, transmit pin false s = .done () t ∧ Transmitted s t pin false 0 ds := by
  obtain ⟨t, ht, hteq, -, -⟩ := emit_emitting hv hwaits
  have hrun : transmit pin false s = .done () (t.setPrio .normal) := by
    rw [transmit_emits false hfits hv hok, transmitFrom_unmeasured ht]
  have hreads : ds.map (· + 0) = ds := List.map_id ds
  refine ⟨t.setPrio .normal, hrun, ?_⟩
  rw [hteq]
  exact ⟨rfl, rfl, rfl, by rw [hreads]; rfl, fun _ => ⟨rfl, rfl, rfl⟩⟩

/-- Step 5 with statistics takes no answers but the clock's. -/
theorem emit_emitting_env {s t : State} {pin : Nat} {ds : List Nat} (hv : pin < s.par.pinCount)
    (hcap : s.mem.tr.length ≤ Config.trCap) (hwaits : s.waitsEnd 1 1 (schedule s) ds)
    (ht : emit pin true 0 (schedule s) (emitting s pin true) = .done () t) :
    t.env = { (emitting s pin true).env with clock := t.env.clock } := by
  obtain ⟨hpin, -⟩ := emitting_pinAt s pin true
  obtain ⟨es, -, hes⟩ := emitting_waitsEnd pin true hwaits
  have hroom : (emitting s pin true).mem.obs.length + (schedule s).length ≤ Config.trCap := by
    rw [schedule, scheduleFrom, List.length_map]
    exact (Nat.zero_add _).trans_le hcap
  obtain ⟨u, hu, hueq, -⟩ :=
    emit_observes pin (schedule s) 0 (emitting s pin true) es hv (by rw [hpin]) hroom hes
  cases ht.symm.trans hu
  exact congrArg State.env hueq

/-- Step 7 writes working registers, the flags and reports. -/
theorem statistics_completes {s : State} (h : s.mem.obs.length = s.mem.tr.length) :
    ∃ w st rs, statistics s = .done () { s with wr := w, st := st, report := rs } := by
  by_cases hempty : s.mem.tr = []
  · exact ⟨s.wr, s.st, s.report, statistics_nil hempty⟩
  · obtain ⟨t, ht, hteq, -, -⟩ := statistics_reports hempty h
    rw [ht, hteq]
    exact ⟨_, _, _, rfl⟩

theorem transmit_completes_measured {pin : Nat} {s : State} {ds : List Nat}
    (hfits : fitsWindow (s.clockReading 0) s.nextDelay s.mem.tr) (hv : pin < s.par.pinCount)
    (hok : s.nextPinOk = true) (hcap : s.mem.tr.length ≤ Config.trCap)
    (hwaits : s.waitsEnd 1 1 (schedule s) ds) :
    ∃ t, transmit pin true s = .done () t ∧ Transmitted s t pin true 1 ds := by
  obtain ⟨t, ht, hteq, -⟩ := emit_emitting_observes hv hcap hwaits
  have henv := emit_emitting_env hv hcap hwaits ht
  have hlen : (t.setPrio .normal).mem.obs.length = (t.setPrio .normal).mem.tr.length := by
    rw [hteq]
    exact (List.length_map _).trans (waitsEnd_length _ _ _ hwaits)
  obtain ⟨w, st, rs, hstat⟩ := statistics_completes hlen
  refine ⟨_, by rw [transmit_emits true hfits hv hok, transmitFrom_measured ht, hstat], ?_⟩
  rw [hteq, henv]
  exact ⟨rfl, rfl, rfl, rfl, nofun⟩

theorem transmit_completes {pin extra : Nat} {stats : Bool} {s : State} {ds : List Nat}
    (hfits : fitsWindow (s.clockReading 0) s.nextDelay s.mem.tr) (hv : pin < s.par.pinCount)
    (hok : s.nextPinOk = true) (hcap : s.mem.tr.length ≤ Config.trCap)
    (hextra : extra = if stats = true then 1 else 0) (hwaits : s.waitsEnd extra 1 (schedule s) ds) :
    ∃ t, transmit pin stats s = .done () t ∧ Transmitted s t pin stats extra ds := by
  subst hextra
  cases stats with
  | false => exact transmit_completes_unmeasured hfits hv hok hwaits
  | true => exact transmit_completes_measured hfits hv hok hcap hwaits

/-- The pin writes of edges that went out some clock reads after the waits ended. -/
theorem writesAt_later (s : State) (pin extra : Nat) (xs : List Sample) (ds : List Nat) :
    writesAt s pin xs (ds.map (· + extra)) = (xs.zip ds).map fun p =>
      { pin := pin, level := p.1.v, clock := some (s.clockReading (p.2 + extra)) } := by
  rw [writesAt, List.zip_map_right, List.map_map]
  rfl

/-- The guard that returns at read number `k`, and the transmission after it, the readings numbered from a state `o`
whose clock they share: it ends as one that HOST starts where TRANSMIT reads the same as after the guard. -/
theorem transmitTasks_completes {ts : List Task} {c : Cfg} {q o s : State} {margin pin k extra : Nat}
    {xs : List Sample} {ds : List Nat} {g : CmdFlags} (h : Completes ts q s) (hclk : s.clk = o.clk)
    (hclock : s.env.clock = o.env.clock) (hpin : c.pin = some pin) (hv : pin < s.par.pinCount)
    (hguard : FirstFar o margin k) (hok : s.nextPinOk = true) (hcap : s.mem.tr.length ≤ Config.trCap)
    (hfits : fitsWindow (o.clockReading (k + 1)) s.nextDelay s.mem.tr)
    (hxs : xs = scheduleFrom (o.clockReading (k + 1)) s.nextDelay s.mem.tr)
    (hextra : extra = if c.enableSendStatistics = true then 1 else 0) (hwaits : o.waitsEnd extra (k + 2) xs ds)
    (hg : g.stats = c.enableSendStatistics) :
    ∃ t, Completes (ts ++ transmitTasks margin c) q t
      ∧ outsideTransmit t = outsideTransmit s ∧ t.prio = .normal ∧ t.mem.tr = xs
      ∧ t.wlog = s.wlog ++ (xs.zip ds).map
          (fun p => { pin := pin, level := p.1.v, clock := some (o.clockReading (p.2 + extra)) })
      ∧ (c.enableSendStatistics = false → t.mem.obs = s.mem.obs ∧ t.report = s.report ∧ t.st = s.st)
      ∧ ∀ r, r.opnd.pin = pin →
          transmitView r = transmitView { s with
            clk := o.clockReading k
            lastClk := some (o.clockReading k)
            env := { s.env with clock := o.env.clock.skip (k + 1) } } →
          ∃ d, exec (.transmit g) r = .next d ∧ transmitView t = transmitView d := by
  have hnow : s.clockReading k = o.clockReading k := clockReading_of_clock hclk hclock k
  have hread : ∀ j, (guarded s k).clockReading j = o.clockReading (k + 1 + j) :=
    clockReading_after k hnow (congrArg (Tape.skip (k + 1)) hclock)
  have hsched : schedule (guarded s k) = xs := by rw [schedule, hread, hxs]; rfl
  rw [← hread 0] at hfits
  obtain ⟨es, rfl, hes⟩ := waitsEnd_after (t := guarded s k) (c := k + 1)
    (congrArg (fun tape => tape.script.drop (k + 1)) hclock) hread xs 1 ds hwaits
  rw [← hsched] at hes
  obtain ⟨t, ht, hsent⟩ := transmit_completes (pin := pin) hfits hv hok hcap hextra hes
  refine ⟨t, ?_, hsent.outside, hsent.prio, hsent.tr.trans hsched, hsent.wlog.trans ?_, hsent.unmeasured,
    fun r hrpin hr => ?_⟩
  · rw [transmitTasks, hpin]
    exact completes_append h <|
      completes_cons (guard_completes (firstFar_of_clock hguard hclk hclock)) (completes_one ht)
  · have hshift : (es.map (· + extra)).map (k + 1 + ·) = (es.map (k + 1 + ·)).map (· + extra) := by
      simp only [List.map_map, Function.comp_def, Nat.add_assoc]
    rw [hsched, writesAt_after hread, hshift, writesAt_later]
    rfl
  · have hsame : transmitView (guarded s k) = transmitView r := by rw [hr, guarded, hnow, hclock]; rfl
    obtain ⟨d, hd, hview⟩ := sameEnd_done (transmit_view hsame hfits hv hok) ht
    refine ⟨d.finish, ?_, hview⟩
    rw [exec_transmit, hrpin, hg, hd]
    rfl

/-! ### The capture (R82 to R87) -/

/-- SAMPLE up to the end of its capture, wherever the capture begins. -/
theorem sample_captured {pin k m : Nat} {trigger : Bool} (verbose : Bool) {s : State} (hcap : m + 1 ≤ Config.bufCap)
    (hv : pin < s.par.pinCount) (hok : s.nextPinOk = true) (hbegins : CaptureBegins s trigger k) :
    sample pin (m + 1) trigger verbose s =
      trimAndRebase ((captured (begun s pin (m + 1)) k m).setPrio .normal) := by
  have h1 : 1 ≤ m + 1 := Nat.succ_pos m
  rw [sample_begun trigger verbose h1 hcap hv hok]
  cases hbegins with
  | untriggered => exact sampleCapture_first (begun_ready _ hv) rfl rfl rfl hcap
  | triggered hpolled hsame hchange =>
    have hscript : k ≤ (begun s pin (m + 1)).env.level.script.length := by
      show k ≤ (s.env.level.script.drop 1).length
      rw [List.length_drop]
      omega
    refine samplePoll_change (begun_polling hv h1 hcap) rfl hscript (fun i hi => ?_) ?_
    · rw [begun_levelReading]
      exact hsame (i + 1) (Nat.succ_pos i) (Nat.succ_lt_succ hi)
    · rw [begun_levelReading]
      exact hchange

/-- SAMPLE of a capture whose clock has not wrapped. -/
theorem sample_completes {pin k m : Nat} {trigger : Bool} (verbose : Bool) {s : State}
    (hcap : m + 1 ≤ Config.bufCap) (hv : pin < s.par.pinCount) (hok : s.nextPinOk = true)
    (hbegins : CaptureBegins s trigger k)
    (hle : (s.clockReading k).toNat ≤ (s.clockReading (k + m)).toNat) :
    ∃ w, runTask (.sample pin (m + 1) trigger verbose) s = .done () { s with
      clk := s.clockReading (k + m)
      lastClk := some (s.clockReading (k + m))
      pins := pinStore pin { s.pinAt pin with dir := .input, pull := .off } s.pins
      prio := .normal
      mem := { s.mem with
        raw := s.capturedFrom k (k + 1) (m + 1), tr := trimmed (s.capturedFrom k (k + 1) (m + 1)) }
      wr := w
      env := { s.env with
        clock := s.env.clock.skip (k + (m + 1))
        level := s.env.level.skip (k + 1 + (m + 1))
        pinOk := s.env.pinOk.skip 1 } } := by
  rw [← begun_clockReading s pin (m + 1), ← begun_clockReading s pin (m + 1)] at hle
  rw [runTask, sample_captured verbose hcap hv hok hbegins, trimAndRebase_captured hcap hle, captured_begun,
    begun_capturedFrom]
  exact ⟨_, rfl⟩

/-! ### DECODE and its report (R101, R112 step 4, R114 step 3) -/

/-- A state without what DECODE, its report, ENCODE and TRACE_WRITE write. -/
def outsideCodec (s : State) : State := { s with
  mem := { s.mem with tr := [], pay := [], pay2 := [], files := [] }
  wr := .reset
  seq := .idle
  st := .reset
  report := []
  env := { s.env with writable := .reset } }

/-- A sequence has one reading as half-frames. -/
theorem halfFrames_unique {d : Nat} {xs : List Sample} {ps qs ps' qs' : List Byte} {rs rs' : List Report}
    (h : HalfFrames d xs ps qs rs) (h' : HalfFrames d xs ps' qs' rs') : ps = ps' ∧ qs = qs' ∧ rs = rs' := by
  induction h generalizing ps' qs' rs' with
  | one hout hbytes =>
    obtain ⟨hbytes', hqs, hrs⟩ := halfFrames_outside h' hout
    obtain rfl := readsBytes_unique hbytes hbytes'
    exact ⟨rfl, hqs.symm, hrs.symm⟩
  | two hin hbytes _ ih =>
    cases h' with
    | one hout _ => exact absurd hin hout
    | two _ hbytes' hsecond' =>
      obtain rfl := readsBytes_unique hbytes hbytes'
      obtain ⟨rfl, -, rfl⟩ := ih hsecond'
      exact ⟨rfl, rfl, rfl⟩

theorem decodeTrace_eq (s : State) : decodeTrace s =
    (decodeTop s).andThen fun r t => .done () ((t.setPay r.1).setPay2 (r.2.getD [])) := rfl

/-- DECODE of a trace whose half-frames fit ends done. -/
theorem decodeTrace_done {s : State} (hfit : FramesFit s.par.payCap (decodeInput s.mem.tr)) :
    ∃ u, decodeTrace s = .done () u := by
  have hlen : (decodeInput s.mem.tr).length ≤ (decodeStart s).mem.tr.length := by
    rw [← decodeStart_drop_zero s, List.drop_zero]
  rw [← decodeStart_par s] at hfit
  obtain ⟨r, -, t, hrun, -, -⟩ := decodeAt_fits (d := 0) _ (decodeStart_drop_zero s) hlen hfit
  rw [decodeTrace_eq, decodeTop, hrun]
  exact ⟨_, rfl⟩

/-- What DECODE reads of a state is the same of two: the trace, the capacity, the flags and the reports so far. -/
structure DecodesAlike (r s : State) : Prop where
  tr : r.mem.tr = s.mem.tr
  par : r.par = s.par
  st : r.st = s.st
  report : r.report = s.report

/-- Two states hold the same result of DECODE. -/
structure SameDecoded (d u : State) : Prop where
  tr : d.mem.tr = u.mem.tr
  pay : d.mem.pay = u.mem.pay
  pay2 : d.mem.pay2 = u.mem.pay2
  st : d.st = u.st
  report : d.report = u.report

theorem decodesAlike_of_view {u d : State} (h : transmitView u = transmitView d) : DecodesAlike d u :=
  ⟨(congrArg (fun v => v.mem.tr) h.symm :), (congrArg State.par h.symm :), (congrArg State.st h.symm :),
    (congrArg State.report h.symm :)⟩

/-- DECODE as HOST starts it and DECODE in a mode. -/
theorem exec_decode_alike (g : CmdFlags) {r s t : State} (h : DecodesAlike r s)
    (hfit : FramesFit s.par.payCap (decodeInput s.mem.tr)) (ht : execDecode s = .next t) :
    ∃ d, exec (.decode g) r = .next d ∧ SameDecoded d t := by
  obtain ⟨t', reports, hrun, hdecoded⟩ := execDecode_fits hfit
  cases ht.symm.trans hrun
  rw [← h.par, ← h.tr] at hfit
  obtain ⟨d, reports', hrun', hdecoded'⟩ := execDecode_fits hfit
  have hframes := hdecoded'.frames
  rw [h.tr] at hframes
  obtain ⟨hpay, hpay2, rfl⟩ := halfFrames_unique hframes hdecoded.frames
  refine ⟨d, hrun', ?_, hpay, hpay2, ?_, ?_⟩
  · rw [execDecode_tr hrun', execDecode_tr hrun, h.tr]
  · rw [hdecoded'.st, hdecoded.st, h.st]
  · rw [hdecoded'.report, hdecoded.report, h.report]

/-- DECODE and its report, if asked for. -/
theorem decodeTasks_completes (mode : Op) (g : CmdFlags) {ts : List Task} {c : Cfg} {q s : State}
    (h : Completes ts q s) (hfit : c.decodeAfterSample = true → FramesFit s.par.payCap (decodeInput s.mem.tr)) :
    ∃ t, Completes (ts ++ decodeTasks mode c) q t
      ∧ outsideCodec t = outsideCodec s ∧ t.mem.files = s.mem.files ∧ t.nextWritable = s.nextWritable
      ∧ (c.decodeAfterSample = false → t = s)
      ∧ (c.decodeAfterSample = true → readsBytes (decodeInput s.mem.tr) t.mem.pay
        ∧ ∀ r, DecodesAlike r s → ∃ d, exec (.decode g) r = .next d
          ∧ t.mem.tr = d.mem.tr ∧ t.mem.pay = d.mem.pay ∧ t.mem.pay2 = d.mem.pay2 ∧ t.st = d.st
          ∧ t.report = d.report ++ [.decoded (hexText d.mem.pay)]) := by
  cases hon : c.decodeAfterSample with
  | false =>
    refine ⟨s, completes_append h ?_, rfl, rfl, rfl, fun _ => rfl, nofun⟩
    rw [decodeTasks, hon]
    exact completes_nil s
  | true =>
    replace hfit := hfit hon
    obtain ⟨u, hu⟩ := decodeTrace_done hfit
    have hrun : execDecode s = .next u.finish := congrArg Act.outcome hu
    obtain ⟨t, ht, hteq, -, hbytes⟩ := execDecode_completes hfit
    cases hrun.symm.trans ht
    have houtside : outsideCodec u.finish = outsideCodec s := by rw [hteq]; rfl
    have hfiles : u.finish.mem.files = s.mem.files := by rw [hteq]
    have hwritable : u.finish.nextWritable = s.nextWritable := by rw [hteq]; rfl
    refine ⟨u.appendReport (.decoded (hexText u.mem.pay)), ?_, houtside, hfiles, hwritable, nofun,
      fun _ => ⟨hbytes, fun r hr => ?_⟩⟩
    · rw [decodeTasks, hon]
      exact completes_append h <| completes_cons hu (completes_one rfl)
    · obtain ⟨d, hd, hsame⟩ := exec_decode_alike g hr hfit hrun
      refine ⟨d, hd, hsame.tr.symm, hsame.pay.symm, hsame.pay2.symm, hsame.st.symm, ?_⟩
      rw [hsame.report, hsame.pay]
      rfl

/-! ### The re-encoded file (R114 step 3) -/

/-- ENCODE and TRACE_WRITE after a decode, if asked for and a path is configured. -/
theorem reencodeTasks_completes {ts : List Task} {c : Cfg} {q s : State} (h : Completes ts q s)
    (hfits : c.decodeAfterSample = true → c.reencode = true → c.outputTracePath ≠ none →
      s.nextWritable = true ∧ 577 + 512 * s.mem.pay.length ≤ Config.trCap) :
    ∃ xs files w tape, Completes (ts ++ reencodeTasks c) q { s with
        mem := { s.mem with tr := xs, files := files }, wr := w, env := { s.env with writable := tape } }
      ∧ (c.decodeAfterSample = false ∨ c.reencode = false ∨ c.outputTracePath = none →
        xs = s.mem.tr ∧ files = s.mem.files)
      ∧ (c.decodeAfterSample = true → c.reencode = true → ∀ out, c.outputTracePath = some out →
        xs = encodedTrace s.mem.pay
        ∧ files = fileStore out (traceText c.includeFlank (encodedTrace s.mem.pay)) s.mem.files) := by
  by_cases hon : c.decodeAfterSample = true ∧ c.reencode = true ∧ c.outputTracePath ≠ none
  · obtain ⟨hdecode, hreencode, hpath⟩ := hon
    obtain ⟨hw, hroom⟩ := hfits hdecode hreencode hpath
    obtain ⟨out, hout⟩ := Option.ne_none_iff_exists'.1 hpath
    obtain ⟨b, hencode⟩ := encodePayload_fits hroom
    have htasks : reencodeTasks c = [.encode, .traceWrite out c.includeFlank] := by
      simp [reencodeTasks, hdecode, hreencode, hout]
    rw [htasks]
    refine ⟨_, _, _, _, completes_append h (completes_cons hencode
      (completes_one (traceWrite_writable out c.includeFlank hw))), fun hoff => ?_, fun _ _ path hp => ?_⟩
    · simp [hdecode, hreencode, hout] at hoff
    · cases hout.symm.trans hp
      exact ⟨rfl, rfl⟩
  · have htasks : reencodeTasks c = [] := by
      unfold reencodeTasks
      split
      · next h =>
        obtain ⟨hdecode, hreencode⟩ := Bool.and_eq_true_iff.1 h
        split
        · rfl
        · next hout => exact absurd ⟨hdecode, hreencode, by rw [hout]; exact Option.some_ne_none _⟩ hon
      · rfl
    rw [htasks]
    refine ⟨s.mem.tr, s.mem.files, s.wr, s.env.writable, completes_append h (completes_nil s),
      fun _ => ⟨rfl, rfl⟩, fun hdecode hreencode out hout => ?_⟩
    exact absurd ⟨hdecode, hreencode, by rw [hout]; exact Option.some_ne_none _⟩ hon

/-- The last steps of MODE_REPLAY_FILE: DECODE, its report, and the file of the decoded bytes, each if asked for. -/
theorem decodeAndReencode_completes (mode : Op) (g : CmdFlags) {ts : List Task} {c : Cfg} {q s : State}
    (h : Completes ts q s)
    (hfit : c.decodeAfterSample = true → FramesFit s.par.payCap (decodeInput s.mem.tr)
      ∧ (c.reencode = true → c.outputTracePath ≠ none → s.nextWritable = true
          ∧ 577 + 512 * ((frameLows (decodeInput s.mem.tr)).length / 8) ≤ Config.trCap)) :
    ∃ t, Completes (ts ++ decodeTasks mode c ++ reencodeTasks c) q t
      ∧ outsideCodec t = outsideCodec s
      ∧ (c.decodeAfterSample = false →
          t.mem.tr = s.mem.tr ∧ t.mem.pay = s.mem.pay ∧ t.mem.pay2 = s.mem.pay2
          ∧ t.report = s.report ∧ t.st = s.st ∧ t.mem.files = s.mem.files)
      ∧ (c.decodeAfterSample = true → ∀ r, DecodesAlike r s → ∃ d, exec (.decode g) r = .next d
          ∧ t.mem.pay = d.mem.pay ∧ t.mem.pay2 = d.mem.pay2 ∧ t.st = d.st
          ∧ t.report = d.report ++ [.decoded (hexText d.mem.pay)]
          ∧ (c.reencode = false ∨ c.outputTracePath = none →
              t.mem.tr = d.mem.tr ∧ t.mem.files = s.mem.files)
          ∧ (c.reencode = true → ∀ out, c.outputTracePath = some out →
              t.mem.tr = encodedTrace d.mem.pay
              ∧ t.mem.files = fileStore out (traceText c.includeFlank (encodedTrace d.mem.pay)) s.mem.files)) := by
  obtain ⟨u, hdecode, houtside, hfiles, hwritable, hoff, hon⟩ :=
    decodeTasks_completes mode g h fun hd => (hfit hd).1
  have hroom (hd : c.decodeAfterSample = true) (hre : c.reencode = true) (hpath : c.outputTracePath ≠ none) :
      u.nextWritable = true ∧ 577 + 512 * u.mem.pay.length ≤ Config.trCap := by
    obtain ⟨-, hencodes⟩ := hfit hd
    obtain ⟨⟨hlen, -⟩, -⟩ := hon hd
    rw [hwritable, hlen]
    exact hencodes hre hpath
  obtain ⟨xs, files, w, tape, hreencode, hkept, hnew⟩ := reencodeTasks_completes hdecode hroom
  refine ⟨_, hreencode, houtside, fun hd => ?_, fun hd r hr => ?_⟩
  · obtain ⟨htr, hfs⟩ := hkept (.inl hd)
    rw [htr, hfs, hoff hd]
    exact ⟨rfl, rfl, rfl, rfl, rfl, rfl⟩
  · obtain ⟨-, hsame⟩ := hon hd
    obtain ⟨d, hrun, htr, hpay, hpay2, hst, hreport⟩ := hsame r hr
    refine ⟨d, hrun, hpay, hpay2, hst, hreport, fun hnone => ?_, fun hre out hout => ?_⟩
    · obtain ⟨hxs, hfs⟩ := hkept (.inr hnone)
      exact ⟨hxs.trans htr, hfs.trans hfiles⟩
    · rw [← hpay, ← hfiles]
      exact hnew hd hre out hout

end Sys2Proof.Proofs
end

section
/-! The modes that complete (spec/46_dispatch.md R112 to R114): each is the chain of its parts, and what its parts leave
is read off the state at the end of the chain. -/

namespace Sys2Proof.Proofs
open Sys2Proof.Machine Sys2Proof.Machine.Laws

/-! ### A mode that runs -/

theorem pin_valid_of_none {s : State} (h : s.cfg.pin = none) (p : Nat) (hp : s.cfg.pin = some p) :
    p < s.par.pinCount :=
  absurd (h.symm.trans hp) nofun

theorem pin_valid_of_some {s : State} {pin : Nat} (h : s.cfg.pin = some pin) (hv : pin < s.par.pinCount) (p : Nat)
    (hp : s.cfg.pin = some p) : p < s.par.pinCount := by
  cases h.symm.trans hp
  exact hv

theorem execModeSample_concludes {s t : State} {pin : Nat} (hmode : s.cfg.mode = some .sample)
    (hpin : s.cfg.pin = some pin) (hv : pin < s.par.pinCount) (h1 : 1 ≤ s.cfg.capacity)
    (hcap : s.cfg.capacity ≤ Config.bufCap)
    (h : Completes ([.avoidClockWrap s.par.wrapMargin,
      .sample pin s.cfg.capacity s.cfg.triggerBeforeSample s.cfg.verbose] ++ storeTasks s.cfg
        ++ decodeTasks .modeSample s.cfg) s.startMode t) : execModeSample s = .next (concluded t) :=
  (execModeSample_runs hmode hpin).trans (runMode_completes (s := s.startMode) (pin_valid_of_some hpin hv) h1 hcap h)

theorem execModeSendHex_concludes {s t : State} {hex : Text} (hmode : s.cfg.mode = some .sendHex)
    (hhex : s.cfg.hexPayload = some hex) (hp : ∀ p, s.cfg.pin = some p → p < s.par.pinCount)
    (h1 : 1 ≤ s.cfg.capacity) (hcap : s.cfg.capacity ≤ Config.bufCap)
    (h : Completes ([.hexParse hex, .encode] ++ storeTasks s.cfg ++ transmitTasks s.par.wrapMargin s.cfg)
      s.startMode t) : execModeSendHex s = .next (concluded t) :=
  (execModeSendHex_runs hmode hhex).trans (runMode_completes (s := s.startMode) hp h1 hcap h)

theorem execModeReplayFile_concludes {s t : State} {path : Text} (hmode : s.cfg.mode = some .replayFile)
    (hpath : s.cfg.inputTracePath = some path) (hp : ∀ p, s.cfg.pin = some p → p < s.par.pinCount)
    (h1 : 1 ≤ s.cfg.capacity) (hcap : s.cfg.capacity ≤ Config.bufCap)
    (h : Completes ([.traceRead path] ++ transmitTasks s.par.wrapMargin s.cfg ++ decodeTasks .modeReplayFile s.cfg
      ++ reencodeTasks s.cfg) s.startMode t) : execModeReplayFile s = .next (concluded t) :=
  (execModeReplayFile_runs hmode hpath).trans (runMode_completes (s := s.startMode) hp h1 hcap h)

/-- Without a pin nothing is guarded or transmitted (R113 step 4, R114 step 2). -/
theorem transmitTasks_pinless {ts : List Task} {c : Cfg} {q s : State} (h : Completes ts q s) (hpin : c.pin = none)
    (margin : Nat) : Completes (ts ++ transmitTasks margin c) q s := by
  rw [transmitTasks, hpin, List.append_nil]
  exact h

/-- The note that a mode has started is no reading of the clock. -/
theorem startMode_clockReading (s : State) (k : Nat) : s.startMode.clockReading k = s.clockReading k :=
  clockReading_of_clock (s := s) (t := s.startMode) rfl rfl k

theorem startMode_capturedFrom (s : State) (c l n : Nat) :
    s.startMode.capturedFrom c l n = s.capturedFrom c l n := by
  simp only [State.capturedFrom, startMode_clockReading]
  rfl

/-! ### MODE_SAMPLE (R112) -/

/-- Where the capture begins, by the number of the pin read whose level is its first. -/
theorem captureBegins_of_read {s : State} {trigger : Bool} {j : Nat} (hplain : trigger = false → j = 1)
    (htrig : trigger = true → 1 ≤ j ∧ j ≤ s.env.level.script.length - 1 + 1
      ∧ (∀ i, 1 ≤ i → i < j → s.levelReading i = s.levelReading 0) ∧ s.levelReading j ≠ s.levelReading 0) :
    ∃ i, j = i + 1 ∧ CaptureBegins s trigger i := by
  cases trigger with
  | false => exact ⟨0, hplain rfl, .untriggered⟩
  | true =>
    obtain ⟨hj, hpolled, hsame, hchange⟩ := htrig rfl
    obtain ⟨i, rfl⟩ : ∃ i, j = i + 1 := ⟨_, (Nat.sub_add_cancel hj).symm⟩
    exact ⟨i, rfl, .triggered hpolled hsame hchange⟩

/-- The capture after a guard, in terms of the readings before it. -/
theorem guarded_capturedFrom (s : State) (k i l n : Nat) :
    (guarded s k).capturedFrom i l n = s.capturedFrom (k + 1 + i) l n := by
  simp only [State.capturedFrom, guarded_clockReading, Nat.add_assoc]
  rfl

/-- The guard and the capture of MODE_SAMPLE. -/
theorem guardedCapture_completes {s : State} {c : Cfg} {margin pin k i m : Nat} (hguard : FirstFar s margin k)
    (hn : c.capacity = m + 1) (hcap : m + 1 ≤ Config.bufCap) (hv : pin < s.par.pinCount)
    (hok : s.nextPinOk = true) (hbegins : CaptureBegins (guarded s k) c.triggerBeforeSample i)
    (hle : (s.clockReading (k + (i + 1))).toNat ≤ (s.clockReading (k + (i + 1) + m)).toNat) :
    ∃ w clock level, Completes
      [.avoidClockWrap margin, .sample pin c.capacity c.triggerBeforeSample c.verbose] s { s with
        clk := s.clockReading (k + (i + 1) + m)
        lastClk := some (s.clockReading (k + (i + 1) + m))
        pins := pinStore pin { s.pinAt pin with dir := .input, pull := .off } s.pins
        prio := .normal
        mem := { s.mem with
          raw := s.capturedFrom (k + (i + 1)) (i + 1) (m + 1)
          tr := trimmed (s.capturedFrom (k + (i + 1)) (i + 1) (m + 1)) }
        wr := w
        env := { s.env with clock := clock, level := level, pinOk := s.env.pinOk.skip 1 } } := by
  have hlast : k + (i + 1) + m = k + 1 + (i + m) := by omega
  have hfirst : k + (i + 1) = k + 1 + i := by omega
  rw [hlast, hfirst, ← guarded_clockReading, ← guarded_clockReading] at hle
  rw [hlast, hfirst]
  obtain ⟨w, hsample⟩ := sample_completes (s := guarded s k) c.verbose hcap hv hok hbegins hle
  rw [guarded_clockReading, guarded_capturedFrom] at hsample
  rw [hn]
  exact ⟨w, _, _, completes_cons (guard_completes hguard) (completes_one hsample)⟩

/-- Settles O46: the guarded capture, the stored trace and DECODE, each by its own lemma, then the chain. -/
theorem modeSampleCompletes : Obligations.ModeSampleCompletes := by
  intro f g s pin k j raw hmode hpin hv h1 hcap hk hnear hfar hok hplain htrig hle hw hraw hfit
  obtain ⟨m, hn⟩ : ∃ m, s.cfg.capacity = m + 1 := ⟨_, (Nat.sub_add_cancel h1).symm⟩
  obtain ⟨i, rfl, hbegins⟩ := captureBegins_of_read (s := guarded s.startMode k) hplain htrig
  have hguard : FirstFar s.startMode s.par.wrapMargin k := firstFar_of_clock (s := s) ⟨hk, hnear, hfar⟩ rfl rfl
  rw [hn, Nat.add_sub_cancel, ← startMode_clockReading s, ← startMode_clockReading s (_ + m)] at hle
  rw [hn] at hraw
  obtain ⟨w, clock, level, hcapture⟩ :=
    guardedCapture_completes (c := s.cfg) hguard hn (hn ▸ hcap) hv hok hbegins hle
  rw [startMode_clockReading, startMode_capturedFrom, ← hraw] at hcapture
  obtain ⟨i', w', hstore⟩ := storeTasks_completes (c := s.cfg) hcapture hw
  obtain ⟨t, hdecode, houtside, hfiles, -, hplain, hdecoded⟩ :=
    decodeTasks_completes .modeSample g (c := s.cfg) hstore hfit
  have hrun := execModeSample_concludes hmode hpin hv h1 hcap hdecode
  obtain ⟨hpinAt, hother⟩ := pinAt_of_pinStore (s := s) (t := t) (congrArg State.pins houtside :)
    (congrArg State.epoch houtside :)
  rw [hn, Nat.add_sub_cancel]
  refine ⟨_, hrun, rfl, (congrArg State.err houtside :), rfl, (congrArg State.prio houtside :),
    (congrArg State.modeStarted houtside :), (congrArg State.cfg houtside :), (congrArg State.wlog houtside :),
    (congrArg (fun u => u.mem.raw) houtside :), (congrArg (fun u => u.mem.obs) houtside :),
    (congrArg State.clk houtside :), hpinAt, hother, fun hp => ?_, fun path hp => ?_, fun hoff => ?_, fun hon => ?_⟩
  · exact hfiles.trans (filesWith_none hp _ _)
  · exact hfiles.trans (filesWith_some hp _ _)
  · rw [hplain hoff]
    exact ⟨rfl, rfl, rfl, rfl, rfl⟩
  · obtain ⟨-, hsame⟩ := hdecoded hon
    exact hsame _ ⟨rfl, rfl, rfl, rfl⟩

/-! ### MODE_SEND_HEX (R113) -/

/-- The string parsed, encoded, and the trace stored: steps 1 to 3. -/
theorem hexEncoded_completes {c : Cfg} {hex : Text} {ps : List Byte} {s : State} (hparse : parseHex hex = some ps)
    (hfits : ps.length ≤ s.par.payCap) (hroom : 577 + 512 * ps.length ≤ Config.trCap)
    (hw : c.outputTracePath ≠ none → s.nextWritable = true) :
    ∃ b t i w, Completes ([.hexParse hex, .encode] ++ storeTasks c) s { s with
      mem := { s.mem with
        pay := ps, tr := encodedTrace ps, files := filesWith c (encodedTrace ps) s.mem.files }
      wr := { s.wr with bstart := b, tcur := t, tcurWritten := true, i := i }
      env := { s.env with writable := w } } := by
  obtain ⟨b, hencode⟩ := encodePayload_fits (s := s.setPay ps) hroom
  have hencoded : Completes [.hexParse hex, .encode] s _ :=
    completes_cons (hexParse_fits hparse hfits) (completes_one hencode)
  obtain ⟨i, w, hstore⟩ := storeTasks_completes (c := c) hencoded hw
  exact ⟨b, _, i, w, hstore⟩

/-- Settles O47: without a pin the mode ends after the stored trace. -/
theorem modeSendHexWithoutPin : Obligations.ModeSendHexWithoutPin := by
  intro f s hex ps hmode hpin hhex h1 hcap hparse hfits hroom hw
  obtain ⟨b, cur, i, w, hprepared⟩ := hexEncoded_completes (c := s.cfg) (s := s.startMode) hparse hfits hroom hw
  have hrun := execModeSendHex_concludes hmode hhex (pin_valid_of_none hpin) h1 hcap
    (transmitTasks_pinless hprepared hpin _)
  exact ⟨_, hrun, rfl, fun hp => filesWith_none hp _ _, fun path hp => filesWith_some hp _ _⟩

/-- The state in which HOST starts the TRANSMIT that a mode's is compared with: the clock read by the guard up to its
read number `k`, the pin an operand, the memories as the mode has prepared them. -/
def hostTransmits (s : State) (pin k : Nat) (mem : Memory) : State :=
  { s with
    clk := s.clockReading k
    lastClk := some (s.clockReading k)
    env := { s.env with clock := s.env.clock.skip (k + 1) }
    opnd := { s.opnd with pin := pin }
    mem := mem }

/-- Settles O48: the same, then the guard and TRANSMIT of the encoded trace by `transmitTasks_completes`. -/
theorem modeSendHexTransmits : Obligations.ModeSendHexTransmits := by
  intro f g s pin k extra hex ps xs ds hmode hpin hv h1 hcap hhex hparse hfits hroom hw hok hk hnear hfar hwindow hxs
    hextra hwaits hg
  obtain ⟨b, cur, i, w, hprepared⟩ := hexEncoded_completes (c := s.cfg) (s := s.startMode) hparse hfits hroom hw
  obtain ⟨t, hsent, houtside, hprio, htr, hwlog, hunmeasured, hlike⟩ :=
    transmitTasks_completes (o := s) (c := s.cfg) (g := g) hprepared rfl rfl hpin hv ⟨hk, hnear, hfar⟩ hok
      ((encodedTrace_length ps).trans_le hroom) hwindow hxs hextra hwaits hg
  obtain ⟨d, hd, hview⟩ := hlike (hostTransmits s pin k { s.mem with pay := ps, tr := encodedTrace ps }) rfl rfl
  have hrun := execModeSendHex_concludes hmode hhex (pin_valid_of_some hpin hv) h1 hcap hsent
  exact ⟨_, d, hrun, hd, rfl, (congrArg State.err houtside :), rfl, hprio, (congrArg State.modeStarted houtside :),
    (congrArg State.cfg houtside :), (congrArg (fun u => u.mem.pay) houtside :), htr,
    (congrArg (fun u => u.mem.raw) houtside :), (congrArg (fun u => u.mem.pay2) houtside :), hwlog,
    (congrArg (fun u => u.mem.obs) hview :), (congrArg State.report hview :), (congrArg State.st hview :),
    (congrArg State.pins hview :), (congrArg State.clk hview :), hunmeasured,
    fun hp => (congrArg (fun u => u.mem.files) houtside :).trans (filesWith_none hp _ _),
    fun path hp => (congrArg (fun u => u.mem.files) houtside :).trans (filesWith_some hp _ _)⟩

/-! ### MODE_REPLAY_FILE (R114) -/

/-- The file read: step 1. -/
theorem traceRead_completes {path contents : Text} {xs : List Sample} {s : State}
    (hfile : fileLookup path s.mem.files = some contents) (hr : s.nextReadable = true)
    (hparse : (fileLines contents).tail.map parseLine = xs.map some) (hfits : xs.length ≤ Config.trCap) :
    Completes [.traceRead path] s ((afterReadable s).setTr xs) :=
  completes_one (traceRead_accepted hfile hr (List.append_nil _).symm hparse hfits)

/-- Settles O49: the file read, then `decodeAndReencode_completes`. -/
theorem modeReplayWithoutPin : Obligations.ModeReplayWithoutPin := by
  intro f g s path contents xs hmode hpin hpath h1 hcap hfile hr hparse hfits hdecodes
  have hread := traceRead_completes (s := s.startMode) hfile hr hparse hfits
  obtain ⟨t, hdone, houtside, hoff, hon⟩ := decodeAndReencode_completes .modeReplayFile g (c := s.cfg)
    (transmitTasks_pinless hread hpin s.par.wrapMargin) hdecodes
  have hrun := execModeReplayFile_concludes hmode hpath (pin_valid_of_none hpin) h1 hcap hdone
  exact ⟨_, hrun, rfl, (congrArg State.err houtside :), rfl, (congrArg State.modeStarted houtside :),
    (congrArg State.cfg houtside :), (congrArg State.wlog houtside :), (congrArg State.clk houtside :),
    (congrArg State.lastClk houtside :), (congrArg State.pins houtside :), (congrArg State.prio houtside :),
    (congrArg (fun u => u.mem.raw) houtside :), (congrArg (fun u => u.mem.obs) houtside :), hoff,
    fun hd => hon hd _ ⟨rfl, rfl, rfl, rfl⟩⟩

/-- Settles O50: the file read, the guard and TRANSMIT of it by `transmitTasks_completes`, then
`decodeAndReencode_completes` on the schedule left. -/
theorem modeReplayTransmits : Obligations.ModeReplayTransmits := by
  intro f g s pin k extra path contents xs ys ds hmode hpin hv h1 hcap hpath hfile hr hparse hfits hok hk hnear hfar
    hwindow hys hextra hwaits hg hdecodes
  have hread := traceRead_completes (s := s.startMode) hfile hr hparse hfits
  obtain ⟨u, hsent, hfrom, hprio, htr, hwlog, hunmeasured, hlike⟩ :=
    transmitTasks_completes (o := s) (c := s.cfg) (g := g) hread rfl rfl hpin hv ⟨hk, hnear, hfar⟩ hok hfits hwindow
      hys hextra hwaits hg
  obtain ⟨d, hd, hview⟩ := hlike (hostTransmits s pin k { s.mem with tr := xs }) rfl rfl
  have hpar : u.par = s.par := (congrArg State.par hfrom :)
  have hwritable : u.nextWritable = s.nextWritable := (congrArg State.nextWritable hfrom :)
  rw [← hpar, ← htr, ← hwritable] at hdecodes
  obtain ⟨t, hdone, houtside, hoff, hon⟩ :=
    decodeAndReencode_completes .modeReplayFile g (c := s.cfg) hsent hdecodes
  have hrun := execModeReplayFile_concludes hmode hpath (pin_valid_of_some hpin hv) h1 hcap hdone
  have halike := decodesAlike_of_view hview
  have hkept : outsideTransmit (outsideCodec t)
      = outsideTransmit (outsideCodec ((afterReadable s.startMode).setTr xs)) :=
    (congrArg outsideTransmit houtside).trans (congrArg outsideCodec hfrom :)
  have hhost : transmitView (outsideCodec t) = transmitView (outsideCodec d) :=
    (congrArg transmitView houtside).trans (congrArg outsideCodec hview :)
  have hfiles : u.mem.files = s.mem.files := (congrArg (fun v => v.mem.files) hfrom :)
  have hpay : u.mem.pay = s.mem.pay := (congrArg (fun v => v.mem.pay) hfrom :)
  have hpay2 : u.mem.pay2 = s.mem.pay2 := (congrArg (fun v => v.mem.pay2) hfrom :)
  have hobs : t.mem.obs = u.mem.obs := (congrArg (fun v => v.mem.obs) houtside :)
  rw [hfiles, hpay, hpay2, ← halike.report, ← halike.st, htr] at hoff
  rw [hfiles] at hon
  rw [← hobs, ← halike.report, ← halike.st] at hunmeasured
  exact ⟨_, d, hrun, hd, halike.tr.trans htr, rfl, (congrArg State.err hkept :), rfl,
    (congrArg State.prio houtside :).trans hprio, (congrArg State.modeStarted hkept :),
    (congrArg State.cfg hkept :), (congrArg (fun v => v.mem.raw) hkept :),
    (congrArg State.wlog houtside :).trans hwlog, (congrArg (fun v => v.mem.obs) hhost :),
    (congrArg State.pins hhost :), (congrArg State.clk hhost :), hunmeasured, hoff, fun hdecode => hon hdecode d halike⟩

end Sys2Proof.Proofs
end

section
/-! What a fatal error writes (spec/60_exceptions.md R117 to R121, R124, R127), and that none finds the priority raised
(R119, R131): SAMPLE and TRANSMIT raise it for loops that raise no error, and give it back before the steps that can.
On a fair clock every wait of such a loop ends (R152), so that a TRANSMIT that waits gives it back too. -/

namespace Sys2Proof.Proofs
open Sys2Proof.Machine Sys2Proof.Machine.Laws

/-! ### What an error writes (R127) -/

/-- Settles O51: `raise` writes what it says it writes, for each kind its own registers and code. -/
theorem raiseTakesError : Obligations.RaiseTakesError := by
  refine ⟨fun e s => ⟨rfl, ?_, ?_, ?_, ?_, ?_⟩, fun _ _ _ _ _ _ _ _ _ => ⟨rfl, rfl, rfl, rfl⟩⟩
  · rintro o rfl
    exact ⟨rfl, rfl⟩
  · rintro p l rfl
    exact ⟨rfl, rfl⟩
  · rintro p rfl
    exact ⟨rfl, rfl⟩
  · rintro rfl
    exact ⟨rfl, rfl⟩
  · rintro m rfl
    exact ⟨rfl, rfl⟩

/-! ### Operations that raise no error -/

/-- The operation does not end by a fatal error. -/
inductive NoFatal {α : Type} : Act α → Prop where
  | done {a : α} {t : State} : NoFatal (.done a t)
  | wait {k : Task} {t : State} : NoFatal (.wait k t)
  | fault {f : Fault} : NoFatal (.fault f)
  | refused {r : Refusal} : NoFatal (.refused r)

theorem noFatal_andThen {α β : Type} {x : Act α} {k : α → State → Act β} (hx : NoFatal x)
    (hk : ∀ a t, NoFatal (k a t)) : NoFatal (x.andThen k) := by
  cases hx with
  | done => exact hk _ _
  | wait => exact .wait
  | fault => exact .fault
  | refused => exact .refused

theorem noFatal_of_noRaise {D W : State → Prop} {x : Act Unit} (h : NoRaise D W x) : NoFatal x := by
  cases h with
  | done => exact .done
  | wait => exact .wait
  | fault => exact .fault
  | refused => exact .refused

theorem readPin_noFatal (pin : Nat) (s : State) : NoFatal (readPin pin s) := by
  rcases readPin_cases pin s with ⟨_, _, h⟩ | ⟨_, h⟩ <;> rw [h]
  · exact .done
  · exact .refused

theorem storeRaw_noFatal (x : Sample) (s : State) : NoFatal (storeRaw x s) := by
  rcases storeRaw_cases x s with ⟨_, h⟩ | ⟨_, h⟩ <;> rw [h]
  · exact .done
  · exact .fault

/-- The capture loop, which runs at `realtime` (R84). -/
theorem capture_noFatal (pin count : Nat) (s : State) : NoFatal (capture pin count s) := by
  induction count generalizing s with
  | zero => exact .done
  | succ n ih =>
    refine noFatal_andThen (readPin_noFatal pin _) fun l s1 => ?_
    exact noFatal_andThen (storeRaw_noFatal _ s1) fun _ s2 => ih s2

theorem pollPin_noFatal (pin fuel : Nat) (s : State) : NoFatal (pollPin pin fuel s) := by
  induction fuel generalizing s with
  | zero => exact .done
  | succ n ih =>
    refine noFatal_andThen (readPin_noFatal pin _) fun l s1 => ?_
    split
    · exact ih s1
    · exact .done

/-! ### Operations that leave the priority alone -/

theorem configurePin_keeps_prio (pin : Nat) (dir : Direction) (pull : Pull) (s : State) :
    Keeps State.prio s (configurePin pin dir pull s) := by
  rcases configurePin_cases pin dir pull s with ⟨_, h⟩ | ⟨_, _, h⟩ | ⟨_, _, h⟩ <;>
    exact h ▸ ⟨rfl⟩

theorem readPin_keeps_prio (pin : Nat) (s : State) : Keeps State.prio s (readPin pin s) := by
  rcases readPin_cases pin s with ⟨_, _, h⟩ | ⟨_, h⟩ <;> rw [h]
  · exact ⟨rfl⟩
  · exact ⟨trivial⟩

theorem writePin_keeps_prio (pin : Nat) (level : Level) (s : State) :
    Keeps State.prio s (writePin pin level s) := by
  rcases writePin_cases pin level s with ⟨_, _, h⟩ | ⟨_, h⟩ <;> rw [h]
  · exact ⟨rfl⟩
  · exact ⟨trivial⟩

theorem avoidClockWrap_keeps_prio (m : Nat) (s : State) : Keeps State.prio s (avoidClockWrap m s) := by
  unfold avoidClockWrap
  split
  · exact ⟨rfl⟩
  · obtain ⟨_, _, _, hprio, _⟩ := pollClock_leaves (farFromWrap m) s.clockPolls s
    split <;> next hp => rw [hp] at hprio; exact ⟨hprio⟩

theorem traceWrite_keeps_prio (path : Text) (flank : Bool) (s : State) :
    Keeps State.prio s (traceWrite path flank s) := by
  cases h : s.nextWritable with
  | true => rw [traceWrite_writable path flank h]; exact ⟨rfl⟩
  | false => rw [traceWrite_unwritable path flank h]; exact ⟨rfl⟩

theorem readLines_keeps_prio (path : Text) (ls : List Text) (k : Nat) (s : State) :
    Keeps State.prio s (readLines path k ls s) := by
  induction ls generalizing k s with
  | nil => exact ⟨rfl⟩
  | cons l rest ih =>
    rw [readLines]
    split
    · exact ⟨rfl⟩
    · split
      · exact keeps_of_eq (ih (k + 1) _) rfl
      · exact ⟨rfl⟩

theorem traceRead_keeps_prio (path : Text) (s : State) : Keeps State.prio s (traceRead path s) := by
  cases hfile : fileLookup path s.mem.files with
  | none => rw [traceRead_missing hfile]; exact ⟨rfl⟩
  | some contents =>
    cases hr : s.nextReadable with
    | false => rw [traceRead_unreadable (by simp [hfile]) hr]; exact ⟨rfl⟩
    | true => rw [traceRead_readable hfile hr]; exact keeps_of_eq (readLines_keeps_prio path _ 2 _) rfl

theorem hexParse_keeps_prio (hex : Text) (s : State) : Keeps State.prio s (hexParse hex s) := by
  unfold hexParse
  split
  · exact ⟨rfl⟩
  · split <;> exact ⟨rfl⟩

theorem burst_keeps_prio (m sp : U32) (s : State) : Keeps State.prio s (burst m sp s) := by
  unfold burst
  simp only
  split <;> exact ⟨rfl⟩

theorem bursts_keeps_prio (ms : List (U32 × U32)) (s : State) : Keeps State.prio s (bursts ms s) := by
  induction ms generalizing s with
  | nil => exact ⟨rfl⟩
  | cons p rest ih => exact keeps_andThen (burst_keeps_prio p.1 p.2 s) fun _ s1 => ih s1

theorem encodePayload_keeps_prio (s : State) : Keeps State.prio s (encodePayload s) := by
  unfold encodePayload
  exact keeps_of_eq (bursts_keeps_prio _ _) rfl

/-- The priority lies outside what DECODE writes. -/
theorem decodeTrace_keeps_prio (s : State) : Keeps State.prio s (decodeTrace s) :=
  have htop : Keeps State.prio s (decodeTop s) := keeps_comp (f := outsideDecode) State.prio (decodeTop_outside s)
  keeps_andThen htop fun _ _ => ⟨rfl⟩

theorem trimAndRebase_keeps_prio (s : State) : Keeps State.prio s (trimAndRebase s) := by
  unfold trimAndRebase
  split
  · split
    · exact ⟨rfl⟩
    · simp only
      split <;> exact ⟨rfl⟩
  · exact ⟨trivial⟩

theorem statistics_keeps_prio (s : State) : Keeps State.prio s (statistics s) := by
  unfold statistics
  split
  · next x xs o os _ _ =>
    split
    · obtain ⟨_, _, _, _, _, hprio⟩ := statsLoop_leaves ((x :: xs).zip (o :: os)) 0
        (s.setWork { s.wr with statMax := lateness o x.t, statSum := 0 })
      exact ⟨hprio⟩
    · exact ⟨trivial⟩
  · exact ⟨trivial⟩
  · exact ⟨rfl⟩

/-! ### Operations that end at normal priority -/

/-- Where the operation ends, done or by a fatal error, the priority is normal; at a poll it may be raised. -/
inductive EndsNormal {α : Type} : Act α → Prop where
  | done {a : α} {t : State} (prio : t.prio = .normal) : EndsNormal (.done a t)
  | fatal {t : State} (prio : t.prio = .normal) : EndsNormal (.fatal t)
  | wait {k : Task} {t : State} : EndsNormal (.wait k t)
  | fault {f : Fault} : EndsNormal (.fault f)
  | refused {r : Refusal} : EndsNormal (.refused r)

section
variable {α β : Type} {s : State} {x : Act α} {k : α → State → Act β}

theorem endsNormal_of_keeps (hs : s.prio = .normal) (h : Keeps State.prio s x) : EndsNormal x := by
  cases x with
  | done a t => exact .done (h.kept.trans hs)
  | fatal t => exact .fatal (h.kept.trans hs)
  | wait j t => exact .wait
  | fault f => exact .fault
  | refused r => exact .refused

theorem endsNormal_andThen (hx : EndsNormal x) (hk : ∀ a t, t.prio = .normal → EndsNormal (k a t)) :
    EndsNormal (x.andThen k) := by
  cases hx with
  | done h => exact hk _ _ h
  | fatal h => exact .fatal h
  | wait => exact .wait
  | fault => exact .fault
  | refused => exact .refused

/-- A part that raises no error may run at whatever priority, where what follows it gives the priority back. -/
theorem endsNormal_after_noFatal (hx : NoFatal x) (hk : ∀ a t, EndsNormal (k a t)) : EndsNormal (x.andThen k) := by
  cases hx with
  | done => exact hk _ _
  | wait => exact .wait
  | fault => exact .fault
  | refused => exact .refused

end

/-- Steps 3 to 7 of SAMPLE: the capture raises no error, and the trim comes after the priority is given back. -/
theorem sampleCapture_endsNormal (pin : Nat) (s : State) : EndsNormal (sampleCapture pin s) :=
  endsNormal_after_noFatal (capture_noFatal pin _ _) fun _ _ =>
    endsNormal_of_keeps rfl (trimAndRebase_keeps_prio _)

theorem samplePoll_endsNormal (pin : Nat) (s : State) : EndsNormal (samplePoll pin s) := by
  refine endsNormal_after_noFatal (pollPin_noFatal pin _ s) fun r s1 => ?_
  cases r with
  | none => exact .wait
  | some x => exact endsNormal_after_noFatal (storeRaw_noFatal x s1) fun _ s2 => sampleCapture_endsNormal pin s2

theorem sample_endsNormal (pin capacity : Nat) (trigger verbose : Bool) {s : State} (hs : s.prio = .normal) :
    EndsNormal (sample pin capacity trigger verbose s) := by
  unfold sample
  split
  · exact .fatal hs
  · refine endsNormal_andThen (endsNormal_of_keeps hs (keeps_of_eq (configurePin_keeps_prio pin _ _ _) rfl))
      fun _ s1 _ => ?_
    refine endsNormal_after_noFatal (readPin_noFatal pin s1) fun l s2 => ?_
    simp only
    split
    · exact samplePoll_endsNormal pin _
    · exact sampleCapture_endsNormal pin _

/-- Steps 5 to 7 of TRANSMIT, from any priority: the emission raises no error, and the statistics come after the
priority is given back. -/
theorem transmitFrom_endsNormal (pin : Nat) (stats : Bool) (i : Nat) (s : State) :
    EndsNormal (transmitFrom pin stats i s) := by
  refine endsNormal_after_noFatal (noFatal_of_noRaise (emit_out pin stats _ i s)) fun _ s1 => ?_
  split
  · exact endsNormal_of_keeps rfl (statistics_keeps_prio _)
  · exact .done rfl

theorem transmit_endsNormal (pin : Nat) (stats : Bool) {s : State} (hs : s.prio = .normal) :
    EndsNormal (transmit pin stats s) := by
  by_cases hfits : fitsWindow (s.clockReading 0) s.nextDelay s.mem.tr
  · rw [transmit_fits pin stats hfits]
    exact endsNormal_andThen (endsNormal_of_keeps (s := scheduled s) hs (configurePin_keeps_prio ..)) fun _ _ _ =>
      transmitFrom_endsNormal pin stats 0 _
  · rw [transmit_crosses pin stats hfits]
    exact .fatal hs

/-! ### The sequencer's stack (R29) -/

/-- A step that answers a next state leaves an operation under way, or the block at normal priority. -/
inductive GivesBack : Host.Outcome State Fault Refusal → Prop where
  | normal {t : State} (prio : t.prio = .normal) : GivesBack (.next t)
  | underWay {t : State} (busy : t.seq.busy = true) : GivesBack (.next t)
  | fault {f : Fault} : GivesBack (.fault f)
  | refused {r : Refusal} : GivesBack (.refused r)

theorem normal_of_givesBack {o : Host.Outcome State Fault Refusal} {t : State} (h : GivesBack o) (hn : o = .next t)
    (hidle : t.seq.busy = false) : t.prio = .normal := by
  subst hn
  cases h with
  | normal hprio => exact hprio
  | underWay hbusy => exact absurd hbusy (by rw [hidle]; exact Bool.false_ne_true)

/-- One entry and then the entries below it. -/
theorem runTasks_cons_givesBack {k : Task} {rest : List Task} {s : State} (h : EndsNormal (runTask k s))
    (htail : ∀ t, t.prio = .normal → GivesBack (runTasks rest t)) : GivesBack (runTasks (k :: rest) s) := by
  rw [runTasks]
  cases hx : runTask k s <;> rw [hx] at h <;> cases h
  case done hprio => exact htail _ hprio
  case fatal hprio => exact .normal hprio
  case wait => exact .underWay rfl
  case fault => exact .fault
  case refused => exact .refused

theorem runTask_endsNormal (k : Task) {s : State} (hs : s.prio = .normal) : EndsNormal (runTask k s) := by
  cases k with
  | avoidClockWrap m => exact endsNormal_of_keeps hs (avoidClockWrap_keeps_prio m s)
  | sample pin c tr v => exact sample_endsNormal pin c tr v hs
  | samplePoll pin => exact samplePoll_endsNormal pin s
  | transmit pin st => exact transmit_endsNormal pin st hs
  | transmitWait pin st => exact transmitFrom_endsNormal pin st _ s
  | traceWrite path flank => exact endsNormal_of_keeps hs (traceWrite_keeps_prio path flank s)
  | traceRead path => exact endsNormal_of_keeps hs (traceRead_keeps_prio path s)
  | hexParse hex => exact endsNormal_of_keeps hs (hexParse_keeps_prio hex s)
  | encode => exact endsNormal_of_keeps hs (encodePayload_keeps_prio s)
  | decode => exact endsNormal_of_keeps hs (decodeTrace_keeps_prio s)
  | reportDecoded m => exact .done hs
  | complete m => exact .done hs

theorem runTasks_givesBack (ts : List Task) {s : State} (hs : s.prio = .normal) : GivesBack (runTasks ts s) := by
  induction ts generalizing s with
  | nil => exact .normal hs
  | cons k rest ih => exact runTasks_cons_givesBack (runTask_endsNormal k hs) fun t => ih

/-- A TRANSMIT that waits gives the priority back from wherever it stands, and its callers keep it. -/
theorem runTasks_transmitWait_givesBack (pin : Nat) (stats : Bool) (rest : List Task) (s : State) :
    GivesBack (runTasks (.transmitWait pin stats :: rest) s) :=
  runTasks_cons_givesBack (transmitFrom_endsNormal pin stats s.wr.i s) fun _ => runTasks_givesBack rest

/-! ### The commands -/

theorem outcome_givesBack {x : Act Unit} (h : EndsNormal x) : GivesBack x.outcome := by
  cases h with
  | done hprio => exact .normal hprio
  | fatal hprio => exact .normal hprio
  | wait => exact .underWay rfl
  | fault => exact .fault
  | refused => exact .refused

/-- An operation that leaves the priority alone. -/
theorem keeps_givesBack {x : Act Unit} {s : State} (hs : s.prio = .normal) (h : Keeps State.prio s x) :
    GivesBack x.outcome :=
  outcome_givesBack (endsNormal_of_keeps hs h)

theorem runMode_givesBack (tasks : List Task) {s : State} (hs : s.prio = .normal) : GivesBack (runMode tasks s) := by
  rcases runMode_cases tasks s with ⟨_, h⟩ | ⟨_, _, h⟩ | ⟨_, _, _, h⟩ <;> rw [h]
  · exact .normal hs
  · exact .normal hs
  · exact runTasks_givesBack tasks hs

theorem execModeSample_givesBack {s : State} (hs : s.prio = .normal) : GivesBack (execModeSample s) := by
  unfold execModeSample
  split
  · split
    · exact .normal hs
    · exact runMode_givesBack _ hs
  · exact .normal hs

theorem execModeSendHex_givesBack {s : State} (hs : s.prio = .normal) : GivesBack (execModeSendHex s) := by
  unfold execModeSendHex
  split
  · split
    · exact .normal hs
    · exact runMode_givesBack _ hs
  · exact .normal hs

theorem execModeReplayFile_givesBack {s : State} (hs : s.prio = .normal) : GivesBack (execModeReplayFile s) := by
  unfold execModeReplayFile
  split
  · split
    · exact .normal hs
    · exact runMode_givesBack _ hs
  · exact .normal hs

theorem execExtractBits_givesBack {s : State} (hs : s.prio = .normal) : GivesBack (execExtractBits s) := by
  unfold execExtractBits
  simp only
  refine keeps_givesBack hs ?_
  split <;> exact ⟨rfl⟩

theorem execBurst_givesBack {s : State} (hs : s.prio = .normal) : GivesBack (execBurst s) := by
  rw [execBurst]
  split
  · exact keeps_givesBack hs (burst_keeps_prio _ _ s)
  · exact .refused

/-- Every command but RAISE_PRIORITY, from normal priority. -/
theorem exec_givesBack {i : Instr} {s : State} (hi : i.op ≠ .raisePriority) (hs : s.prio = .normal) :
    GivesBack (exec i s) := by
  cases i with
  | configurePin f => exact keeps_givesBack hs (configurePin_keeps_prio ..)
  | readPin f => exact keeps_givesBack hs (keeps_andThen (readPin_keeps_prio s.opnd.pin s) fun _ _ => ⟨rfl⟩)
  | writePin f => exact keeps_givesBack hs (writePin_keeps_prio ..)
  | nowMicros f => exact .normal hs
  | raisePriority f => exact absurd rfl hi
  | restorePriority f => exact .normal rfl
  | avoidClockWrap f => exact keeps_givesBack hs (avoidClockWrap_keeps_prio ..)
  | compact f => exact .normal hs
  | traceWrite f => exact keeps_givesBack hs (traceWrite_keeps_prio ..)
  | traceRead f => exact keeps_givesBack hs (traceRead_keeps_prio ..)
  | sample f => exact outcome_givesBack (sample_endsNormal _ _ _ _ hs)
  | transmit f => exact outcome_givesBack (transmit_endsNormal _ _ hs)
  | flatten f => exact .normal hs
  | extractBits f => exact execExtractBits_givesBack hs
  | checksum f => exact .normal ((checksum_reports _ 0 s).prio.trans hs)
  | decode f => exact keeps_givesBack hs (decodeTrace_keeps_prio s)
  | hexParse f => exact keeps_givesBack hs (hexParse_keeps_prio ..)
  | burst f => exact execBurst_givesBack hs
  | encode f => exact keeps_givesBack (x := encodePayload s) hs (encodePayload_keeps_prio s)
  | modeSample f => exact execModeSample_givesBack hs
  | modeSendHex f => exact execModeSendHex_givesBack hs
  | modeReplayFile f => exact execModeReplayFile_givesBack hs

/-! ### A TRANSMIT that waits, on a fair clock (R94, R152) -/

/-- On a fair clock there is a first read, from number `j` on, that has reached the value `v`. -/
theorem exists_first_due {c : U32} {advance : Nat → Nat} (hfair : FairClock c advance) (v : U32) (j : Nat) :
    ∃ d, j ≤ d ∧ v.toNat ≤ (clockAfter c advance d).toNat
      ∧ ∀ k, j ≤ k → k < d → (clockAfter c advance k).toNat < v.toNat := by
  have hex := hfair.reaches v j
  obtain ⟨hjd, hdue⟩ := Nat.find_spec hex
  exact ⟨Nat.find hex, hjd, hdue, fun k hjk hk => Nat.lt_of_not_le fun hle => Nat.find_min hex hk ⟨hjk, hle⟩⟩

/-- On a fair clock scripted for long enough every wait of a schedule ends. -/
theorem fair_waitsEnd {s : State} {advance : Nat → Nat} (hfair : FairClock s.clk advance) (extra : Nat)
    (xs : List Sample) (j : Nat) : ∃ m ds, ∀ n, m ≤ n → (s.onClock n advance).waitsEnd extra j xs ds := by
  induction xs generalizing j with
  | nil => exact ⟨0, [], fun _ _ => trivial⟩
  | cons x xs ih =>
    obtain ⟨d, hjd, hdue, hbefore⟩ := exists_first_due hfair x.t j
    obtain ⟨m, ds, hrest⟩ := ih (d + 1 + extra)
    refine ⟨max m (d + 1), d :: ds, fun n hn => ?_⟩
    have hmn : m ≤ n := (Nat.le_max_left m (d + 1)).trans hn
    have hdn : d < n := (Nat.le_max_right m (d + 1)).trans hn
    have hread : ∀ k ≤ d, (s.onClock n advance).clockReading k = clockAfter s.clk advance k :=
      fun k hk => clockReading_onClock n advance s k (hk.trans_lt hdn)
    refine ⟨hjd, by simpa using hdn.le, fun k hjk hk => ?_, ?_, hrest n hmn⟩
    · rw [hread k hk.le]
      exact hbefore k hjk hk
    · rw [hread d le_rfl]
      exact hdue

/-- A transmission that goes on from a wait and came to its end, with the edges `xs` written. -/
structure SentRest (s t : State) (xs : List Sample) : Prop where
  prio : t.prio = .normal
  err : t.err = s.err
  wlog : t.wlog.length = s.wlog.length + xs.length

theorem transmitWait_completes_unmeasured {pin : Nat} {s : State} {ds : List Nat}
    (hpoll : s.polling (.transmitWait pin false)) (hwaits : s.waitsEnd 0 0 (s.mem.tr.drop s.wr.i) ds) :
    ∃ t, transmitWait pin false s = .done () t ∧ SentRest s t (s.mem.tr.drop s.wr.i) := by
  obtain ⟨hv, hdir, -⟩ := hpoll
  obtain ⟨t, ht, hteq, -⟩ := emit_writes pin (s.mem.tr.drop s.wr.i) s.wr.i s ds hv hdir hwaits
  refine ⟨t.setPrio .normal, by rw [transmitWait, transmitFrom, ht]; rfl, ?_⟩
  rw [hteq]
  refine ⟨rfl, rfl, ?_⟩
  rw [setPrio_wlog, List.length_append, writesAt_length, waitsEnd_length _ _ _ hwaits, Nat.min_self]

/-- With statistics every edge gets its observed value, so that step 7 ends too. -/
theorem transmitWait_completes_measured {pin : Nat} {s : State} {ds : List Nat} (hs : Sound s)
    (hpoll : s.polling (.transmitWait pin true)) (hwaits : s.waitsEnd 1 0 (s.mem.tr.drop s.wr.i) ds) :
    ∃ t, transmitWait pin true s = .done () t ∧ SentRest s t (s.mem.tr.drop s.wr.i) := by
  obtain ⟨hv, hdir, -, hi, hobs⟩ := hpoll
  have hcount : s.mem.obs.length + (s.mem.tr.drop s.wr.i).length = s.mem.tr.length := by
    rw [hobs rfl, List.length_drop]
    omega
  have hlen := waitsEnd_length _ _ _ hwaits
  obtain ⟨t, ht, hteq, -⟩ := emit_observes pin (s.mem.tr.drop s.wr.i) s.wr.i s ds hv hdir
    (hcount.trans_le (sound_tr hs)) hwaits
  have hall : (t.setPrio .normal).mem.obs.length = (t.setPrio .normal).mem.tr.length := by
    rw [hteq]
    show (s.mem.obs ++ ds.map _).length = s.mem.tr.length
    rw [List.length_append, List.length_map, hlen, hcount]
  obtain ⟨w, st, rs, hstat⟩ := statistics_completes hall
  refine ⟨_, by rw [transmitWait, transmitFrom, ht]; exact hstat, ?_⟩
  rw [hteq]
  refine ⟨rfl, rfl, ?_⟩
  rw [setPrio_wlog, List.length_append, writesAt_length, List.length_map, hlen, Nat.min_self]

/-- A TRANSMIT that waits, each of whose waits ends, comes to its end. -/
theorem transmitWait_completes {pin : Nat} {stats : Bool} {s : State} {ds : List Nat} (hs : Sound s)
    (hpoll : s.polling (.transmitWait pin stats))
    (hwaits : s.waitsEnd stats.toNat 0 (s.mem.tr.drop s.wr.i) ds) :
    ∃ t, transmitWait pin stats s = .done () t ∧ SentRest s t (s.mem.tr.drop s.wr.i) := by
  cases stats with
  | false => exact transmitWait_completes_unmeasured hpoll hwaits
  | true => exact transmitWait_completes_measured hs hpoll hwaits

/-- A block with the invariant that polls is as its poll left it. -/
theorem polling_of_inv {s : State} {k : Task} {op : Option Op} {phase : Nat} {rest : List Task} (h : s.Inv)
    (hseq : s.seq = { busy := true, op := op, phase := phase, todo := k :: rest }) : s.polling k := by
  rcases h.sequenced with hidle | ⟨j, below, hbusy, hpoll, -⟩
  · cases hseq.symm.trans hidle
  · cases hseq.symm.trans hbusy
    exact hpoll

/-- The clock is none of what soundness speaks of. -/
theorem sound_onClock {s : State} (n : Nat) (advance : Nat → Nat) (h : Sound s) : Sound (s.onClock n advance) :=
  sound_of_eq h rfl rfl rfl

/-- Settles O53: at a command by `exec_givesBack`; at a wait by the entry that waits, a TRANSMIT at whatever priority;
on a fair clock every wait of that TRANSMIT ends, and it comes to its end. -/
theorem priorityGivenBack : Obligations.PriorityGivenBack := by
  refine ⟨fun i s t hi hs hn => normal_of_givesBack (exec_givesBack hi hs) hn, fun s t hcmd hbusy hprio hn => ?_,
    fun s pin stats advance hinv hcmd hseq hfair => ?_⟩
  · rw [step_of_busy hcmd hbusy] at hn
    rcases hprio with hs | ⟨pin, stats, rest, htodo⟩
    · exact normal_of_givesBack (runTasks_givesBack _ hs) hn
    · rw [htodo] at hn
      exact normal_of_givesBack (runTasks_transmitWait_givesBack pin stats rest s) hn
  · have hcalm := calm_of_inv hinv (noError_of_busy hinv (by rw [hseq]))
    have hpoll : s.polling (.transmitWait pin stats) := polling_of_inv hinv hseq
    obtain ⟨n, ds, hwaits⟩ := fair_waitsEnd hfair stats.toNat (s.mem.tr.drop s.wr.i) 0
    obtain ⟨t, ht, hsent⟩ := transmitWait_completes (s := s.onClock n advance) (sound_onClock n advance hcalm.sound)
      hpoll (hwaits n le_rfl)
    refine ⟨n, t.finish, ?_, rfl, hsent.prio, hsent.err, hsent.wlog.trans (congrArg _ List.length_drop)⟩
    rw [step_of_busy (s := s.onClock n advance) hcmd (by rw [onClock_seq, hseq]), onClock_seq, hseq,
      runTasks_singleton, runTask, ht]
    rfl

end Sys2Proof.Proofs
end
